-- ==== Sys2Proof/Word.lean ====
section
/-! DEFINITION. The widths of the fields that memory records and panel frames hold (spec 00, 12). -/

namespace Sys2Proof

/-- One byte of a record, a burst or a panel frame. -/
abbrev Byte := BitVec 8

/-- A two-byte field of a record. -/
abbrev Half := BitVec 16

/-- A four-byte field of a record, and a byte address as a command gives it. -/
abbrev Word := BitVec 32

end Sys2Proof
end

