-- ==== Sys2Proof/Config.lean ====
section
/-! DEFINITION. What is fixed for a build of the gate: the numbers of the spec, and the free values
that the spec leaves to the build or does not state. -/

namespace Sys2Proof.Config

/-- R22: the command window is 640 bytes. -/
abbrev commandWindowSize : Nat := 640
/-- R22: the report window is 2 KiB. -/
abbrev reportWindowSize : Nat := 2048
/-- R11: entries of the presentation in-flight table. -/
abbrev presentationCapacity : Nat := 16
/-- R11: entries of the control in-flight table. -/
abbrev controlCapacity : Nat := 4
/-- R6: the largest presentation window, 256 MiB. -/
abbrev windowSizeMax : Nat := 268435456
/-- Addresses are 32-bit byte addresses (chapter 00). -/
abbrev addressSpace : Nat := 4294967296
/-- R91: entries of one override stack, SPENT entries included. -/
abbrev stackDepth : Nat := 4
/-- R50: a full day of viewing in quarters, the ceiling of R and C. -/
abbrev quartersPerDay : Nat := 345600
/-- Chapter 00: quarters in a minute of viewing at standard rate. -/
abbrev quartersPerMinute : Nat := 240
/-- Seconds of a day. -/
abbrev secondsPerDay : Nat := 86400
/-- R139: the value at which run seconds stays. -/
abbrev runSecondsMax : Nat := 4294967295
/-- R114: bytes of the pool that holds queued records. -/
abbrev poolSize : Nat := 4096
/-- R159: entries of the key FIFO. -/
abbrev keyFifoCapacity : Nat := 16
/-- R161: messages of the transmit queue. -/
abbrev transmitCapacity : Nat := 4
/-- R184: notices of the notice queue. -/
abbrev noticeCapacity : Nat := 32
/-- R172: the whole-entry limit in seconds. -/
abbrev wholeEntrySeconds : Nat := 90
/-- R172: the inter-key limit in seconds. -/
abbrev interKeySeconds : Nat := 15

/-- The revision in bytes 4 and 5 of the identification record. R183 says it is fixed at the build
and states no value: a free value (log 4). -/
opaque revision : Half

/-- What a two-byte day field holds when the local day is above 65,535, the largest the field can
state. The spec states no value there: a free value (log 5). -/
opaque dayBeyondField : Nat → Half

end Sys2Proof.Config
end

