-- ==== Sys2Proof/Syntax.lean ====
section
/-! DEFINITION. The commands of the gate: the host's records (`Command`, one constructor for each
code of section 12.3) and the rows of spec/opcode_table.json (`Instr`, one constructor for each). -/

namespace Sys2Proof

/-- The three rooms the gate serves (R24). -/
inductive Output where
  | primary | secondary | remote
  deriving DecidableEq, Repr

/-- The two lanes on which a read request can be held (R13). -/
inductive HoldingLane where
  | control | presentation
  deriving DecidableEq, Repr

/-- The status of a read response (R1). -/
inductive Status where
  | okay | memoryError
  deriving DecidableEq, Repr

/-- The twelve bits of a frame on a panel line, in the order they are sent (R153). -/
abbrev LineFrame := Vector Bool 12

/-- The three samples taken of one bit of a panel frame (R154). -/
structure Samples where
  first : Bool
  second : Bool
  third : Bool
  deriving DecidableEq, Repr

/-- The twelve bits of a frame candidate on the panel-to-gate line as they were sampled, in the
order they are sent (R153, R154). -/
structure WireFrame where
  start : Samples
  d0 : Samples
  d1 : Samples
  d2 : Samples
  d3 : Samples
  d4 : Samples
  d5 : Samples
  d6 : Samples
  d7 : Samples
  addressFlag : Samples
  parity : Samples
  stop : Samples
  deriving DecidableEq, Repr

/-- The error flags a received frame carries (R154). -/
structure FrameFlags where
  parity : Bool
  framing : Bool
  noise : Bool
  deriving DecidableEq, Repr

/-- A frame as the receiver takes it: its data, its address flag and its error flags (R154). -/
structure ReceivedFrame where
  value : Byte
  address : Bool
  flags : FrameFlags
  deriving DecidableEq, Repr

/-- The name of a service (R123): network, stream and service numbers. -/
structure ServiceKey where
  network : Half
  stream : Half
  service : Half
  deriving DecidableEq, Repr

/-- One piece of the work of a second event (R139). The spec puts these in no order, so a second
event carries the order in which they are taken (log 6). -/
inductive SecondWork where
  /-- R150: the profile-day comparison, with any advance it raises. -/
  | dayComparison
  /-- R53: the accounting's sample. -/
  | sample
  /-- R41: the evaluation of one output, if it is supervised. -/
  | evaluation (o : Output)
  /-- R131, R132: the promotion test of one rating slot. -/
  | promotion (slot : Fin 64)
  /-- R99: the test of the UNTIL_TIME ends of one stack. -/
  | untilTimeExpiry (o : Output)
  /-- R36: the pending limit of one output. -/
  | pendingLimitExpiry (o : Output)
  /-- R174: the end of the parent session. -/
  | sessionExpiry
  /-- R173: the end of the lockout. -/
  | lockoutExpiry
  /-- R172: the whole-entry limit. -/
  | wholeEntryLimit
  /-- R172: the inter-key limit. -/
  | interKeyLimit
  deriving DecidableEq, Repr

/-- A host command as its 32-byte record holds it (section 12.3): the header selectors and the
operands that the command uses, each at its own width, with no value excluded. -/
inductive Command where
  | null
  | bindService (output : Byte) (unbind : Bool) (network stream service : Half)
  | bindProfile (output profile : Byte)
  | declarePlayback (stream service eventId : Half) (cls age flags genre : Byte)
  | setProfileLimits (profile ceilingKind age blockMask unrated scheme absent pendingLimit : Byte)
  | setProfileTime (profile : Byte) (allowance carryCap lead : Half) (rate0 rate1 rate2 rate3 : Byte)
  | setCurfew (profile slot : Byte) (clear : Bool) (days : Byte) (startMinute endMinute : Half)
  | setProfileState (profile state : Byte)
  | exportProfile (profile : Byte)
  | importProfile (profile : Byte)
  | grantTime (profile : Byte) (minutes : Half)
  | pushOverride (output kind scope : Byte) (endDay : Half) (endSecond : Word)
  | popOverride (output : Byte)
  | clearOverrides (output : Byte)
  | setTime (day : Half) (second offset : Word)
  | setDayStart (minute : Half)
  | setWindow (output kind : Byte) (base size fill : Word)
  | setSectionWindow (number : Byte) (base size : Word)
  | setIntakeLevels (halt resume : Byte)
  | commitLayout
  | setScheme (scheme : Byte) (ages : Vector Byte 16)
  | openPinEntry (output profile purpose stagedKind : Byte) (minutes : Half)
      (kind scope : Byte) (endDay : Half) (endSecond : Word)
  | closeSession
  | setSessionLength (seconds : Half)
  | setPanelAddresses (listener panel : Byte)
  | factoryClear
  | selectView (kind number : Byte) (network stream service : Half)
  | setNoticeMask (mask : Word)
  | setAttention (level urgent : Byte)
  deriving DecidableEq, Repr

/-- The rows of spec/opcode_table.json. A burst's bytes are paired with their enables (R1). -/
inductive Instr where
  | streamWriteBurst (start : Word) (bytes : List (Byte × Bool))
  | streamReadBurst (tag : Nat) (start : Word) (status : Status) (data : List Byte)
  | parseCompletion
  | controlWriteBurst (start : Word) (bytes : List (Byte × Bool))
  | controlReadRequest (tag : Nat) (start : Word) (count : Nat)
  | controlReadResponse (mark : Option Nat) (tag : Nat) (status : Status) (data : List Byte)
  | noticePortRead (mark : Nat) (data : List Byte)
  | summaryRead (mark : Nat) (data : List Byte)
  | presentationReadRequest (tag : Nat) (start : Word) (count : Nat)
  | heldRequestArrival (lane : HoldingLane)
  | presentationWriteBurst (start : Word) (bytes : List (Byte × Bool))
  | presentationResponse (tag : Nat) (status : Status) (data : List Byte)
  | coldReset
  | warmReset
  | warmResetRelease
  | secondEvent (order : List SecondWork)
  | promotion (slot : Fin 64)
  | untilTimeExpiry (o : Output)
  | pendingLimitExpiry (o : Output)
  | sessionExpiry
  | lockoutExpiry
  | wholeEntryLimit
  | interKeyLimit
  | exportCompletion
  | importCompletion
  | addressFrame (frame : WireFrame)
  | keyFrame (frame : WireFrame)
  | panelAnswer (frame : WireFrame)
  | lock (frame : WireFrame)
  | lineBreak
  | faultRecovery
  | transmitStart
  | messageSent
  | acknowledgementTimeout
  | keyTaken
  | nullCommand
  | bindService (output : Byte) (network stream service : Half)
  | unbindService (output : Byte)
  | bindProfile (output profile : Byte)
  | declarePlayback (stream service eventId : Half) (cls age flags genre : Byte)
  | setProfileLimits (profile ceilingKind age blockMask unrated scheme absent pendingLimit : Byte)
  | setProfileTime (profile : Byte) (allowance carryCap lead : Half) (rate0 rate1 rate2 rate3 : Byte)
  | setCurfew (profile slot days : Byte) (startMinute endMinute : Half)
  | curfewClear (profile slot : Byte)
  | setProfileState (profile state : Byte)
  | exportProfile (profile : Byte)
  | importProfile (profile : Byte)
  | grantTime (profile : Byte) (minutes : Half)
  | pushOverride (output kind scope : Byte) (endDay : Half) (endSecond : Word)
  | popOverride (output : Byte)
  | clearOverrides (output : Byte)
  | setTime (day : Half) (second offset : Word)
  | setDayStart (minute : Half)
  | setWindow (output kind : Byte) (base size fill : Word)
  | setSectionWindow (number : Byte) (base size : Word)
  | setIntakeLevels (halt resume : Byte)
  | commitLayout
  | setScheme (scheme : Byte) (ages : Vector Byte 16)
  | openSessionEntry
  | openGrantEntry (output profile stagedKind : Byte) (minutes : Half) (kind scope : Byte)
      (endDay : Half) (endSecond : Word)
  | openPinChangeEntry
  | closeSession
  | setSessionLength (seconds : Half)
  | setPanelAddresses (listener panel : Byte)
  | factoryClear
  | selectView (kind number : Byte) (network stream service : Half)
  | setNoticeMask (mask : Word)
  | setAttention (level urgent : Byte)
  | dataFrameDropped (frame : WireFrame)
  | answerAwaitingEcho (frame : WireFrame)
  deriving DecidableEq, Repr

end Sys2Proof
end

