-- ==== Sys2Proof/Decode.lean ====
section
/-! DEFINITION. Reading bits: byte order (R187), the command record of section 12.3 in both
directions, the panel frame of R153 and R154, and the host's `decodeTableWord`. -/

namespace Sys2Proof

/-! ### Byte order (R187: multi-byte fields are little-endian) -/

/-- The two-byte field whose bytes, in memory order, are `b0` and `b1`. -/
def le16 (b0 b1 : Byte) : Half := b1 ++ b0

/-- The four-byte field whose bytes, in memory order, are `b0` to `b3`. -/
def le32 (b0 b1 b2 b3 : Byte) : Word := (b3 ++ b2) ++ (b1 ++ b0)

/-- A two-byte field in memory order. -/
def bytes16 (x : Half) : List Byte := [x.extractLsb' 0 8, x.extractLsb' 8 8]

/-- A four-byte field in memory order. -/
def bytes32 (x : Word) : List Byte :=
  [x.extractLsb' 0 8, x.extractLsb' 8 8, x.extractLsb' 16 8, x.extractLsb' 24 8]

/-- A number as a one-byte field. -/
def nat8 (n : Nat) : List Byte := [BitVec.ofNat 8 n]

/-- A number as a two-byte field. -/
def nat16 (n : Nat) : List Byte := bytes16 (BitVec.ofNat 16 n)

/-- A number as a four-byte field. -/
def nat32 (n : Nat) : List Byte := bytes32 (BitVec.ofNat 32 n)

/-- The byte at an offset of a record. -/
def byteAt (r : List Byte) (i : Nat) : Byte := r.getD i 0

/-- The two-byte field at an offset of a record. -/
def halfAt (r : List Byte) (i : Nat) : Half := le16 (byteAt r i) (byteAt r (i + 1))

/-- The four-byte field at an offset of a record. -/
def wordAt (r : List Byte) (i : Nat) : Word :=
  le32 (byteAt r i) (byteAt r (i + 1)) (byteAt r (i + 2)) (byteAt r (i + 3))

/-- A flag as the byte that holds it in bit 0. -/
def flagByte (b : Bool) : Byte := if b then 1 else 0

/-! ### The command record (section 12.3) -/

/-- The command a 32-byte record holds, by its code; none for a code that names no command (R180).
Reserved bytes and bits, and the selectors a command does not use, are not examined (R188). -/
def Command.decode (r : List Byte) : Option Command :=
  match (byteAt r 0).toNat with
  | 0x00 => some .null
  | 0x01 => some (.bindService (byteAt r 2) ((byteAt r 4).getLsbD 0) (halfAt r 6) (halfAt r 8) (halfAt r 10))
  | 0x02 => some (.bindProfile (byteAt r 2) (byteAt r 3))
  | 0x03 => some (.declarePlayback (halfAt r 4) (halfAt r 6) (halfAt r 8)
      (byteAt r 10) (byteAt r 11) (byteAt r 12) (byteAt r 13))
  | 0x10 => some (.setProfileLimits (byteAt r 3) (byteAt r 4) (byteAt r 5) (byteAt r 6)
      (byteAt r 7) (byteAt r 8) (byteAt r 9) (byteAt r 10))
  | 0x11 => some (.setProfileTime (byteAt r 3) (halfAt r 4) (halfAt r 6) (halfAt r 8)
      (byteAt r 10) (byteAt r 11) (byteAt r 12) (byteAt r 13))
  | 0x12 => some (.setCurfew (byteAt r 3) (byteAt r 4) ((byteAt r 5).getLsbD 0) (byteAt r 6)
      (halfAt r 8) (halfAt r 10))
  | 0x13 => some (.setProfileState (byteAt r 3) (byteAt r 4))
  | 0x14 => some (.exportProfile (byteAt r 3))
  | 0x15 => some (.importProfile (byteAt r 3))
  | 0x18 => some (.grantTime (byteAt r 3) (halfAt r 4))
  | 0x20 => some (.pushOverride (byteAt r 2) (byteAt r 4) (byteAt r 5) (halfAt r 6) (wordAt r 8))
  | 0x21 => some (.popOverride (byteAt r 2))
  | 0x22 => some (.clearOverrides (byteAt r 2))
  | 0x28 => some (.setTime (halfAt r 4) (wordAt r 8) (wordAt r 12))
  | 0x29 => some (.setDayStart (halfAt r 4))
  | 0x30 => some (.setWindow (byteAt r 2) (byteAt r 4) (wordAt r 8) (wordAt r 12) (wordAt r 16))
  | 0x31 => some (.setSectionWindow (byteAt r 4) (wordAt r 8) (wordAt r 12))
  | 0x32 => some (.setIntakeLevels (byteAt r 4) (byteAt r 5))
  | 0x33 => some .commitLayout
  | 0x38 => some (.setScheme (byteAt r 4) #v[byteAt r 5, byteAt r 6, byteAt r 7, byteAt r 8,
      byteAt r 9, byteAt r 10, byteAt r 11, byteAt r 12, byteAt r 13, byteAt r 14, byteAt r 15,
      byteAt r 16, byteAt r 17, byteAt r 18, byteAt r 19, byteAt r 20])
  | 0x40 => some (.openPinEntry (byteAt r 2) (byteAt r 3) (byteAt r 4) (byteAt r 5) (halfAt r 6)
      (byteAt r 8) (byteAt r 9) (halfAt r 10) (wordAt r 12))
  | 0x41 => some .closeSession
  | 0x42 => some (.setSessionLength (halfAt r 4))
  | 0x43 => some (.setPanelAddresses (byteAt r 4) (byteAt r 5))
  | 0x48 => some .factoryClear
  | 0x50 => some (.selectView (byteAt r 4) (byteAt r 5) (halfAt r 6) (halfAt r 8) (halfAt r 10))
  | 0x51 => some (.setNoticeMask (wordAt r 4))
  | 0x52 => some (.setAttention (byteAt r 4) (byteAt r 5))
  | _ => none

/-- A 32-byte record: header (code, toggle, selectors) and operands, zeros after them. -/
def commandRecord (code : Byte) (toggle : Bool) (output profile : Byte) (operands : List Byte) :
    List Byte :=
  [code, flagByte toggle, output, profile] ++ operands ++ List.replicate (28 - operands.length) 0

/-- The record of a command, with its reserved bytes zero (section 12.3). -/
def Command.encode (c : Command) (toggle : Bool) : List Byte :=
  match c with
  | .null => commandRecord 0x00 toggle 0 0 []
  | .bindService o unbind n st sv =>
      commandRecord 0x01 toggle o 0 ([flagByte unbind, 0] ++ bytes16 n ++ bytes16 st ++ bytes16 sv)
  | .bindProfile o p => commandRecord 0x02 toggle o p []
  | .declarePlayback st sv ev cls age flags genre =>
      commandRecord 0x03 toggle 0 0 (bytes16 st ++ bytes16 sv ++ bytes16 ev ++ [cls, age, flags, genre])
  | .setProfileLimits p kind age mask unrated scheme absent limit =>
      commandRecord 0x10 toggle 0 p [kind, age, mask, unrated, scheme, absent, limit]
  | .setProfileTime p a k lead r0 r1 r2 r3 =>
      commandRecord 0x11 toggle 0 p (bytes16 a ++ bytes16 k ++ bytes16 lead ++ [r0, r1, r2, r3])
  | .setCurfew p slot clear days s e =>
      commandRecord 0x12 toggle 0 p ([slot, flagByte clear, days, 0] ++ bytes16 s ++ bytes16 e)
  | .setProfileState p state => commandRecord 0x13 toggle 0 p [state]
  | .exportProfile p => commandRecord 0x14 toggle 0 p []
  | .importProfile p => commandRecord 0x15 toggle 0 p []
  | .grantTime p m => commandRecord 0x18 toggle 0 p (bytes16 m)
  | .pushOverride o kind scope day second =>
      commandRecord 0x20 toggle o 0 ([kind, scope] ++ bytes16 day ++ bytes32 second)
  | .popOverride o => commandRecord 0x21 toggle o 0 []
  | .clearOverrides o => commandRecord 0x22 toggle o 0 []
  | .setTime day second offset =>
      commandRecord 0x28 toggle 0 0 (bytes16 day ++ [0, 0] ++ bytes32 second ++ bytes32 offset)
  | .setDayStart m => commandRecord 0x29 toggle 0 0 (bytes16 m)
  | .setWindow o kind base size fill =>
      commandRecord 0x30 toggle o 0 ([kind, 0, 0, 0] ++ bytes32 base ++ bytes32 size ++ bytes32 fill)
  | .setSectionWindow number base size =>
      commandRecord 0x31 toggle 0 0 ([number, 0, 0, 0] ++ bytes32 base ++ bytes32 size)
  | .setIntakeLevels h l => commandRecord 0x32 toggle 0 0 [h, l]
  | .commitLayout => commandRecord 0x33 toggle 0 0 []
  | .setScheme m ages => commandRecord 0x38 toggle 0 0 [m, ages[0], ages[1], ages[2], ages[3],
      ages[4], ages[5], ages[6], ages[7], ages[8], ages[9], ages[10], ages[11], ages[12],
      ages[13], ages[14], ages[15]]
  | .openPinEntry o p purpose staged m kind scope day second =>
      commandRecord 0x40 toggle o p
        ([purpose, staged] ++ bytes16 m ++ [kind, scope] ++ bytes16 day ++ bytes32 second)
  | .closeSession => commandRecord 0x41 toggle 0 0 []
  | .setSessionLength s => commandRecord 0x42 toggle 0 0 (bytes16 s)
  | .setPanelAddresses l p => commandRecord 0x43 toggle 0 0 [l, p]
  | .factoryClear => commandRecord 0x48 toggle 0 0 []
  | .selectView kind number n st sv =>
      commandRecord 0x50 toggle 0 0 ([kind, number] ++ bytes16 n ++ bytes16 st ++ bytes16 sv)
  | .setNoticeMask m => commandRecord 0x51 toggle 0 0 (bytes32 m)
  | .setAttention l u => commandRecord 0x52 toggle 0 0 [l, u]

/-! ### The panel frame (R153, R154) -/

/-- R154: a bit takes the value that at least two of its three samples give. -/
def Samples.value (s : Samples) : Bool := (s.first && s.second) || (s.first && s.third) || (s.second && s.third)

/-- R154: the three samples were not all equal. -/
def Samples.unequal (s : Samples) : Bool := s.first != s.second || s.second != s.third

/-- The eight data bits as decided, the least significant first (R153). -/
def WireFrame.data (w : WireFrame) : Byte :=
  BitVec.ofNat 8 (w.d0.value.toNat + 2 * w.d1.value.toNat + 4 * w.d2.value.toNat + 8 * w.d3.value.toNat
    + 16 * w.d4.value.toNat + 32 * w.d5.value.toNat + 64 * w.d6.value.toNat + 128 * w.d7.value.toNat)

/-- R154: the samples of some bit of the frame were not all equal. -/
def WireFrame.noisy (w : WireFrame) : Bool :=
  w.start.unequal || w.d0.unequal || w.d1.unequal || w.d2.unequal || w.d3.unequal || w.d4.unequal
    || w.d5.unequal || w.d6.unequal || w.d7.unequal || w.addressFlag.unequal || w.parity.unequal
    || w.stop.unequal

/-- R154: the data bits, the address flag and the parity bit, as decided, hold an odd number of ones. -/
def WireFrame.odd (w : WireFrame) : Bool :=
  w.d0.value ^^ w.d1.value ^^ w.d2.value ^^ w.d3.value ^^ w.d4.value ^^ w.d5.value ^^ w.d6.value
    ^^ w.d7.value ^^ w.addressFlag.value ^^ w.parity.value

/-- R154: the frame a candidate gives; none for a false start, whose start bit is decided high. -/
def WireFrame.received (w : WireFrame) : Option ReceivedFrame :=
  if w.start.value then none
  else some ⟨w.data, w.addressFlag.value, ⟨w.odd, !w.stop.value, w.noisy⟩⟩

/-- Whether any error flag is set. -/
def FrameFlags.any (f : FrameFlags) : Bool := f.parity || f.framing || f.noise

/-- R187: a set of panel error flags as a byte, OVERRUN in bit 3. -/
def FrameFlags.code (f : FrameFlags) (overrun : Bool) : Byte :=
  BitVec.ofNat 8 (f.parity.toNat + 2 * f.framing.toNat + 4 * f.noise.toNat + 8 * overrun.toNat)

/-- R153: the parity bit of a frame, which makes the ones among data bits, address flag and parity bit
even in number. -/
def parityBit (value : Byte) (address : Bool) : Bool :=
  value.getLsbD 0 ^^ value.getLsbD 1 ^^ value.getLsbD 2 ^^ value.getLsbD 3 ^^ value.getLsbD 4
    ^^ value.getLsbD 5 ^^ value.getLsbD 6 ^^ value.getLsbD 7 ^^ address

/-- R153: the frame of a byte with its address flag, as a sender shapes it: the start bit low, the data
bits with the least significant first, the address flag, the parity bit, the stop bit high. -/
def lineFrame (value : Byte) (address : Bool) : LineFrame :=
  #v[false, value.getLsbD 0, value.getLsbD 1, value.getLsbD 2, value.getLsbD 3, value.getLsbD 4,
    value.getLsbD 5, value.getLsbD 6, value.getLsbD 7, address, parityBit value address, true]

/-- One bit sampled three times alike. -/
def Samples.clean (b : Bool) : Samples := ⟨b, b, b⟩

/-- A frame as a receiver samples it on a line without noise. -/
def LineFrame.sampled (f : LineFrame) : WireFrame :=
  { start := .clean f[0], d0 := .clean f[1], d1 := .clean f[2], d2 := .clean f[3], d3 := .clean f[4]
    d4 := .clean f[5], d5 := .clean f[6], d6 := .clean f[7], d7 := .clean f[8]
    addressFlag := .clean f[9], parity := .clean f[10], stop := .clean f[11] }

/-- R153: the frame of a byte with its address flag, sampled without noise. -/
def WireFrame.clean (value : Byte) (address : Bool) : WireFrame := (lineFrame value address).sampled

/-! ### The host's decoder -/

/-- No row of spec/opcode_table.json gives bits, so no word spells a command. -/
def decodeTableWord (_nbits _w : Nat) : Option Instr := none

end Sys2Proof
end

