-- ==== Sys2Proof/Machine/State.lean ====
section
/-! DEFINITION. Everything the spec gives the gate to hold, block by block in the order of its
chapters, as plain data, and its value after a cold reset. -/

namespace Sys2Proof.Machine

open Sys2Proof

/-- One value for each output. -/
structure PerOutput (α : Type) where
  primary : α
  secondary : α
  remote : α
  deriving DecidableEq, Repr

/-! ### Integration inputs (R22, R23) -/

/-- The strap values of the panel bit rate (R22). -/
inductive BitRate where
  | b9600 | b19200 | b38400 | b57600
  deriving DecidableEq, Repr

/-- The straps and the fuses: fixed for the life of the build, written by no command (log 3). -/
structure Inputs where
  /-- Byte address of the 640-byte command window. -/
  commandBase : Nat
  /-- Byte address of the 2 KiB report window. -/
  reportBase : Nat
  bitRate : BitRate
  /-- The device salt, 64 bits held in fuses (R23). -/
  salt : BitVec 64
  deriving DecidableEq, Repr

/-! ### The lanes (chapter 1) -/

inductive WindowKind where
  | picture | sound
  deriving DecidableEq, Repr

/-- R6: a presentation window. UNSET holds zeros. -/
structure Window where
  set : Bool
  base : Nat
  size : Nat
  fill : Word
  deriving DecidableEq, Repr

/-- The two windows of one output. -/
structure WindowPair where
  picture : Window
  sound : Window
  deriving DecidableEq, Repr

/-- R9: the layout state, OPEN or COMMITTED. -/
inductive LayoutState where
  | opened | committed
  deriving DecidableEq, Repr

/-- R11: the marking of a segment: none, a presentation window with the fill word it held at the
request's arrival, or REPORT. -/
inductive Marking where
  | none
  | window (output : Output) (kind : WindowKind) (fill : Word)
  | report
  deriving DecidableEq, Repr

/-- R12: a maximal run of consecutive bytes that lie in one window or in none. -/
structure Segment where
  start : Nat
  count : Nat
  marking : Marking
  deriving DecidableEq, Repr

/-- R11: an entry of an in-flight table. The mark names it in the tag of a control-lane read (R4);
the presentation lane does not use it. -/
structure InFlight where
  tag : Nat
  mark : Nat
  start : Nat
  count : Nat
  segments : List Segment
  deriving DecidableEq, Repr

/-- A read request presented on a lane (R1). -/
structure ReadRequest where
  tag : Nat
  start : Nat
  count : Nat
  deriving DecidableEq, Repr

inductive Lane where
  | stream | control | presentation
  deriving DecidableEq, Repr

/-- A transfer the gate puts out: a burst presented to memory, or a response returned to its
initiator (R1). The model's own record of them (log 13). -/
inductive LaneOut where
  | writeToMemory (lane : Lane) (start : Nat) (bytes : List (Byte × Bool))
  | readToMemory (lane : Lane) (tag : Nat) (mark : Option Nat) (start count : Nat)
  | response (lane : Lane) (tag : Nat) (status : Status) (data : List Byte)
  deriving DecidableEq, Repr

structure Lanes where
  /-- R6: the six presentation windows. -/
  windows : PerOutput WindowPair
  /-- R9. -/
  layout : LayoutState
  /-- R11: the presentation in-flight table, oldest first. -/
  presentation : List InFlight
  /-- R11: the control in-flight table, oldest first. -/
  control : List InFlight
  /-- R13: requests held on the presentation lane, oldest first. -/
  heldPresentation : List ReadRequest
  /-- R13: requests held on the control lane, oldest first. -/
  heldControl : List ReadRequest
  /-- The mark the next control entry is given (log 14). -/
  nextMark : Nat
  /-- R19: the activity flags. -/
  activity : PerOutput Bool
  /-- The transfers put out so far, oldest first (log 13). -/
  out : List LaneOut
  deriving DecidableEq, Repr

/-! ### Override stacks (chapter 5) and output contexts (chapter 2) -/

inductive OverrideKind where
  | allowEvent | allowService | curfewWaive | forceBlock
  deriving DecidableEq, Repr

inductive OverrideScope where
  | eventEnd | unbind | untilTime | pop
  deriving DecidableEq, Repr

inductive OverrideTag where
  | live | spent
  deriving DecidableEq, Repr

inductive OverrideOrigin where
  | session | staged
  deriving DecidableEq, Repr

/-- R89: an override entry. The end time is held as local seconds. -/
structure Override where
  kind : OverrideKind
  scope : OverrideScope
  subjectKey : Option ServiceKey
  subjectEvent : Option Half
  endTime : Option Nat
  tag : OverrideTag
  origin : OverrideOrigin
  deriving DecidableEq, Repr

/-- R25: the verdict. `opened` is OPEN. -/
inductive Verdict where
  | unsupervised | pending | opened | warning | blocked
  deriving DecidableEq, Repr

/-- R25: the reason. -/
inductive Reason where
  | none | pending | budgetNear | curfewNear | suspended | profileClosed | manual | curfew
  | timeUnknown | noService | rating | unrated | scheme | absent | descriptor | budget
  deriving DecidableEq, Repr

/-- R24: an output context. The stack is held top first. -/
structure OutputContext where
  profile : Option (Fin 8)
  service : Option (Fin 64)
  verdict : Verdict
  reason : Reason
  pendingSince : Nat
  stack : List Override
  deriving DecidableEq, Repr

/-! ### Profiles, accounts and the image unit (chapters 3 and 4) -/

inductive ProfileState where
  | empty | active | suspended
  deriving DecidableEq, Repr

/-- R71: AGE a, OPEN or CLOSED. -/
inductive Ceiling where
  | age (a : Nat)
  | opened
  | closed
  deriving DecidableEq, Repr

inductive Policy where
  | allow | block
  deriving DecidableEq, Repr

/-- R76: a curfew window: days mask (bits 0 to 6), start and end minute. -/
structure Curfew where
  days : Byte
  startMinute : Nat
  endMinute : Nat
  deriving DecidableEq, Repr

/-- R71: a profile record. `allowance` none is UNLIMITED, `budgetDay` none is UNSET. -/
structure Profile where
  state : ProfileState
  ceiling : Ceiling
  blockMask : Byte
  unrated : Policy
  scheme : Policy
  absent : Policy
  pendingLimit : Nat
  /-- A of R50. -/
  allowance : Option Nat
  /-- K of R50. -/
  carryCap : Nat
  lead : Nat
  /-- R50: the rates of genre classes 0 to 3. -/
  rates : Vector Nat 4
  /-- R71: curfew slots 0 to 2. -/
  curfews : Vector (Option Curfew) 3
  /-- R of R50. -/
  remaining : Nat
  /-- C of R50. -/
  charged : Nat
  /-- G of R50. -/
  granted : Nat
  /-- B of R50. -/
  budgetDay : Option Nat
  deriving DecidableEq, Repr

/-- R79: the operation state of the image unit. -/
inductive ImageOperation where
  | idle
  | exporting (source : Fin 8) (slot : Fin 16) (snapshot : Profile)
  | importing (target : Fin 8) (slot : Fin 16) (image : List Byte)
  deriving DecidableEq, Repr

structure ImageUnit where
  operation : ImageOperation
  /-- R79: the image of the last export to complete, or nothing. -/
  buffer : Option (List Byte)
  deriving DecidableEq, Repr

/-! ### The rating table (chapter 7) -/

inductive RatingClass where
  | aged (age : Nat)
  | unrated
  | unknownScheme
  | absent
  deriving DecidableEq, Repr

/-- R123: a rating record. -/
structure RatingRecord where
  cls : RatingClass
  flags : Byte
  genre : Fin 4
  deriving DecidableEq, Repr

/-- R123: an event record; a duration of 0 is open-ended. -/
structure Event where
  id : Half
  startDay : Nat
  startSecond : Nat
  duration : Nat
  rating : RatingRecord
  deriving DecidableEq, Repr

inductive EntrySource where
  | broadcast | declared
  deriving DecidableEq, Repr

/-- R123: the present event together with the present state, which is NONE exactly while the event
is absent. -/
inductive Present where
  | none
  | current (e : Event)
  | ended (e : Event)
  deriving DecidableEq, Repr

/-- R123: a rating entry. `version` none is NONE. -/
structure Entry where
  key : ServiceKey
  source : EntrySource
  version : Option Nat
  present : Present
  following : Option Event
  lastId : Option Half
  bindCount : Nat
  lastTouch : Nat
  deriving DecidableEq, Repr

structure RatingTable where
  /-- R123: slots 0 to 63; none is a free slot. -/
  entries : Vector (Option Entry) 64
  /-- R136: the maps of schemes 1 to 8; none is UNMAPPED. -/
  schemes : Vector (Vector (Option Nat) 16) 8
  /-- The slots whose promotion test for the current second event is still to be made (log 7). -/
  promotionDue : List (Fin 64)
  /-- The wall count as advanced for the current second event, which its promotion tests read (log 8). -/
  promotionWall : Nat
  deriving DecidableEq, Repr

/-! ### The time base (chapter 8) -/

inductive TimeSource where
  | unset | broadcast | declared
  deriving DecidableEq, Repr

/-- R139, R140. -/
structure TimeBase where
  run : Nat
  source : TimeSource
  day : Nat
  second : Nat
  offset : Int
  dayStart : Nat
  /-- P of R140; none is UNSET. -/
  profileDay : Option Nat
  deriving DecidableEq, Repr

/-! ### The section intake (chapter 6) -/

/-- R109: a record being assembled. -/
structure Assembly where
  start : Nat
  expected : Nat
  bytes : List Byte
  total : Option Nat
  deriving DecidableEq, Repr

/-- R109: an intake context. -/
inductive IntakeContext where
  | unset
  | seeking (successor : Option Nat)
  | assembling (a : Assembly)
  | shed
  deriving DecidableEq, Repr

/-- R105: a section window. -/
structure SectionWindow where
  set : Bool
  base : Nat
  size : Nat
  context : IntakeContext
  deriving DecidableEq, Repr

/-- R114: a record of the intake queue. -/
structure QueuedRecord where
  window : Fin 4
  start : Nat
  code : Byte
  body : List Byte
  total : Nat
  deriving DecidableEq, Repr

inductive FlowState where
  | flowing | halted
  deriving DecidableEq, Repr

structure Intake where
  windows : Vector SectionWindow 4
  /-- R114: oldest first. -/
  queue : List QueuedRecord
  flow : FlowState
  /-- H of R114. -/
  haltLevel : Nat
  /-- L of R114. -/
  resumeLevel : Nat
  /-- R118: the parser is parsing the oldest queued record. -/
  parsing : Bool
  deriving DecidableEq, Repr

/-! ### The panel link (chapter 9) -/

inductive ListenerState where
  | asleep | attendingOwn | attendingAll | fault
  deriving DecidableEq, Repr

/-- R157: an answer whose echo byte is awaited. -/
inductive Answer where
  | acknowledgement | refusal
  deriving DecidableEq, Repr

/-- R159: an entry of the key FIFO. -/
structure Key where
  code : Byte
  flags : FrameFlags
  overrun : Bool
  deriving DecidableEq, Repr

inductive Lamp where
  | off | on | flashing
  deriving DecidableEq, Repr

/-- R164: the lamp record; none is UNKNOWN. -/
abbrev LampRecord := Option Lamp

/-- R161: the messages the link sends. -/
inductive Message where
  | routeKeys (timeout : Byte)
  | releaseKeys
  | lamp (state : Lamp)
  deriving DecidableEq, Repr

inductive TransmitterState where
  | idle | sending | awaiting
  deriving DecidableEq, Repr

/-- A frame on its way out: its data and its address flag (R162). -/
structure OutFrame where
  value : Byte
  address : Bool
  deriving DecidableEq, Repr

structure PanelLink where
  listener : ListenerState
  awaited : Option Answer
  listenerAddress : Byte
  panelAddress : Byte
  /-- R159: oldest first. -/
  fifo : List Key
  /-- R161: oldest first. -/
  queue : List Message
  outstanding : Option Message
  transmitter : TransmitterState
  /-- R162: the holding stage. -/
  holding : Option OutFrame
  /-- R162: the shift stage. -/
  shifting : Option OutFrame
  lampRecord : LampRecord
  /-- R153: the frames that have left on the gate-to-panel line, bit by bit, oldest first (log 13). -/
  sent : List LineFrame
  deriving DecidableEq, Repr

/-! ### Outcomes (R181) -/

inductive CommandOutcome where
  | doneOk | clamped | busy | notAuthorised | badCode | badField | noSuch | overlap | stackFull
  | emptyStack | lockedOut | cancelled | timedOut | panelSilent | panelRefused | badImage
  deriving DecidableEq, Repr

/-! ### The PIN authority (chapter 10) -/

abbrev Digit := Fin 10

inductive Matcher where
  | idle | routing | collecting | releasing | lockout
  deriving DecidableEq, Repr

inductive Purpose where
  | session | grant | pinChange
  deriving DecidableEq, Repr

/-- R103: what a staged push records. -/
structure StagedPush where
  output : Output
  kind : OverrideKind
  scope : OverrideScope
  endTime : Option Nat
  key : Option ServiceKey
  event : Option Half
  clamped : Bool
  deriving DecidableEq, Repr

/-- R167: a staged action. -/
inductive Staged where
  | grant (profile : Fin 8) (minutes : Nat) (clamped : Bool)
  | push (p : StagedPush)
  deriving DecidableEq, Repr

/-- R165: the entry in progress. -/
structure PinEntry where
  purpose : Purpose
  slot : Fin 16
  takeStamp : Nat
  lastKeyStamp : Nat
  buffer : List Digit
  damaged : Bool
  overlong : Bool
  firstCollection : Option (List Digit)
  staged : Option Staged
  outcome : CommandOutcome
  outcomeData : List Byte
  deriving DecidableEq, Repr

/-- What the entry fields hold while no entry is in progress (log 33). -/
def PinEntry.blank : PinEntry :=
  { purpose := .session, slot := 0, takeStamp := 0, lastKeyStamp := 0, buffer := [],
    damaged := false, overlong := false, firstCollection := none, staged := none,
    outcome := .doneOk, outcomeData := [] }

structure PinAuthority where
  /-- R165: the stored PIN; none is UNSET. -/
  stored : Option (List Digit)
  matcher : Matcher
  entry : PinEntry
  failures : Nat
  step : Nat
  timer : Nat
  /-- R165: the parent session is OPEN. -/
  sessionOpen : Bool
  sessionRemaining : Nat
  sessionLength : Nat
  deriving DecidableEq, Repr

/-! ### The command unit (chapter 11) -/

/-- A buffer of bytes by offset in canonical form: offsets rising, no zero byte listed; an unlisted
offset reads as zero, the reset value of the command shadow (R177). -/
abbrev Memory := List Host.Cell

inductive SlotState where
  | free | posted | taken
  deriving DecidableEq, Repr

inductive ResultState where
  | idle | pending | done
  deriving DecidableEq, Repr

/-- R181: a result record. -/
structure ResultRecord where
  state : ResultState
  code : Byte
  toggle : Bool
  outcome : CommandOutcome
  data : List Byte
  deriving DecidableEq, Repr

/-- R177: what the command unit holds for a slot. -/
structure CommandSlot where
  expected : Bool
  state : SlotState
  captured : Option (List Byte)
  result : ResultRecord
  deriving DecidableEq, Repr

structure CommandUnit where
  /-- R177: the command shadow, 640 bytes by window offset. -/
  shadow : Memory
  pointer : Fin 16
  slots : Vector CommandSlot 16
  deriving DecidableEq, Repr

/-! ### The report unit (chapter 11) -/

/-- R184: the notice kinds. -/
inductive NoticeKind where
  | pinLockout | lockKey | sessionClosed | verdictChanged | budgetWarning | budgetExhausted
  | rollover | pinMismatch | pinDamaged | entryEnded | timeStep | eventChange | intakeCheck
  | intakeShed | intakeFormat | panelBreak | panelSilent | panelNoise
  deriving DecidableEq, Repr

/-- R184: a notice. Its class is fixed by its kind; its detail is held as the bytes of the notice
port from byte 12 (section 12.4). -/
structure Notice where
  kind : NoticeKind
  subject : Word
  detail : List Byte
  stamp : Nat
  count : Nat
  deriving DecidableEq, Repr

/-- R183: the view selected. -/
inductive ViewSelection where
  | none
  | profile (n : Fin 8)
  | output (o : Output)
  | ratingSlot (n : Fin 64)
  | ratingKey (k : ServiceKey)
  | windows
  | intake
  | panel
  | scheme (m : Fin 9)
  | image
  deriving DecidableEq, Repr

structure ReportUnit where
  /-- R184: in the order the notices entered. -/
  queue : List Notice
  /-- R184: the mask flags, kind n in bit n (R187). -/
  masks : Word
  /-- R184: the sticky flags, kind n in bit n (R187). -/
  sticky : Word
  lost : Bool
  level : Nat
  urgent : Nat
  /-- R186: the attention line. -/
  attention : Bool
  view : ViewSelection
  deriving DecidableEq, Repr

/-! ### The gate -/

/-- All the state of the gate, and the queue of the commands that wait. -/
structure State where
  inputs : Inputs
  lanes : Lanes
  outputs : PerOutput OutputContext
  profiles : Vector Profile 8
  image : ImageUnit
  rating : RatingTable
  time : TimeBase
  intake : Intake
  panel : PanelLink
  pin : PinAuthority
  command : CommandUnit
  report : ReportUnit
  /-- R23: the system reset input is asserted. -/
  systemReset : Bool
  /-- The commands that wait, first in first out. -/
  pending : List Instr
  deriving DecidableEq, Repr

/-- The spec gives the gate no fault: every misuse is told by an outcome or a notice and the gate
goes on. No step raises one, which is neither safe nor unsafe. -/
inductive Fault where
  deriving DecidableEq, Repr

/-- Why a command is not carried out by the model. -/
inductive Refusal where
  /-- Raised by an arm of `exec` whose command has no meaning yet. Safe. -/
  | notModelled (mnemonic : String)
  /-- Raised by a lane transfer that is no burst in the sense of R1: no bytes, more than 512, or
  bytes outside the 32-bit address space. Safe: an initiator cannot issue it (log 15). -/
  | notABurst
  deriving DecidableEq, Repr

/-! ### Values after a cold reset -/

/-- One value for all outputs. -/
def PerOutput.const {α : Type} (a : α) : PerOutput α := ⟨a, a, a⟩

/-- R6: an UNSET window. -/
def Window.unset : Window := ⟨false, 0, 0, 0⟩

/-- R24: an output context after a cold reset. -/
def OutputContext.cold : OutputContext :=
  { profile := none, service := none, verdict := .unsupervised, reason := .none,
    pendingSince := 0, stack := [] }

/-- R52, R72: an EMPTY slot with default settings and no account. -/
def Profile.default : Profile :=
  { state := .empty, ceiling := .closed, blockMask := 0, unrated := .block, scheme := .block,
    absent := .block, pendingLimit := 10, allowance := some 60, carryCap := 0, lead := 300,
    rates := #v[4, 4, 4, 4], curfews := #v[none, none, none],
    remaining := 0, charged := 0, granted := 0, budgetDay := none }

/-- R21: the lanes after a cold reset. R21 discards held requests at a warm reset and does not name them at a
cold one: that none is held then either is the model's choice (log 51). -/
def Lanes.cold : Lanes :=
  { windows := .const ⟨.unset, .unset⟩, layout := .opened, presentation := [], control := [],
    heldPresentation := [], heldControl := [], nextMark := 0, activity := .const false, out := [] }

/-- R124, R136. -/
def RatingTable.cold : RatingTable :=
  { entries := Vector.replicate 64 none, schemes := Vector.replicate 8 (Vector.replicate 16 none),
    promotionDue := [], promotionWall := 0 }

/-- R140. -/
def TimeBase.cold : TimeBase :=
  { run := 0, source := .unset, day := 0, second := 0, offset := 0, dayStart := 240,
    profileDay := none }

/-- R105. -/
def SectionWindow.unset : SectionWindow := ⟨false, 0, 0, .unset⟩

/-- R105, R109, R114, R118. -/
def Intake.cold : Intake :=
  { windows := Vector.replicate 4 .unset, queue := [], flow := .flowing, haltLevel := 6,
    resumeLevel := 2, parsing := false }

/-- R164. -/
def PanelLink.cold : PanelLink :=
  { listener := .asleep, awaited := none, listenerAddress := 0x5A, panelAddress := 0x01, fifo := [],
    queue := [], outstanding := none, transmitter := .idle, holding := none, shifting := none,
    lampRecord := some .off, sent := [] }

/-- R165. -/
def PinAuthority.cold : PinAuthority :=
  { stored := none, matcher := .idle, entry := .blank, failures := 0, step := 0, timer := 0,
    sessionOpen := false, sessionRemaining := 0, sessionLength := 300 }

/-- R177, R181: a result record after a reset. The spec gives its state; that code, toggle, outcome and
data then show zero is the model's choice (log 47). -/
def ResultRecord.idle : ResultRecord := ⟨.idle, 0, false, .doneOk, []⟩

/-- R177: a slot after a reset. -/
def CommandSlot.cold : CommandSlot := ⟨false, .free, none, .idle⟩

/-- R177. -/
def CommandUnit.cold : CommandUnit :=
  { shadow := [], pointer := 0, slots := Vector.replicate 16 .cold }

/-- R183, R184. -/
def ReportUnit.cold : ReportUnit :=
  { queue := [], masks := 0, sticky := 0, lost := false, level := 1, urgent := 4,
    attention := false, view := .none }

/-- The straps and the salt of the machine after reset: values of this model (log 3). -/
def Inputs.chosen : Inputs :=
  { commandBase := 0x40000000, reportBase := 0x40000800, bitRate := .b38400, salt := 0 }

/-- The gate after a cold reset, with the integration inputs given. -/
def State.cold (inputs : Inputs) : State :=
  { inputs := inputs, lanes := .cold, outputs := .const .cold,
    profiles := Vector.replicate 8 .default, image := ⟨.idle, none⟩, rating := .cold, time := .cold,
    intake := .cold, panel := .cold, pin := .cold, command := .cold, report := .cold,
    systemReset := false, pending := [] }

/-- The gate right after reset. -/
def State.reset : State := State.cold .chosen

end Sys2Proof.Machine
end

