-- ==== Sys2Proof/Machine/Flags.lean ====
section
/-! DEFINITION. The check words: CRC-16 of ring records (R108) and CRC-32 of profile images (R80). -/

namespace Sys2Proof.Machine

open Sys2Proof

/-- One bit of a CRC register, most significant bit first. -/
def crcStep {n : Nat} (poly r : BitVec n) : BitVec n :=
  if r.msb then (r <<< 1) ^^^ poly else r <<< 1

/-- `k` bits of a CRC register. -/
def crcSteps {n : Nat} (poly : BitVec n) : Nat → BitVec n → BitVec n
  | 0, r => r
  | k + 1, r => crcSteps poly k (crcStep poly r)

/-- One byte into a CRC register, most significant bit first, without reflection. -/
def crcByte {n : Nat} (poly r : BitVec n) (b : Byte) : BitVec n :=
  crcSteps poly 8 (r ^^^ (b.setWidth n <<< (n - 8)))

/-- R108: generator x^16 + x^12 + x^5 + 1, register from 0xFFFF, no final inversion. -/
def crc16 (bytes : List Byte) : Half := bytes.foldl (crcByte 0x1021) 0xFFFF

/-- R80: generator 0x04C11DB7, register from all ones, final register inverted. -/
def crc32 (bytes : List Byte) : Word := ~~~ (bytes.foldl (crcByte 0x04C11DB7) 0xFFFFFFFF)

/-- R80: the eight bytes of the device salt, least significant first. -/
def saltBytes (salt : BitVec 64) : List Byte :=
  (List.range 8).map (fun i => salt.extractLsb' (8 * i) 8)

/-- R80: the check word over the salt and the body. -/
def imageCheck (salt : BitVec 64) (body : List Byte) : Word := crc32 (saltBytes salt ++ body)

end Sys2Proof.Machine
end

