-- ==== Sys2Proof/Machine/Operands.lean ====
section
/-! DEFINITION. Every operand form of the host's records and every code of the records the gate
writes: the enumerations, sentinels and field widths of R187 and section 12.4. -/

namespace Sys2Proof.Machine

open Sys2Proof

/-! ### Enumerated operands (R187: a value is its position in the list; another is none) -/

/-- R187: the output selector a byte names. -/
def outputOf (b : Byte) : Option Output :=
  match b.toNat with
  | 0 => some .primary
  | 1 => some .secondary
  | 2 => some .remote
  | _ => none

/-- R187: the window kind a byte names. -/
def windowKindOf (b : Byte) : Option WindowKind :=
  match b.toNat with
  | 0 => some .picture
  | 1 => some .sound
  | _ => none

/-- R187: the profile state a byte names. -/
def profileStateOf (b : Byte) : Option ProfileState :=
  match b.toNat with
  | 0 => some .empty
  | 1 => some .active
  | 2 => some .suspended
  | _ => none

/-- R187: the policy a byte names. -/
def policyOf (b : Byte) : Option Policy :=
  match b.toNat with
  | 0 => some .allow
  | 1 => some .block
  | _ => none

/-- R187: the override kind a byte names. -/
def overrideKindOf (b : Byte) : Option OverrideKind :=
  match b.toNat with
  | 0 => some .allowEvent
  | 1 => some .allowService
  | 2 => some .curfewWaive
  | 3 => some .forceBlock
  | _ => none

/-- R187: the override scope a byte names. -/
def overrideScopeOf (b : Byte) : Option OverrideScope :=
  match b.toNat with
  | 0 => some .eventEnd
  | 1 => some .unbind
  | 2 => some .untilTime
  | 3 => some .pop
  | _ => none

/-- R187: the PIN purpose a byte names. -/
def purposeOf (b : Byte) : Option Purpose :=
  match b.toNat with
  | 0 => some .session
  | 1 => some .grant
  | 2 => some .pinChange
  | _ => none

/-- R187: the code of a output selector. -/
def outputCode : Output → Nat
  | .primary => 0
  | .secondary => 1
  | .remote => 2

/-- R187: the code of a window kind. -/
def windowKindCode : WindowKind → Nat
  | .picture => 0
  | .sound => 1

/-- R187: the code of a profile state. -/
def profileStateCode : ProfileState → Nat
  | .empty => 0
  | .active => 1
  | .suspended => 2

/-- R187: the code of a policy. -/
def policyCode : Policy → Nat
  | .allow => 0
  | .block => 1

/-- R187: the code of a override kind. -/
def overrideKindCode : OverrideKind → Nat
  | .allowEvent => 0
  | .allowService => 1
  | .curfewWaive => 2
  | .forceBlock => 3

/-- R187: the code of a override scope. -/
def overrideScopeCode : OverrideScope → Nat
  | .eventEnd => 0
  | .unbind => 1
  | .untilTime => 2
  | .pop => 3

/-- R187: the code of a PIN purpose. -/
def purposeCode : Purpose → Nat
  | .session => 0
  | .grant => 1
  | .pinChange => 2

/-- R187: the code of a tag of a stack entry (section 12.4). -/
def overrideTagCode : OverrideTag → Nat
  | .live => 0
  | .spent => 1

/-- R187: the code of a origin of a stack entry (section 12.4). -/
def overrideOriginCode : OverrideOrigin → Nat
  | .session => 0
  | .staged => 1

/-- R187: the code of a layout state (section 12.4). -/
def layoutStateCode : LayoutState → Nat
  | .opened => 0
  | .committed => 1

/-- R187: the code of a verdict. -/
def verdictCode : Verdict → Nat
  | .unsupervised => 0
  | .pending => 1
  | .opened => 2
  | .warning => 3
  | .blocked => 4

/-- R187: the code of a reason. -/
def reasonCode : Reason → Nat
  | .none => 0
  | .pending => 1
  | .budgetNear => 2
  | .curfewNear => 3
  | .suspended => 4
  | .profileClosed => 5
  | .manual => 6
  | .curfew => 7
  | .timeUnknown => 8
  | .noService => 9
  | .rating => 10
  | .unrated => 11
  | .scheme => 12
  | .absent => 13
  | .descriptor => 14
  | .budget => 15

/-- R187: the code of a outcome. -/
def commandOutcomeCode : CommandOutcome → Nat
  | .doneOk => 0
  | .clamped => 1
  | .busy => 2
  | .notAuthorised => 3
  | .badCode => 4
  | .badField => 5
  | .noSuch => 6
  | .overlap => 7
  | .stackFull => 8
  | .emptyStack => 9
  | .lockedOut => 10
  | .cancelled => 11
  | .timedOut => 12
  | .panelSilent => 13
  | .panelRefused => 14
  | .badImage => 15

/-- R187: the code of a notice kind; 0 is EMPTY. -/
def noticeKindCode : NoticeKind → Nat
  | .pinLockout => 1
  | .lockKey => 2
  | .sessionClosed => 3
  | .verdictChanged => 4
  | .budgetWarning => 5
  | .budgetExhausted => 6
  | .rollover => 7
  | .pinMismatch => 8
  | .pinDamaged => 9
  | .entryEnded => 10
  | .timeStep => 11
  | .eventChange => 12
  | .intakeCheck => 13
  | .intakeShed => 14
  | .intakeFormat => 15
  | .panelBreak => 16
  | .panelSilent => 17
  | .panelNoise => 18

/-- R187: the code of a result state. -/
def resultStateCode : ResultState → Nat
  | .idle => 0
  | .pending => 1
  | .done => 2

/-- R187: the code of a rating entry source. -/
def entrySourceCode : EntrySource → Nat
  | .broadcast => 0
  | .declared => 1

/-- R187: the code of a source state (section 12.4). -/
def timeSourceCode : TimeSource → Nat
  | .unset => 0
  | .broadcast => 1
  | .declared => 2

/-- R187: the code of a flow state (section 12.4). -/
def flowStateCode : FlowState → Nat
  | .flowing => 0
  | .halted => 1

/-- R187: the code of a listener state. -/
def listenerStateCode : ListenerState → Nat
  | .asleep => 0
  | .attendingOwn => 1
  | .attendingAll => 2
  | .fault => 3

/-- R187: the code of a transmitter state. -/
def transmitterStateCode : TransmitterState → Nat
  | .idle => 0
  | .sending => 1
  | .awaiting => 2

/-- R187: the code of a matcher state (section 12.4). -/
def matcherCode : Matcher → Nat
  | .idle => 0
  | .routing => 1
  | .collecting => 2
  | .releasing => 3
  | .lockout => 4

/-- R187: the code of a lamp state (section 12.4; R161). -/
def lampCode : Lamp → Nat
  | .off => 0
  | .on => 1
  | .flashing => 2

/-- R187: the profile slot a selector names. -/
def profileSlotOf (b : Byte) : Option (Fin 8) :=
  if h : b.toNat < 8 then some ⟨b.toNat, h⟩ else none

/-- R28, R187: the profile binding a selector names: a slot, or NONE by the sentinel 0xFF. -/
def profileBindingOf (b : Byte) : Option (Option (Fin 8)) :=
  if b = 0xFF then some none else (profileSlotOf b).map some

/-- R74, R187: the ceiling an operand names, its age clamped to 21, and whether it was clamped. For
OPEN and CLOSED the age is not examined. -/
def ceilingOf (kind age : Byte) : Option (Ceiling × Bool) :=
  match kind.toNat with
  | 0 => if 21 < age.toNat then some (.age 21, true) else some (.age age.toNat, false)
  | 1 => some (.opened, false)
  | 2 => some (.closed, false)
  | _ => none

/-- R135, R187: the class an operand names, its age clamped to 21, and whether it was clamped. For
the other classes the age is not examined. -/
def classOf (cls age : Byte) : Option (RatingClass × Bool) :=
  match cls.toNat with
  | 0 => if 21 < age.toNat then some (.aged 21, true) else some (.aged age.toNat, false)
  | 1 => some (.unrated, false)
  | 2 => some (.unknownScheme, false)
  | 3 => some (.absent, false)
  | _ => none

/-- R120, R135: the genre class a byte names. -/
def genreOf (b : Byte) : Option (Fin 4) :=
  if h : b.toNat < 4 then some ⟨b.toNat, h⟩ else none

/-- R187: an allowance, where 0xFFFF is UNLIMITED. -/
def allowanceOf (h : Half) : Option Nat := if h = 0xFFFF then none else some h.toNat

/-- R137, R187: a scheme entry clamped to 21, where 0xFF is UNMAPPED, and whether it was clamped. -/
def schemeEntryOf (b : Byte) : Option Nat × Bool :=
  if b = 0xFF then (none, false)
  else if 21 < b.toNat then (some 21, true) else (some b.toNat, false)

/-- A number moved to the nearest of the range 0 to `hi`, and whether it was moved. -/
def clampTo (hi n : Nat) : Nat × Bool := if hi < n then (hi, true) else (n, false)

/-- A number moved into the range `lo` to `hi`, and whether it was moved. -/
def clampIn (lo hi n : Nat) : Nat × Bool :=
  if n < lo then (lo, true) else if hi < n then (hi, true) else (n, false)

/-- R144, R145: an offset clamped to -780 to +840 minutes, and whether it was clamped. -/
def offsetOf (w : Word) : Int × Bool :=
  if w.toInt < -780 then (-780, true) else if 840 < w.toInt then (840, true) else (w.toInt, false)

/-- The outcome of a command that was carried out (chapter 00). -/
def doneOr (clamped : Bool) : CommandOutcome := if clamped then .clamped else .doneOk

/-- R183: the view a SELECT_VIEW names; none where a kind or a number is outside its list. -/
def viewOf (kind number : Byte) (key : ServiceKey) : Option ViewSelection :=
  match kind.toNat with
  | 0 => some .none
  | 1 => (profileSlotOf number).map .profile
  | 2 => (outputOf number).map .output
  | 3 => if h : number.toNat < 64 then some (.ratingSlot ⟨number.toNat, h⟩) else none
  | 4 => some (.ratingKey key)
  | 5 => some .windows
  | 6 => some .intake
  | 7 => some .panel
  | 8 => if h : number.toNat < 9 then some (.scheme ⟨number.toNat, h⟩) else none
  | 9 => some .image
  | _ => none

/-- The view kind of a selection and its number, 0 where the kind needs none (log 21). -/
def viewCode : ViewSelection → Nat × Nat
  | .none => (0, 0)
  | .profile n => (1, n.val)
  | .output o => (2, outputCode o)
  | .ratingSlot n => (3, n.val)
  | .ratingKey _ => (4, 0)
  | .windows => (5, 0)
  | .intake => (6, 0)
  | .panel => (7, 0)
  | .scheme m => (8, m.val)
  | .image => (9, 0)

/-! ### Fields of the records the gate writes (section 12.4) -/

/-- The class of a notice, fixed by its kind (R184). -/
def noticeClass : NoticeKind → Nat
  | .pinLockout | .lockKey | .sessionClosed => 5
  | .verdictChanged => 4
  | .budgetWarning | .budgetExhausted | .rollover => 3
  | .pinMismatch | .pinDamaged | .entryEnded => 2
  | .timeStep | .eventChange => 1
  | .intakeCheck | .intakeShed | .intakeFormat | .panelBreak | .panelSilent | .panelNoise => 0

/-- A ceiling's kind and age (section 12.5: age 0 unless the kind is AGE). -/
def ceilingCode : Ceiling → Nat × Nat
  | .age a => (0, a)
  | .opened => (1, 0)
  | .closed => (2, 0)

/-- A class and its age; no age is held for the other classes (R123). -/
def classCode : RatingClass → Nat × Nat
  | .aged a => (0, a)
  | .unrated => (1, 0)
  | .unknownScheme => (2, 0)
  | .absent => (3, 0)

/-- R187: a present state. -/
def presentCode : Present → Nat
  | .none => 0
  | .current _ => 1
  | .ended _ => 2

/-- R187: an intake context state. -/
def contextCode : IntakeContext → Nat
  | .unset => 0
  | .seeking _ => 1
  | .assembling _ => 2
  | .shed => 3

/-- Section 12.4: the image unit's state. -/
def imageCode : ImageOperation → Nat
  | .idle => 0
  | .exporting .. => 1
  | .importing .. => 2

/-- Section 12.4: a lamp record, where 3 is UNKNOWN. -/
def lampRecordCode : LampRecord → Nat
  | some l => lampCode l
  | none => 3

/-- R161: the command byte of a message. -/
def messageCommand : Message → Byte
  | .routeKeys _ => 0x31
  | .releaseKeys => 0x32
  | .lamp _ => 0x33

/-- R161: the operand byte of a message. -/
def messageOperand : Message → Byte
  | .routeKeys t => t
  | .releaseKeys => 0
  | .lamp l => BitVec.ofNat 8 (lampCode l)

/-- R22: the panel bit rate strap in bit/s. -/
def bitRateValue : BitRate → Nat
  | .b9600 => 9600
  | .b19200 => 19200
  | .b38400 => 38400
  | .b57600 => 57600

/-- R187: a one-byte slot field, where 0xFF is no slot or NONE. -/
def slotByte {n : Nat} (s : Option (Fin n)) : Byte :=
  match s with
  | some i => BitVec.ofNat 8 i.val
  | none => 0xFF

/-- R187: a four-byte budget day or profile day index, where 0xFFFF_FFFF is UNSET. -/
def dayField4 (d : Option Nat) : List Byte :=
  match d with
  | some n => nat32 n
  | none => nat32 0xFFFFFFFF

/-- A two-byte day number; a day above 65,535 has no stated form (log 5). -/
def dayField2 (d : Nat) : List Byte :=
  if d ≤ 65535 then nat16 d else bytes16 (Config.dayBeyondField d)

/-- A service key in six bytes. -/
def keyField (k : ServiceKey) : List Byte := bytes16 k.network ++ bytes16 k.stream ++ bytes16 k.service

/-- A local time as a day of two bytes and a second of four. -/
def localField (ls : Nat) : List Byte :=
  dayField2 (ls / Config.secondsPerDay) ++ nat32 (ls % Config.secondsPerDay)

/-- A wall time, where UNSET is day 0xFFFF and second 0xFFFF_FFFF (section 12.4). -/
def wallField (source : TimeSource) (day second : Nat) : List Byte :=
  if source = .unset then nat16 0xFFFF ++ nat32 0xFFFFFFFF else nat16 day ++ nat32 second

end Sys2Proof.Machine
end

