-- ==== Sys2Proof/Machine/Ops.lean ====
section
/-! DEFINITION. The shared operations: access to each piece of state, the bytes of the command
shadow, raising a notice (R184), offering a panel message (R161), handing over a lamp state (R164),
and the stop for a transfer that is no burst (R1). -/

namespace Sys2Proof.Machine

open Sys2Proof

/-! ### Access -/

/-- The value of one output. -/
def PerOutput.get {α : Type} (p : PerOutput α) : Output → α
  | .primary => p.primary
  | .secondary => p.secondary
  | .remote => p.remote

/-- Replace the value of one output. -/
def PerOutput.put {α : Type} (p : PerOutput α) (o : Output) (a : α) : PerOutput α :=
  match o with
  | .primary => { p with primary := a }
  | .secondary => { p with secondary := a }
  | .remote => { p with remote := a }

/-- The outputs in the order of R187, which is the order the model takes them in (log 9). -/
def allOutputs : List Output := [.primary, .secondary, .remote]

/-- The profile slots in rising order, the order the model takes them in (log 9). -/
def allProfiles : List (Fin 8) := [0, 1, 2, 3, 4, 5, 6, 7]

/-- The section windows in rising order, the order the model takes them in (log 9). -/
def allSections : List (Fin 4) := [0, 1, 2, 3]

/-- The rating slots in rising order. -/
def allRatingSlots : List (Fin 64) := List.finRange 64

/-- An output context. -/
def State.context (s : State) (o : Output) : OutputContext := s.outputs.get o

/-- Write an output context. -/
def State.putContext (s : State) (o : Output) (c : OutputContext) : State :=
  { s with outputs := s.outputs.put o c }

/-- A profile record. -/
def State.profile (s : State) (n : Fin 8) : Profile := s.profiles[n]

/-- Write a profile record. -/
def State.putProfile (s : State) (n : Fin 8) (p : Profile) : State :=
  { s with profiles := s.profiles.set n p }

/-- The entry in a rating slot. -/
def State.entry (s : State) (n : Fin 64) : Option Entry := s.rating.entries[n]

/-- Write a rating slot. -/
def State.putEntry (s : State) (n : Fin 64) (e : Option Entry) : State :=
  { s with rating := { s.rating with entries := s.rating.entries.set n e } }

/-- A section window. -/
def State.sectionWindow (s : State) (w : Fin 4) : SectionWindow := s.intake.windows[w]

/-- Write a section window. -/
def State.putSectionWindow (s : State) (w : Fin 4) (sw : SectionWindow) : State :=
  { s with intake := { s.intake with windows := s.intake.windows.set w sw } }

/-- Write the context of a section window. -/
def State.putIntakeContext (s : State) (w : Fin 4) (c : IntakeContext) : State :=
  s.putSectionWindow w { s.sectionWindow w with context := c }

/-- A command slot. -/
def State.slot (s : State) (n : Fin 16) : CommandSlot := s.command.slots[n]

/-- Write a command slot. -/
def State.putSlot (s : State) (n : Fin 16) (c : CommandSlot) : State :=
  { s with command := { s.command with slots := s.command.slots.set n c } }

/-- Write the result record of a command slot. -/
def State.putResult (s : State) (n : Fin 16) (r : ResultRecord) : State :=
  s.putSlot n { s.slot n with result := r }

/-- R181: a long command's result becomes DONE; the echoed code and toggle stand. -/
def State.finishResult (s : State) (n : Fin 16) (outcome : CommandOutcome) (data : List Byte) : State :=
  s.putResult n { (s.slot n).result with state := .done, outcome := outcome, data := data }

/-- Write the PIN authority. -/
def State.putPin (s : State) (p : PinAuthority) : State := { s with pin := p }

/-- Write the panel link. -/
def State.putPanel (s : State) (p : PanelLink) : State := { s with panel := p }

/-- Record a transfer put out on a lane (log 13). -/
def State.putOut (s : State) (t : LaneOut) : State :=
  { s with lanes := { s.lanes with out := s.lanes.out ++ [t] } }

/-! ### Bytes of the command shadow -/

/-- The byte at an offset; an unlisted offset reads as zero. -/
def Memory.read (m : Memory) (a : Nat) : Byte :=
  match m with
  | [] => 0
  | (k, v) :: t => if k = a then v else Memory.read t a

/-- A cell put before a list, unless its byte is what an unlisted offset reads as. -/
def Memory.cell (a : Nat) (b : Byte) (m : Memory) : Memory := if b = 0 then m else (a, b) :: m

/-- Write one byte, keeping the canonical form. -/
def Memory.write (m : Memory) (a : Nat) (b : Byte) : Memory :=
  match m with
  | [] => Memory.cell a b []
  | (k, v) :: t =>
    if a < k then Memory.cell a b ((k, v) :: t)
    else if a = k then Memory.cell a b t
    else (k, v) :: Memory.write t a b

/-- Write the enabled bytes of a run, from an offset up (R3: a byte whose enable is off is left). -/
def Memory.writeRun (m : Memory) (a : Nat) : List (Byte × Bool) → Memory
  | [] => m
  | (b, en) :: t => Memory.writeRun (if en then m.write a b else m) (a + 1) t

/-- A run of bytes from an offset up. -/
def Memory.readRun (m : Memory) (a : Nat) : Nat → List Byte
  | 0 => []
  | n + 1 => m.read a :: Memory.readRun m (a + 1) n

/-- The canonical form: offsets rise strictly and no listed byte is zero. -/
abbrev Memory.wf (m : Memory) : Prop :=
  m.Pairwise (fun x y => x.1 < y.1) ∧ ∀ c ∈ m, c.2 ≠ 0

/-! ### Notices (R184) -/

/-- R187: the bit of a kind in a mask or sticky-flag word. -/
def kindBit (k : NoticeKind) : Word := 1#32 <<< noticeKindCode k

/-- Whether a mask or sticky-flag word holds a kind. -/
def hasKind (w : Word) (k : NoticeKind) : Bool := w.getLsbD (noticeKindCode k)

/-- R186: the attention line is asserted while the queue holds at least the level of notices, or any
notice whose class is at or above the urgent class. -/
def ReportUnit.asserted (r : ReportUnit) : Bool :=
  decide (r.level ≤ r.queue.length) || r.queue.any (fun n => decide (r.urgent ≤ noticeClass n.kind))

/-- R186: the line is judged again. -/
def ReportUnit.judged (r : ReportUnit) : ReportUnit := { r with attention := r.asserted }

/-- Whether a notice has a kind and a subject. -/
def Notice.isFor (n : Notice) (kind : NoticeKind) (subject : Word) : Bool :=
  decide (n.kind = kind ∧ n.subject = subject)

/-- R184 step 2: a raising coalesced into a queued notice of its kind and subject. -/
def Notice.coalesced (n : Notice) (detail : List Byte) : Notice :=
  { n with count := min 255 (n.count + 1), detail := detail }

/-- R184: what the report unit does with a raised notice, at run seconds `run`. -/
def ReportUnit.raised (r : ReportUnit) (kind : NoticeKind) (subject : Word) (detail : List Byte)
    (run : Nat) : ReportUnit :=
  if hasKind r.masks kind then { r with sticky := r.sticky ||| kindBit kind }
  else if r.queue.any (·.isFor kind subject) then
    ReportUnit.judged
      { r with queue := r.queue.map (fun n => if n.isFor kind subject then n.coalesced detail else n) }
  else if r.queue.length < Config.noticeCapacity then
    ReportUnit.judged { r with queue := r.queue ++ [⟨kind, subject, detail, run, 1⟩] }
  else { r with lost := true }

/-- A block raises a notice (R184). While the system reset input is asserted the notice is lost. -/
def raise (kind : NoticeKind) (subject : Nat) (detail : List Byte) (s : State) : State :=
  if s.systemReset then s
  else { s with report := s.report.raised kind (BitVec.ofNat 32 subject) detail s.time.run }

/-! ### Panel messages and the lamp (R161, R164) -/

/-- A message is queued at the end (R161). The queue holds at most 4; the spec's rules never offer
one to a full queue (log 28). -/
def offerMessage (m : Message) (s : State) : State :=
  if s.panel.queue.length < Config.transmitCapacity then
    { s with panel := { s.panel with queue := s.panel.queue ++ [m] } }
  else s

/-- Whether a message is a LAMP. -/
def Message.isLamp : Message → Bool
  | .lamp _ => true
  | _ => false

/-- R164: a LAMP offered to the queue: a queued LAMP takes its operand, else it is queued at the end. -/
def offerLamp (l : Lamp) (s : State) : State :=
  if s.panel.queue.any Message.isLamp then
    { s with panel := { s.panel with
        queue := s.panel.queue.map (fun m => if m.isLamp then .lamp l else m) } }
  else offerMessage (.lamp l) s

/-- R164: a lamp state is handed to the panel link. -/
def handLamp (l : Lamp) (s : State) : State :=
  if s.panel.lampRecord = some l then s
  else offerLamp l { s with panel := { s.panel with lampRecord := some l } }

/-- R49: whether an output lights the lamp. -/
def lights (c : OutputContext) : Bool := decide (c.verdict = .blocked ∨ c.verdict = .pending)

/-- R49: the lamp state from the verdicts and the parent session. -/
def lampOf (sessionOpen : Bool) (outputs : PerOutput OutputContext) : Lamp :=
  if sessionOpen then .flashing
  else if lights outputs.primary || lights outputs.secondary || lights outputs.remote then .on
  else .off

/-- R49: the lamp state is computed and handed to the panel link. -/
def recomputeLamp (s : State) : State := handLamp (lampOf s.pin.sessionOpen s.outputs) s

/-! ### Conditions shared by the meanings -/

/-- R23: what is done while the system reset input is not asserted. While it is asserted the gate
holds its warm values, and nothing but time goes on (log 12). -/
def whileRunning (f : State → State) (s : State) : State := if s.systemReset then s else f s

/-- The outcome of a command that is not a lane transfer. -/
def carried (s : State) : Host.Outcome State Fault Refusal := .next s

/-- R1: a lane transfer that is a burst acts; one that is none is no transfer (log 15). -/
def ifBurst (ok : Bool) (s : State) : Host.Outcome State Fault Refusal :=
  if ok then .next s else .refused .notABurst

/-- R9, R180: authority: a parent session is open or the stored PIN is UNSET. -/
def authority (s : State) : Bool := s.pin.sessionOpen || s.pin.stored.isNone

/-! ### What an owner returns (R180, R181) -/

/-- R181: what the owner of a command returns to the command unit: an outcome with its result data, or
that the command's effect is not complete at its take. -/
inductive Response where
  | done (outcome : CommandOutcome) (data : List Byte)
  | long
  deriving DecidableEq, Repr

/-- A command that is refused changes nothing and returns no data. -/
def refuse (outcome : CommandOutcome) (s : State) : State × Response := (s, .done outcome [])

/-- A command that is carried out, with an outcome of DONE_OK or CLAMPED. -/
def complete (clamped : Bool) (data : List Byte) (s : State) : State × Response :=
  (s, .done (doneOr clamped) data)

/-! ### Local time (R146, R149) -/

/-- The wall count of R140. -/
def TimeBase.wallCount (t : TimeBase) : Nat := t.day * Config.secondsPerDay + t.second

/-- Time is set: the source state is BROADCAST or DECLARED. -/
def TimeBase.isSet (t : TimeBase) : Bool := decide (t.source ≠ .unset)

/-- R146: local seconds. -/
def TimeBase.localSeconds (t : TimeBase) : Nat := ((t.wallCount : Int) + t.offset * 60).toNat

/-- R146: the local weekday, 0 for Monday. -/
def TimeBase.weekday (t : TimeBase) : Nat := (t.localSeconds / Config.secondsPerDay) % 7

/-- R146: the local time of day. -/
def TimeBase.timeOfDay (t : TimeBase) : Nat := t.localSeconds % Config.secondsPerDay

/-- R149: the profile day of the present local time. -/
def TimeBase.computedDay (t : TimeBase) : Nat := (t.localSeconds - t.dayStart * 60) / Config.secondsPerDay

end Sys2Proof.Machine
end

