-- ==== Sys2Proof/Machine/Verdict.lean ====
section
/-! DEFINITION. The verdict unit's evaluation: the curfew arithmetic it reads (R147, R148), the ordered
tests of R31 to R40, what a change of verdict sends (R47 to R49), and the groups of outputs that a
change evaluates (R41 to R46). -/

namespace Sys2Proof.Machine

open Sys2Proof

/-! ### What the evaluation reads -/

/-- R35: the current event, present while the present state is CURRENT. -/
def Present.currentEvent : Present → Option Event
  | .current e => some e
  | _ => Option.none

/-- R24: the bound entry of an output. -/
def State.boundEntry (s : State) (o : Output) : Option Entry := (s.context o).service.bind s.entry

/-- R35: the current event of the bound entry of an output. -/
def State.currentEvent (s : State) (o : Output) : Option Event :=
  (s.boundEntry o).bind (fun e => e.present.currentEvent)

/-- The key of the bound entry of an output. -/
def State.boundKey (s : State) (o : Output) : Option ServiceKey := (s.boundEntry o).map (·.key)

/-- R35: the content class of an output with a service binding. -/
def contentClass (e : Option Event) : RatingClass :=
  match e with
  | some e => e.rating.cls
  | none => .absent

/-- R38: the descriptor flags, empty where there is no current event. -/
def contentFlags (e : Option Event) : Byte :=
  match e with
  | some e => e.rating.flags
  | none => 0

/-- R39, R54: the genre class whose rate is the content rate; 1 where there is no current event. -/
def contentGenre (e : Option Event) : Fin 4 :=
  match e with
  | some e => e.rating.genre
  | none => 1

/-- R39, R54: the content rate of an output under a profile. -/
def contentRate (p : Profile) (e : Option Event) : Nat := p.rates[contentGenre e]

/-! ### Curfew arithmetic (R147, R148) -/

/-- Whether a days mask holds a weekday. -/
def holdsDay (days : Byte) (weekday : Nat) : Bool := days.getLsbD weekday

/-- R147: a window covers a local weekday and time of day. -/
def Curfew.covers (w : Curfew) (weekday t : Nat) : Bool :=
  if w.startMinute < w.endMinute then
    holdsDay w.days weekday && decide (w.startMinute * 60 ≤ t) && decide (t < w.endMinute * 60)
  else if w.endMinute < w.startMinute then
    (holdsDay w.days weekday && decide (w.startMinute * 60 ≤ t))
      || (holdsDay w.days ((weekday + 6) % 7) && decide (t < w.endMinute * 60))
  else false

/-- The windows a profile holds. -/
def Profile.windows (p : Profile) : List Curfew := p.curfews.toList.filterMap id

/-- R148: the candidates of one window for the next curfew start. -/
def Curfew.starts (w : Curfew) (weekday t : Nat) : List Nat :=
  (if holdsDay w.days weekday && decide (t < w.startMinute * 60) then [w.startMinute * 60 - t] else [])
    ++ (if holdsDay w.days ((weekday + 1) % 7) then [w.startMinute * 60 + 86400 - t] else [])

/-- R148: the next curfew start of a profile, none where no window gives a candidate. -/
def nextCurfewStart (p : Profile) (weekday t : Nat) : Option Nat :=
  (p.windows.flatMap (fun w => w.starts weekday t)).min?

/-! ### The tests -/

/-- What a test decides; none where it does not decide. -/
abbrev Ruling := Option (Verdict × Reason)

/-- R32: the lifts the stack walk gathers. -/
structure Lifts where
  allow : Bool
  waive : Bool
  deriving DecidableEq, Repr

/-- R32: an ALLOW entry's subject matches the bound key and the current event's id. -/
def Override.matchesSubject (e : Override) (key : Option ServiceKey) (event : Option Half) : Bool :=
  match e.kind with
  | .allowEvent =>
      key.isSome && event.isSome && decide (e.subjectKey = key) && decide (e.subjectEvent = event)
  | .allowService => key.isSome && decide (e.subjectKey = key)
  | .curfewWaive => true
  | .forceBlock => false

/-- R32: the walk from the top down. None where it reaches a LIVE FORCE_BLOCK. -/
def walkStack (key : Option ServiceKey) (event : Option Half) : List Override → Lifts → Option Lifts
  | [], l => some l
  | e :: below, l =>
    if e.tag = .spent then walkStack key event below l
    else
      match e.kind with
      | .forceBlock => none
      | .curfewWaive => walkStack key event below { l with waive := true }
      | .allowEvent | .allowService =>
          walkStack key event below { l with allow := l.allow || e.matchesSubject key event }

/-- R33: the curfew test. -/
def curfewTest (t : TimeBase) (p : Profile) (l : Lifts) : Ruling :=
  if p.windows.isEmpty || l.waive then none
  else if !t.isSet then some (.blocked, .timeUnknown)
  else if p.windows.any (fun w => w.covers t.weekday t.timeOfDay) then some (.blocked, .curfew)
  else none

/-- R34: the service test. -/
def serviceTest (bound : Bool) (p : Profile) : Ruling :=
  match p.ceiling with
  | .age _ => if bound then none else some (.blocked, .noService)
  | .opened | .closed => none

/-- R36: what a policy gives. -/
def policyTest (policy : Policy) (reason : Reason) : Ruling :=
  match policy with
  | .allow => none
  | .block => some (.blocked, reason)

/-- R36: the result of the content class under an age ceiling; `waited` is run seconds minus
pending-since. -/
def classTest (c waited : Nat) (p : Profile) : RatingClass → Ruling
  | .aged a => if a ≤ c then none else some (.blocked, .rating)
  | .unrated => policyTest p.unrated .unrated
  | .unknownScheme => policyTest p.scheme .scheme
  | .absent =>
      if waited < p.pendingLimit then some (.pending, .pending) else policyTest p.absent .absent

/-- R36: the content class test. -/
def contentTest (bound : Bool) (waited : Nat) (p : Profile) (l : Lifts) (e : Option Event) : Ruling :=
  match p.ceiling with
  | .age c => if bound && !l.allow then classTest c waited p (contentClass e) else none
  | .opened | .closed => none

/-- R38: the descriptor test. -/
def descriptorTest (bound : Bool) (p : Profile) (l : Lifts) (e : Option Event) : Ruling :=
  match p.ceiling with
  | .age _ =>
      if bound && !l.allow && decide (contentFlags e &&& p.blockMask ≠ 0) then
        some (.blocked, .descriptor)
      else none
  | .opened | .closed => none

/-- R39: the budget test. -/
def budgetTest (p : Profile) (e : Option Event) : Ruling :=
  if p.allowance.isNone || decide (contentRate p e = 0) then none
  else if p.remaining = 0 then some (.blocked, .budget)
  else if p.remaining < p.lead * contentRate p e then some (.warning, .budgetNear)
  else none

/-- R40: the curfew-near test. -/
def curfewNearTest (t : TimeBase) (p : Profile) (l : Lifts) : Ruling :=
  if p.windows.isEmpty || l.waive || !t.isSet then none
  else
    match nextCurfewStart p t.weekday t.timeOfDay with
    | some n => if n < p.lead then some (.warning, .curfewNear) else none
    | none => none

/-- The first test that decides gives the result; where none does, the tenth test does (R40). -/
def firstDecided : List Ruling → Verdict × Reason
  | [] => (.opened, .none)
  | some r :: _ => r
  | none :: rest => firstDecided rest

/-- R31 to R40 for an output bound to a profile. -/
def judgeProfile (s : State) (o : Output) (p : Profile) : Verdict × Reason :=
  let event := s.currentEvent o
  let bound := (s.context o).service.isSome
  if p.state = .suspended then (.blocked, .suspended)
  else if p.ceiling = .closed then (.blocked, .profileClosed)
  else
    match walkStack (s.boundKey o) (event.map (·.id)) (s.context o).stack ⟨false, false⟩ with
    | none => (.blocked, .manual)
    | some l =>
      firstDecided
        [curfewTest s.time p l, serviceTest bound p,
         contentTest bound (s.time.run - (s.context o).pendingSince) p l event,
         descriptorTest bound p l event, budgetTest p event, curfewNearTest s.time p l]

/-- R31 to R40: the verdict and reason an evaluation of an output decides. -/
def judge (s : State) (o : Output) : Verdict × Reason :=
  match (s.context o).profile with
  | none => (.unsupervised, .none)
  | some n => judgeProfile s o (s.profile n)

/-! ### The completion of an evaluation -/

/-- R48: BUDGET_WARNING, for an output that newly holds WARNING with BUDGET_NEAR. -/
def warnBudget (o : Output) (r : Verdict × Reason) (s : State) : State :=
  match (s.context o).profile with
  | some n =>
      if r = (.warning, .budgetNear) then
        raise .budgetWarning n.val (nat32 (s.profile n).remaining ++ nat8 (outputCode o)) s
      else s
  | none => s

/-- R30, R47 to R49: a verdict and reason that differ from those held are written, and the notices and
the lamp follow. -/
def changeVerdict (o : Output) (r : Verdict × Reason) (s : State) : State :=
  let held := s.context o
  let written := s.putContext o { held with verdict := r.1, reason := r.2 }
  let told := raise .verdictChanged (outputCode o)
    (nat8 (verdictCode r.1) ++ nat8 (reasonCode r.2) ++ [slotByte held.profile]) written
  let warned := warnBudget o r told
  if held.verdict = r.1 then warned else recomputeLamp warned

/-- R30: one evaluation of one output. While the system reset input is asserted the verdict unit makes
none (R46). -/
def evaluate (o : Output) (s : State) : State :=
  if s.systemReset then s
  else if judge s o = ((s.context o).verdict, (s.context o).reason) then s
  else changeVerdict o (judge s o) s

/-- The outputs of a kind are evaluated one after another (log 9). -/
def evaluateWhere (chosen : OutputContext → Bool) (s : State) : State :=
  allOutputs.foldl (fun t o => if chosen (t.context o) then evaluate o t else t) s

/-- R46: every output is evaluated. -/
def evaluateAll : State → State := evaluateWhere (fun _ => true)

/-- R41, R44: every supervised output is evaluated. -/
def evaluateSupervised : State → State := evaluateWhere (fun c => c.profile.isSome)

/-- R42, R45: every output bound to a profile slot is evaluated. -/
def evaluateProfile (n : Fin 8) : State → State := evaluateWhere (fun c => decide (c.profile = some n))

/-- R43: every output bound to a rating entry is evaluated. -/
def evaluateEntry (n : Fin 64) : State → State := evaluateWhere (fun c => decide (c.service = some n))

end Sys2Proof.Machine
end

