-- ==== Sys2Proof/Machine/Overrides.lean ====
section
/-! DEFINITION. Override stacks (chapter 5): pushing, popping, clearing and spending entries. A stack is
held top first. -/

namespace Sys2Proof.Machine

open Sys2Proof

/-! ### Spending (R96 to R101) -/

/-- R96: the SPENT entries at the top are removed until the top is LIVE or the stack is empty. -/
def dropSpent (stack : List Override) : List Override := stack.dropWhile (fun e => decide (e.tag = .spent))

/-- R96: the LIVE entries that meet a condition are tagged SPENT, and the spent tops are removed. -/
def spendStack (cond : Override → Bool) (stack : List Override) : List Override :=
  dropSpent (stack.map (fun e => if cond e then { e with tag := .spent } else e))

/-- Spend entries of one output's stack, without the evaluation that follows. -/
def spendOn (o : Output) (cond : Override → Bool) (s : State) : State :=
  s.putContext o { s.context o with stack := spendStack cond (s.context o).stack }

/-- R98: the entries that a change of service binding spends. -/
def endsWithBinding (e : Override) : Bool := decide (e.scope = .eventEnd ∨ e.scope = .unbind)

/-- R97: the entries that an event change spends. -/
def endsWithEvent (e : Override) : Bool := decide (e.scope = .eventEnd)

/-- R89, R99: the end time of an UNTIL_TIME entry is reached at given local seconds. -/
def Override.reached (e : Override) (localSeconds : Nat) : Bool :=
  match e.endTime with
  | some t => decide (e.scope = .untilTime ∧ e.tag = .live ∧ t ≤ localSeconds)
  | none => false

/-- R97: the EVENT_END entries of every output bound to a rating entry are spent. -/
def spendEventEnd (n : Fin 64) (s : State) : State :=
  allOutputs.foldl
    (fun t o => if (t.context o).service = some n then spendOn o endsWithEvent t else t) s

/-- R99: the reached entries of one output's stack are spent. -/
def spendReachedOn (o : Output) (s : State) : State :=
  spendOn o (fun e => e.reached s.time.localSeconds) s

/-- R99: the reached entries of every stack are spent. -/
def spendReached (s : State) : State := allOutputs.foldl (fun t o => spendReachedOn o t) s

/-- R100 step 2: the end of a LIVE CURFEW_WAIVE is moved to at most a day beyond local seconds. -/
def capWaive (localSeconds : Nat) (e : Override) : Override :=
  match e.endTime with
  | some t =>
      if e.kind = .curfewWaive ∧ e.tag = .live ∧ localSeconds + 86400 < t then
        { e with endTime := some (localSeconds + 86400) }
      else e
  | none => e

/-- R100: one stack is settled at the first setting of time. -/
def settleStack (localSeconds : Nat) (stack : List Override) : List Override :=
  spendStack (fun e => e.reached localSeconds)
    (stack.map (fun e => if e.reached localSeconds then e else capWaive localSeconds e))

/-- R100: every stack is settled at the first setting of time. -/
def settleStacks (s : State) : State :=
  allOutputs.foldl
    (fun t o => t.putContext o
      { t.context o with stack := settleStack t.time.localSeconds (t.context o).stack }) s

/-- R99: UNTIL_TIME_EXPIRY of one output: its reached entries are spent, the spent tops are removed and
the output is evaluated. Where none is reached nothing happens (log 11). -/
def expireUntilTime (o : Output) (s : State) : State :=
  if s.time.isSet && (s.context o).stack.any (fun e => e.reached s.time.localSeconds) then
    evaluate o (spendReachedOn o s)
  else s

/-! ### Pushing (R90, R92, R93, R103) -/

/-- R90: the scopes a kind may take. -/
def scopeAllowed : OverrideKind → OverrideScope → Bool
  | .allowEvent, .eventEnd => true
  | .allowService, .untilTime | .allowService, .unbind => true
  | .curfewWaive, .untilTime => true
  | .forceBlock, .pop | .forceBlock, .untilTime => true
  | _, _ => false

/-- R92 step 2: a kind and a scope it may take. -/
def kindAndScope (kind scope : Byte) : Option (OverrideKind × OverrideScope) :=
  match overrideKindOf kind, overrideScopeOf scope with
  | some k, some sc => if scopeAllowed k sc then some (k, sc) else none
  | _, _ => none

/-- R90, R92 step 3: the subject captured at a push; none where there is nothing to capture. -/
def captureSubject (s : State) (o : Output) : OverrideKind → Option (Option ServiceKey × Option Half)
  | .allowEvent =>
      match s.boundKey o, s.currentEvent o with
      | some k, some e => some (some k, some e.id)
      | _, _ => none
  | .allowService =>
      match s.boundKey o with
      | some k => some (some k, none)
      | none => none
  | .curfewWaive | .forceBlock => some (none, none)

/-- R93 and R103 step 3: an end time against local seconds: refused where reached, a CURFEW_WAIVE's
moved to at most a day ahead. While time is UNSET it is taken as given. -/
def fitEnd (t : TimeBase) (kind : OverrideKind) (endTime : Nat) : Option (Nat × Bool) :=
  if !t.isSet then some (endTime, false)
  else if endTime ≤ t.localSeconds then none
  else if kind = .curfewWaive ∧ t.localSeconds + 86400 < endTime then
    some (t.localSeconds + 86400, true)
  else some (endTime, false)

/-- R92 step 5: the end a push stores, and whether it was clamped; none where it is refused. -/
def checkEnd (t : TimeBase) (kind : OverrideKind) (scope : OverrideScope) (endDay : Half)
    (endSecond : Word) : Option (Option Nat × Bool) :=
  if scope = .untilTime then
    if 86399 < endSecond.toNat then none
    else (fitEnd t kind (endDay.toNat * 86400 + endSecond.toNat)).map (fun r => (some r.1, r.2))
  else some (none, false)

/-- R92 steps 1 to 5, in their order. -/
def checkPush (output kind scope : Byte) (endDay : Half) (endSecond : Word) (s : State) :
    Except CommandOutcome StagedPush :=
  match outputOf output with
  | none => .error .badField
  | some o =>
    match kindAndScope kind scope with
    | none => .error .badField
    | some (k, sc) =>
      match captureSubject s o k with
      | none => .error .noSuch
      | some (key, event) =>
        if Config.stackDepth ≤ (s.context o).stack.length then .error .stackFull
        else
          match checkEnd s.time k sc endDay endSecond with
          | none => .error .badField
          | some (endTime, clamped) => .ok ⟨o, k, sc, endTime, key, event, clamped⟩

/-- R92 step 6: the entry of a push, LIVE. -/
def StagedPush.entry (p : StagedPush) (endTime : Option Nat) (origin : OverrideOrigin) : Override :=
  { kind := p.kind, scope := p.scope, subjectKey := p.key, subjectEvent := p.event,
    endTime := endTime, tag := .live, origin := origin }

/-- R92 steps 6 and 7: the entry goes on top and the output is evaluated. -/
def pushEntry (o : Output) (e : Override) (s : State) : State :=
  evaluate o (s.putContext o { s.context o with stack := e :: (s.context o).stack })

/-- R89, R92: the result data of the push of an entry: the depth, for UNTIL_TIME the end stored, and the origin.
R92 and R104 do not name the origin, which R89 says these data show; that it stands last is the model's choice
(log 52). -/
def pushData (o : Output) (e : Override) (s : State) : List Byte :=
  nat8 (s.context o).stack.length
    ++ (match e.endTime with
      | some t => localField t
      | none => [])
    ++ nat8 (overrideOriginCode e.origin)

/-- R103 step 1: the recorded subject of a staged push is no longer the room's. -/
def StagedPush.movedOn (p : StagedPush) (s : State) : Bool :=
  match p.kind with
  | .allowEvent =>
      !(decide (s.boundKey p.output = p.key) && decide ((s.currentEvent p.output).map (·.id) = p.event))
  | .allowService => !decide (s.boundKey p.output = p.key)
  | .curfewWaive | .forceBlock => false

/-- R103 step 3: the end of a staged push at its execution. -/
def StagedPush.fittedEnd (p : StagedPush) (s : State) : Option (Option Nat × Bool) :=
  match p.endTime with
  | none => some (none, false)
  | some t => (fitEnd s.time p.kind t).map (fun r => (some r.1, r.2))

/-- R103: the execution of a staged push. -/
def executePush (p : StagedPush) (s : State) : State × CommandOutcome × List Byte :=
  if p.movedOn s then (s, .noSuch, [])
  else if Config.stackDepth ≤ (s.context p.output).stack.length then (s, .stackFull, [])
  else
    match p.fittedEnd s with
    | none => (s, .badField, [])
    | some (endTime, moved) =>
      let e := p.entry endTime .staged
      let t := pushEntry p.output e s
      (t, doneOr (p.clamped || moved), pushData p.output e t)

/-! ### Popping and clearing (R94, R95) -/

/-- R94: the top entry is removed, then the spent entries at the new top; the output is evaluated. -/
def popStack (o : Output) (s : State) : State :=
  evaluate o (s.putContext o { s.context o with stack := dropSpent (s.context o).stack.tail })

/-- R95: the stack becomes empty and the output is evaluated. -/
def clearStack (o : Output) (s : State) : State :=
  evaluate o (s.putContext o { s.context o with stack := [] })

end Sys2Proof.Machine
end

