-- ==== Sys2Proof/Machine/Accounts.lean ====
section
/-! DEFINITION. Viewing-time accounts (chapter 3): exhaustion, the sample and the charge, rollover and
settlement, grants, changes of allowance, opening and discarding. -/

namespace Sys2Proof.Machine

open Sys2Proof

/-! ### Exhaustion (R51) -/

/-- R51: an account is exhausted while it is limited and its R is 0. An EMPTY slot holds no account. -/
def Profile.exhausted (p : Profile) : Bool :=
  decide (p.state ≠ .empty) && p.allowance.isSome && decide (p.remaining = 0)

/-- R51: BUDGET_EXHAUSTED of a slot, with C and P. -/
def raiseExhausted (n : Fin 8) (s : State) : State :=
  raise .budgetExhausted n.val (nat32 (s.profile n).charged ++ dayField4 s.time.profileDay) s

/-- R51: account exhaustion is raised where the slot's account passed into exhaustion; `before` is the
record as it stood. -/
def noteExhaustion (n : Fin 8) (before : Profile) (s : State) : State :=
  if (s.profile n).exhausted && !before.exhausted then raiseExhausted n s else s

/-! ### The sample and the charge (R53 to R55) -/

/-- R54: the account after a charge of `r` quarters. -/
def Profile.afterCharge (p : Profile) (r : Nat) : Profile :=
  { p with charged := min Config.quartersPerDay (p.charged + r)
           remaining := if p.allowance.isSome then p.remaining - r else p.remaining }

/-- R53: an output is in the watching set of a slot. -/
def watching (s : State) (n : Fin 8) (o : Output) : Bool :=
  let c := s.context o
  decide (c.profile = some n) && decide (c.verdict = .opened ∨ c.verdict = .warning)
    && s.lanes.activity.get o

/-- R53: the watching set of a slot. -/
def watchingSet (s : State) (n : Fin 8) : List Output := allOutputs.filter (watching s n)

/-- R54: the charge rate of a slot, none where its watching set is empty. -/
def chargeRate (s : State) (n : Fin 8) : Option Nat :=
  ((watchingSet s n).map (fun o => contentRate (s.profile n) (s.currentEvent o))).max?

/-- R54, R55: a slot is charged; a charge that exhausts the account evaluates its outputs. -/
def chargeProfile (n : Fin 8) (r : Nat) (s : State) : State :=
  let before := s.profile n
  let after := before.afterCharge r
  let t := s.putProfile n after
  if after.exhausted && !before.exhausted then evaluateProfile n (raiseExhausted n t) else t

/-- R53: the charge of one slot at a sample; `seen` is the gate as the sample read it. -/
def sampleProfile (seen : State) (n : Fin 8) (s : State) : State :=
  if (seen.profile n).state = .active then
    match chargeRate seen n with
    | some r => chargeProfile n r s
    | none => s
  else s

/-- R53: the activity flags are cleared. -/
def clearActivity (s : State) : State := { s with lanes := { s.lanes with activity := .const false } }

/-- R53: the sample of a second event. -/
def sample (s : State) : State := clearActivity (allProfiles.foldl (fun t n => sampleProfile s n t) s)

/-! ### Rollover and settlement (R57 to R60) -/

/-- R58, R59: the quarters carried, 0 for an unlimited account. -/
def Profile.carried (p : Profile) : Nat :=
  if p.allowance.isSome then min p.remaining (p.carryCap * Config.quartersPerMinute) else 0

/-- R58: the account of profile day `day`. R51 has an unlimited account change R by rollovers as a
limited one would, while R58 keeps R of an unlimited account: the model follows R58 (log 48). -/
def Profile.rolledOver (p : Profile) (day : Nat) : Profile :=
  { p with
    remaining :=
      match p.allowance with
      | some a => min Config.quartersPerDay (a * Config.quartersPerMinute + p.carried)
      | none => p.remaining
    charged := 0
    granted := 0
    budgetDay := some day }

/-- R58, R59: the account is rolled over and ROLLOVER is raised. -/
def rollOver (n : Fin 8) (day : Nat) (s : State) : State :=
  let after := (s.profile n).rolledOver day
  raise .rollover n.val
    (nat32 day ++ nat32 after.remaining ++ nat32 (s.profile n).carried) (s.putProfile n after)

/-- What a settlement does to a record (R57, R60, R86). -/
inductive Settlement where
  | keep
  | adopt
  | roll
  deriving DecidableEq, Repr

/-- R57, R86: the settlement of a record against profile day `day`. -/
def Profile.settlement (p : Profile) (day : Nat) : Settlement :=
  match p.state, p.budgetDay with
  | .empty, _ => .keep
  | .active, none | .suspended, none => .adopt
  | .active, some b => if b < day then .roll else if day < b then .adopt else .keep
  | .suspended, some _ => .keep

/-- R57 to R59: a slot is settled, with the notices and evaluations of a rollover. -/
def settleProfile (n : Fin 8) (day : Nat) (s : State) : State :=
  match (s.profile n).settlement day with
  | .keep => s
  | .adopt => s.putProfile n { s.profile n with budgetDay := some day }
  | .roll => evaluateProfile n (noteExhaustion n (s.profile n) (rollOver n day s))

/-- R57: every slot is settled against a risen profile day index. -/
def settleAll (day : Nat) (s : State) : State := allProfiles.foldl (fun t n => settleProfile n day t) s

/-! ### Grants (R62 to R64) -/

/-- R62 steps 6 and 7: the account after a grant of `m` minutes. -/
def Profile.afterGrant (p : Profile) (m : Nat) : Profile :=
  { p with remaining := min Config.quartersPerDay (p.remaining + m * Config.quartersPerMinute)
           granted := min 1440 (p.granted + m) }

/-- R62, R63: a grant is applied. It evaluates the slot's outputs where a limited R left 0 (log 16). -/
def grant (n : Fin 8) (m : Nat) (s : State) : State :=
  let t := s.putProfile n ((s.profile n).afterGrant m)
  if (s.profile n).exhausted && !(t.profile n).exhausted then evaluateProfile n t else t

/-- R62: the result data of a grant: R and G. -/
def grantData (n : Fin 8) (s : State) : List Byte :=
  nat32 (s.profile n).remaining ++ nat16 (s.profile n).granted

/-- R79: the image unit is importing into a slot. -/
def ImageOperation.importsInto (op : ImageOperation) (n : Fin 8) : Bool :=
  match op with
  | .importing target _ _ => decide (target = n)
  | _ => false

/-- R62 steps 1 to 5: the slot and the clamped minutes of a grant. -/
def checkGrant (profile : Byte) (minutes : Half) (s : State) :
    Except CommandOutcome (Fin 8 × Nat × Bool) :=
  match profileSlotOf profile with
  | none => .error .badField
  | some n =>
    if s.image.operation.importsInto n then .error .busy
    else if (s.profile n).state = .empty then .error .noSuch
    else if minutes.toNat = 0 then .error .badField
    else .ok (n, clampTo 720 minutes.toNat)

/-- R64: the execution of a staged time grant. -/
def executeGrant (n : Fin 8) (m : Nat) (clamped : Bool) (s : State) : State × CommandOutcome × List Byte :=
  if s.image.operation.importsInto n then (s, .busy, [])
  else if (s.profile n).state = .empty then (s, .noSuch, [])
  else (grant n m s, doneOr clamped, grantData n (grant n m s))

/-! ### Changes of allowance, opening and discarding (R65 to R69) -/

/-- R65: R after a change of allowance. -/
def adjustedRemaining (old new : Option Nat) (remaining charged : Nat) : Nat :=
  match old, new with
  | some a, some b =>
      min Config.quartersPerDay (remaining + b * Config.quartersPerMinute - a * Config.quartersPerMinute)
  | none, some b => b * Config.quartersPerMinute - charged
  | _, none => remaining

/-- R68: the account of a slot opened while the profile day index is `day`. -/
def Profile.openedAccount (p : Profile) (state : ProfileState) (day : Option Nat) : Profile :=
  { p with
    state := state
    remaining := match p.allowance with
      | some a => a * Config.quartersPerMinute
      | none => 0
    charged := 0
    granted := 0
    budgetDay := day }

/-- R29: the outputs bound to a slot that becomes EMPTY lose their binding. -/
def unbindProfile (n : Fin 8) (s : State) : State :=
  allOutputs.foldl
    (fun t o =>
      if (t.context o).profile = some n then evaluate o (t.putContext o { t.context o with profile := none })
      else t) s

end Sys2Proof.Machine
end

