-- ==== Sys2Proof/Machine/TimeBase.lean ====
section
/-! DEFINITION. The time base (chapter 8): the advance of run seconds and wall time, settings of wall
time, the local offset, and the profile-day comparison with its advance. -/

namespace Sys2Proof.Machine

open Sys2Proof

/-! ### The profile day (R150, R152) -/

/-- R152: the PIN authority's part of a profile-day advance. -/
def clearFailures (s : State) : State := s.putPin { s.pin with failures := 0, step := 0 }

/-- R150, R152: P takes a new profile day, and the advance is handed on. -/
def advanceDay (day : Nat) (s : State) : State :=
  clearFailures (settleAll day { s with time := { s.time with profileDay := some day } })

/-- R150: whether the comparison raises an advance. -/
def TimeBase.advances (t : TimeBase) : Bool :=
  t.isSet &&
    match t.profileDay with
    | none => true
    | some p => decide (p < t.computedDay)

/-- R150: the profile-day comparison, made while time is set. -/
def compareDay (s : State) : State :=
  if s.time.advances then advanceDay s.time.computedDay s else s

/-! ### The second event's own advance (R139, R141) -/

/-- R141: wall time one second later; it stays at day 65,535 second 86,399. -/
def TimeBase.wallAfterSecond (t : TimeBase) : Nat × Nat :=
  if t.second < 86399 then (t.day, t.second + 1)
  else if t.day < 65535 then (t.day + 1, 0)
  else (t.day, t.second)

/-- R139, R141: run seconds and wall time after a second event. -/
def TimeBase.ticked (t : TimeBase) : TimeBase :=
  { t with run := min Config.runSecondsMax (t.run + 1)
           day := if t.isSet then t.wallAfterSecond.1 else t.day
           second := if t.isSet then t.wallAfterSecond.2 else t.second }

/-! ### Settings of wall time (R142, R143) -/

/-- The difference of two counts without sign. -/
def apart (a b : Nat) : Nat := (a - b) + (b - a)

/-- R143 step 1: the time base after a setting. -/
def TimeBase.withWall (t : TimeBase) (day second : Nat) (source : TimeSource) (offset : Int) : TimeBase :=
  { t with day := day, second := second, source := source, offset := offset }

/-- R143 step 5: TIME_STEP is raised where time was UNSET or moved by more than 2 seconds. -/
def noteTimeStep (before : TimeBase) (s : State) : State :=
  if !before.isSet || decide (2 < apart before.wallCount s.time.wallCount) then
    raise .timeStep 0
      (wallField before.source before.day before.second ++ wallField s.time.source s.time.day s.time.second
        ++ nat8 (timeSourceCode s.time.source)) s
  else s

/-- R99, R141: the UNTIL_TIME ends that local seconds already stands at are met, before local seconds
changes otherwise than by a second event: what a second event reached is spent as part of that event's
expiry (log 7). -/
def meetEnds (s : State) : State := allOutputs.foldl (fun t o => expireUntilTime o t) s

/-- R143: wall time is replaced, with what follows. -/
def replaceWall (day second : Nat) (source : TimeSource) (offset : Int) (s : State) : State :=
  let written := { s with time := s.time.withWall day second source offset }
  let spent := if s.time.isSet then spendReached written else settleStacks written
  noteTimeStep s.time (evaluateSupervised (compareDay spent))

/-- R143: a setting of wall time. -/
def setWall (day second : Nat) (source : TimeSource) (offset : Int) (s : State) : State :=
  replaceWall day second source offset (meetEnds s)

/-- R142: a broadcast time. -/
def takeBroadcastTime (day second : Nat) (s : State) : State :=
  if s.time.source = .broadcast ∧ apart s.time.wallCount (day * Config.secondsPerDay + second) ≤ 2 then s
  else setWall day second .broadcast s.time.offset s

/-- R145: the local offset is replaced, with what follows; while time is UNSET only the evaluations do
(log 44). -/
def replaceOffset (offset : Int) (s : State) : State :=
  let written := { s with time := { s.time with offset := offset } }
  if s.time.isSet then evaluateSupervised (compareDay (spendReached written))
  else evaluateSupervised written

/-- R145: a local offset that differs is applied. -/
def takeOffset (offset : Int) (s : State) : State :=
  if s.time.offset = offset then s else replaceOffset offset (meetEnds s)

/-- R151: the day-start minute takes a value, and the comparison follows; an advance evaluates every
supervised output (R42). -/
def takeDayStart (minute : Nat) (s : State) : State :=
  let written := { s with time := { s.time with dayStart := minute } }
  if written.time.advances then evaluateSupervised (compareDay written) else written

end Sys2Proof.Machine
end

