-- ==== Sys2Proof/Machine/Rating.lean ====
section
/-! DEFINITION. The rating table (chapter 7): look-up, creation and eviction, touches, new versions,
event changes, promotion, declared playback, bind counts and scheme maps. -/

namespace Sys2Proof.Machine

open Sys2Proof

/-! ### Look-up, creation and eviction (R123, R125, R126) -/

/-- A slot holds the entry of a key. -/
def holdsKey (s : State) (k : ServiceKey) (n : Fin 64) : Bool :=
  match s.entry n with
  | some e => decide (e.key = k)
  | none => false

/-- R123: the slot of the entry that holds a key. -/
def findKey (s : State) (k : ServiceKey) : Option (Fin 64) := allRatingSlots.find? (holdsKey s k)

/-- R126: the better of a victim found so far and a slot: unbound, with an older stamp. -/
def olderVictim (s : State) (best : Option (Fin 64 × Nat)) (n : Fin 64) : Option (Fin 64 × Nat) :=
  match s.entry n with
  | some e =>
      if e.bindCount = 0 then
        match best with
        | some b => if e.lastTouch < b.2 then some (n, e.lastTouch) else some b
        | none => some (n, e.lastTouch)
      else best
  | none => best

/-- R126: the victim of an eviction: bind count 0, the oldest stamp, the lowest slot of those. -/
def victim (s : State) : Option (Fin 64) := (allRatingSlots.foldl (olderVictim s) none).map (·.1)

/-- R126: the slot of a new entry: the lowest free slot, else the victim's. A victim always exists, as at
most three entries are bound (log 29). -/
def placeFor (s : State) : Fin 64 :=
  match allRatingSlots.find? (fun n => (s.entry n).isNone) with
  | some n => n
  | none => (victim s).getD 0

/-- R123: the source of an entry, fixed by its key. -/
def ServiceKey.source (k : ServiceKey) : EntrySource := if k.network = 0xFFFF then .declared else .broadcast

/-- R126: a new entry. -/
def newEntry (k : ServiceKey) (run : Nat) : Entry :=
  { key := k, source := ServiceKey.source k, version := none, present := .none, following := none,
    lastId := none, bindCount := 0, lastTouch := run }

/-- R126: the slot of a key's entry, created where no entry holds the key. -/
def ensureEntry (k : ServiceKey) (s : State) : Fin 64 × State :=
  match findKey s k with
  | some n => (n, s)
  | none => (placeFor s, s.putEntry (placeFor s) (some (newEntry k s.time.run)))

/-- Change the entry of a slot, where it holds one. -/
def changeEntry (n : Fin 64) (f : Entry → Entry) (s : State) : State := s.putEntry n ((s.entry n).map f)

/-- R125: an entry is touched. -/
def touch (n : Fin 64) (s : State) : State := changeEntry n (fun e => { e with lastTouch := s.time.run }) s

/-! ### Consequences of a change of an entry (R37, R128 to R130) -/

/-- R37: pending-since is set for every output bound to an entry. -/
def markPending (n : Fin 64) (s : State) : State :=
  allOutputs.foldl
    (fun t o =>
      if (t.context o).service = some n then
        t.putContext o { t.context o with pendingSince := t.time.run }
      else t) s

/-- R187: the cause of an event change. -/
inductive ChangeCause where
  | bySection | byPromotion | byDeclaration
  deriving DecidableEq, Repr

/-- R187: the code of a cause. -/
def changeCauseCode : ChangeCause → Nat
  | .bySection => 0
  | .byPromotion => 1
  | .byDeclaration => 2

/-- R129 step 2: EVENT_CHANGE of a bound entry. -/
def noteEventChange (n : Fin 64) (previous new : Half) (cause : ChangeCause) (s : State) : State :=
  match s.entry n with
  | some e =>
      if 0 < e.bindCount then
        raise .eventChange n.val (bytes16 previous ++ bytes16 new ++ nat8 (changeCauseCode cause)) s
      else s
  | none => s

/-- What a change of an entry asks for (R129 to R131). -/
inductive Consequence where
  /-- R129: an event change from one id to another. -/
  | event (previous new : Half)
  /-- R37: the current event is lost: pending-since is set and the bound outputs are evaluated. -/
  | lost
  /-- The bound outputs are evaluated. -/
  | evaluated
  | nothing
  deriving DecidableEq, Repr

/-- R129 to R131, R135: the consequence of an entry's change, from what it held before and holds now. -/
def consequence (before after : Entry) : Consequence :=
  match after.present, before.present with
  | .current e, held =>
      match before.lastId with
      | none => .evaluated
      | some old =>
        if old ≠ e.id then .event old e.id
        else
          match held with
          | .current h => if h.rating = e.rating then .nothing else .evaluated
          | _ => .evaluated
  | .ended _, .current _ => .lost
  | .ended _, _ => .nothing
  | .none, .current _ => .lost
  | .none, .ended _ => .evaluated
  | .none, .none => .nothing

/-- R129, R130: a consequence is carried out for the outputs bound to an entry. -/
def carryOut (n : Fin 64) (cause : ChangeCause) (c : Consequence) (s : State) : State :=
  match c with
  | .event previous new => evaluateEntry n (noteEventChange n previous new cause (spendEventEnd n s))
  | .lost => evaluateEntry n (markPending n s)
  | .evaluated => evaluateEntry n s
  | .nothing => s

/-- A held entry is replaced, with the consequences of the change. -/
def replaceEntry (n : Fin 64) (before after : Entry) (cause : ChangeCause) (s : State) : State :=
  carryOut n cause (consequence before after) (s.putEntry n (some after))

/-! ### Sections (R127, R128) -/

/-- R120: a present/following section as the parser hands it over. -/
structure ServiceSection where
  key : ServiceKey
  version : Nat
  present : Option Event
  following : Option Event
  deriving DecidableEq, Repr

/-- R128: an entry with a new version installed. -/
def Entry.installed (e : Entry) (d : ServiceSection) : Entry :=
  { e with
    version := some d.version
    following := d.following
    present := match d.present with
      | some p => .current p
      | none => .none
    lastId := match d.present with
      | some p => some p.id
      | none => e.lastId }

/-- R127: a section is taken. -/
def takeSection (d : ServiceSection) (s : State) : State :=
  let (n, made) := ensureEntry d.key s
  let touched := touch n made
  match touched.entry n with
  | some e =>
      if e.version = some d.version then touched
      else replaceEntry n e (e.installed d) .bySection touched
  | none => touched

/-! ### Promotion (R131, R132) -/

/-- The start of an event as one count of seconds (R131). -/
def Event.start (e : Event) : Nat := e.startDay * Config.secondsPerDay + e.startSecond

/-- R131: the event has an end at or below a wall count. -/
def Event.over (e : Event) (wall : Nat) : Bool := decide (e.duration ≠ 0 ∧ e.start + e.duration ≤ wall)

/-- R131: the following event, where it has started. -/
def Entry.started (e : Entry) (wall : Nat) : Option Event :=
  match e.following with
  | some f => if f.start ≤ wall then some f else none
  | none => none

/-- R131, R132: the following event made present. -/
def Entry.promoted (e : Entry) (f : Event) : Entry :=
  { e with present := .current f, following := none, lastId := some f.id }

/-- R131, R132: the entry after its promotion test at a wall count; none where it is not changed. -/
def Entry.promotionTest (e : Entry) (wall : Nat) : Option Entry :=
  if e.source = .declared then none
  else
    match e.present, e.started wall with
    | .current p, some f => if p.over wall then some (e.promoted f) else none
    | .current p, none => if p.over wall then some { e with present := .ended p } else none
    | _, some f => some (e.promoted f)
    | _, none => none

/-- R131, R132: the promotion test of one slot, against the wall time of the latest second event. -/
def testPromotion (n : Fin 64) (s : State) : State :=
  if !s.time.isSet then s
  else
    match s.entry n with
    | some e =>
      match e.promotionTest s.rating.promotionWall with
      | some after => replaceEntry n e after .byPromotion s
      | none => s
    | none => s

/-- R132: each entry is tested at most once at one second event (log 7). -/
def promoteOnce (n : Fin 64) (s : State) : State :=
  if s.rating.promotionDue.contains n then
    testPromotion n
      { s with rating := { s.rating with promotionDue := s.rating.promotionDue.filter (fun m => decide (m ≠ n)) } }
  else s

/-! ### Declared playback (R135) -/

/-- R135 step 4: an entry with a declared event. -/
def Entry.declare (e : Entry) (event : Event) : Entry :=
  { e with present := .current event, following := none, lastId := some event.id }

/-- R135 steps 3 to 5: a declared event is installed; the slot is returned. -/
def declareEvent (k : ServiceKey) (id : Half) (rating : RatingRecord) (s : State) : Fin 64 × State :=
  let (n, made) := ensureEntry k s
  let touched := touch n made
  match touched.entry n with
  | some e =>
      (n, replaceEntry n e
        (e.declare ⟨id, if s.time.isSet then s.time.day else 0, if s.time.isSet then s.time.second else 0, 0,
          rating⟩) .byDeclaration touched)
  | none => (n, touched)

/-! ### Bindings (R26, R27, R134) -/

/-- R134: the bind count of an entry is raised. -/
def raiseBind (n : Fin 64) (s : State) : State := changeEntry n (fun e => { e with bindCount := e.bindCount + 1 }) s

/-- R134: the bind count of the entry an output is bound to is lowered. -/
def lowerBind (service : Option (Fin 64)) (s : State) : State :=
  match service with
  | some n => changeEntry n (fun e => { e with bindCount := e.bindCount - 1 }) s
  | none => s

/-- R26 steps 5 to 8: the output takes the entry in a slot. -/
def bindOutput (o : Output) (n : Fin 64) (s : State) : State :=
  let counted := touch n (raiseBind n s)
  evaluate o
    (counted.putContext o
      { counted.context o with
        service := some n
        pendingSince := counted.time.run
        stack := spendStack endsWithBinding (counted.context o).stack })

/-- R26: an output is bound to the entry of a key; the slot of the entry is returned. -/
def bindService (o : Output) (k : ServiceKey) (s : State) : Fin 64 × State :=
  match (s.context o).service, decide (s.boundKey o = some k) with
  | some n, true => (n, evaluate o (touch n s))
  | held, _ =>
    let (n, made) := ensureEntry k s
    (n, bindOutput o n (lowerBind held made))

/-- R27: an output's service binding is removed. -/
def unbindService (o : Output) (s : State) : State :=
  match (s.context o).service with
  | none => evaluate o s
  | some n =>
    let lowered := lowerBind (some n) s
    evaluate o
      (lowered.putContext o
        { lowered.context o with
          service := none
          stack := spendStack endsWithBinding (lowered.context o).stack })

/-! ### Scheme maps (R136, R137) -/

/-- R137 step 4: the version of every BROADCAST entry becomes NONE. -/
def forgetVersions (s : State) : State :=
  { s with rating := { s.rating with
      entries := s.rating.entries.map
        (fun e => e.map (fun e => if e.source = .broadcast then { e with version := none } else e)) } }

/-- R137: one scheme map is written; `m` counts the maps of schemes 1 to 8 from 0. -/
def writeScheme (m : Fin 8) (map : Vector (Option Nat) 16) (s : State) : State :=
  forgetVersions { s with rating := { s.rating with schemes := s.rating.schemes.set m map } }

end Sys2Proof.Machine
end

