-- ==== Sys2Proof/Machine/Sections.lean ====
section
/-! DEFINITION. The bodies of ring records as the parser reads them (R120 to R122): descriptors, rating
records, event entries, and the three kinds of section. -/

namespace Sys2Proof.Machine

open Sys2Proof

/-- A descriptor of an event's list (R121). -/
structure Descriptor where
  tag : Byte
  content : List Byte
  deriving DecidableEq, Repr

/-- R121: a known tag has its required length, and a genre class is at most 3. -/
def Descriptor.wellFormed (d : Descriptor) : Bool :=
  match d.tag.toNat with
  | 0x51 => decide (d.content.length = 2)
  | 0x52 => decide (d.content.length = 1)
  | 0x53 => decide (d.content.length = 1 ∧ (byteAt d.content 0).toNat ≤ 3)
  | _ => true

/-- R121: the descriptors of a list in order; none where the list is malformed. `fuel` bounds their
number; the length of the list is enough. -/
def readDescriptors : Nat → List Byte → Option (List Descriptor)
  | _, [] => some []
  | 0, _ :: _ => none
  | _ + 1, [_] => none
  | fuel + 1, tag :: len :: rest =>
    if len.toNat ≤ rest.length then
      let d : Descriptor := ⟨tag, rest.take len.toNat⟩
      if d.wellFormed then (readDescriptors fuel (rest.drop len.toNat)).map (fun ds => d :: ds) else none
    else none

/-- R121 step 1: what a rating descriptor maps to. -/
inductive Mapped where
  | age (a : Nat)
  | unrated
  | unknown
  deriving DecidableEq, Repr

/-- R121 step 1, R136: a scheme's value through the maps; UNMAPPED and UNKNOWN_SCHEME count alike. -/
def mapRating (schemes : Vector (Vector (Option Nat) 16) 8) (scheme value : Nat) : Mapped :=
  if scheme = 0 then (if value = 0 then .unrated else .unknown)
  else if h : scheme - 1 < 8 then
    if g : value < 16 then
      match schemes[scheme - 1][value] with
      | some a => .age a
      | none => .unknown
    else .unknown
  else .unknown

/-- The contents of the descriptors of one tag. -/
def contentsOf (tag : Byte) (ds : List Descriptor) : List (List Byte) :=
  (ds.filter (fun d => decide (d.tag = tag))).map (·.content)

/-- The age of a mapped rating. -/
def Mapped.age? : Mapped → Option Nat
  | .age a => some a
  | _ => none

/-- R121 step 2: the class. -/
def classFrom (ms : List Mapped) : RatingClass :=
  match (ms.filterMap Mapped.age?).max? with
  | some a => .aged a
  | none =>
    if ms.contains .unrated then .unrated
    else if ms.isEmpty then .absent
    else .unknownScheme

/-- R121 step 4: the genre class of a 0x53 descriptor's content. -/
def genreContent (c : List Byte) : Fin 4 := (genreOf (byteAt c 0)).getD 1

/-- R121: the rating record of an event's descriptors. -/
def ratingFrom (schemes : Vector (Vector (Option Nat) 16) 8) (ds : List Descriptor) : RatingRecord :=
  { cls := classFrom
      ((contentsOf 0x51 ds).map (fun c => mapRating schemes (byteAt c 0).toNat (byteAt c 1).toNat))
    flags := (contentsOf 0x52 ds).foldl (fun f c => f ||| byteAt c 0) 0
    genre := ((contentsOf 0x53 ds).map genreContent).getLastD 1 }

/-- R120: an event entry at the start of a run of bytes, and the bytes after it. -/
def readEvent (schemes : Vector (Vector (Option Nat) 16) 8) (b : List Byte) : Option (Event × List Byte) :=
  let listLength := (halfAt b 12).toNat
  let list := (b.drop 14).take listLength
  if b.length < 14 + listLength then none
  else if 86399 < (wordAt b 4).toNat then none
  else
    match readDescriptors list.length list with
    | none => none
    | some ds =>
      some (⟨halfAt b 0, (halfAt b 2).toNat, (wordAt b 4).toNat, (wordAt b 8).toNat, ratingFrom schemes ds⟩,
        b.drop (14 + listLength))

/-- R120: an event entry, where the flags include it. -/
def readIncluded (schemes : Vector (Vector (Option Nat) 16) 8) (included : Bool) (b : List Byte) :
    Option (Option Event × List Byte) :=
  if included then (readEvent schemes b).map (fun r => (some r.1, r.2)) else some (none, b)

/-- R120: a body of code 0xC1; none where it is malformed. -/
def readService (schemes : Vector (Vector (Option Nat) 16) 8) (b : List Byte) : Option ServiceSection :=
  if b.length < 8 then none
  else if 31 < (byteAt b 6).toNat then none
  else
    match readIncluded schemes ((byteAt b 7).getLsbD 0) (b.drop 8) with
    | none => none
    | some (present, afterPresent) =>
      match readIncluded schemes ((byteAt b 7).getLsbD 1) afterPresent with
      | none => none
      | some (following, rest) =>
        if rest.isEmpty then
          some ⟨⟨halfAt b 0, halfAt b 2, halfAt b 4⟩, (byteAt b 6).toNat, present, following⟩
        else none

/-- R122: a body of code 0xC2: a day and a second. -/
def readTime (b : List Byte) : Option (Nat × Nat) :=
  if b.length = 6 ∧ (wordAt b 2).toNat ≤ 86399 then some ((halfAt b 0).toNat, (wordAt b 2).toNat) else none

/-- R122: a body of code 0xC3: an offset, clamped. -/
def readOffset (b : List Byte) : Option Int :=
  if b.length = 4 then some (offsetOf (wordAt b 0)).1 else none

end Sys2Proof.Machine
end

