-- ==== Sys2Proof/Machine/Intake.lean ====
section
/-! DEFINITION. The section intake (chapter 6): window writes, assembly of ring records, the intake queue
with its halt and resumption, and the completion of a parse. -/

namespace Sys2Proof.Machine

open Sys2Proof

/-! ### The queue, halt and resumption (R114 to R116) -/

/-- R114: the pool bytes that a queue uses. -/
def poolUsed (queue : List QueuedRecord) : Nat := (queue.map (·.total)).sum

/-- R114: the pool bytes free. -/
def poolFree (i : Intake) : Nat := Config.poolSize - poolUsed i.queue

/-- R115: what a halt makes of a context. -/
def IntakeContext.halted : IntakeContext → IntakeContext
  | .seeking _ | .assembling _ => .shed
  | .unset => .unset
  | .shed => .shed

/-- R116: what a resumption makes of a context. -/
def IntakeContext.resumed : IntakeContext → IntakeContext
  | .shed => .seeking none
  | c => c

/-- Change every intake context. -/
def changeContexts (f : IntakeContext → IntakeContext) (s : State) : State :=
  { s with intake := { s.intake with
      windows := s.intake.windows.map (fun w => { w with context := f w.context }) } }

/-- The subject all windows of an INTAKE_SHED notice (section 12.4). -/
def allWindowsSubject : Nat := 0xFF

/-- R115: the intake halts. -/
def haltIntake (s : State) : State :=
  let t := changeContexts IntakeContext.halted { s with intake := { s.intake with flow := .halted } }
  raise .intakeShed allWindowsSubject
    (nat8 s.intake.queue.length ++ nat16 (poolUsed s.intake.queue)) t

/-- R116: the intake resumes. -/
def resumeIntake (s : State) : State :=
  changeContexts IntakeContext.resumed { s with intake := { s.intake with flow := .flowing } }

/-- R117: the levels are applied to the queue as it stands. -/
def applyLevels (s : State) : State :=
  match s.intake.flow with
  | .flowing => if s.intake.haltLevel ≤ s.intake.queue.length then haltIntake s else s
  | .halted => if s.intake.queue.length ≤ s.intake.resumeLevel then resumeIntake s else s

/-- R114, R115, R118: a record is queued, the halt test is made, and an idle parser begins. -/
def queueRecord (r : QueuedRecord) (s : State) : State :=
  let t := { s with intake := { s.intake with queue := s.intake.queue ++ [r], parsing := true } }
  if t.intake.haltLevel ≤ t.intake.queue.length then haltIntake t else t

/-! ### Assembly (R108 to R113) -/

/-- R187: the causes of INTAKE_FORMAT. -/
inductive FormatCause where
  | length_ | discontinuity | body
  deriving DecidableEq, Repr

/-- R187: the code of a cause. -/
def formatCauseCode : FormatCause → Nat
  | .length_ => 0
  | .discontinuity => 1
  | .body => 2

/-- INTAKE_FORMAT of a window, with a record's start and the cause. -/
def noteFormat (w : Fin 4) (start : Nat) (cause : FormatCause) (s : State) : State :=
  raise .intakeFormat w.val (nat32 start ++ nat8 (formatCauseCode cause)) s

/-- R108: an address of a ring, where the byte after the last is the base byte. -/
def SectionWindow.wrap (w : SectionWindow) (a : Nat) : Nat := if a = w.base + w.size then w.base else a

/-- R108: the padding bytes after a record whose next address is `a`. -/
def paddingAt (a : Nat) : Nat := (4 - a % 4) % 4

/-- What is done with the rest of a window write. -/
inductive Reading where
  /-- Bytes are appended to the record being assembled. -/
  | append
  /-- So many bytes stand before the successor address. -/
  | skip (count successor : Nat)
  /-- The rest is not read. -/
  | stop
  deriving DecidableEq, Repr

/-- R108: the check of a complete record is correct. -/
def recordChecks (bytes : List Byte) : Bool :=
  decide (crc16 ((bytes.drop 1).take (bytes.length - 3)) = halfAt bytes (bytes.length - 2))

/-- R114: the queued form of a complete record. -/
def queuedForm (w : Fin 4) (start : Nat) (bytes : List Byte) : QueuedRecord :=
  { window := w, start := start, code := byteAt bytes 1, body := (bytes.drop 4).take (bytes.length - 6),
    total := bytes.length }

/-- R113: a complete record is discarded or queued. -/
def judgeRecord (w : Fin 4) (start : Nat) (bytes : List Byte) (s : State) : State :=
  if !recordChecks bytes then raise .intakeCheck w.val (nat32 start) s
  else if poolFree s.intake < bytes.length then
    raise .intakeShed w.val (nat16 bytes.length ++ nat16 (poolFree s.intake)) s
  else queueRecord (queuedForm w start bytes) s

/-- R113: a record is complete: the context becomes SEEKING with the successor address, the record is
judged, and the rest of the window write is read on if the context is still SEEKING. -/
def completeRecord (w : Fin 4) (start next : Nat) (bytes : List Byte) (s : State) : Reading × State :=
  let successor := (s.sectionWindow w).wrap (next + paddingAt next)
  let t := judgeRecord w start bytes (s.putIntakeContext w (.seeking (some successor)))
  (match (t.sectionWindow w).context with
    | .seeking _ => .skip (paddingAt next) successor
    | _ => .stop, t)

/-- R111: the total length of a record whose first four bytes are held; none where it is malformed. -/
def totalLength (size : Nat) (bytes : List Byte) : Option Nat :=
  let body := (halfAt bytes 2).toNat
  if body < 4 ∨ 1020 < body ∨ size < body + 6 then none else some (body + 6)

/-- R111: one byte is appended to the record being assembled. -/
def appendByte (w : Fin 4) (a : Assembly) (b : Byte) (s : State) : Reading × State :=
  let win := s.sectionWindow w
  let bytes := a.bytes ++ [b]
  let next := win.wrap (a.expected + 1)
  if bytes.length = 4 then
    match totalLength win.size bytes with
    | none => (.stop, noteFormat w a.start .length_ (s.putIntakeContext w (.seeking none)))
    | some n => (.append, s.putIntakeContext w (.assembling ⟨a.start, next, bytes, some n⟩))
  else if a.total = some bytes.length then completeRecord w a.start next bytes s
  else (.append, s.putIntakeContext w (.assembling { a with expected := next, bytes := bytes }))

/-- A run of bytes begins with the marker and every one of them is enabled (R110, R113). -/
def marksStart (bytes : List (Byte × Bool)) : Bool :=
  match bytes with
  | (b, _) :: _ => decide (b = 0xA6) && bytes.all (·.2)
  | [] => false

/-- R110, R111, R113: the bytes of a window write are read. -/
def readBytes (w : Fin 4) : Reading → List (Byte × Bool) → State → State
  | .stop, _, s => s
  | _, [], s => s
  | .append, b :: rest, s =>
    match (s.sectionWindow w).context with
    | .assembling a =>
      let (next, t) := appendByte w a b.1 s
      readBytes w next rest t
    | _ => s
  | .skip (n + 1) successor, _ :: rest, s => readBytes w (.skip n successor) rest s
  | .skip 0 successor, b :: rest, s =>
    match (s.sectionWindow w).context with
    | .seeking _ =>
      if marksStart (b :: rest) then
        let (next, t) := appendByte w ⟨successor, successor, [], none⟩ b.1 s
        readBytes w next rest t
      else s.putIntakeContext w (.seeking none)
    | _ => s

/-- R110: a window write is tested as a candidate start. -/
def testCandidate (w : Fin 4) (start : Nat) (bytes : List (Byte × Bool)) (s : State) : State :=
  if start % 4 = 0 ∧ marksStart bytes = true then
    readBytes w .append bytes (s.putIntakeContext w (.assembling ⟨start, start, [], none⟩))
  else s

/-- R110: a context in SEEKING takes a window write. -/
def seek (w : Fin 4) (successor : Option Nat) (start : Nat) (bytes : List (Byte × Bool)) (s : State) : State :=
  let t := s.putIntakeContext w (.seeking none)
  match successor with
  | some a =>
      if start ≤ a ∧ a < start + bytes.length ∧ marksStart (bytes.drop (a - start)) = true then
        readBytes w .append (bytes.drop (a - start)) (t.putIntakeContext w (.assembling ⟨a, a, [], none⟩))
      else testCandidate w start bytes t
  | none => testCandidate w start bytes t

/-- R111, R112: a context in ASSEMBLING takes a window write. -/
def continueAssembly (w : Fin 4) (a : Assembly) (start : Nat) (bytes : List (Byte × Bool)) (s : State) : State :=
  if start = a.expected ∧ bytes.all (·.2) = true then readBytes w .append bytes s
  else
    testCandidate w start bytes (noteFormat w a.start .discontinuity (s.putIntakeContext w (.seeking none)))

/-- R107, R109: a window write is handed to the window's context. -/
def takeWindowWrite (w : Fin 4) (start : Nat) (bytes : List (Byte × Bool)) (s : State) : State :=
  match (s.sectionWindow w).context with
  | .unset | .shed => s
  | .seeking successor => seek w successor start bytes s
  | .assembling a => continueAssembly w a start bytes s

/-- The part of a run of bytes from `start` that lies in `size` bytes from `base`: its own start and its
bytes; none where it is empty (R107). -/
def partWithin {α : Type} (base size start : Nat) (bytes : List α) : Option (Nat × List α) :=
  let lo := max start base
  let hi := min (start + bytes.length) (base + size)
  if lo < hi then some (lo, (bytes.drop (lo - start)).take (hi - lo)) else none

/-- R107: the window write of one window. -/
def handWindow (start : Nat) (bytes : List (Byte × Bool)) (s : State) (w : Fin 4) : State :=
  let win := s.sectionWindow w
  if win.set then
    match partWithin win.base win.size start bytes with
    | some part => takeWindowWrite w part.1 part.2 s
    | none => s
  else s

/-- R107: a stream write burst is divided into window writes. -/
def snoopStream (start : Nat) (bytes : List (Byte × Bool)) (s : State) : State :=
  allSections.foldl (handWindow start bytes) s

/-! ### The parser (R118, R119) -/

/-- R119: a record with a malformed body is discarded, with INTAKE_FORMAT. -/
def badBody (r : QueuedRecord) (s : State) : State := noteFormat r.window r.start .body s

/-- R119 to R122: the effect of a record. -/
def applyRecord (r : QueuedRecord) (s : State) : State :=
  match r.code.toNat with
  | 0xC1 =>
    match readService s.rating.schemes r.body with
    | some d => if d.key.network = 0xFFFF then s else takeSection d s
    | none => badBody r s
  | 0xC2 =>
    match readTime r.body with
    | some (day, second) => takeBroadcastTime day second s
    | none => badBody r s
  | 0xC3 =>
    match readOffset r.body with
    | some offset => takeOffset offset s
    | none => badBody r s
  | _ => s

/-- R116, R118: the oldest record leaves the queue, the resume test is made and the next parse begins. -/
def dequeue (s : State) : State :=
  let t := { s with intake := { s.intake with
    queue := s.intake.queue.tail, parsing := !s.intake.queue.tail.isEmpty } }
  if t.intake.flow = .halted ∧ t.intake.queue.length ≤ t.intake.resumeLevel then resumeIntake t else t

/-- R118: a parse completes. -/
def completeParse (s : State) : State :=
  match s.intake.parsing, s.intake.queue with
  | true, r :: _ => dequeue (applyRecord r s)
  | _, _ => s

end Sys2Proof.Machine
end

