-- ==== Sys2Proof/Machine/Profiles.lean ====
section
/-! DEFINITION. Profile records and the image unit (chapter 4): the image's body in both directions
(section 12.5), export and import completions, and the effects of the profile commands. -/

namespace Sys2Proof.Machine

open Sys2Proof

/-! ### The image body (section 12.5) -/

/-- A curfew slot in five bytes; bit 7 of the days mask marks a held window. -/
def curfewField : Option Curfew → List Byte
  | some w => [w.days ||| 0x80] ++ nat16 w.startMinute ++ nat16 w.endMinute
  | none => [0, 0, 0, 0, 0]

/-- An allowance in two bytes, 0xFFFF for UNLIMITED (R187). -/
def allowanceField : Option Nat → List Byte
  | some a => nat16 a
  | none => nat16 0xFFFF

/-- The sixty body bytes of a record. -/
def profileBody (p : Profile) : List Byte :=
  nat8 1 ++ nat8 (profileStateCode p.state)
    ++ nat8 (ceilingCode p.ceiling).1 ++ nat8 (ceilingCode p.ceiling).2 ++ [p.blockMask]
    ++ nat8 (policyCode p.unrated) ++ nat8 (policyCode p.scheme) ++ nat8 (policyCode p.absent)
    ++ nat8 p.pendingLimit ++ nat8 0
    ++ allowanceField p.allowance ++ nat16 p.carryCap ++ nat16 p.lead
    ++ nat8 p.rates[0] ++ nat8 p.rates[1] ++ nat8 p.rates[2] ++ nat8 p.rates[3]
    ++ curfewField p.curfews[0] ++ curfewField p.curfews[1] ++ curfewField p.curfews[2] ++ nat8 0
    ++ nat32 p.remaining ++ nat32 p.charged ++ nat16 p.granted ++ nat16 0
    ++ dayField4 p.budgetDay ++ List.replicate 8 0

/-- R80: the image of a record: its body and its check word. -/
def profileImage (salt : BitVec 64) (p : Profile) : List Byte :=
  profileBody p ++ bytes32 (imageCheck salt (profileBody p))

/-- R84: a number of an image, none above its limit. -/
def atMost (hi n : Nat) : Option Nat := if n ≤ hi then some n else none

/-- R84: the ceiling of an image. For OPEN and CLOSED the age byte is not read, be it 0 or not (log 49). -/
def imageCeiling (kind age : Byte) : Option Ceiling :=
  match kind.toNat with
  | 0 => (atMost 21 age.toNat).map .age
  | 1 => some .opened
  | 2 => some .closed
  | _ => none

/-- R84: the allowance of an image. -/
def imageAllowance (a : Half) : Option (Option Nat) :=
  if a = 0xFFFF then some none else (atMost 1440 a.toNat).map some

/-- R77, R84: a window is legal: a day flag set, minutes to 1,439, the end other than the start. -/
def legalWindow (days : Byte) (startMinute endMinute : Nat) : Bool :=
  decide (days &&& 0x7F ≠ 0 ∧ startMinute ≤ 1439 ∧ endMinute ≤ 1439 ∧ endMinute ≠ startMinute)

/-- R84: a curfew slot of an image; with bit 7 clear it is empty (log 38). -/
def imageCurfew (image : List Byte) (at_ : Nat) : Option (Option Curfew) :=
  let days := byteAt image at_
  let startMinute := (halfAt image (at_ + 1)).toNat
  let endMinute := (halfAt image (at_ + 3)).toNat
  if days.getLsbD 7 then
    if legalWindow days startMinute endMinute then some (some ⟨days &&& 0x7F, startMinute, endMinute⟩)
    else none
  else some none

/-- R84, R187: the budget day of an image. -/
def imageDay (w : Word) : Option (Option Nat) :=
  if w = 0xFFFFFFFF then some none else (atMost 65535 w.toNat).map some

/-- R84: the state of an image, ACTIVE or SUSPENDED. -/
def imageState (b : Byte) : Option ProfileState :=
  match profileStateOf b with
  | some .active => some .active
  | some .suspended => some .suspended
  | _ => none

/-- R84: the four rates of an image. -/
def imageRates (image : List Byte) : Option (Vector Nat 4) := do
  let r0 ← atMost 8 (byteAt image 16).toNat
  let r1 ← atMost 8 (byteAt image 17).toNat
  let r2 ← atMost 8 (byteAt image 18).toNat
  let r3 ← atMost 8 (byteAt image 19).toNat
  some #v[r0, r1, r2, r3]

/-- R84: the three curfew slots of an image. -/
def imageCurfews (image : List Byte) : Option (Vector (Option Curfew) 3) := do
  let c0 ← imageCurfew image 20
  let c1 ← imageCurfew image 25
  let c2 ← imageCurfew image 30
  some #v[c0, c1, c2]

/-- R84, R85: the record of an image whose fields are legal, with R, C and G clamped. -/
def imageRecord (image : List Byte) : Option Profile := do
  let state ← imageState (byteAt image 1)
  let ceiling ← imageCeiling (byteAt image 2) (byteAt image 3)
  let unrated ← policyOf (byteAt image 5)
  let scheme ← policyOf (byteAt image 6)
  let absent ← policyOf (byteAt image 7)
  let pendingLimit ← atMost 60 (byteAt image 8).toNat
  let allowance ← imageAllowance (halfAt image 10)
  let carryCap ← atMost 720 (halfAt image 12).toNat
  let lead ← atMost 900 (halfAt image 14).toNat
  let rates ← imageRates image
  let curfews ← imageCurfews image
  let budgetDay ← imageDay (wordAt image 48)
  some
    { state, ceiling, blockMask := byteAt image 4, unrated, scheme, absent, pendingLimit, allowance,
      carryCap, lead, rates, curfews
      remaining := min Config.quartersPerDay (wordAt image 36).toNat
      charged := min Config.quartersPerDay (wordAt image 40).toNat
      granted := min 1440 (halfAt image 44).toNat
      budgetDay }

/-- R85: some of R, C and G of an image were clamped. -/
def imageClamped (image : List Byte) : Bool :=
  decide (Config.quartersPerDay < (wordAt image 36).toNat
    ∨ Config.quartersPerDay < (wordAt image 40).toNat ∨ 1440 < (halfAt image 44).toNat)

/-- R84: the check word and the format code of an image are right. -/
def imageSealed (salt : BitVec 64) (image : List Byte) : Bool :=
  decide (wordAt image 60 = imageCheck salt (image.take 60)) && decide (byteAt image 0 = 0x01)

/-- R84: the record an image installs; none is BAD_IMAGE. -/
def readImage (salt : BitVec 64) (image : List Byte) : Option Profile :=
  if imageSealed salt image then imageRecord image else none

/-! ### Completions (R82, R84 to R87) -/

/-- R73: the result data of a profile command: state, R and B. -/
def profileData (n : Fin 8) (s : State) : List Byte :=
  nat8 (profileStateCode (s.profile n).state) ++ nat32 (s.profile n).remaining
    ++ dayField4 (s.profile n).budgetDay

/-- R82: the completion of an export. -/
def completeExport (source : Fin 8) (slot : Fin 16) (snapshot : Profile) (s : State) : State :=
  let t := { s with image := ⟨.idle, some (profileImage s.inputs.salt snapshot)⟩ }
  t.finishResult slot .doneOk (nat8 source.val)

/-- R86: the installed budget day is settled against P. -/
def settleInstalled (n : Fin 8) (s : State) : State :=
  match s.time.profileDay with
  | none => s
  | some day =>
    match (s.profile n).settlement day with
    | .keep => s
    | .adopt => s.putProfile n { s.profile n with budgetDay := some day }
    | .roll => rollOver n day s

/-- R87: exhaustion of an installed account. -/
def noteInstalledExhaustion (n : Fin 8) (s : State) : State :=
  if (s.profile n).exhausted then raiseExhausted n s else s

/-- R85 to R87: an image is installed into a slot, settled and evaluated. -/
def installImage (n : Fin 8) (p : Profile) (s : State) : State :=
  evaluateProfile n (noteInstalledExhaustion n (settleInstalled n (s.putProfile n p)))

/-- The image unit goes to IDLE. -/
def imageIdle (s : State) : State := { s with image := { s.image with operation := .idle } }

/-- R84 to R87: the completion of an import. -/
def completeImport (target : Fin 8) (slot : Fin 16) (image : List Byte) (s : State) : State :=
  match readImage s.inputs.salt image with
  | none => (imageIdle s).finishResult slot .badImage []
  | some p =>
    let t := imageIdle (installImage target p s)
    t.finishResult slot (doneOr (imageClamped image)) (profileData target t)

/-! ### The effects of the profile commands (R73 to R78) -/

/-- R73: the checks every profile command makes first, then its own act on the slot. -/
def onProfile (profile : Byte) (act : Fin 8 → State → State × Response) (s : State) : State × Response :=
  match profileSlotOf profile with
  | none => refuse .badField s
  | some n => if s.image.operation.importsInto n then refuse .busy s else act n s

/-- R73: a profile command is carried out: the record is written, and the outputs bound to the slot are
evaluated; its result data follow. -/
def writeProfile (n : Fin 8) (p : Profile) (clamped : Bool) (s : State) : State × Response :=
  let t := evaluateProfile n (noteExhaustion n (s.profile n) (s.putProfile n p))
  complete clamped (profileData n t) t

/-- R75: the record with the seven time settings written, and R adjusted where it holds an account. -/
def Profile.withTime (p : Profile) (allowance : Option Nat) (carryCap lead : Nat) (rates : Vector Nat 4) :
    Profile :=
  { p with
    allowance := allowance
    carryCap := carryCap
    lead := lead
    rates := rates
    remaining :=
      if p.state = .empty then p.remaining
      else adjustedRemaining p.allowance allowance p.remaining p.charged }

/-- R77: the record with one curfew slot written. -/
def Profile.withCurfew (p : Profile) (slot : Fin 3) (w : Option Curfew) : Profile :=
  { p with curfews := p.curfews.set slot w }

/-- R60, R78: a SUSPENDED slot becomes ACTIVE and is settled against P. -/
def resumeProfile (n : Fin 8) (s : State) : State :=
  let active := s.putProfile n { s.profile n with state := .active }
  match s.time.profileDay with
  | some day => settleProfile n day active
  | none => active

/-- R69, R72, R78: a slot becomes EMPTY, and its outputs UNSUPERVISED. -/
def emptyProfile (n : Fin 8) (s : State) : State := unbindProfile n (s.putProfile n .default)

/-- R78: the effect of SET_PROFILE_STATE, before the evaluation of the bound outputs. -/
def changeProfileState (n : Fin 8) (state : ProfileState) (s : State) : State :=
  let p := s.profile n
  match p.state, state with
  | .empty, .empty | .active, .active | .suspended, .suspended => s
  | .empty, _ =>
      noteExhaustion n p (s.putProfile n (p.openedAccount state s.time.profileDay))
  | .active, .suspended => s.putProfile n { p with state := .suspended }
  | .suspended, .active => resumeProfile n s
  | _, .empty => emptyProfile n s

end Sys2Proof.Machine
end

