-- ==== Sys2Proof/Machine/Pin.lean ====
section
/-! DEFINITION. The PIN authority (chapter 10): parent sessions, entries from their opening to their
ending, digits and judgements, limits, lockout and the LOCK key. -/

namespace Sys2Proof.Machine

open Sys2Proof

/-! ### The parent session (R174) -/

/-- R174: the session is opened, or an open one runs its full length again. -/
def openSession (s : State) : State :=
  let t := s.putPin { s.pin with sessionOpen := true, sessionRemaining := s.pin.sessionLength }
  if s.pin.sessionOpen then t else recomputeLamp t

/-- R174: an open session closes, with SESSION_CLOSED and a new lamp computation. That the seconds left
become 0 is the model's choice (log 33). -/
def closeSession (s : State) : State :=
  if s.pin.sessionOpen then
    recomputeLamp
      (raise .sessionClosed 0 [] (s.putPin { s.pin with sessionOpen := false, sessionRemaining := 0 }))
  else s

/-- R174, R180: a privileged command taken under an open session sets the remaining seconds to the full
length. -/
def slideSession (s : State) : State :=
  if s.pin.sessionOpen then s.putPin { s.pin with sessionRemaining := s.pin.sessionLength } else s

/-! ### Opening and ending an entry (R166, R168) -/

/-- R166 step 6: an entry begins, and ROUTE_KEYS is offered with the whole-entry limit. -/
def beginEntry (purpose : Purpose) (slot : Fin 16) (staged : Option Staged) (s : State) : State :=
  offerMessage (.routeKeys (BitVec.ofNat 8 Config.wholeEntrySeconds))
    (s.putPin
      { s.pin with
        matcher := .routing
        entry := { PinEntry.blank with
          purpose := purpose, slot := slot, takeStamp := s.time.run, staged := staged } })

/-- The digits typed so far and both marks are cleared. -/
def PinEntry.cleared (e : PinEntry) : PinEntry := { e with buffer := [], damaged := false, overlong := false }

/-- R168: an entry ends with an outcome: it is held, the digits are cleared, the matcher goes to
RELEASING, the key FIFO is emptied and RELEASE_KEYS is offered. -/
def endEntry (outcome : CommandOutcome) (data : List Byte) (s : State) : State :=
  let ended := s.putPin
    { s.pin with
      matcher := .releasing
      entry := { s.pin.entry.cleared with
        firstCollection := none, staged := none, outcome := outcome, outcomeData := data } }
  offerMessage .releaseKeys (ended.putPanel { ended.panel with fifo := [] })

/-- The entry's fields while no entry is in progress. -/
def leaveEntry (matcher : Matcher) (s : State) : State :=
  s.putPin { s.pin with matcher := matcher, entry := .blank }

/-- R168: the completion of RELEASING: LOCKOUT or IDLE, the result, and ENTRY_ENDED. -/
def releasingCompleted (s : State) : State :=
  let e := s.pin.entry
  let left := leaveEntry (if e.outcome = .lockedOut then .lockout else .idle) s
  raise .entryEnded 0 (nat8 (purposeCode e.purpose) ++ nat8 (commandOutcomeCode e.outcome))
    (left.finishResult e.slot e.outcome e.outcomeData)

/-- R168: ROUTE_KEYS succeeded; dropped while the matcher is not in ROUTING. -/
def keysRouted (s : State) : State :=
  if s.pin.matcher = .routing then
    s.putPin
      { s.pin with matcher := .collecting, entry := { s.pin.entry with lastKeyStamp := s.time.run } }
  else s

/-- R168: ROUTE_KEYS failed; dropped while the matcher is not in ROUTING. -/
def routingFailed (outcome : CommandOutcome) (s : State) : State :=
  if s.pin.matcher = .routing then endEntry outcome [] s else s

/-- R168: RELEASE_KEYS ended, in either way. -/
def keysReleased (s : State) : State :=
  if s.pin.matcher = .releasing then releasingCompleted s else s

/-! ### Staged actions (R167) -/

/-- R167, section 12.3: the staged action of a GRANT is checked at the take. -/
def checkStaged (output profile stagedKind : Byte) (minutes : Half) (kind scope : Byte) (endDay : Half)
    (endSecond : Word) (s : State) : Except CommandOutcome Staged :=
  match stagedKind.toNat with
  | 0 => (checkGrant profile minutes s).map (fun g => .grant g.1 g.2.1 g.2.2)
  | 1 => (checkPush output kind scope endDay endSecond s).map .push
  | _ => .error .badField

/-- R167: a staged action is executed. -/
def executeStaged : Staged → State → State × CommandOutcome × List Byte
  | .grant n m clamped, s => executeGrant n m clamped s
  | .push p, s => executePush p s

/-! ### Keys (R169 to R171) -/

/-- Change the entry in progress. -/
def changePinEntry (f : PinEntry → PinEntry) (s : State) : State := s.putPin { s.pin with entry := f s.pin.entry }

/-- R170: the buffer matches the stored PIN. -/
def pinMatches (p : PinAuthority) : Bool := !p.entry.overlong && decide (p.stored = some p.entry.buffer)

/-- R170: on a match the purpose is executed and the entry ends. -/
def pinMatched (s : State) : State :=
  let t := s.putPin { s.pin with failures := 0 }
  match s.pin.entry.purpose, s.pin.entry.staged with
  | .session, _ => endEntry .doneOk [] (openSession t)
  | _, some a =>
      let (u, outcome, data) := executeStaged a t
      endEntry outcome data u
  | _, none => endEntry .doneOk [] t

/-- R170: on a mismatch a failure is counted; the third begins a lockout. -/
def pinMismatched (s : State) : State :=
  let p := s.pin
  if p.failures + 1 < 3 then
    raise .pinMismatch 0 []
      (s.putPin { p with failures := p.failures + 1, entry := p.entry.cleared })
  else
    endEntry .lockedOut []
      (raise .pinLockout 0 (nat16 (60 * 2 ^ p.step) ++ nat8 p.step)
        (s.putPin { p with failures := 0, step := min 4 (p.step + 1), timer := 60 * 2 ^ p.step }))

/-- R171: an OK of a PIN_CHANGE entry, in its first or its second collection. -/
def judgePinChange (s : State) : State :=
  let e := s.pin.entry
  match e.firstCollection with
  | none =>
      if e.overlong || decide (e.buffer.length < 4) then
        raise .pinMismatch 0 [] (changePinEntry PinEntry.cleared s)
      else changePinEntry (fun e => { e with firstCollection := some e.buffer, buffer := [] }) s
  | some first =>
      if e.overlong || decide (e.buffer ≠ first) then
        raise .pinMismatch 0 []
          (changePinEntry (fun e => { e.cleared with firstCollection := none }) s)
      else if authority s then
        endEntry .doneOk [] (s.putPin { s.pin with stored := some e.buffer })
      else endEntry .notAuthorised [] s

/-- R169: OK. -/
def okKey (s : State) : State :=
  if s.pin.entry.damaged then raise .pinDamaged 0 [] (changePinEntry PinEntry.cleared s)
  else if s.pin.entry.buffer.isEmpty then s
  else
    match s.pin.entry.purpose with
    | .pinChange => judgePinChange s
    | .session | .grant => if pinMatches s.pin then pinMatched s else pinMismatched s

/-- R169: a digit is appended, or marks the entry overlong. -/
def PinEntry.withDigit (e : PinEntry) (d : Digit) : PinEntry :=
  if e.buffer.length < 8 then { e with buffer := e.buffer ++ [d] } else { e with overlong := true }

/-- The digit a key code stands for. -/
def digitOf (code : Byte) : Option Digit :=
  if h : 0x30 ≤ code.toNat ∧ code.toNat ≤ 0x39 then some ⟨code.toNat - 0x30, by omega⟩ else none

/-- R169: a key carries a flag. -/
def Key.flagged (k : Key) : Bool := k.flags.any || k.overrun

/-- R169: the matcher acts on a key. -/
def actOnKey (k : Key) (s : State) : State :=
  if k.flagged then changePinEntry (fun e => { e with damaged := true }) s
  else
    match digitOf k.code, k.code.toNat with
    | some d, _ => changePinEntry (fun e => e.withDigit d) s
    | none, 0x08 => changePinEntry (fun e => { e with buffer := e.buffer.dropLast }) s
    | none, 0x1B => endEntry .cancelled [] s
    | none, 0x0D => okKey s
    | none, _ => s

/-- R169: in COLLECTING the oldest key is removed and acted on. -/
def takeKey (s : State) : State :=
  match s.pin.matcher, s.panel.fifo with
  | .collecting, k :: rest =>
      actOnKey k
        (changePinEntry (fun e => { e with lastKeyStamp := s.time.run })
          (s.putPanel { s.panel with fifo := rest }))
  | _, _ => s

/-! ### Limits, lockout and LOCK (R172, R173, R175) -/

/-- An entry is in ROUTING or COLLECTING. -/
def Matcher.entering : Matcher → Bool
  | .routing | .collecting => true
  | .idle | .releasing | .lockout => false

/-- R172: the whole-entry limit. -/
def wholeEntryLimit (s : State) : State :=
  if s.pin.matcher.entering && decide (Config.wholeEntrySeconds ≤ s.time.run - s.pin.entry.takeStamp) then
    endEntry .timedOut [] s
  else s

/-- R172: the inter-key limit. -/
def interKeyLimit (s : State) : State :=
  if s.pin.matcher = .collecting ∧ Config.interKeySeconds ≤ s.time.run - s.pin.entry.lastKeyStamp then
    endEntry .timedOut [] s
  else s

/-- R173: the end of the lockout. -/
def expireLockout (s : State) : State :=
  if s.pin.matcher = .lockout ∧ s.pin.timer = 0 then s.putPin { s.pin with matcher := .idle } else s

/-- R174: the end of the parent session. -/
def expireSession (s : State) : State :=
  if s.pin.sessionOpen && decide (s.pin.sessionRemaining = 0) then closeSession s else s

/-- R173, R174: the timers of the PIN authority fall by one at a second event. -/
def PinAuthority.ticked (p : PinAuthority) : PinAuthority :=
  { p with
    timer := if p.matcher = .lockout then p.timer - 1 else p.timer
    sessionRemaining := if p.sessionOpen then p.sessionRemaining - 1 else p.sessionRemaining }

/-- An entry in ROUTING or COLLECTING ends as CANCELLED (R175, R176). -/
def cancelEntry (s : State) : State := if s.pin.matcher.entering then endEntry .cancelled [] s else s

/-- R175: a LOCK is taken. -/
def takeLock (s : State) : State := cancelEntry (closeSession (raise .lockKey 0 [] s))

end Sys2Proof.Machine
end

