-- ==== Sys2Proof/Machine/Panel.lean ====
section
/-! DEFINITION. The panel link (chapter 9): the receiver with its listener states and the key FIFO, and
the transmitter with its messages, acknowledgements and outcomes. -/

namespace Sys2Proof.Machine

open Sys2Proof

/-! ### The transmitter (R162, R163) -/

/-- How a message ends (R163). -/
inductive MessageEnd where
  | succeeded | refused | timeout
  deriving DecidableEq, Repr

/-- R163: PANEL_SILENT of a message, with its command byte and the cause (R187: TIMEOUT, REFUSED). -/
def notePanelSilent (m : Message) (cause : Nat) (s : State) : State :=
  raise .panelSilent 0 ([messageCommand m] ++ nat8 cause) s

/-- R164: a LAMP failed: the record becomes UNKNOWN if no LAMP is queued. -/
def lampFailed (s : State) : State :=
  if s.panel.queue.any Message.isLamp then s else s.putPanel { s.panel with lampRecord := none }

/-- R163: the outcome of a message is handed on by its kind. -/
def handOutcome (m : Message) (e : MessageEnd) (s : State) : State :=
  match m, e with
  | .routeKeys _, .succeeded => keysRouted s
  | .routeKeys _, .refused => routingFailed .panelRefused s
  | .routeKeys _, .timeout => routingFailed .panelSilent s
  | .releaseKeys, .succeeded => keysReleased s
  | .releaseKeys, .refused => keysReleased (notePanelSilent m 1 s)
  | .releaseKeys, .timeout => keysReleased (notePanelSilent m 0 s)
  | .lamp _, .succeeded => s
  | .lamp _, .refused => lampFailed (notePanelSilent m 1 s)
  | .lamp _, .timeout => lampFailed (notePanelSilent m 0 s)

/-- R163: the message outstanding ends, and the transmitter goes to IDLE. -/
def endMessage (m : Message) (e : MessageEnd) (s : State) : State :=
  handOutcome m e (s.putPanel { s.panel with transmitter := .idle, outstanding := none })

/-- R162: an IDLE transmitter takes the oldest message; its address frame passes the holding stage into
the empty shift stage. -/
def startMessage (s : State) : State :=
  match s.panel.transmitter, s.panel.queue with
  | .idle, m :: rest =>
      s.putPanel
        { s.panel with
          queue := rest, outstanding := some m, transmitter := .sending, holding := none
          shifting := some ⟨s.panel.panelAddress, true⟩ }
  | _, _ => s

/-- R153, R162: the bits of a frame as the shift stage sends them. -/
def OutFrame.onLine (f : OutFrame) : LineFrame := lineFrame f.value f.address

/-- R161, R162: the frames of the message being sent, behind the address frame it began with. -/
def messageFrames (address : Option OutFrame) (m : Message) : List OutFrame :=
  address.toList ++ [⟨messageCommand m, false⟩, ⟨messageOperand m, false⟩]

/-- R162: the third frame has left, and the transmitter goes to AWAITING. -/
def messageSent (s : State) : State :=
  match s.panel.transmitter, s.panel.outstanding with
  | .sending, some m =>
      s.putPanel
        { s.panel with
          transmitter := .awaiting, holding := none, shifting := none
          sent := s.panel.sent ++ (messageFrames s.panel.shifting m).map OutFrame.onLine }
  | _, _ => s

/-- R163: the wait runs out. -/
def waitRunsOut (s : State) : State :=
  match s.panel.transmitter, s.panel.outstanding with
  | .awaiting, some m => endMessage m .timeout s
  | _, _ => s

/-- R163: an answer is matched against the outstanding message. -/
def takeAnswer (a : Answer) (echo : Byte) (s : State) : State :=
  match s.panel.transmitter, s.panel.outstanding with
  | .awaiting, some m =>
      if echo = messageCommand m then
        match a with
        | .acknowledgement => endMessage m .succeeded s
        | .refusal => endMessage m .refused s
      else s
  | _, _ => s

/-! ### The key FIFO (R159) -/

/-- R159: the newest entry is marked OVERRUN. -/
def markNewest (fifo : List Key) : List Key :=
  match fifo.getLast? with
  | some k => fifo.dropLast ++ [{ k with overrun := true }]
  | none => fifo

/-- R159: a key is offered to the FIFO. -/
def offerKey (code : Byte) (flags : FrameFlags) (s : State) : State :=
  if s.pin.matcher ≠ .collecting then s
  else if s.panel.fifo.length < Config.keyFifoCapacity then
    s.putPanel { s.panel with fifo := s.panel.fifo ++ [⟨code, flags, false⟩] }
  else s.putPanel { s.panel with fifo := markNewest s.panel.fifo }

/-! ### The receiver (R154 to R158) -/

/-- R156: PANEL_NOISE of a flagged frame, with its error flags and its address flag. -/
def noteNoise (f : ReceivedFrame) (s : State) : State :=
  if f.flags.any then raise .panelNoise 0 ([f.flags.code false] ++ [flagByte f.address]) s else s

/-- R156: the listener state an address frame selects. -/
def listenerFor (own : Byte) (f : ReceivedFrame) : ListenerState :=
  if f.flags.any then .asleep
  else if f.value = own then .attendingOwn
  else if f.value = 0 then .attendingAll
  else .asleep

/-- R156: an address frame is taken. -/
def takeAddressFrame (f : ReceivedFrame) (s : State) : State :=
  noteNoise f
    (s.putPanel
      { s.panel with listener := listenerFor s.panel.listenerAddress f, awaited := none })

/-- R157: an unflagged data frame in ATTENDING_OWN, with no answer awaiting its echo. -/
def takeOwnByte (b : Byte) (s : State) : State :=
  if b = 0x4C then takeLock s
  else if b = 0xF1 then s.putPanel { s.panel with awaited := some .acknowledgement }
  else if b = 0xF2 then s.putPanel { s.panel with awaited := some .refusal }
  else if b.toNat < 0x80 then offerKey b ⟨false, false, false⟩ s
  else s

/-- R157: a data frame in ATTENDING_OWN. -/
def takeOwnFrame (f : ReceivedFrame) (s : State) : State :=
  match s.panel.awaited with
  | some a =>
      let t := s.putPanel { s.panel with awaited := none }
      if f.flags.any then noteNoise f t else takeAnswer a f.value t
  | none => if f.flags.any then offerKey f.value f.flags (noteNoise f s) else takeOwnByte f.value s

/-- R158: a data frame in ATTENDING_ALL. -/
def takeAllFrame (f : ReceivedFrame) (s : State) : State :=
  if f.flags.any then noteNoise f s else if f.value = 0x4C then takeLock s else s

/-- R156 to R158: a data frame is taken by the listener state. -/
def takeDataFrame (f : ReceivedFrame) (s : State) : State :=
  match s.panel.listener with
  | .asleep | .fault => s
  | .attendingOwn => takeOwnFrame f s
  | .attendingAll => takeAllFrame f s

/-- R154, R155: a frame candidate ends: a false start is nothing, and FAULT takes no frame. -/
def receiveFrame (w : WireFrame) (s : State) : State :=
  match w.received with
  | none => s
  | some f =>
    if s.panel.listener = .fault then s
    else if f.address then takeAddressFrame f s
    else takeDataFrame f s

/-- R155: a break. A second one in FAULT changes nothing. -/
def takeBreak (s : State) : State :=
  if s.panel.listener = .fault then s
  else raise .panelBreak 0 [] (s.putPanel { s.panel with listener := .fault, awaited := none })

/-- R155: the line was high for a frame time in FAULT. -/
def recoverFault (s : State) : State :=
  if s.panel.listener = .fault then s.putPanel { s.panel with listener := .asleep } else s

end Sys2Proof.Machine
end

