-- ==== Sys2Proof/Machine/Owners.lean ====
section
/-! DEFINITION. What the owner of each host command does with it once the command unit has handed it
over (R180): the checks in their order, the effect, the outcome and the result data. -/

namespace Sys2Proof.Machine

open Sys2Proof

/-! ### The Gated Path: SET_WINDOW, COMMIT_LAYOUT (R8, R10) -/

/-- The window of a kind in a pair. -/
def WindowPair.get (p : WindowPair) : WindowKind → Window
  | .picture => p.picture
  | .sound => p.sound

/-- Replace the window of a kind in a pair. -/
def WindowPair.put (p : WindowPair) (k : WindowKind) (w : Window) : WindowPair :=
  match k with
  | .picture => { p with picture := w }
  | .sound => { p with sound := w }

/-- The window of an output and a kind (R6). -/
def State.window (s : State) (o : Output) (k : WindowKind) : Window := (s.lanes.windows.get o).get k

/-- Write a window. -/
def State.putWindow (s : State) (o : Output) (k : WindowKind) (w : Window) : State :=
  { s with lanes := { s.lanes with windows := s.lanes.windows.put o ((s.lanes.windows.get o).put k w) } }

/-- The six windows by name, in output, then kind, order. -/
def allWindows : List (Output × WindowKind) :=
  allOutputs.flatMap (fun o => [(o, .picture), (o, .sound)])

/-- Two ranges of bytes share a byte. -/
def rangesMeet (base size base' size' : Nat) : Bool := decide (base < base' + size' ∧ base' < base + size)

/-- R8 step 4: a range shares a byte with another SET window. -/
def overlapsWindow (o : Output) (k : WindowKind) (base size : Nat) (s : State) : Bool :=
  allWindows.any (fun n =>
    decide (n ≠ (o, k)) && (s.window n.1 n.2).set
      && rangesMeet base size (s.window n.1 n.2).base (s.window n.1 n.2).size)

/-- R8 step 3: a base and a size a presentation window may take. -/
def windowFits (base size : Nat) : Bool :=
  decide (base % 256 = 0 ∧ size % 256 = 0 ∧ size ≤ Config.windowSizeMax ∧ base + size ≤ Config.addressSpace)

/-- R8 step 5: the fill word a window holds. -/
def fillFor (k : WindowKind) (fill : Word) : Word :=
  match k with
  | .picture => fill
  | .sound => 0

/-- R8. -/
def obeySetWindow (output kind : Byte) (base size fill : Word) (s : State) : State × Response :=
  match outputOf output, windowKindOf kind with
  | some o, some k =>
      if size.toNat = 0 then complete false [] (s.putWindow o k .unset)
      else if !windowFits base.toNat size.toNat then refuse .badField s
      else if overlapsWindow o k base.toNat size.toNat s then refuse .overlap s
      else complete false [] (s.putWindow o k ⟨true, base.toNat, size.toNat, fillFor k fill⟩)
  | _, _ => refuse .badField s

/-- R10. -/
def obeyCommitLayout (s : State) : State × Response :=
  complete false [] { s with lanes := { s.lanes with layout := .committed } }

/-! ### Verdicts: BIND_SERVICE, BIND_PROFILE (R26 to R28) -/

/-- R26. -/
def obeyBindService (output : Byte) (key : ServiceKey) (s : State) : State × Response :=
  match outputOf output with
  | none => refuse .badField s
  | some o =>
    let (n, t) := bindService o key s
    complete false (nat8 n.val) t

/-- R27. -/
def obeyUnbindService (output : Byte) (s : State) : State × Response :=
  match outputOf output with
  | none => refuse .badField s
  | some o => complete false [] (unbindService o s)

/-- R28: the profile binding of an output is set, and the output is evaluated. -/
def setBinding (o : Output) (binding : Option (Fin 8)) (s : State) : State :=
  evaluate o (s.putContext o { s.context o with profile := binding })

/-- R28. -/
def obeyBindProfile (output profile : Byte) (s : State) : State × Response :=
  match outputOf output, profileBindingOf profile with
  | some o, some none => complete false [] (setBinding o none s)
  | some o, some (some n) =>
      if (s.profile n).state = .empty then refuse .noSuch s
      else complete false [] (setBinding o (some n) s)
  | _, _ => refuse .badField s

/-! ### Viewing Time: GRANT_TIME (R62) -/

/-- R62. -/
def obeyGrantTime (profile : Byte) (minutes : Half) (s : State) : State × Response :=
  match checkGrant profile minutes s with
  | .error e => refuse e s
  | .ok (n, m, clamped) => complete clamped (grantData n (grant n m s)) (grant n m s)

/-! ### Profiles (R74 to R78, R81, R83) -/

/-- R74. -/
def obeySetProfileLimits (profile ceilingKind age blockMask unrated scheme absent pendingLimit : Byte)
    (s : State) : State × Response :=
  onProfile profile
    (fun n s =>
      match ceilingOf ceilingKind age, policyOf unrated, policyOf scheme, policyOf absent with
      | some ceiling, some u, some sc, some ab =>
          let limit := clampTo 60 pendingLimit.toNat
          writeProfile n
            { s.profile n with
              ceiling := ceiling.1, blockMask := blockMask, unrated := u, scheme := sc, absent := ab
              pendingLimit := limit.1 }
            (ceiling.2 || limit.2) s
      | _, _, _, _ => refuse .badField s) s

/-- R75: the allowance an operand names, clamped, and whether it was. -/
def clampedAllowance (a : Half) : Option Nat × Bool :=
  match allowanceOf a with
  | none => (none, false)
  | some n => (some (clampTo 1440 n).1, (clampTo 1440 n).2)

/-- R75. -/
def obeySetProfileTime (profile : Byte) (allowance carryCap lead : Half) (rate0 rate1 rate2 rate3 : Byte)
    (s : State) : State × Response :=
  onProfile profile
    (fun n s =>
      let a := clampedAllowance allowance
      let k := clampTo 720 carryCap.toNat
      let l := clampTo 900 lead.toNat
      let r0 := clampTo 8 rate0.toNat
      let r1 := clampTo 8 rate1.toNat
      let r2 := clampTo 8 rate2.toNat
      let r3 := clampTo 8 rate3.toNat
      writeProfile n ((s.profile n).withTime a.1 k.1 l.1 #v[r0.1, r1.1, r2.1, r3.1])
        (a.2 || k.2 || l.2 || r0.2 || r1.2 || r2.2 || r3.2) s) s

/-- R77 step 1: the curfew slot an operand names. -/
def curfewSlotOf (b : Byte) : Option (Fin 3) := if h : b.toNat < 3 then some ⟨b.toNat, h⟩ else none

/-- R77, with the clear flag clear. -/
def obeySetCurfew (profile slot days : Byte) (startMinute endMinute : Half) (s : State) : State × Response :=
  onProfile profile
    (fun n s =>
      match curfewSlotOf slot with
      | none => refuse .badField s
      | some c =>
        if legalWindow days startMinute.toNat endMinute.toNat then
          writeProfile n
            ((s.profile n).withCurfew c (some ⟨days &&& 0x7F, startMinute.toNat, endMinute.toNat⟩)) false s
        else refuse .badField s) s

/-- R77, with the clear flag set. -/
def obeyClearCurfew (profile slot : Byte) (s : State) : State × Response :=
  onProfile profile
    (fun n s =>
      match curfewSlotOf slot with
      | none => refuse .badField s
      | some c => writeProfile n ((s.profile n).withCurfew c none) false s) s

/-- R78. -/
def obeySetProfileState (profile state : Byte) (s : State) : State × Response :=
  onProfile profile
    (fun n s =>
      match profileStateOf state with
      | none => refuse .badField s
      | some new =>
        let t := evaluateProfile n (changeProfileState n new s)
        complete false (profileData n t) t) s

/-- R79: the image unit is not IDLE. -/
def imageBusy (s : State) : Bool := decide (s.image.operation ≠ .idle)

/-- R81. -/
def obeyExportProfile (profile : Byte) (slot : Fin 16) (s : State) : State × Response :=
  match profileSlotOf profile with
  | none => refuse .badField s
  | some n =>
    if imageBusy s then refuse .busy s
    else if (s.profile n).state = .empty then refuse .noSuch s
    else ({ s with image := { s.image with operation := .exporting n slot (s.profile n) } }, .long)

/-- R177, section 12.3: the image in the import area of the command shadow. -/
def importArea (s : State) : List Byte := s.command.shadow.readRun 0x200 64

/-- R83. -/
def obeyImportProfile (profile : Byte) (slot : Fin 16) (s : State) : State × Response :=
  match profileSlotOf profile with
  | none => refuse .badField s
  | some n =>
    if imageBusy s then refuse .busy s
    else ({ s with image := { s.image with operation := .importing n slot (importArea s) } }, .long)

/-! ### Override Stacks (R92, R94, R95) -/

/-- R92. -/
def obeyPushOverride (output kind scope : Byte) (endDay : Half) (endSecond : Word) (s : State) :
    State × Response :=
  match checkPush output kind scope endDay endSecond s with
  | .error e => refuse e s
  | .ok p =>
    let e := p.entry p.endTime .session
    let t := pushEntry p.output e s
    complete p.clamped (pushData p.output e t) t

/-- R94. -/
def obeyPopOverride (output : Byte) (s : State) : State × Response :=
  match outputOf output with
  | none => refuse .badField s
  | some o =>
    if (s.context o).stack.isEmpty then refuse .emptyStack s
    else
      let t := popStack o s
      complete false
        (nat8 ((s.context o).stack.length - (t.context o).stack.length) ++ nat8 (t.context o).stack.length) t

/-- R95. -/
def obeyClearOverrides (output : Byte) (s : State) : State × Response :=
  match outputOf output with
  | none => refuse .badField s
  | some o => complete false (nat8 (s.context o).stack.length) (clearStack o s)

/-! ### Programme Information Intake (R106, R117) -/

/-- R106 step 4: a range shares a byte with another SET section window. -/
def overlapsSection (w : Fin 4) (base size : Nat) (s : State) : Bool :=
  allSections.any (fun v =>
    decide (v ≠ w) && (s.sectionWindow v).set
      && rangesMeet base size (s.sectionWindow v).base (s.sectionWindow v).size)

/-- R106 step 3: a base and a size a section window may take. -/
def sectionFits (base size : Nat) : Bool :=
  decide (base % 256 = 0 ∧ size % 256 = 0 ∧ 1024 ≤ size ∧ size ≤ 65536 ∧ base + size ≤ Config.addressSpace)

/-- R106 step 5: the context a window that becomes SET begins with. -/
def freshContext (f : FlowState) : IntakeContext :=
  match f with
  | .flowing => .seeking none
  | .halted => .shed

/-- R106. -/
def obeySetSectionWindow (number : Byte) (base size : Word) (s : State) : State × Response :=
  if h : number.toNat < 4 then
    let w : Fin 4 := ⟨number.toNat, h⟩
    if size.toNat = 0 then complete false [] (s.putSectionWindow w .unset)
    else if !sectionFits base.toNat size.toNat then refuse .badField s
    else if overlapsSection w base.toNat size.toNat s then refuse .overlap s
    else
      complete false []
        (s.putSectionWindow w ⟨true, base.toNat, size.toNat, freshContext s.intake.flow⟩)
  else refuse .badField s

/-- R117. -/
def obeySetIntakeLevels (halt resume : Byte) (s : State) : State × Response :=
  let h := clampIn 1 8 halt.toNat
  let l := clampTo (h.1 - 1) resume.toNat
  complete (h.2 || l.2) []
    (applyLevels { s with intake := { s.intake with haltLevel := h.1, resumeLevel := l.1 } })

/-! ### The Rating Table (R135, R137) -/

/-- R135. -/
def obeyDeclarePlayback (stream service eventId : Half) (cls age flags genre : Byte) (s : State) :
    State × Response :=
  match classOf cls age, genreOf genre with
  | some c, some g =>
      let (n, t) := declareEvent ⟨0xFFFF, stream, service⟩ eventId ⟨c.1, flags, g⟩ s
      complete c.2 (nat8 n.val) t
  | _, _ => refuse .badField s

/-- R137. -/
def obeySetScheme (scheme : Byte) (ages : Vector Byte 16) (s : State) : State × Response :=
  if h : 1 ≤ scheme.toNat ∧ scheme.toNat ≤ 8 then
    complete (ages.toList.any (fun b => (schemeEntryOf b).2)) []
      (writeScheme ⟨scheme.toNat - 1, by omega⟩ (ages.map (fun b => (schemeEntryOf b).1)) s)
  else refuse .badField s

/-! ### Time Base (R144, R151) -/

/-- R144: the result data of SET_TIME. -/
def timeData (t : TimeBase) : List Byte :=
  nat8 (timeSourceCode t.source) ++ wallField t.source t.day t.second ++ dayField4 t.profileDay

/-- R144. -/
def obeySetTime (day : Half) (second offset : Word) (s : State) : State × Response :=
  if 86399 < second.toNat then refuse .badField s
  else
    let t := setWall day.toNat second.toNat .declared (offsetOf offset).1 s
    complete (offsetOf offset).2 (timeData t.time) t

/-- R151. -/
def obeySetDayStart (minute : Half) (s : State) : State × Response :=
  let m := clampTo 1439 minute.toNat
  let t := takeDayStart m.1 s
  complete m.2 (nat16 t.time.dayStart ++ dayField4 t.time.profileDay) t

/-! ### Panel Link (R160) -/

/-- R160. -/
def obeySetPanelAddresses (listener panel : Byte) (s : State) : State × Response :=
  if listener = 0 ∨ panel = 0 then refuse .badField s
  else complete false [] (s.putPanel { s.panel with listenerAddress := listener, panelAddress := panel })

/-! ### PIN Authority and Parent Sessions (R166, R174, R176) -/

/-- R166 step 2: why no entry can be opened; none where the matcher is IDLE. -/
def entryRefusal (m : Matcher) : Option CommandOutcome :=
  match m with
  | .idle => none
  | .lockout => some .lockedOut
  | .routing | .collecting | .releasing => some .busy

/-- R166, purpose SESSION. -/
def obeyOpenSession (slot : Fin 16) (s : State) : State × Response :=
  match entryRefusal s.pin.matcher with
  | some e => refuse e s
  | none =>
    if authority s then complete false [] (openSession s)
    else (beginEntry .session slot none s, .long)

/-- R166, R167, purpose GRANT. -/
def obeyOpenGrant (output profile stagedKind : Byte) (minutes : Half) (kind scope : Byte) (endDay : Half)
    (endSecond : Word) (slot : Fin 16) (s : State) : State × Response :=
  match entryRefusal s.pin.matcher with
  | some e => refuse e s
  | none =>
    match checkStaged output profile stagedKind minutes kind scope endDay endSecond s with
    | .error e => refuse e s
    | .ok a =>
      if authority s then
        let (t, outcome, data) := executeStaged a s
        (t, .done outcome data)
      else (beginEntry .grant slot (some a) s, .long)

/-- R166, R171, purpose PIN_CHANGE. -/
def obeyOpenPinChange (slot : Fin 16) (s : State) : State × Response :=
  match entryRefusal s.pin.matcher with
  | some e => refuse e s
  | none =>
    if authority s then (beginEntry .pinChange slot none s, .long) else refuse .notAuthorised s

/-- R166: OPEN_PIN_ENTRY by its purpose. -/
def obeyOpenPinEntry (output profile purpose stagedKind : Byte) (minutes : Half) (kind scope : Byte)
    (endDay : Half) (endSecond : Word) (slot : Fin 16) (s : State) : State × Response :=
  match purposeOf purpose with
  | none => refuse .badField s
  | some .session => obeyOpenSession slot s
  | some .grant => obeyOpenGrant output profile stagedKind minutes kind scope endDay endSecond slot s
  | some .pinChange => obeyOpenPinChange slot s

/-- R174. -/
def obeyCloseSession (s : State) : State × Response := complete false [] (closeSession s)

/-- R174. -/
def obeySetSessionLength (seconds : Half) (s : State) : State × Response :=
  let n := clampIn 60 1800 seconds.toNat
  complete n.2 [] (slideSession (s.putPin { s.pin with sessionLength := n.1 }))

/-- R88: an image operation is abandoned, and its command ends as CANCELLED. -/
def cancelImage (s : State) : State :=
  let t := { s with image := ⟨.idle, none⟩ }
  match s.image.operation with
  | .idle => t
  | .exporting _ slot _ | .importing _ slot _ => t.finishResult slot .cancelled []

/-- R46, R176: an output context at FACTORY_CLEAR, before its evaluation: the service binding is kept, and
pending-since, a retained item that R46 does not name, takes its cold value (log 46). -/
def OutputContext.cleared (c : OutputContext) : OutputContext :=
  { c with profile := none, pendingSince := 0, stack := [] }

/-- R10, R46, R88, R176: the windows, the profiles, the output contexts, the scheme maps, the time base
but run seconds, and the panel addresses take their cold values. -/
def clearRetained (s : State) : State :=
  { s with
    lanes := { s.lanes with windows := .const ⟨.unset, .unset⟩, layout := .opened }
    profiles := Vector.replicate 8 .default
    outputs := ⟨s.outputs.primary.cleared, s.outputs.secondary.cleared, s.outputs.remote.cleared⟩
    rating := { s.rating with schemes := RatingTable.cold.schemes }
    time := { TimeBase.cold with run := s.time.run }
    panel := { s.panel with
      listenerAddress := PanelLink.cold.listenerAddress, panelAddress := PanelLink.cold.panelAddress } }

/-- R105, R114: the section windows and the levels take their cold values, and the levels are applied to
the queue as it stands: below 6 records the intake flows, and at 6 or above it halts as R115 gives. -/
def clearIntake (s : State) : State :=
  let t := { s with intake := { s.intake with
    windows := Vector.replicate 4 .unset, haltLevel := 6, resumeLevel := 2 } }
  if t.intake.queue.length < 6 then { t with intake := { t.intake with flow := .flowing } }
  else haltIntake t

/-- R176: the PIN authority's retained state takes its cold values. -/
def clearPin (s : State) : State :=
  s.putPin
    { s.pin with
      stored := none, failures := 0, step := 0, sessionLength := 300
      timer := if s.pin.matcher = .releasing then s.pin.timer else 0
      matcher := if s.pin.matcher = .lockout then .idle else s.pin.matcher }

/-- R176: what can be told apart follows the order of the rule's text (log 10): the evaluations, then the
intake's halt, then RELEASE_KEYS of an entry that ends, then the session's close with its lamp. -/
def obeyFactoryClear (s : State) : State × Response :=
  complete false []
    (clearPin (closeSession (cancelEntry (clearIntake (evaluateAll (clearRetained (cancelImage s)))))))

/-! ### Command Ring and Reports (R183, R184, R186) -/

/-- R183. -/
def obeySelectView (kind number : Byte) (key : ServiceKey) (s : State) : State × Response :=
  match viewOf kind number key with
  | none => refuse .badField s
  | some v => complete false [] { s with report := { s.report with view := v } }

/-- R187: the bits of a notice mask that name no kind. -/
def maskNamesNoKind : Word := 0xFFF80001

/-- R184. -/
def obeySetNoticeMask (mask : Word) (s : State) : State × Response :=
  if mask &&& maskNamesNoKind ≠ 0 then refuse .badField s
  else complete false [] { s with report := { s.report with masks := mask } }

/-- R186. -/
def obeySetAttention (level urgent : Byte) (s : State) : State × Response :=
  let l := clampIn 1 32 level.toNat
  let u := clampTo 6 urgent.toNat
  complete (l.2 || u.2) []
    { s with report := ReportUnit.judged { s.report with level := l.1, urgent := u.1 } }

end Sys2Proof.Machine
end

