-- ==== Sys2Proof/Machine/Ring.lean ====
section
/-! DEFINITION. The command unit (chapter 11): posts, the taking of slots in ring order, authority, and
the result records. -/

namespace Sys2Proof.Machine

open Sys2Proof

/-! ### Authority (R180) -/

/-- R83, R180: an IMPORT_PROFILE is privileged while its target slot is ACTIVE or SUSPENDED. -/
def importPrivileged (profile : Byte) (s : State) : Bool :=
  match profileSlotOf profile with
  | some n => decide ((s.profile n).state ≠ .empty)
  | none => false

/-- R180: whether a command is privileged at its take. -/
def privileged (c : Command) (s : State) : Bool :=
  match c with
  | .bindProfile .. | .setProfileLimits .. | .setProfileTime .. | .setCurfew .. | .setProfileState ..
  | .grantTime .. | .pushOverride .. | .popOverride _ | .clearOverrides _ | .setDayStart _
  | .setScheme .. | .setSessionLength _ | .factoryClear => true
  | .setWindow .. | .setSectionWindow .. | .setIntakeLevels .. | .setPanelAddresses .. =>
      decide (s.lanes.layout = .committed)
  | .setTime .. => s.time.isSet
  | .importProfile profile => importPrivileged profile s
  | .null | .bindService .. | .declarePlayback .. | .exportProfile _ | .commitLayout | .openPinEntry ..
  | .closeSession | .selectView .. | .setNoticeMask _ | .setAttention .. => false

/-- R180: a command is handed to its owner; `slot` is the slot it was taken from. -/
def obey (slot : Fin 16) (c : Command) (s : State) : State × Response :=
  match c with
  | .null => complete false [] s
  | .bindService o unbind network stream service =>
      if unbind then obeyUnbindService o s else obeyBindService o ⟨network, stream, service⟩ s
  | .bindProfile o p => obeyBindProfile o p s
  | .declarePlayback stream service id cls age flags genre =>
      obeyDeclarePlayback stream service id cls age flags genre s
  | .setProfileLimits p kind age mask u sc ab limit => obeySetProfileLimits p kind age mask u sc ab limit s
  | .setProfileTime p a k lead r0 r1 r2 r3 => obeySetProfileTime p a k lead r0 r1 r2 r3 s
  | .setCurfew p c clear days st en =>
      if clear then obeyClearCurfew p c s else obeySetCurfew p c days st en s
  | .setProfileState p state => obeySetProfileState p state s
  | .exportProfile p => obeyExportProfile p slot s
  | .importProfile p => obeyImportProfile p slot s
  | .grantTime p m => obeyGrantTime p m s
  | .pushOverride o kind scope day second => obeyPushOverride o kind scope day second s
  | .popOverride o => obeyPopOverride o s
  | .clearOverrides o => obeyClearOverrides o s
  | .setTime day second offset => obeySetTime day second offset s
  | .setDayStart m => obeySetDayStart m s
  | .setWindow o kind base size fill => obeySetWindow o kind base size fill s
  | .setSectionWindow number base size => obeySetSectionWindow number base size s
  | .setIntakeLevels h l => obeySetIntakeLevels h l s
  | .commitLayout => obeyCommitLayout s
  | .setScheme m ages => obeySetScheme m ages s
  | .openPinEntry o p purpose staged m kind scope day second =>
      obeyOpenPinEntry o p purpose staged m kind scope day second slot s
  | .closeSession => obeyCloseSession s
  | .setSessionLength n => obeySetSessionLength n s
  | .setPanelAddresses l p => obeySetPanelAddresses l p s
  | .factoryClear => obeyFactoryClear s
  | .selectView kind number network stream service => obeySelectView kind number ⟨network, stream, service⟩ s
  | .setNoticeMask mask => obeySetNoticeMask mask s
  | .setAttention l u => obeySetAttention l u s

/-- R180: a command is judged for authority and handed over; one taken under an open session slides it. -/
def judgeCommand (slot : Fin 16) (c : Command) (s : State) : State × Response :=
  if privileged c s then
    if authority s then obey slot c (slideSession s) else refuse .notAuthorised s
  else obey slot c s

/-- R180: a captured record is judged; a code that names no command is BAD_CODE. -/
def judgeRecord32 (slot : Fin 16) (record : List Byte) (s : State) : State × Response :=
  match Command.decode record with
  | none => refuse .badCode s
  | some c => judgeCommand slot c s

/-! ### Taking (R179, R181) -/

/-- The toggle of a record (section 12.3). -/
def recordToggle (record : List Byte) : Bool := (byteAt record 1).getLsbD 0

/-- R181: the result record of a command at its take. -/
def resultAt (record : List Byte) (r : Response) : ResultRecord :=
  match r with
  | .done outcome data => ⟨.done, byteAt record 0, recordToggle record, outcome, data⟩
  | .long => ⟨.pending, byteAt record 0, recordToggle record, .doneOk, []⟩

/-- R179 step 3: the pointer advances by one modulo 16. -/
def advancePointer (s : State) : State :=
  { s with command := { s.command with pointer := s.command.pointer + 1 } }

/-- R179 steps 1 to 3: the slot at the pointer is taken, with its captured record. -/
def takeRecord (record : List Byte) (s : State) : State :=
  let p := s.command.pointer
  let marked := s.putSlot p
    { s.slot p with expected := !(s.slot p).expected, state := .taken, captured := none }
  let (t, r) := judgeRecord32 p record marked
  advancePointer (t.putResult p (resultAt record r))

/-- R179: the captured record of the slot at the pointer, where that slot can be taken. -/
def takeable (s : State) : Option (List Byte) :=
  let c := s.slot s.command.pointer
  if c.state = .posted ∧ c.result.state ≠ .pending then c.captured else none

/-- R179 step 4: slots are taken until the pointer reaches one that cannot be. -/
def takeChain : Nat → State → State
  | 0, s => s
  | n + 1, s =>
    match takeable s with
    | some record => takeChain n (takeRecord record s)
    | none => s

/-- R179: the chain. Sixteen takes are the most there can be: each makes a POSTED slot TAKEN. -/
def runRing (s : State) : State := takeChain 16 s

/-! ### Posting (R178) -/

/-- R178: a post of a slot with a record, before it is taken: a rewrite is ignored. -/
def capture (p : Fin 16) (record : List Byte) (s : State) : State :=
  if recordToggle record = (s.slot p).expected then
    s.putSlot p { s.slot p with state := .posted, captured := some record }
  else s

/-- R177: the 32 bytes of a slot as the shadow holds them. -/
def shadowRecord (s : State) (p : Fin 16) : List Byte := s.command.shadow.readRun (32 * p.val) 32

/-- R178: a slot is posted from the shadow, and taken if it stands at the pointer. -/
def postSlot (p : Fin 16) (s : State) : State := runRing (capture p (shadowRecord s p) s)

/-- Enabled bytes are copied into the shadow, from a window offset up (R3). -/
def copyToShadow (offset : Nat) (bytes : List (Byte × Bool)) (s : State) : State :=
  { s with command := { s.command with shadow := s.command.shadow.writeRun offset bytes } }

/-- R178: the part of a burst in the command window, at `offset`, enables all four header bytes of a
slot. -/
def coversHeader (offset : Nat) (bytes : List (Byte × Bool)) (p : Fin 16) : Bool :=
  decide (offset ≤ 32 * p.val)
    && (((bytes.drop (32 * p.val - offset)).take 4).map (·.2) == [true, true, true, true])

/-- R178: the slots a burst posts, in ascending order. -/
def postedBy (offset : Nat) (bytes : List (Byte × Bool)) : List (Fin 16) :=
  (List.finRange 16).filter (coversHeader offset bytes)

/-- R3, R178: the part of a control write burst that lies in the command window, at a window offset. -/
def snoopWindow (offset : Nat) (bytes : List (Byte × Bool)) (s : State) : State :=
  (postedBy offset bytes).foldl (fun t p => postSlot p t) (copyToShadow offset bytes s)

/-- R3: a control write burst as the command unit sees it. -/
def snoopControl (start : Nat) (bytes : List (Byte × Bool)) (s : State) : State :=
  match partWithin s.inputs.commandBase Config.commandWindowSize start bytes with
  | some part => snoopWindow (part.1 - s.inputs.commandBase) part.2 s
  | none => s

/-- The record the host writes for a command: with the toggle that the slot at the pointer expects. -/
def hostRecord (c : Command) (s : State) : List Byte := c.encode (s.slot s.command.pointer).expected

/-- The shadow takes a whole record in the slot at the pointer, and the post is captured (R3, R178). -/
def postCommand (c : Command) (s : State) : State :=
  let p := s.command.pointer
  capture p (hostRecord c s)
    (copyToShadow (32 * p.val) ((hostRecord c s).map (fun b => (b, true))) s)

/-- A host command of the table: its record is posted in the slot at the pointer (log 1). -/
def hostPosts (c : Command) (s : State) : State := runRing (postCommand c s)

end Sys2Proof.Machine
end

