-- ==== Sys2Proof/Machine/Events.lean ====
section
/-! DEFINITION. The meanings of the gate's own completions and of the panel link's events. After an event
that may end a long command, the ring goes on (R179). -/

namespace Sys2Proof.Machine

open Sys2Proof Host

/-! ### Completions -/

/-- R82: the export in progress completes, and the ring goes on. -/
def exportCompletes (s : State) : State :=
  match s.image.operation with
  | .exporting source slot snapshot => runRing (completeExport source slot snapshot s)
  | _ => s

/-- R84: the import in progress completes, and the ring goes on. -/
def importCompletes (s : State) : State :=
  match s.image.operation with
  | .importing target slot image => runRing (completeImport target slot image s)
  | _ => s

/-- PARSE_COMPLETION (R118). -/
def execParseCompletion (s : State) : Outcome State Fault Refusal := carried (whileRunning completeParse s)

/-- EXPORT_COMPLETION (R82). -/
def execExportCompletion (s : State) : Outcome State Fault Refusal := carried (whileRunning exportCompletes s)

/-- IMPORT_COMPLETION (R84). -/
def execImportCompletion (s : State) : Outcome State Fault Refusal := carried (whileRunning importCompletes s)

/-! ### Received frames (log 30) -/

/-- A received frame, and the ring going on where the frame ended a PIN entry. -/
def frameArrives (w : WireFrame) (s : State) : State := runRing (receiveFrame w s)

/-- ADDRESS_FRAME (R156). -/
def execAddressFrame (w : WireFrame) (s : State) : Outcome State Fault Refusal :=
  carried (whileRunning (frameArrives w) s)

/-- KEY_FRAME (R157). -/
def execKeyFrame (w : WireFrame) (s : State) : Outcome State Fault Refusal :=
  carried (whileRunning (frameArrives w) s)

/-- PANEL_ANSWER (R163). -/
def execPanelAnswer (w : WireFrame) (s : State) : Outcome State Fault Refusal :=
  carried (whileRunning (frameArrives w) s)

/-- LOCK (R158, R175). -/
def execLock (w : WireFrame) (s : State) : Outcome State Fault Refusal :=
  carried (whileRunning (frameArrives w) s)

/-- DATA_FRAME_DROPPED (R156 to R158). -/
def execDataFrameDropped (w : WireFrame) (s : State) : Outcome State Fault Refusal :=
  carried (whileRunning (frameArrives w) s)

/-- ANSWER_AWAITING_ECHO (R157). -/
def execAnswerAwaitingEcho (w : WireFrame) (s : State) : Outcome State Fault Refusal :=
  carried (whileRunning (frameArrives w) s)

/-! ### The line and the transmitter -/

/-- BREAK (R155). -/
def execLineBreak (s : State) : Outcome State Fault Refusal := carried (whileRunning takeBreak s)

/-- FAULT_RECOVERY (R155). -/
def execFaultRecovery (s : State) : Outcome State Fault Refusal := carried (whileRunning recoverFault s)

/-- TRANSMIT_START (R162). -/
def execTransmitStart (s : State) : Outcome State Fault Refusal := carried (whileRunning startMessage s)

/-- MESSAGE_SENT (R162). -/
def execMessageSent (s : State) : Outcome State Fault Refusal := carried (whileRunning messageSent s)

/-- R163: the wait runs out, and the ring goes on where that ended a PIN entry. -/
def waitEnds (s : State) : State := runRing (waitRunsOut s)

/-- ACKNOWLEDGEMENT_TIMEOUT (R163). -/
def execAcknowledgementTimeout (s : State) : Outcome State Fault Refusal := carried (whileRunning waitEnds s)

/-- KEY_TAKEN (R169). -/
def execKeyTaken (s : State) : Outcome State Fault Refusal := carried (whileRunning takeKey s)

end Sys2Proof.Machine
end

