-- ==== Sys2Proof/Machine/HostCommands.lean ====
section
/-! DEFINITION. The meanings of the host commands of the table: each is its record of section 12.3,
posted in the slot at the next-slot pointer (log 1). What the command then does is its owner's, in
Owners.lean. -/

namespace Sys2Proof.Machine

open Sys2Proof Host

/-- A host command while the system reset input is not asserted. -/
def hostCommand (c : Command) (s : State) : Outcome State Fault Refusal :=
  carried (whileRunning (hostPosts c) s)

/-- NULL_COMMAND (R180). -/
def execNullCommand (s : State) :
    Outcome State Fault Refusal :=
  hostCommand .null s

/-- BIND_SERVICE (R26). -/
def execBindService (output : Byte) (network stream service : Half) (s : State) :
    Outcome State Fault Refusal :=
  hostCommand (.bindService output false network stream service) s

/-- UNBIND_SERVICE (R27: BIND_SERVICE with its unbind flag set; the key is not examined). -/
def execUnbindService (output : Byte) (s : State) :
    Outcome State Fault Refusal :=
  hostCommand (.bindService output true 0 0 0) s

/-- BIND_PROFILE (R28). -/
def execBindProfile (output profile : Byte) (s : State) :
    Outcome State Fault Refusal :=
  hostCommand (.bindProfile output profile) s

/-- DECLARE_PLAYBACK (R135). -/
def execDeclarePlayback (stream service eventId : Half) (cls age flags genre : Byte) (s : State) :
    Outcome State Fault Refusal :=
  hostCommand (.declarePlayback stream service eventId cls age flags genre) s

/-- SET_PROFILE_LIMITS (R74). -/
def execSetProfileLimits
    (profile ceilingKind age blockMask unrated scheme absent pendingLimit : Byte) (s : State) :
    Outcome State Fault Refusal :=
  hostCommand (.setProfileLimits profile ceilingKind age blockMask unrated scheme absent pendingLimit) s

/-- SET_PROFILE_TIME (R75). -/
def execSetProfileTime (profile : Byte) (allowance carryCap lead : Half)
    (rate0 rate1 rate2 rate3 : Byte) (s : State) :
    Outcome State Fault Refusal :=
  hostCommand (.setProfileTime profile allowance carryCap lead rate0 rate1 rate2 rate3) s

/-- SET_CURFEW (R77, with the clear flag clear). -/
def execSetCurfew (profile slot days : Byte) (startMinute endMinute : Half) (s : State) :
    Outcome State Fault Refusal :=
  hostCommand (.setCurfew profile slot false days startMinute endMinute) s

/-- CURFEW_CLEAR (R77, with the clear flag set; the other operands are not examined). -/
def execCurfewClear (profile slot : Byte) (s : State) :
    Outcome State Fault Refusal :=
  hostCommand (.setCurfew profile slot true 0 0 0) s

/-- SET_PROFILE_STATE (R78). -/
def execSetProfileState (profile state : Byte) (s : State) :
    Outcome State Fault Refusal :=
  hostCommand (.setProfileState profile state) s

/-- EXPORT_PROFILE (R81). -/
def execExportProfile (profile : Byte) (s : State) :
    Outcome State Fault Refusal :=
  hostCommand (.exportProfile profile) s

/-- IMPORT_PROFILE (R83). -/
def execImportProfile (profile : Byte) (s : State) :
    Outcome State Fault Refusal :=
  hostCommand (.importProfile profile) s

/-- GRANT_TIME (R62). -/
def execGrantTime (profile : Byte) (minutes : Half) (s : State) :
    Outcome State Fault Refusal :=
  hostCommand (.grantTime profile minutes) s

/-- PUSH_OVERRIDE (R92). -/
def execPushOverride (output kind scope : Byte) (endDay : Half) (endSecond : Word) (s : State) :
    Outcome State Fault Refusal :=
  hostCommand (.pushOverride output kind scope endDay endSecond) s

/-- POP_OVERRIDE (R94). -/
def execPopOverride (output : Byte) (s : State) :
    Outcome State Fault Refusal :=
  hostCommand (.popOverride output) s

/-- CLEAR_OVERRIDES (R95). -/
def execClearOverrides (output : Byte) (s : State) :
    Outcome State Fault Refusal :=
  hostCommand (.clearOverrides output) s

/-- SET_TIME (R144). -/
def execSetTime (day : Half) (second offset : Word) (s : State) :
    Outcome State Fault Refusal :=
  hostCommand (.setTime day second offset) s

/-- SET_DAY_START (R151). -/
def execSetDayStart (minute : Half) (s : State) :
    Outcome State Fault Refusal :=
  hostCommand (.setDayStart minute) s

/-- SET_WINDOW (R8). -/
def execSetWindow (output kind : Byte) (base size fill : Word) (s : State) :
    Outcome State Fault Refusal :=
  hostCommand (.setWindow output kind base size fill) s

/-- SET_SECTION_WINDOW (R106). -/
def execSetSectionWindow (number : Byte) (base size : Word) (s : State) :
    Outcome State Fault Refusal :=
  hostCommand (.setSectionWindow number base size) s

/-- SET_INTAKE_LEVELS (R117). -/
def execSetIntakeLevels (halt resume : Byte) (s : State) :
    Outcome State Fault Refusal :=
  hostCommand (.setIntakeLevels halt resume) s

/-- COMMIT_LAYOUT (R10). -/
def execCommitLayout (s : State) :
    Outcome State Fault Refusal :=
  hostCommand .commitLayout s

/-- SET_SCHEME (R137). -/
def execSetScheme (scheme : Byte) (ages : Vector Byte 16) (s : State) :
    Outcome State Fault Refusal :=
  hostCommand (.setScheme scheme ages) s

/-- OPEN_SESSION_ENTRY (R166: OPEN_PIN_ENTRY with purpose SESSION). -/
def execOpenSessionEntry (s : State) :
    Outcome State Fault Refusal :=
  hostCommand (.openPinEntry 0 0 0 0 0 0 0 0 0) s

/-- OPEN_GRANT_ENTRY (R166, R167: OPEN_PIN_ENTRY with purpose GRANT). -/
def execOpenGrantEntry (output profile stagedKind : Byte) (minutes : Half) (kind scope : Byte)
    (endDay : Half) (endSecond : Word) (s : State) :
    Outcome State Fault Refusal :=
  hostCommand (.openPinEntry output profile 1 stagedKind minutes kind scope endDay endSecond) s

/-- OPEN_PIN_CHANGE_ENTRY (R166, R171: OPEN_PIN_ENTRY with purpose PIN_CHANGE). -/
def execOpenPinChangeEntry (s : State) :
    Outcome State Fault Refusal :=
  hostCommand (.openPinEntry 0 0 2 0 0 0 0 0 0) s

/-- CLOSE_SESSION (R174). -/
def execCloseSession (s : State) :
    Outcome State Fault Refusal :=
  hostCommand .closeSession s

/-- SET_SESSION_LENGTH (R174). -/
def execSetSessionLength (seconds : Half) (s : State) :
    Outcome State Fault Refusal :=
  hostCommand (.setSessionLength seconds) s

/-- SET_PANEL_ADDRESSES (R160). -/
def execSetPanelAddresses (listener panel : Byte) (s : State) :
    Outcome State Fault Refusal :=
  hostCommand (.setPanelAddresses listener panel) s

/-- FACTORY_CLEAR (R176). -/
def execFactoryClear (s : State) :
    Outcome State Fault Refusal :=
  hostCommand .factoryClear s

/-- SELECT_VIEW (R183). -/
def execSelectView (kind number : Byte) (network stream service : Half) (s : State) :
    Outcome State Fault Refusal :=
  hostCommand (.selectView kind number network stream service) s

/-- SET_NOTICE_MASK (R184). -/
def execSetNoticeMask (mask : Word) (s : State) :
    Outcome State Fault Refusal :=
  hostCommand (.setNoticeMask mask) s

/-- SET_ATTENTION (R186). -/
def execSetAttention (level urgent : Byte) (s : State) :
    Outcome State Fault Refusal :=
  hostCommand (.setAttention level urgent) s

end Sys2Proof.Machine
end

