-- ==== Sys2Proof/Machine/Report.lean ====
section
/-! DEFINITION. The report window (R182 to R185, section 12.4): the bytes of every record the report unit
supplies, and what a read of the notice port or of the summary does. -/

namespace Sys2Proof.Machine

open Sys2Proof

/-- A record in `n` bytes: reserved bytes after its fields read as zero (R188). -/
def padTo (n : Nat) (bytes : List Byte) : List Byte := (bytes ++ List.replicate n 0).take n

/-! ### Results, summary, notices, identification -/

/-- Section 12.4: a result record. -/
def resultBytes (r : ResultRecord) : List Byte :=
  padTo 8 (nat8 (resultStateCode r.state) ++ [r.code] ++ [flagByte r.toggle]
      ++ nat8 (commandOutcomeCode r.outcome)) ++ padTo 24 r.data

/-- R182: the result table. -/
def resultTable (s : State) : List Byte := (s.command.slots.toList.map (fun c => resultBytes c.result)).flatten

/-- Section 12.4: an output in the summary. -/
def outputBytes (c : OutputContext) : List Byte :=
  nat8 (verdictCode c.verdict) ++ nat8 (reasonCode c.reason) ++ [slotByte c.profile] ++ [slotByte c.service]

/-- R183: the count of POSTED slots. -/
def postedCount (s : State) : Nat := (s.command.slots.toList.filter (fun c => decide (c.state = .posted))).length

/-- R183, section 12.4: the summary record. -/
def summaryBytes (s : State) : List Byte :=
  padTo 64
    (nat32 s.time.run ++ nat16 s.time.day ++ nat8 (timeSourceCode s.time.source)
      ++ nat8 (layoutStateCode s.lanes.layout) ++ nat32 s.time.second
      ++ bytes16 (BitVec.ofInt 16 s.time.offset) ++ nat16 s.time.dayStart ++ dayField4 s.time.profileDay
      ++ outputBytes s.outputs.primary ++ outputBytes s.outputs.secondary ++ outputBytes s.outputs.remote
      ++ nat8 (matcherCode s.pin.matcher) ++ nat8 s.pin.failures ++ nat8 s.pin.step
      ++ [flagByte s.pin.sessionOpen] ++ nat16 s.pin.timer ++ nat16 s.pin.sessionRemaining
      ++ nat8 (imageCode s.image.operation) ++ nat8 (flowStateCode s.intake.flow)
      ++ nat8 (lampRecordCode s.panel.lampRecord) ++ nat8 s.command.pointer.val ++ nat8 (postedCount s)
      ++ nat8 s.report.queue.length ++ nat8 s.report.level ++ nat8 s.report.urgent
      ++ [flagByte s.report.attention] ++ [flagByte s.report.lost] ++ nat16 0 ++ bytes32 s.report.sticky)

/-- R185: the notice popped first: the highest class, and of that class the one that entered first. -/
def bestNotice (queue : List Notice) : Option Notice :=
  queue.foldl
    (fun best n =>
      match best with
      | some b => if noticeClass b.kind < noticeClass n.kind then some n else some b
      | none => some n) none

/-- Section 12.4: a notice at the port; without one, the EMPTY notice. -/
def noticeBytes : Option Notice → List Byte
  | some n =>
      padTo 32 (nat8 (noticeKindCode n.kind) ++ nat8 (noticeClass n.kind) ++ nat8 n.count ++ nat8 0
        ++ bytes32 n.subject ++ nat32 n.stamp ++ padTo 20 n.detail)
  | none => padTo 32 []

/-- Section 12.4: the identification record. -/
def identificationBytes (i : Inputs) : List Byte :=
  padTo 64
    ([0x4E, 0x47, 0x33, 0x43] ++ bytes16 Config.revision ++ nat16 0 ++ nat32 i.commandBase ++ nat32 i.reportBase
      ++ nat32 (bitRateValue i.bitRate) ++ [16, 4, 4, 8, 64, 8, 4, 16, 4, 32] ++ nat16 Config.poolSize)

/-! ### Views (section 12.4), from byte 16 -/

/-- An absent id in a stack entry is written as zero (log 24). -/
def idField (e : Option Half) : List Byte :=
  match e with
  | some id => bytes16 id
  | none => bytes16 0

/-- A stack entry in twenty bytes. -/
def overrideBytes (e : Override) : List Byte :=
  padTo 20
    (nat8 (overrideKindCode e.kind) ++ nat8 (overrideScopeCode e.scope) ++ nat8 (overrideTagCode e.tag)
      ++ nat8 (overrideOriginCode e.origin)
      ++ padTo 6 ((e.subjectKey.map keyField).getD []) ++ idField e.subjectEvent
      ++ padTo 6 ((e.endTime.map localField).getD []))

/-- R104: an output context with its stack from bottom to top. -/
def outputView (c : OutputContext) : List Byte :=
  [slotByte c.profile] ++ [slotByte c.service] ++ nat8 (verdictCode c.verdict) ++ nat8 (reasonCode c.reason)
    ++ nat32 c.pendingSince ++ padTo 8 (nat8 c.stack.length) ++ (c.stack.reverse.map overrideBytes).flatten

/-- An event in thirty-two bytes: a held flag and its fields, without gaps (log 40). -/
def eventBytes (e : Option Event) : List Byte :=
  match e with
  | some e =>
      padTo 32 (nat8 1 ++ bytes16 e.id ++ nat16 e.startDay ++ nat32 e.startSecond ++ nat32 e.duration
        ++ nat8 (classCode e.rating.cls).1 ++ nat8 (classCode e.rating.cls).2 ++ [e.rating.flags]
        ++ nat8 e.rating.genre.val)
  | none => padTo 32 []

/-- The present event of an entry, while it holds one. -/
def Present.event? : Present → Option Event
  | .current e | .ended e => some e
  | .none => Option.none

/-- R138: a rating entry, its fields without gaps (log 40); a slot that is free, or a key that is not
held, gives slot 0xFF, and zero in every other byte, where the version and the last present id have sentinels
of their own: the model's choice (log 50). -/
def ratingView (held : Option (Fin 64 × Entry)) : List Byte :=
  match held with
  | some (n, e) =>
      padTo 32 (nat8 n.val ++ nat8 (entrySourceCode e.source)
          ++ (match e.version with | some v => nat8 v | none => nat8 0xFF)
          ++ nat8 (presentCode e.present) ++ keyField e.key
          ++ (match e.lastId with | some id => bytes16 id | none => nat16 0xFFFF)
          ++ nat8 e.bindCount ++ nat32 e.lastTouch)
        ++ eventBytes e.present.event? ++ eventBytes e.following
  | none => nat8 0xFF

/-- The entry of a slot, with the slot. -/
def heldEntry (s : State) (n : Fin 64) : Option (Fin 64 × Entry) := (s.entry n).map (fun e => (n, e))

/-- A presentation window in sixteen bytes, its fields without gaps (log 40). -/
def windowBytes (w : Window) : List Byte :=
  padTo 16 ([flagByte w.set] ++ nat32 w.base ++ nat32 w.size ++ bytes32 w.fill)

/-- The record a context is assembling (R109). -/
def IntakeContext.assembly? : IntakeContext → Option Assembly
  | .assembling a => some a
  | _ => none

/-- A section window in sixteen bytes, with the start of the record being assembled (log 23). -/
def sectionBytes (w : SectionWindow) : List Byte :=
  padTo 16 ([flagByte w.set] ++ nat8 (contextCode w.context) ++ nat32 w.base ++ nat32 w.size
    ++ (match w.context.assembly? with | some a => nat32 a.start | none => nat32 0))

/-- A context's expected address and count of bytes collected, in six bytes (log 23). -/
def assemblyBytes (c : IntakeContext) : List Byte :=
  match c.assembly? with
  | some a => nat32 a.expected ++ nat16 a.bytes.length
  | none => padTo 6 []

/-- The INTAKE view: the four windows, their assemblies from byte 80, then the queue (log 23). -/
def intakeView (i : Intake) : List Byte :=
  (i.windows.toList.map sectionBytes).flatten
    ++ (i.windows.toList.map (fun w => assemblyBytes w.context)).flatten
    ++ nat8 i.queue.length ++ nat16 (poolUsed i.queue) ++ nat8 (flowStateCode i.flow)
    ++ nat8 i.haltLevel ++ nat8 i.resumeLevel ++ [flagByte i.parsing]

/-- R164: the PANEL view. -/
def panelView (p : PanelLink) : List Byte :=
  nat8 (listenerStateCode p.listener) ++ [p.listenerAddress] ++ [p.panelAddress] ++ nat8 p.fifo.length
    ++ nat8 (transmitterStateCode p.transmitter)
    ++ (match p.outstanding with | some m => [messageCommand m] | none => nat8 0)
    ++ nat8 (lampRecordCode p.lampRecord) ++ nat8 p.queue.length
    ++ (p.queue.map (fun m => [messageCommand m, messageOperand m])).flatten

/-- A scheme map in sixteen bytes. -/
def schemeBytes (m : Vector (Option Nat) 16) : List Byte :=
  (m.toList.map (fun a => match a with | some n => nat8 n | none => nat8 0xFF)).flatten

/-- R136, section 12.4: the SCHEME view; scheme 0 is fixed. -/
def schemeView (r : RatingTable) (m : Fin 9) : List Byte :=
  if h : 1 ≤ m.val then schemeBytes (r.schemes[m.val - 1]'(by omega))
  else nat8 0xFE ++ List.replicate 15 0xFD

/-- The IMAGE view: a held flag, then the image from byte 32 of the view. -/
def imageView (buffer : Option (List Byte)) : List Byte :=
  match buffer with
  | some image => padTo 16 (nat8 1) ++ image
  | none => padTo 16 []

/-- R183: the content of a view from byte 16. The WINDOWS view shows the layout state behind its six
windows, a place of the model's choice (log 22). -/
def viewContent (s : State) : ViewSelection → List Byte
  | .none => []
  | .profile n => profileBody (s.profile n)
  | .output o => outputView (s.context o)
  | .ratingSlot n => ratingView (heldEntry s n)
  | .ratingKey k => ratingView ((findKey s k).bind (heldEntry s))
  | .windows =>
      (allWindows.map (fun n => windowBytes (s.window n.1 n.2))).flatten ++ nat8 (layoutStateCode s.lanes.layout)
  | .intake => intakeView s.intake
  | .panel => panelView s.panel
  | .scheme m => schemeView s.rating m
  | .image => imageView s.image.buffer

/-- R183: the view, 1 KiB; NONE is all zero (log 21). -/
def viewBytes (s : State) : List Byte :=
  match s.report.view with
  | .none => padTo 1024 []
  | v =>
      padTo 1024 (padTo 16 (nat32 s.time.run ++ nat8 (viewCode v).1 ++ nat8 (viewCode v).2)
        ++ viewContent s v)

/-! ### The window (R182) -/

/-- R182: the 2 KiB of the report window as a read finds them; the port gives its notice only to a read
that begins at it. -/
def reportBytes (s : State) (atPort : Bool) : List Byte :=
  padTo 0x200 (resultTable s) ++ summaryBytes s ++ padTo 64 []
    ++ (if atPort then noticeBytes (bestNotice s.report.queue) else padTo 32 []) ++ padTo 96 []
    ++ identificationBytes s.inputs ++ padTo 192 [] ++ viewBytes s

/-- R185: the notice is removed and the attention line is judged. -/
def popNotice (s : State) : State :=
  match bestNotice s.report.queue with
  | some n => { s with report := ReportUnit.judged { s.report with queue := s.report.queue.erase n } }
  | none => s

/-- R182, R184: the sticky flags and the lost flag are cleared. -/
def clearSticky (s : State) : State := { s with report := { s.report with sticky := 0, lost := false } }

/-- R185: a read begins at the notice port. -/
def beginsAtPort (i : Inputs) (start : Nat) : Bool := decide (start = i.reportBase + 0x280)

/-- R182: a read touches the summary record. -/
def touchesSummary (i : Inputs) (start count : Nat) : Bool :=
  rangesMeet start count (i.reportBase + 0x200) 0x40

/-- R182, R185: what an OKAY read of the report window does to the report unit. -/
def readEffects (start count : Nat) (s : State) : State :=
  let t := if beginsAtPort s.inputs start then popNotice s else s
  if touchesSummary s.inputs start count then clearSticky t else t

end Sys2Proof.Machine
end

