-- ==== Sys2Proof/WellFormed.lean ====
section
/-! DEFINITION. Which terms of `Instr` are commands the gate can meet: a burst as R1 bounds it, a
frame of the kind its row names (R156 to R158), an order of a second event that names no piece of
work twice. A host command is well formed whatever its operands hold (R188). -/

namespace Sys2Proof

/-- R1: 1 to 512 consecutive byte addresses within the 32-bit address space. -/
def burstOk (start : Word) (count : Nat) : Bool :=
  decide (1 ≤ count ∧ count ≤ 512 ∧ start.toNat + count ≤ Config.addressSpace)

/-- R1: the data of a response is that of a burst of 1 to 512 bytes. -/
def responseOk (data : List Byte) : Bool := decide (1 ≤ data.length ∧ data.length ≤ 512)

/-- The frame is taken and has its address flag clear. -/
def isDataFrame (w : WireFrame) : Bool :=
  match w.received with
  | some f => !f.address
  | none => false

/-- The frame is taken and has its address flag set. -/
def isAddressFrame (w : WireFrame) : Bool :=
  match w.received with
  | some f => f.address
  | none => false

/-- The frame is an unflagged data frame of one of the values given. -/
def isCleanData (w : WireFrame) (values : List Byte) : Bool :=
  match w.received with
  | some f => !f.address && !f.flags.any && values.contains f.value
  | none => false

/-- The checks on a command, by its row. -/
def Instr.wellFormed : Instr → Bool
  | .streamWriteBurst start bytes => burstOk start bytes.length
  | .streamReadBurst _ start _ data => burstOk start data.length
  | .controlWriteBurst start bytes => burstOk start bytes.length
  | .controlReadRequest _ start count => burstOk start count
  | .controlReadResponse _ _ _ data => responseOk data
  | .noticePortRead _ data => responseOk data
  | .summaryRead _ data => responseOk data
  | .presentationReadRequest _ start count => burstOk start count
  | .presentationWriteBurst start bytes => burstOk start bytes.length
  | .presentationResponse _ _ data => responseOk data
  | .secondEvent order => decide order.Nodup
  | .addressFrame w => isAddressFrame w
  | .keyFrame w => isDataFrame w
  | .panelAnswer w => isDataFrame w
  | .lock w => isCleanData w [0x4C]
  | .dataFrameDropped w => isDataFrame w
  | .answerAwaitingEcho w => isCleanData w [0xF1, 0xF2]
  | .parseCompletion | .heldRequestArrival _ | .coldReset | .warmReset | .warmResetRelease
  | .promotion _ | .untilTimeExpiry _ | .pendingLimitExpiry _ | .sessionExpiry | .lockoutExpiry
  | .wholeEntryLimit | .interKeyLimit | .exportCompletion | .importCompletion | .lineBreak
  | .faultRecovery | .transmitStart | .messageSent | .acknowledgementTimeout | .keyTaken
  | .nullCommand | .bindService .. | .unbindService _ | .bindProfile .. | .declarePlayback ..
  | .setProfileLimits .. | .setProfileTime .. | .setCurfew .. | .curfewClear .. | .setProfileState ..
  | .exportProfile _ | .importProfile _ | .grantTime .. | .pushOverride .. | .popOverride _
  | .clearOverrides _ | .setTime .. | .setDayStart _ | .setWindow .. | .setSectionWindow ..
  | .setIntakeLevels .. | .commitLayout | .setScheme .. | .openSessionEntry | .openGrantEntry ..
  | .openPinChangeEntry | .closeSession | .setSessionLength _ | .setPanelAddresses .. | .factoryClear
  | .selectView .. | .setNoticeMask _ | .setAttention .. => true

end Sys2Proof
end

