-- ==== Sys2Proof/Machine/Lanes.lean ====
section
/-! DEFINITION. The three lanes (chapter 1): forwarding, the in-flight tables, resolution into segments,
held requests, substitution and activity flags, and the meanings of the lane transfers. -/

namespace Sys2Proof.Machine

open Sys2Proof Host

/-! ### Resolution (R11, R12) -/

/-- A window covers a byte (R6). -/
def Window.covers (w : Window) (a : Nat) : Bool := w.set && decide (w.base ≤ a ∧ a < w.base + w.size)

/-- R12: the marking of a byte on the presentation lane; at most one window covers it (R7). -/
def presentationMark (s : State) (a : Nat) : Marking :=
  match allWindows.find? (fun n => (s.window n.1 n.2).covers a) with
  | some n => .window n.1 n.2 (s.window n.1 n.2).fill
  | none => .none

/-- The report window covers a byte. -/
def inReport (i : Inputs) (a : Nat) : Bool :=
  decide (i.reportBase ≤ a ∧ a < i.reportBase + Config.reportWindowSize)

/-- R4: the marking of a byte on the control lane. -/
def controlMark (s : State) (a : Nat) : Marking := if inReport s.inputs a then .report else .none

/-- R12: the segments of a run of markings from an address up: maximal runs of one marking. -/
def segmentsOf (start : Nat) : List Marking → List Segment
  | [] => []
  | m :: rest =>
    match segmentsOf (start + 1) rest with
    | g :: more =>
        if g.marking = m then ⟨start, g.count + 1, m⟩ :: more else ⟨start, 1, m⟩ :: g :: more
    | [] => [⟨start, 1, m⟩]

/-- R12: a request's byte range is divided into segments. -/
def resolve (mark : Nat → Marking) (start count : Nat) : List Segment :=
  segmentsOf start ((List.range count).map (fun i => mark (start + i)))

/-! ### Requests (R4, R5, R13) -/

/-- R12: a presentation request arrives: it is resolved, entered and forwarded. -/
def acceptPresentation (r : ReadRequest) (s : State) : State :=
  let entry : InFlight := ⟨r.tag, 0, r.start, r.count, resolve (presentationMark s) r.start r.count⟩
  { s with lanes := { s.lanes with
      presentation := s.lanes.presentation ++ [entry]
      out := s.lanes.out ++ [.readToMemory .presentation r.tag none r.start r.count] } }

/-- R13: the presentation table has no free entry. -/
def presentationFull (s : State) : Bool := decide (Config.presentationCapacity ≤ s.lanes.presentation.length)

/-- R5, R13: a request is presented on the presentation lane. -/
def presentPresentation (r : ReadRequest) (s : State) : State :=
  if presentationFull s || !s.lanes.heldPresentation.isEmpty then
    { s with lanes := { s.lanes with heldPresentation := s.lanes.heldPresentation ++ [r] } }
  else acceptPresentation r s

/-- R4: a request touches the report window. -/
def touchesReport (i : Inputs) (r : ReadRequest) : Bool :=
  rangesMeet r.start r.count i.reportBase Config.reportWindowSize

/-- R4, R12: a control request is forwarded; one that touches the report window is entered, and its mark
is added to its tag. -/
def acceptControl (r : ReadRequest) (s : State) : State :=
  if touchesReport s.inputs r then
    let entry : InFlight :=
      ⟨r.tag, s.lanes.nextMark, r.start, r.count, resolve (controlMark s) r.start r.count⟩
    { s with lanes := { s.lanes with
        control := s.lanes.control ++ [entry]
        nextMark := s.lanes.nextMark + 1
        out := s.lanes.out ++ [.readToMemory .control r.tag (some s.lanes.nextMark) r.start r.count] } }
  else s.putOut (.readToMemory .control r.tag none r.start r.count)

/-- R13: a control request needs an entry and the table has none free. -/
def controlBlocked (r : ReadRequest) (s : State) : Bool :=
  touchesReport s.inputs r && decide (Config.controlCapacity ≤ s.lanes.control.length)

/-- R4, R13: a request is presented on the control lane. -/
def presentControl (r : ReadRequest) (s : State) : State :=
  if controlBlocked r s || !s.lanes.heldControl.isEmpty then
    { s with lanes := { s.lanes with heldControl := s.lanes.heldControl ++ [r] } }
  else acceptControl r s

/-- R13: the first request held on the presentation lane arrives, if an entry is free. -/
def arrivePresentation (s : State) : State :=
  match s.lanes.heldPresentation with
  | r :: rest =>
      if presentationFull s then s
      else acceptPresentation r { s with lanes := { s.lanes with heldPresentation := rest } }
  | [] => s

/-- R13: the first request held on the control lane arrives, if it can be taken. -/
def arriveControl (s : State) : State :=
  match s.lanes.heldControl with
  | r :: rest =>
      if controlBlocked r s then s
      else acceptControl r { s with lanes := { s.lanes with heldControl := rest } }
  | [] => s

/-- R13: a held request of a lane arrives. -/
def arriveHeld : HoldingLane → State → State
  | .presentation, s => arrivePresentation s
  | .control, s => arriveControl s

/-! ### Presentation responses (R14 to R19, R21) -/

/-- R25: a passing verdict. -/
def Verdict.passes : Verdict → Bool
  | .unsupervised | .opened | .warning => true
  | .pending | .blocked => false

/-- R15: the substitution byte of a window at an address. -/
def substitutionByte (kind : WindowKind) (fill : Word) (a : Nat) : Byte :=
  match kind with
  | .picture => fill.extractLsb' (8 * (a % 4)) 8
  | .sound => 0

/-- R14: a segment passes. -/
def segmentPasses (s : State) (g : Segment) : Bool :=
  match g.marking with
  | .window o _ _ => (s.context o).verdict.passes
  | .none | .report => true

/-- R14, R15: the bytes of a segment as they are returned, from those memory gave. -/
def treatSegment (s : State) (g : Segment) (bytes : List Byte) : List Byte :=
  match g.marking with
  | .window o kind fill =>
      if (s.context o).verdict.passes then bytes
      else (List.range bytes.length).map (fun i => substitutionByte kind fill (g.start + i))
  | .none | .report => bytes

/-- R14: the data of a response, segment by segment. -/
def treatData (s : State) : List Segment → List Byte → List Byte
  | [], _ => []
  | g :: rest, bytes => treatSegment s g (bytes.take g.count) ++ treatData s rest (bytes.drop g.count)

/-- R19: an output has a PICTURE segment in a response that passes. -/
def showsPicture (s : State) (segments : List Segment) (o : Output) : Bool :=
  segments.any (fun g =>
    match g.marking with
    | .window o' .picture _ => decide (o' = o) && segmentPasses s g
    | _ => false)

/-- R19: the activity flags after a response. -/
def flagsAfter (s : State) (segments : List Segment) (status : Status) : PerOutput Bool :=
  if status = .okay then
    ⟨s.lanes.activity.primary || showsPicture s segments .primary,
     s.lanes.activity.secondary || showsPicture s segments .secondary,
     s.lanes.activity.remote || showsPicture s segments .remote⟩
  else s.lanes.activity

/-- R14: the oldest entry of a tag. -/
def oldestOf (tag : Nat) (table : List InFlight) : Option InFlight :=
  table.find? (fun e => decide (e.tag = tag))

/-- R14, R21: a presentation response; one that matches no entry is discarded. -/
def takePresentationResponse (tag : Nat) (status : Status) (data : List Byte) (s : State) : State :=
  match oldestOf tag s.lanes.presentation with
  | none => s
  | some e =>
    { s with lanes := { s.lanes with
        presentation := s.lanes.presentation.erase e
        activity := flagsAfter s e.segments status
        out := s.lanes.out ++ [.response .presentation tag status (treatData s e.segments data)] } }

/-! ### Control responses (R4, R21, R182) -/

/-- R4, R182: the bytes of a segment as they are returned. -/
def answerSegment (supplied : List Byte) (reportBase : Nat) (g : Segment) (bytes : List Byte) : List Byte :=
  match g.marking with
  | .report => (supplied.drop (g.start - reportBase)).take bytes.length
  | .none | .window .. => bytes

/-- R4: the data of a control response, segment by segment. -/
def answerData (supplied : List Byte) (reportBase : Nat) : List Segment → List Byte → List Byte
  | [], _ => []
  | g :: rest, bytes =>
      answerSegment supplied reportBase g (bytes.take g.count)
        ++ answerData supplied reportBase rest (bytes.drop g.count)

/-- R4: the entry a mark names. -/
def markedEntry (mark : Nat) (table : List InFlight) : Option InFlight :=
  table.find? (fun e => decide (e.mark = mark))

/-- R4, R21: a control response that bears a mark; one whose mark names no entry is discarded. -/
def takeMarkedResponse (mark : Nat) (status : Status) (data : List Byte) (s : State) : State :=
  match markedEntry mark s.lanes.control with
  | none => s
  | some e =>
    let supplied := reportBytes s (beginsAtPort s.inputs e.start)
    let t := { s with lanes := { s.lanes with
      control := s.lanes.control.erase e
      out := s.lanes.out ++
        [.response .control e.tag status (answerData supplied s.inputs.reportBase e.segments data)] } }
    if status = .okay then readEffects e.start e.count t else t

/-- R4: a control response. -/
def takeControlResponse (mark : Option Nat) (tag : Nat) (status : Status) (data : List Byte) (s : State) :
    State :=
  match mark with
  | some m => takeMarkedResponse m status data s
  | none => s.putOut (.response .control tag status data)

/-! ### The meanings of the lane transfers -/

/-- STREAM_WRITE_BURST (R2, R107). -/
def execStreamWriteBurst (start : Word) (bytes : List (Byte × Bool)) (s : State) :
    Outcome State Fault Refusal :=
  ifBurst (burstOk start bytes.length)
    (whileRunning
      (fun s => snoopStream start.toNat bytes (s.putOut (.writeToMemory .stream start.toNat bytes))) s)

/-- STREAM_READ_BURST (R2): forwarded, and its response returned, without observation. -/
def execStreamReadBurst (tag : Nat) (start : Word) (status : Status) (data : List Byte) (s : State) :
    Outcome State Fault Refusal :=
  ifBurst (burstOk start data.length)
    (whileRunning
      (fun s => (s.putOut (.readToMemory .stream tag none start.toNat data.length)).putOut
        (.response .stream tag status data)) s)

/-- CONTROL_WRITE_BURST (R3, R178). -/
def execControlWriteBurst (start : Word) (bytes : List (Byte × Bool)) (s : State) :
    Outcome State Fault Refusal :=
  ifBurst (burstOk start bytes.length)
    (whileRunning
      (fun s => snoopControl start.toNat bytes (s.putOut (.writeToMemory .control start.toNat bytes))) s)

/-- CONTROL_READ_REQUEST (R4, R13). -/
def execControlReadRequest (tag : Nat) (start : Word) (count : Nat) (s : State) :
    Outcome State Fault Refusal :=
  ifBurst (burstOk start count) (whileRunning (presentControl ⟨tag, start.toNat, count⟩) s)

/-- CONTROL_READ_RESPONSE (R4). -/
def execControlReadResponse (mark : Option Nat) (tag : Nat) (status : Status) (data : List Byte)
    (s : State) : Outcome State Fault Refusal :=
  ifBurst (responseOk data) (whileRunning (takeControlResponse mark tag status data) s)

/-- NOTICE_PORT_READ (R185): the OKAY response of a marked read (log 34). -/
def execNoticePortRead (mark : Nat) (data : List Byte) (s : State) : Outcome State Fault Refusal :=
  ifBurst (responseOk data) (whileRunning (takeMarkedResponse mark .okay data) s)

/-- SUMMARY_READ (R182): the OKAY response of a marked read (log 34). -/
def execSummaryRead (mark : Nat) (data : List Byte) (s : State) : Outcome State Fault Refusal :=
  ifBurst (responseOk data) (whileRunning (takeMarkedResponse mark .okay data) s)

/-- PRESENTATION_READ_REQUEST (R5, R12, R13). -/
def execPresentationReadRequest (tag : Nat) (start : Word) (count : Nat) (s : State) :
    Outcome State Fault Refusal :=
  ifBurst (burstOk start count) (whileRunning (presentPresentation ⟨tag, start.toNat, count⟩) s)

/-- HELD_REQUEST_ARRIVAL (R13). -/
def execHeldRequestArrival (lane : HoldingLane) (s : State) : Outcome State Fault Refusal :=
  carried (whileRunning (arriveHeld lane) s)

/-- PRESENTATION_WRITE_BURST (R5): forwarded without observation. -/
def execPresentationWriteBurst (start : Word) (bytes : List (Byte × Bool)) (s : State) :
    Outcome State Fault Refusal :=
  ifBurst (burstOk start bytes.length)
    (whileRunning (fun s => s.putOut (.writeToMemory .presentation start.toNat bytes)) s)

/-- PRESENTATION_RESPONSE (R14). -/
def execPresentationResponse (tag : Nat) (status : Status) (data : List Byte) (s : State) :
    Outcome State Fault Refusal :=
  ifBurst (responseOk data) (whileRunning (takePresentationResponse tag status data) s)

end Sys2Proof.Machine
end

