-- ==== Sys2Proof/Machine/Resets.lean ====
section
/-! DEFINITION. The resets (R23): the cold reset, the warm reset and its release, and their meanings. -/

namespace Sys2Proof.Machine

open Sys2Proof Host

/-- R21: the lanes at a warm reset: windows and layout are kept. -/
def Lanes.warm (l : Lanes) : Lanes :=
  { l with presentation := [], control := [], heldPresentation := [], heldControl := []
           activity := .const false }

/-- R24: an output context at a warm reset. -/
def OutputContext.warm (c : OutputContext) : OutputContext := { c with service := none, stack := [] }

/-- Every output context at a warm reset. -/
def warmOutputs (p : PerOutput OutputContext) : PerOutput OutputContext :=
  ⟨p.primary.warm, p.secondary.warm, p.remote.warm⟩

/-- R124, R136: the rating table at a warm reset: the scheme maps are kept. -/
def RatingTable.warm (r : RatingTable) : RatingTable := { RatingTable.cold with schemes := r.schemes }

/-- R105, R109: a section window at a warm reset. -/
def SectionWindow.warm (w : SectionWindow) : SectionWindow :=
  { w with context := if w.set then .seeking none else .unset }

/-- R105, R114, R118: the intake at a warm reset. -/
def Intake.warm (i : Intake) : Intake :=
  { Intake.cold with windows := i.windows.map SectionWindow.warm
                     haltLevel := i.haltLevel, resumeLevel := i.resumeLevel }

/-- R161, R164: the panel link at a warm reset, with the lamp state computed then. -/
def PanelLink.warm (p : PanelLink) (l : Lamp) : PanelLink :=
  { PanelLink.cold with
    listenerAddress := p.listenerAddress, panelAddress := p.panelAddress
    queue := [.lamp l], lampRecord := some l, sent := p.sent }

/-- R165: the PIN authority at a warm reset: an entry is abandoned, LOCKOUT is kept with its timer. -/
def PinAuthority.warm (p : PinAuthority) : PinAuthority :=
  { PinAuthority.cold with
    stored := p.stored, failures := p.failures, step := p.step, sessionLength := p.sessionLength
    matcher := if p.matcher = .lockout then .lockout else .idle
    timer := if p.matcher = .lockout then p.timer else 0 }

/-- R23: the gate when the system reset input is asserted. -/
def warmReset (s : State) : State :=
  { s with
    lanes := s.lanes.warm
    outputs := warmOutputs s.outputs
    image := ⟨.idle, none⟩
    rating := s.rating.warm
    intake := s.intake.warm
    panel := s.panel.warm (lampOf false s.outputs)
    pin := s.pin.warm
    command := .cold
    report := .cold
    systemReset := true }

/-- R46: the system reset input is released, and every output is evaluated once. -/
def releaseReset (s : State) : State :=
  if s.systemReset then evaluateAll { s with systemReset := false } else s

/-- R23: the power-on reset: every item takes its cold value. The straps and the salt stand, and so does
the queue of commands, which is outside the gate (log 35). Where the system reset input was asserted,
the model has it released by the power-on reset (log 12). -/
def coldReset (s : State) : State := { State.cold s.inputs with pending := s.pending }

/-- COLD_RESET (R23). -/
def execColdReset (s : State) : Outcome State Fault Refusal := carried (coldReset s)

/-- WARM_RESET (R23). -/
def execWarmReset (s : State) : Outcome State Fault Refusal := carried (warmReset s)

/-- WARM_RESET_RELEASE (R46). -/
def execWarmResetRelease (s : State) : Outcome State Fault Refusal := carried (releaseReset s)

end Sys2Proof.Machine
end

