-- ==== Sys2Proof/Machine/Seconds.lean ====
section
/-! DEFINITION. The second event (R139) with its pieces of work, and the meanings of the rows that time
drives. -/

namespace Sys2Proof.Machine

open Sys2Proof Host

/-- R36: the pending limit of an output: it is evaluated where its limit has run out. -/
def expirePending (o : Output) (s : State) : State :=
  match (s.context o).profile with
  | some n =>
      if (s.context o).verdict = .pending
          ∧ (s.profile n).pendingLimit ≤ s.time.run - (s.context o).pendingSince then evaluate o s
      else s
  | none => s

/-- R41: the second-event evaluation of an output, made while it is supervised. -/
def evaluateIfSupervised (o : Output) (s : State) : State :=
  if (s.context o).profile.isSome then evaluate o s else s

/-- One piece of the work of a second event (R139). -/
def doWork : SecondWork → State → State
  | .dayComparison, s => compareDay s
  | .sample, s => sample s
  | .evaluation o, s => evaluateIfSupervised o s
  | .promotion n, s => promoteOnce n s
  | .untilTimeExpiry o, s => expireUntilTime o s
  | .pendingLimitExpiry o, s => expirePending o s
  | .sessionExpiry, s => expireSession s
  | .lockoutExpiry, s => expireLockout s
  | .wholeEntryLimit, s => wholeEntryLimit s
  | .interKeyLimit, s => interKeyLimit s

/-- The work that every second event does within itself (R41, R53, R150). -/
def coreWork : List SecondWork :=
  [.dayComparison, .sample, .evaluation .primary, .evaluation .secondary, .evaluation .remote]

/-- The work that a second event leaves to rows of its own, in the order the model takes what is left of
it at the next second event (log 7). -/
def lateWork : List SecondWork :=
  [.untilTimeExpiry .primary, .untilTimeExpiry .secondary, .untilTimeExpiry .remote,
   .sessionExpiry, .lockoutExpiry, .wholeEntryLimit, .interKeyLimit]

/-- Pieces of work are done one after another. -/
def doAll (work : List SecondWork) (s : State) : State := work.foldl (fun t w => doWork w t) s

/-- What is left of the work of the second event before this one (log 7). -/
def finishSecond (s : State) : State :=
  doAll lateWork (s.rating.promotionDue.foldl (fun t n => promoteOnce n t) s)

/-- R131: the promotion tests a second event sets, while time is set (log 8). -/
def RatingTable.owing (r : RatingTable) (t : TimeBase) : RatingTable :=
  { r with promotionDue := if t.isSet then allRatingSlots else [], promotionWall := t.wallCount }

/-- R139, R141, R173, R174: run seconds and wall time advance, and the timers fall. -/
def tick (s : State) : State :=
  { s with time := s.time.ticked, pin := s.pin.ticked, rating := s.rating.owing s.time.ticked }

/-- The order of the work: what the command names, then the rest of the work of every second event. -/
def workOrder (order : List SecondWork) : List SecondWork :=
  order.dedup ++ coreWork.filter (fun w => !order.contains w)

/-- R139: the second event. -/
def secondEvent (order : List SecondWork) (s : State) : State := doAll (workOrder order) (tick (finishSecond s))

/-- SECOND_EVENT (R139). It is raised while the system reset input is asserted, too. -/
def execSecondEvent (order : List SecondWork) (s : State) : Outcome State Fault Refusal :=
  carried (secondEvent order s)

/-- PROMOTION (R131, R132). -/
def execPromotion (slot : Fin 64) (s : State) : Outcome State Fault Refusal :=
  carried (whileRunning (promoteOnce slot) s)

/-- UNTIL_TIME_EXPIRY (R99). -/
def execUntilTimeExpiry (o : Output) (s : State) : Outcome State Fault Refusal :=
  carried (whileRunning (expireUntilTime o) s)

/-- PENDING_LIMIT_EXPIRY (R36). -/
def execPendingLimitExpiry (o : Output) (s : State) : Outcome State Fault Refusal :=
  carried (whileRunning (expirePending o) s)

/-- SESSION_EXPIRY (R174). -/
def execSessionExpiry (s : State) : Outcome State Fault Refusal := carried (whileRunning expireSession s)

/-- LOCKOUT_EXPIRY (R173). The lockout runs on while the system reset input is asserted (R23). -/
def execLockoutExpiry (s : State) : Outcome State Fault Refusal := carried (expireLockout s)

/-- WHOLE_ENTRY_LIMIT (R172). -/
def execWholeEntryLimit (s : State) : Outcome State Fault Refusal := carried (whileRunning wholeEntryLimit s)

/-- INTER_KEY_LIMIT (R172). -/
def execInterKeyLimit (s : State) : Outcome State Fault Refusal := carried (whileRunning interKeyLimit s)

end Sys2Proof.Machine
end

