-- ==== Sys2Proof/Machine/Dispatch.lean ====
section
/-! DEFINITION. One arm for each row of spec/opcode_table.json. -/

namespace Sys2Proof.Machine

open Sys2Proof

def exec (i : Instr) (s : State) : Host.Outcome State Fault Refusal :=
  match i with
  | .streamWriteBurst start bytes => Sys2Proof.Machine.execStreamWriteBurst start bytes s
  | .streamReadBurst tag start status data => Sys2Proof.Machine.execStreamReadBurst tag start status data s
  | .parseCompletion => Sys2Proof.Machine.execParseCompletion s
  | .controlWriteBurst start bytes => Sys2Proof.Machine.execControlWriteBurst start bytes s
  | .controlReadRequest tag start count => Sys2Proof.Machine.execControlReadRequest tag start count s
  | .controlReadResponse mark tag status data => Sys2Proof.Machine.execControlReadResponse mark tag status data s
  | .noticePortRead mark data => Sys2Proof.Machine.execNoticePortRead mark data s
  | .summaryRead mark data => Sys2Proof.Machine.execSummaryRead mark data s
  | .presentationReadRequest tag start count => Sys2Proof.Machine.execPresentationReadRequest tag start count s
  | .heldRequestArrival lane => Sys2Proof.Machine.execHeldRequestArrival lane s
  | .presentationWriteBurst start bytes => Sys2Proof.Machine.execPresentationWriteBurst start bytes s
  | .presentationResponse tag status data => Sys2Proof.Machine.execPresentationResponse tag status data s
  | .coldReset => Sys2Proof.Machine.execColdReset s
  | .warmReset => Sys2Proof.Machine.execWarmReset s
  | .warmResetRelease => Sys2Proof.Machine.execWarmResetRelease s
  | .secondEvent order => Sys2Proof.Machine.execSecondEvent order s
  | .promotion slot => Sys2Proof.Machine.execPromotion slot s
  | .untilTimeExpiry o => Sys2Proof.Machine.execUntilTimeExpiry o s
  | .pendingLimitExpiry o => Sys2Proof.Machine.execPendingLimitExpiry o s
  | .sessionExpiry => Sys2Proof.Machine.execSessionExpiry s
  | .lockoutExpiry => Sys2Proof.Machine.execLockoutExpiry s
  | .wholeEntryLimit => Sys2Proof.Machine.execWholeEntryLimit s
  | .interKeyLimit => Sys2Proof.Machine.execInterKeyLimit s
  | .exportCompletion => Sys2Proof.Machine.execExportCompletion s
  | .importCompletion => Sys2Proof.Machine.execImportCompletion s
  | .addressFrame w => Sys2Proof.Machine.execAddressFrame w s
  | .keyFrame w => Sys2Proof.Machine.execKeyFrame w s
  | .panelAnswer w => Sys2Proof.Machine.execPanelAnswer w s
  | .lock w => Sys2Proof.Machine.execLock w s
  | .lineBreak => Sys2Proof.Machine.execLineBreak s
  | .faultRecovery => Sys2Proof.Machine.execFaultRecovery s
  | .transmitStart => Sys2Proof.Machine.execTransmitStart s
  | .messageSent => Sys2Proof.Machine.execMessageSent s
  | .acknowledgementTimeout => Sys2Proof.Machine.execAcknowledgementTimeout s
  | .keyTaken => Sys2Proof.Machine.execKeyTaken s
  | .nullCommand => Sys2Proof.Machine.execNullCommand s
  | .bindService output network stream service => Sys2Proof.Machine.execBindService output network stream service s
  | .unbindService output => Sys2Proof.Machine.execUnbindService output s
  | .bindProfile output profile => Sys2Proof.Machine.execBindProfile output profile s
  | .declarePlayback stream service eventId cls age flags genre => Sys2Proof.Machine.execDeclarePlayback stream service eventId cls age flags genre s
  | .setProfileLimits profile ceilingKind age blockMask unrated scheme absent pendingLimit => Sys2Proof.Machine.execSetProfileLimits profile ceilingKind age blockMask unrated scheme absent pendingLimit s
  | .setProfileTime profile allowance carryCap lead rate0 rate1 rate2 rate3 => Sys2Proof.Machine.execSetProfileTime profile allowance carryCap lead rate0 rate1 rate2 rate3 s
  | .setCurfew profile slot days startMinute endMinute => Sys2Proof.Machine.execSetCurfew profile slot days startMinute endMinute s
  | .curfewClear profile slot => Sys2Proof.Machine.execCurfewClear profile slot s
  | .setProfileState profile state => Sys2Proof.Machine.execSetProfileState profile state s
  | .exportProfile profile => Sys2Proof.Machine.execExportProfile profile s
  | .importProfile profile => Sys2Proof.Machine.execImportProfile profile s
  | .grantTime profile minutes => Sys2Proof.Machine.execGrantTime profile minutes s
  | .pushOverride output kind scope endDay endSecond => Sys2Proof.Machine.execPushOverride output kind scope endDay endSecond s
  | .popOverride output => Sys2Proof.Machine.execPopOverride output s
  | .clearOverrides output => Sys2Proof.Machine.execClearOverrides output s
  | .setTime day second offset => Sys2Proof.Machine.execSetTime day second offset s
  | .setDayStart minute => Sys2Proof.Machine.execSetDayStart minute s
  | .setWindow output kind base size fill => Sys2Proof.Machine.execSetWindow output kind base size fill s
  | .setSectionWindow number base size => Sys2Proof.Machine.execSetSectionWindow number base size s
  | .setIntakeLevels halt resume => Sys2Proof.Machine.execSetIntakeLevels halt resume s
  | .commitLayout => Sys2Proof.Machine.execCommitLayout s
  | .setScheme scheme ages => Sys2Proof.Machine.execSetScheme scheme ages s
  | .openSessionEntry => Sys2Proof.Machine.execOpenSessionEntry s
  | .openGrantEntry output profile stagedKind minutes kind scope endDay endSecond => Sys2Proof.Machine.execOpenGrantEntry output profile stagedKind minutes kind scope endDay endSecond s
  | .openPinChangeEntry => Sys2Proof.Machine.execOpenPinChangeEntry s
  | .closeSession => Sys2Proof.Machine.execCloseSession s
  | .setSessionLength seconds => Sys2Proof.Machine.execSetSessionLength seconds s
  | .setPanelAddresses listener panel => Sys2Proof.Machine.execSetPanelAddresses listener panel s
  | .factoryClear => Sys2Proof.Machine.execFactoryClear s
  | .selectView kind number network stream service => Sys2Proof.Machine.execSelectView kind number network stream service s
  | .setNoticeMask mask => Sys2Proof.Machine.execSetNoticeMask mask s
  | .setAttention level urgent => Sys2Proof.Machine.execSetAttention level urgent s
  | .dataFrameDropped w => Sys2Proof.Machine.execDataFrameDropped w s
  | .answerAwaitingEcho w => Sys2Proof.Machine.execAnswerAwaitingEcho w s

end Sys2Proof.Machine
end

