-- ==== Sys2Proof/Safety.lean ====
section
/-! DEFINITION. What the statements are written with: the parts of State and what it is for all but a few
of them to be unchanged; the laws that the spec says the gate keeps; and how a host command is taken from
its slot. -/

namespace Sys2Proof.Machine

open Sys2Proof

/-! ### Parts of State -/

/-- The pieces of State, one for each line of the inventory. -/
inductive Part where
  | inputs | systemReset | pending
  | window (o : Output) (k : WindowKind) | layout | presentationTable | controlTable
  | heldPresentation | heldControl | nextMark | activity (o : Output) | transfers
  | profileBinding (o : Output) | serviceBinding (o : Output) | verdict (o : Output)
  | pendingSince (o : Output) | stack (o : Output)
  | profile (n : Fin 8) | imageOperation | imageBuffer
  | entry (n : Fin 64) | schemes | promotions
  | run | wall | offset | dayStart | profileDay
  | sectionWindow (w : Fin 4) | intakeQueue | flow | intakeLevels
  | listener | panelAddresses | keyFifo | transmitQueue | transmitter | lampRecord | sentFrames
  | storedPin | matcher | pinEntry | failures | lockoutTimer | session | sessionRemaining | sessionLength
  | shadow | pointer | slot (n : Fin 16)
  | notices | flags | masks | attentionLevels | view
  deriving DecidableEq, Repr

/-- A part holds the same in two states. -/
def Part.same (s t : State) : Part → Prop
  | .inputs => t.inputs = s.inputs
  | .systemReset => t.systemReset = s.systemReset
  | .pending => t.pending = s.pending
  | .window o k => t.window o k = s.window o k
  | .layout => t.lanes.layout = s.lanes.layout
  | .presentationTable => t.lanes.presentation = s.lanes.presentation
  | .controlTable => t.lanes.control = s.lanes.control
  | .heldPresentation => t.lanes.heldPresentation = s.lanes.heldPresentation
  | .heldControl => t.lanes.heldControl = s.lanes.heldControl
  | .nextMark => t.lanes.nextMark = s.lanes.nextMark
  | .activity o => t.lanes.activity.get o = s.lanes.activity.get o
  | .transfers => t.lanes.out = s.lanes.out
  | .profileBinding o => (t.context o).profile = (s.context o).profile
  | .serviceBinding o => (t.context o).service = (s.context o).service
  | .verdict o =>
      (t.context o).verdict = (s.context o).verdict ∧ (t.context o).reason = (s.context o).reason
  | .pendingSince o => (t.context o).pendingSince = (s.context o).pendingSince
  | .stack o => (t.context o).stack = (s.context o).stack
  | .profile n => t.profile n = s.profile n
  | .imageOperation => t.image.operation = s.image.operation
  | .imageBuffer => t.image.buffer = s.image.buffer
  | .entry n => t.entry n = s.entry n
  | .schemes => t.rating.schemes = s.rating.schemes
  | .promotions =>
      t.rating.promotionDue = s.rating.promotionDue ∧ t.rating.promotionWall = s.rating.promotionWall
  | .run => t.time.run = s.time.run
  | .wall => t.time.source = s.time.source ∧ t.time.day = s.time.day ∧ t.time.second = s.time.second
  | .offset => t.time.offset = s.time.offset
  | .dayStart => t.time.dayStart = s.time.dayStart
  | .profileDay => t.time.profileDay = s.time.profileDay
  | .sectionWindow w => t.sectionWindow w = s.sectionWindow w
  | .intakeQueue => t.intake.queue = s.intake.queue ∧ t.intake.parsing = s.intake.parsing
  | .flow => t.intake.flow = s.intake.flow
  | .intakeLevels =>
      t.intake.haltLevel = s.intake.haltLevel ∧ t.intake.resumeLevel = s.intake.resumeLevel
  | .listener => t.panel.listener = s.panel.listener ∧ t.panel.awaited = s.panel.awaited
  | .panelAddresses =>
      t.panel.listenerAddress = s.panel.listenerAddress ∧ t.panel.panelAddress = s.panel.panelAddress
  | .keyFifo => t.panel.fifo = s.panel.fifo
  | .transmitQueue => t.panel.queue = s.panel.queue
  | .transmitter =>
      t.panel.transmitter = s.panel.transmitter ∧ t.panel.outstanding = s.panel.outstanding
        ∧ t.panel.holding = s.panel.holding ∧ t.panel.shifting = s.panel.shifting
  | .lampRecord => t.panel.lampRecord = s.panel.lampRecord
  | .sentFrames => t.panel.sent = s.panel.sent
  | .storedPin => t.pin.stored = s.pin.stored
  | .matcher => t.pin.matcher = s.pin.matcher
  | .pinEntry => t.pin.entry = s.pin.entry
  | .failures => t.pin.failures = s.pin.failures ∧ t.pin.step = s.pin.step
  | .lockoutTimer => t.pin.timer = s.pin.timer
  | .session => t.pin.sessionOpen = s.pin.sessionOpen
  | .sessionRemaining => t.pin.sessionRemaining = s.pin.sessionRemaining
  | .sessionLength => t.pin.sessionLength = s.pin.sessionLength
  | .shadow => t.command.shadow = s.command.shadow
  | .pointer => t.command.pointer = s.command.pointer
  | .slot n => t.slot n = s.slot n
  | .notices => t.report.queue = s.report.queue ∧ t.report.attention = s.report.attention
  | .flags => t.report.sticky = s.report.sticky ∧ t.report.lost = s.report.lost
  | .masks => t.report.masks = s.report.masks
  | .attentionLevels => t.report.level = s.report.level ∧ t.report.urgent = s.report.urgent
  | .view => t.report.view = s.report.view

/-- Every part outside a list holds the same in two states. -/
def Frame (ps : List Part) (s t : State) : Prop := ∀ p, p ∉ ps → p.same s t

/-- What raising a notice may change (R184, R186). -/
abbrev raised : List Part := [.notices, .flags]

/-- What handing over a lamp state may change (R164). -/
abbrev lit : List Part := [.transmitQueue, .lampRecord]

/-- What the evaluation of one output may change (R30, R47 to R49). -/
abbrev judgedParts (o : Output) : List Part := .verdict o :: (raised ++ lit)

/-- The verdicts of all outputs. -/
abbrev everyVerdict : List Part := [.verdict .primary, .verdict .secondary, .verdict .remote]

/-- What evaluations of several outputs may change. -/
abbrev allJudged : List Part := everyVerdict ++ raised ++ lit

/-- The override stacks of all outputs. -/
abbrev everyStack : List Part := [.stack .primary, .stack .secondary, .stack .remote]

/-- The service bindings' pending-since stamps of all outputs. -/
abbrev everyPendingSince : List Part :=
  [.pendingSince .primary, .pendingSince .secondary, .pendingSince .remote]

/-- The profile bindings of all outputs. -/
abbrev everyProfileBinding : List Part :=
  [.profileBinding .primary, .profileBinding .secondary, .profileBinding .remote]

/-- The activity flags of all outputs. -/
abbrev everyActivity : List Part := [.activity .primary, .activity .secondary, .activity .remote]

/-- All presentation windows. -/
abbrev everyWindow : List Part := allWindows.map (fun n => .window n.1 n.2)

/-- All profile records. -/
abbrev everyProfile : List Part := allProfiles.map .profile

/-- All rating slots. -/
abbrev everyEntry : List Part := allRatingSlots.map .entry

/-- All section windows with their contexts. -/
abbrev everySection : List Part := allSections.map .sectionWindow

/-- All command slots. -/
abbrev everySlot : List Part := (List.finRange 16).map .slot

/-- What the consequences of an entry's change may touch (R37, R129, R130). -/
abbrev consequenceParts : List Part := everyStack ++ everyPendingSince ++ allJudged

/-- What a change of an output's service binding may touch (R26, R27). -/
abbrev bindingParts (o : Output) : List Part :=
  [.serviceBinding o, .pendingSince o, .stack o] ++ judgedParts o ++ everyEntry

/-- What a profile-day comparison may change (R150, R152). -/
abbrev dayParts : List Part := [.profileDay, .failures] ++ everyProfile ++ allJudged

/-- What a setting of wall time may change (R143). -/
abbrev settingParts : List Part := [.wall, .offset] ++ everyStack ++ dayParts

/-- What a window write may change in the intake (R107 to R116). -/
abbrev intakeParts : List Part := everySection ++ [.intakeQueue, .flow] ++ raised

/-- What an application of the intake's levels may change (R117). -/
abbrev levelParts : List Part := everySection ++ [.flow, .intakeLevels] ++ raised

/-- What the effect of a parsed record may change (R118, R127, R142, R145). -/
abbrev recordParts : List Part := settingParts ++ everyEntry ++ consequenceParts

/-- What opening or closing a session may change (R174). -/
abbrev sessionParts : List Part := [.session, .sessionRemaining] ++ raised ++ lit

/-- What an entry's beginning may change (R166). -/
abbrev beginParts : List Part := [.matcher, .pinEntry, .transmitQueue]

/-- What an entry's ending may change (R168). -/
abbrev endingParts : List Part := [.matcher, .pinEntry, .keyFifo, .transmitQueue]

/-- What the execution of a staged action may change (R64, R103). -/
abbrev stagedParts : List Part := everyProfile ++ everyStack ++ allJudged

/-- What a key may change (R169 to R171). -/
abbrev keyParts : List Part :=
  endingParts ++ [.storedPin, .failures, .lockoutTimer] ++ sessionParts ++ stagedParts

/-- What a LOCK may change (R175). -/
abbrev lockParts : List Part := sessionParts ++ endingParts

/-- What the end of a message may change (R163, R168). -/
abbrev messageEndParts (s : State) : List Part :=
  [.transmitter, .lampRecord, .slot s.pin.entry.slot] ++ endingParts ++ raised

/-- What a received frame may change (R155 to R159). -/
abbrev frameParts (s : State) : List Part := .listener :: (messageEndParts s ++ sessionParts)

/-- What FACTORY_CLEAR may change (R176). -/
abbrev clearingParts : List Part :=
  [.layout, .imageOperation, .imageBuffer, .schemes, .wall, .offset, .dayStart, .profileDay, .flow,
    .intakeLevels, .panelAddresses, .storedPin, .failures, .lockoutTimer, .sessionLength]
    ++ everyWindow ++ everyProfile ++ everyProfileBinding ++ everyPendingSince ++ everyStack ++ everySection
    ++ allJudged ++ lockParts ++ everySlot

/-- What a second event may change (R41, R53, R99, R131, R139, R141, R150, R172 to R174). -/
abbrev secondParts : List Part :=
  [.run, .wall, .promotions, .lockoutTimer] ++ dayParts ++ everyActivity ++ everyEntry ++ consequenceParts
    ++ sessionParts ++ endingParts

/-- What the owner of a command may change in carrying it out (R180). -/
def commandParts : Command → List Part
  | .null => []
  | .bindService o .. => (outputOf o).elim [] bindingParts
  | .bindProfile o _ => (outputOf o).elim [] (fun o => .profileBinding o :: judgedParts o)
  | .declarePlayback .. => everyEntry ++ consequenceParts
  | .setProfileLimits p .. | .setProfileTime p .. | .setCurfew p .. | .grantTime p _ =>
      (profileSlotOf p).elim [] (fun n => .profile n :: allJudged)
  | .setProfileState p _ =>
      (profileSlotOf p).elim [] (fun n => .profile n :: everyProfileBinding ++ allJudged)
  | .exportProfile _ | .importProfile _ => [.imageOperation]
  | .pushOverride o .. | .popOverride o | .clearOverrides o =>
      (outputOf o).elim [] (fun o => .stack o :: judgedParts o)
  | .setTime .. => settingParts
  | .setDayStart _ => .dayStart :: dayParts
  | .setWindow o kind .. =>
      (outputOf o).elim [] (fun o => (windowKindOf kind).elim [] (fun k => [.window o k]))
  | .setSectionWindow number .. => if h : number.toNat < 4 then [.sectionWindow ⟨number.toNat, h⟩] else []
  | .setIntakeLevels .. => levelParts
  | .commitLayout => [.layout]
  | .setScheme .. => .schemes :: everyEntry
  | .openPinEntry _ _ purpose .. =>
      match purposeOf purpose with
      | none => []
      | some .session => sessionParts ++ beginParts
      | some .grant => stagedParts ++ beginParts
      | some .pinChange => beginParts
  | .closeSession => sessionParts
  | .setSessionLength _ => [.sessionLength, .sessionRemaining]
  | .setPanelAddresses .. => [.panelAddresses]
  | .factoryClear => clearingParts
  | .selectView .. => [.view]
  | .setNoticeMask _ => [.masks]
  | .setAttention .. => [.attentionLevels, .notices]

/-- The output's verdict and reason are those that an evaluation of it decides (R30). -/
def UpToDate (t : State) (o : Output) : Prop :=
  ((t.context o).verdict, (t.context o).reason) = judge t o

/-! ### How a host command is taken (R177 to R181) -/

/-- The host command that a row of the table posts, for the rows that post one. -/
def commandOf : Instr → Option Command
  | .nullCommand => some .null
  | .bindService output network stream service => some (.bindService output false network stream service)
  | .unbindService output => some (.bindService output true 0 0 0)
  | .bindProfile output profile => some (.bindProfile output profile)
  | .declarePlayback stream service eventId cls age flags genre =>
      some (.declarePlayback stream service eventId cls age flags genre)
  | .setProfileLimits p kind age mask u sc ab limit => some (.setProfileLimits p kind age mask u sc ab limit)
  | .setProfileTime p a k lead r0 r1 r2 r3 => some (.setProfileTime p a k lead r0 r1 r2 r3)
  | .setCurfew p c days st en => some (.setCurfew p c false days st en)
  | .curfewClear p c => some (.setCurfew p c true 0 0 0)
  | .setProfileState p state => some (.setProfileState p state)
  | .exportProfile p => some (.exportProfile p)
  | .importProfile p => some (.importProfile p)
  | .grantTime p m => some (.grantTime p m)
  | .pushOverride o kind scope day second => some (.pushOverride o kind scope day second)
  | .popOverride o => some (.popOverride o)
  | .clearOverrides o => some (.clearOverrides o)
  | .setTime day second offset => some (.setTime day second offset)
  | .setDayStart m => some (.setDayStart m)
  | .setWindow o kind base size fill => some (.setWindow o kind base size fill)
  | .setSectionWindow number base size => some (.setSectionWindow number base size)
  | .setIntakeLevels h l => some (.setIntakeLevels h l)
  | .commitLayout => some .commitLayout
  | .setScheme m ages => some (.setScheme m ages)
  | .openSessionEntry => some (.openPinEntry 0 0 0 0 0 0 0 0 0)
  | .openGrantEntry o p staged m kind scope day second =>
      some (.openPinEntry o p 1 staged m kind scope day second)
  | .openPinChangeEntry => some (.openPinEntry 0 0 2 0 0 0 0 0 0)
  | .closeSession => some .closeSession
  | .setSessionLength n => some (.setSessionLength n)
  | .setPanelAddresses l p => some (.setPanelAddresses l p)
  | .factoryClear => some .factoryClear
  | .selectView kind number network stream service => some (.selectView kind number network stream service)
  | .setNoticeMask mask => some (.setNoticeMask mask)
  | .setAttention l u => some (.setAttention l u)
  | _ => none

/-- The slot at the next-slot pointer takes a posted command at once, and the chain ends there: the system
reset input is not asserted, no long command of that slot is running, and the next slot is not POSTED
(R179). -/
def RingReady (s : State) : Prop :=
  s.systemReset = false ∧ (s.slot s.command.pointer).result.state ≠ .pending
    ∧ (s.slot (s.command.pointer + 1)).state ≠ .posted

/-- A command that is privileged at its take is taken under authority (R180). -/
def Allowed (c : Command) (s : State) : Prop := privileged c s = true → authority s = true

/-- R3, R179, R181: the command unit after the record of a command has been written in the slot at the
pointer and taken, with the response its owner gave. -/
def takenUnit (c : Command) (r : Response) (s : State) : CommandUnit :=
  { shadow := s.command.shadow.writeRun (32 * s.command.pointer.val)
      ((hostRecord c s).map (fun b => (b, true)))
    pointer := s.command.pointer + 1
    slots := s.command.slots.set s.command.pointer
      { expected := !(s.slot s.command.pointer).expected, state := .taken, captured := none
        result := resultAt (hostRecord c s) r } }

/-- What the taking of a command changes in the command unit. -/
abbrev ringParts (s : State) : List Part := [.shadow, .pointer, .slot s.command.pointer]

/-- A command was taken with a response, and nothing else changed but the parts named. -/
def Took (c : Command) (r : Response) (ps : List Part) (s t : State) : Prop :=
  t.command = takenUnit c r s ∧ Frame (ringParts s ++ ps) s t

/-- R174, R180: the remaining seconds after the take of a command: the full length where a privileged
command was taken under an open session. -/
def slidRemaining (c : Command) (s : State) : Nat :=
  if privileged c s && s.pin.sessionOpen then s.pin.sessionLength else s.pin.sessionRemaining

/-- A command was taken as `Took` says, and the session's remaining seconds follow R180. -/
def TookSliding (c : Command) (r : Response) (ps : List Part) (s t : State) : Prop :=
  Took c r (.sessionRemaining :: ps) s t ∧ t.pin.sessionRemaining = slidRemaining c s

/-! ### Words of the statements -/

/-- The rows that are transfers on a lane (R1). -/
def laneTransfer : Instr → Bool
  | .streamWriteBurst .. | .streamReadBurst .. | .controlWriteBurst .. | .controlReadRequest ..
  | .controlReadResponse .. | .noticePortRead .. | .summaryRead .. | .presentationReadRequest ..
  | .presentationWriteBurst .. | .presentationResponse .. => true
  | _ => false

/-- R23: the system reset input is not asserted. -/
def Running (s : State) : Prop := s.systemReset = false

/-- The system reset input is not asserted, and no command waits POSTED in the slot at the pointer, so that
an event that frees the ring takes none (R179). -/
def Quiet (s : State) : Prop := Running s ∧ (s.slot s.command.pointer).state ≠ .posted

/-- The row of a host command that is taken at once, and under authority where it is privileged. -/
def Ready (i : Instr) (s : State) : Prop := RingReady s ∧ ∀ c, commandOf i = some c → Allowed c s

/-- The row of a host command answers a next state: the command was taken with the response given, and
nothing changed but the command unit, the slide of an open session and the parts named. -/
def Ends (i : Instr) (r : Response) (ps : List Part) (s t : State) : Prop :=
  exec i s = .next t ∧ ∃ c, commandOf i = some c ∧ TookSliding c r ps s t

/-- As `Ends`, for the commands that write the session's remaining seconds themselves: these are among the
parts that may change. -/
def EndsFreely (i : Instr) (r : Response) (ps : List Part) (s t : State) : Prop :=
  exec i s = .next t ∧ ∃ c, commandOf i = some c ∧ Took c r ps s t

/-- The row of a host command is refused: the outcome is told without data, and the command changed
nothing. -/
def Refuses (i : Instr) (outcome : CommandOutcome) (s : State) : Prop :=
  ∃ t, Ends i (.done outcome []) [] s t

/-- A notice of a kind and subject was raised: its kind is masked and its sticky flag is set, or it is
queued, or it was lost to a full queue (R184). -/
def Noted (k : NoticeKind) (subject : Nat) (t : State) : Prop :=
  if hasKind t.report.masks k then hasKind t.report.sticky k = true
  else t.report.lost = true ∨ t.report.queue.any (·.isFor k (BitVec.ofNat 32 subject)) = true

/-- Every supervised output holds what an evaluation decides. -/
def SupervisedUpToDate (t : State) : Prop := ∀ o, (t.context o).profile.isSome = true → UpToDate t o

/-- Every output bound to a profile slot holds what an evaluation decides. -/
def BoundUpToDate (n : Fin 8) (t : State) : Prop := ∀ o, (t.context o).profile = some n → UpToDate t o

/-- R178: the bytes of a burst enable all four header bytes of a slot. -/
def PostsSlot (i : Inputs) (start : Nat) (bytes : List (Byte × Bool)) (p : Fin 16) : Prop :=
  start ≤ i.commandBase + 32 * p.val
    ∧ ∀ k, k < 4 → ∃ b, bytes[i.commandBase + 32 * p.val + k - start]? = some (b, true)

/-- The bytes that segments cover together. -/
def coveredBy (segments : List Segment) : Nat := (segments.map (·.count)).sum

/-- R97, R98, R99: the LIVE entries that meet a condition are SPENT, and the spent tops removed (R96). -/
def SpentIn (cond : Override → Bool) (before after : List Override) : Prop :=
  after = (before.map (fun e => if cond e then { e with tag := .spent } else e)).dropWhile
    (fun e => decide (e.tag = .spent))

/-- R99, R141, R143: after a change of local time the stacks have spent the entries whose ends the time
before it had reached (log 7) or the time after it reaches; at the first setting of time they are settled
as R100 gives. -/
def EndsMet (s t : State) : Prop :=
  ∀ o,
    (s.time.source ≠ .unset →
      SpentIn (fun e => e.reached s.time.localSeconds || e.reached t.time.localSeconds)
        (s.context o).stack (t.context o).stack)
    ∧ (s.time.source = .unset →
      SpentIn (fun e => e.reached t.time.localSeconds)
        ((s.context o).stack.map (fun e =>
          if e.reached t.time.localSeconds then e else capWaive t.time.localSeconds e))
        (t.context o).stack)

/-- R123, R126: the slot of a key's entry: the slot that holds the key; else the lowest free slot; else,
with no slot free, an unbound entry's with the oldest last-touch stamp, and of those the lowest. -/
def PlacedAt (s : State) (k : ServiceKey) (n : Fin 64) : Prop :=
  (∀ m f, s.entry m = some f → f.key = k → n = m)
    ∧ ((∀ m f, s.entry m = some f → f.key ≠ k) →
      (∀ m, s.entry m = none → s.entry n = none ∧ n ≤ m)
      ∧ ((∀ m, s.entry m ≠ none) → ∀ m f, s.entry m = some f → f.bindCount = 0 →
          ∃ e, s.entry n = some e ∧ e.bindCount = 0
            ∧ (e.lastTouch < f.lastTouch ∨ (e.lastTouch = f.lastTouch ∧ n ≤ m))))

/-- R65: the remaining quarters after a change of allowance. -/
def remainingAfter (old new : Option Nat) (remaining charged : Nat) : Nat :=
  match old, new with
  | some a, some b => min 345600 (remaining + b * 240 - a * 240)
  | none, some b => b * 240 - charged
  | _, none => remaining

/-- R62: the account after a grant of `m` minutes, 720 at most. -/
def grantedAccount (p : Profile) (m : Nat) : Profile :=
  { p with remaining := min 345600 (p.remaining + min 720 m * 240)
           granted := min 1440 (p.granted + min 720 m) }

/-- R58: the account after a rollover to profile day `day`. -/
def rolledAccount (p : Profile) (day : Nat) : Profile :=
  { p with
    remaining := match p.allowance with
      | some a => min 345600 (a * 240 + min p.remaining (p.carryCap * 240))
      | none => p.remaining
    charged := 0, granted := 0, budgetDay := some day }

/-- R57, R86: the record after its settlement against profile day `day`. -/
def settledAccount (p : Profile) (day : Nat) : Profile :=
  match p.state, p.budgetDay with
  | .empty, _ => p
  | .suspended, some _ => p
  | .active, some b => if b < day then rolledAccount p day else { p with budgetDay := some day }
  | _, none => { p with budgetDay := some day }

/-- R150: the profile day index after a comparison with the present local time. -/
def dayAfter (t : TimeBase) : Option Nat :=
  if t.source = .unset then t.profileDay
  else some (max (t.profileDay.getD 0) t.computedDay)

/-- R166 step 6: the entry that begins. -/
def begunEntry (purpose : Purpose) (staged : Option Staged) (s : State) : PinEntry :=
  { purpose := purpose, slot := s.command.pointer, takeStamp := s.time.run, lastKeyStamp := 0, buffer := []
    damaged := false, overlong := false, firstCollection := none, staged := staged, outcome := .doneOk
    outcomeData := [] }

/-- R168: an entry ended with an outcome. -/
def Ending (outcome : CommandOutcome) (t : State) : Prop :=
  t.pin.matcher = .releasing ∧ t.pin.entry.outcome = outcome ∧ t.pin.entry.buffer = []
    ∧ t.pin.entry.firstCollection = none ∧ t.panel.fifo = [] ∧ .releaseKeys ∈ t.panel.queue

/-- R103 step 1: the subject that a staged push recorded is no longer that of its output. -/
def SubjectMoved (p : StagedPush) (s : State) : Prop :=
  (p.kind = .allowEvent
      ∧ (s.boundKey p.output ≠ p.key ∨ (s.currentEvent p.output).map (·.id) ≠ p.event))
    ∨ (p.kind = .allowService ∧ s.boundKey p.output ≠ p.key)

/-! ### Window writes and records (R107 to R115) -/

/-- R107: a burst lies in one SET section window and touches no other. -/
def LiesInWindow (s : State) (w : Fin 4) (start count : Nat) : Prop :=
  (s.sectionWindow w).set = true ∧ (s.sectionWindow w).base ≤ start
    ∧ start + count ≤ (s.sectionWindow w).base + (s.sectionWindow w).size
    ∧ ∀ v, v ≠ w → (s.sectionWindow v).set = true →
        rangesMeet start count (s.sectionWindow v).base (s.sectionWindow v).size = false

/-- R107: a burst has a window write for a window. -/
def Touches (s : State) (start : Nat) (bytes : List (Byte × Bool)) (w : Fin 4) : Prop :=
  (s.sectionWindow w).set = true
    ∧ rangesMeet start bytes.length (s.sectionWindow w).base (s.sectionWindow w).size = true

/-- R110, R113: a run of bytes begins with the marker, and every one of them is enabled. -/
def BeginsRecord (bytes : List (Byte × Bool)) : Prop :=
  (∀ b ∈ bytes, b.2 = true) ∧ (bytes.map (·.1)).head? = some 0xA6

/-- R108: an address in a ring, where the byte after the last is the base byte. -/
def ringAddress (w : SectionWindow) (a : Nat) : Nat := if a = w.base + w.size then w.base else a

/-- R108: the padding bytes up to the next multiple of 4. -/
def paddingFrom (a : Nat) : Nat := (4 - a % 4) % 4

/-- R108: the total length that the bytes of a record, from its marker on, give. -/
def recordLength (bytes : List Byte) : Nat := (halfAt bytes 2).toNat + 6

/-- R111: a total length that a record of a window may have. -/
def LegalLength (size n : Nat) : Prop := 10 ≤ n ∧ n ≤ 1026 ∧ n ≤ size

/-! ### The bodies of sections (R120, R121) -/

/-- R121: a descriptor as its list holds it. -/
def Descriptor.bytes (d : Descriptor) : List Byte := [d.tag] ++ nat8 d.content.length ++ d.content

/-- R121: a descriptor that its list may hold. -/
def Descriptor.legal (d : Descriptor) : Prop :=
  d.content.length ≤ 255 ∧ (d.tag = 0x51 → d.content.length = 2) ∧ (d.tag = 0x52 → d.content.length = 1)
    ∧ (d.tag = 0x53 → d.content.length = 1 ∧ (byteAt d.content 0).toNat ≤ 3)

/-- R120: an event entry of a section. -/
structure EventEntry where
  id : Half
  startDay : Half
  startSecond : Word
  duration : Word
  descriptors : List Descriptor
  deriving DecidableEq, Repr

/-- R120: the descriptor list of an event entry. -/
def EventEntry.list (e : EventEntry) : List Byte := e.descriptors.flatMap Descriptor.bytes

/-- R120: an event entry as its section holds it. -/
def EventEntry.bytes (e : EventEntry) : List Byte :=
  bytes16 e.id ++ bytes16 e.startDay ++ bytes32 e.startSecond ++ bytes32 e.duration ++ nat16 e.list.length
    ++ e.list

/-- R120, R121: an event entry that a section may hold. -/
def EventEntry.legal (e : EventEntry) : Prop :=
  e.startSecond.toNat ≤ 86399 ∧ e.list.length ≤ 65535 ∧ ∀ d ∈ e.descriptors, d.legal

/-- R121 step 1: a rating descriptor maps to an age through the scheme maps. -/
def MapsToAge (schemes : Vector (Vector (Option Nat) 16) 8) (d : Descriptor) (age : Nat) : Prop :=
  d.tag = 0x51 ∧ ∃ (m : Fin 8) (v : Fin 16),
    byteAt d.content 0 = BitVec.ofNat 8 (m.val + 1) ∧ byteAt d.content 1 = BitVec.ofNat 8 v.val
      ∧ schemes[m][v] = some age

/-- R121: the rating record of a list of descriptors, through the scheme maps as they stand. -/
def RatingOf (schemes : Vector (Vector (Option Nat) 16) 8) (ds : List Descriptor) (r : RatingRecord) :
    Prop :=
  (∀ d ∈ ds, ∀ age, MapsToAge schemes d age →
      ∃ a, r.cls = .aged a ∧ age ≤ a ∧ ∃ d' ∈ ds, MapsToAge schemes d' a)
    ∧ ((∀ d ∈ ds, ∀ age, ¬ MapsToAge schemes d age) →
      ((∃ d ∈ ds, d.tag = 0x51 ∧ d.content = [0, 0]) → r.cls = .unrated)
      ∧ ((∀ d ∈ ds, d.tag = 0x51 → d.content ≠ [0, 0]) →
          ((∃ d ∈ ds, d.tag = 0x51) → r.cls = .unknownScheme)
          ∧ ((∀ d ∈ ds, d.tag ≠ 0x51) → r.cls = .absent)))
    ∧ (∀ i, i < 8 → (r.flags.getLsbD i = true ↔
        ∃ d ∈ ds, d.tag = 0x52 ∧ (byteAt d.content 0).getLsbD i = true))
    ∧ ((∀ d ∈ ds, d.tag ≠ 0x53) → r.genre = 1)
    ∧ ∀ before d after, ds = before ++ d :: after → d.tag = 0x53 → (∀ x ∈ after, x.tag ≠ 0x53) →
        (byteAt d.content 0).toNat = r.genre.val

/-- R120: the event that an included entry is handed on as; none where the entry is not included. -/
def HandedOn (schemes : Vector (Vector (Option Nat) 16) 8) (e : Option EventEntry) (v : Option Event) : Prop :=
  match e, v with
  | none, none => True
  | some e, some v =>
      v.id = e.id ∧ v.startDay = e.startDay.toNat ∧ v.startSecond = e.startSecond.toNat
        ∧ v.duration = e.duration.toNat ∧ RatingOf schemes e.descriptors v.rating
  | _, _ => False

/-- R120: the body of a present/following section. -/
def sectionBody (key : ServiceKey) (version flags : Byte) (present following : Option EventEntry) : List Byte :=
  keyField key ++ [version] ++ [flags] ++ (present.map EventEntry.bytes).getD []
    ++ (following.map EventEntry.bytes).getD []

/-- R120: the flags byte tells which entries are included, and each included one is legal. -/
def SectionLegal (version flags : Byte) (present following : Option EventEntry) : Prop :=
  version.toNat ≤ 31 ∧ flags.getLsbD 0 = present.isSome ∧ flags.getLsbD 1 = following.isSome
    ∧ (∀ e, present = some e → e.legal) ∧ ∀ e, following = some e → e.legal

/-! ### Records of the report window (section 12.4) -/

/-- A record holds a field at an offset. -/
def Holds (record : List Byte) (offset : Nat) (field : List Byte) : Prop :=
  offset + field.length ≤ record.length ∧ (record.drop offset).take field.length = field

/-- A record holds zero from one offset up to another. -/
def ZeroFrom (record : List Byte) (low high : Nat) : Prop :=
  ∀ i, low ≤ i → i < high → record[i]? = some 0

/-- A record holds the fields of a list, each at its offset. -/
def HoldsAll (record : List Byte) (fields : List (Nat × List Byte)) : Prop :=
  ∀ f ∈ fields, Holds record f.1 f.2

/-! ### What an evaluation reads (R32, R33, R36 to R40) -/

/-- A LIVE entry of a kind stands in the output's stack. -/
def LiveKind (s : State) (o : Output) (k : OverrideKind) : Prop :=
  ∃ x ∈ (s.context o).stack, x.tag = .live ∧ x.kind = k

/-- R32: a LIVE ALLOW entry names the bound key and, of kind ALLOW_EVENT, the current event too. -/
def AllowLift (s : State) (o : Output) : Prop :=
  ∃ x ∈ (s.context o).stack, x.tag = .live ∧ (∃ k, s.boundKey o = some k ∧ x.subjectKey = some k)
    ∧ (x.kind = .allowService
      ∨ (x.kind = .allowEvent ∧ ∃ e, s.currentEvent o = some e ∧ x.subjectEvent = some e.id))

/-- R33, R40: the profile holds a curfew window, and no LIVE CURFEW_WAIVE stands in the stack. -/
def CurfewApplies (s : State) (o : Output) (p : Profile) : Prop :=
  (∃ w, some w ∈ p.curfews.toList) ∧ ¬ LiveKind s o .curfewWaive

/-- R33: local time lies inside one of the profile's windows. -/
def InCurfew (s : State) (p : Profile) : Prop :=
  ∃ w, some w ∈ p.curfews.toList ∧ w.covers s.time.weekday s.time.timeOfDay = true

/-- R40: the next curfew start is less than the lead away. -/
def CurfewNear (s : State) (o : Output) (p : Profile) : Prop :=
  CurfewApplies s o p ∧ s.time.source ≠ .unset
    ∧ ∃ n, nextCurfewStart p s.time.weekday s.time.timeOfDay = some n ∧ n < p.lead

/-- R36, R38: what the content class and the flags of the current event decide under an age ceiling `c`,
after a wait; none where they let the output through. -/
def contentDecision (p : Profile) (c waited : Nat) (event : Option Event) : Option (Verdict × Reason) :=
  let byFlags := match event with
    | some e => if e.rating.flags &&& p.blockMask = 0 then none else some (.blocked, .descriptor)
    | none => none
  match (match event with
    | some e => e.rating.cls
    | none => .absent : RatingClass) with
  | .aged a => if a ≤ c then byFlags else some (.blocked, .rating)
  | .unrated => if p.unrated = .allow then byFlags else some (.blocked, .unrated)
  | .unknownScheme => if p.scheme = .allow then byFlags else some (.blocked, .scheme)
  | .absent =>
      if waited < p.pendingLimit then some (.pending, .pending)
      else if p.absent = .allow then byFlags else some (.blocked, .absent)

/-! ### The values of the resets (R21, R23, R24, R52, R72, R140, R164, R165, R177, R184) -/

/-- R21, R24: the lanes and the output contexts after a cold reset; that no request is held is the model's
choice (log 51). -/
def PathCold (t : State) : Prop :=
  (∀ o k, t.window o k = ⟨false, 0, 0, 0⟩) ∧ t.lanes.layout = .opened
    ∧ t.lanes.presentation = [] ∧ t.lanes.control = []
    ∧ t.lanes.heldPresentation = [] ∧ t.lanes.heldControl = []
    ∧ (∀ o, t.lanes.activity.get o = false)
    ∧ ∀ o, t.context o = ⟨none, none, .unsupervised, .none, 0, []⟩

/-- R52, R72, R79: the profile store after a cold reset. -/
def ProfilesCold (t : State) : Prop :=
  (∀ n, t.profile n
      = { state := .empty, ceiling := .closed, blockMask := 0, unrated := .block, scheme := .block,
          absent := .block, pendingLimit := 10, allowance := some 60, carryCap := 0, lead := 300,
          rates := #v[4, 4, 4, 4], curfews := #v[none, none, none], remaining := 0, charged := 0,
          granted := 0, budgetDay := none })
    ∧ t.image.operation = .idle ∧ t.image.buffer = none

/-- R105, R114, R118, R124, R136, R139, R140: the rating table, the time base and the intake after a cold
reset. -/
def TablesCold (t : State) : Prop :=
  (∀ n, t.entry n = none) ∧ (∀ (m : Fin 8) (v : Fin 16), t.rating.schemes[m][v] = none)
    ∧ t.time = ⟨0, .unset, 0, 0, 0, 240, none⟩
    ∧ (∀ w, t.sectionWindow w = ⟨false, 0, 0, .unset⟩)
    ∧ t.intake.queue = [] ∧ t.intake.flow = .flowing ∧ t.intake.haltLevel = 6
    ∧ t.intake.resumeLevel = 2 ∧ t.intake.parsing = false

/-- R156, R159, R161, R162, R164, R165: the panel link and the PIN authority after a cold reset. -/
def PanelCold (t : State) : Prop :=
  t.panel.listener = .asleep ∧ t.panel.awaited = none
    ∧ t.panel.listenerAddress = 0x5A ∧ t.panel.panelAddress = 0x01 ∧ t.panel.fifo = []
    ∧ t.panel.queue = [] ∧ t.panel.outstanding = none ∧ t.panel.transmitter = .idle
    ∧ t.panel.lampRecord = some .off
    ∧ t.pin.stored = none ∧ t.pin.matcher = .idle ∧ t.pin.failures = 0 ∧ t.pin.step = 0
    ∧ t.pin.sessionOpen = false ∧ t.pin.sessionLength = 300

/-- R177, R183, R184: the command and report units after a cold and after a warm reset. -/
def UnitsCold (t : State) : Prop :=
  (∀ a, t.command.shadow.read a = 0) ∧ t.command.pointer = 0
    ∧ (∀ n, (t.slot n).expected = false ∧ (t.slot n).state = .free ∧ (t.slot n).captured = none
        ∧ (t.slot n).result.state = .idle)
    ∧ t.report.queue = [] ∧ t.report.masks = 0 ∧ t.report.sticky = 0 ∧ t.report.lost = false
    ∧ t.report.level = 1 ∧ t.report.urgent = 4 ∧ t.report.attention = false ∧ t.report.view = .none

/-- The values of every item after a cold reset; all but the held requests (log 51) are the spec's. -/
def ColdValues (t : State) : Prop :=
  PathCold t ∧ ProfilesCold t ∧ TablesCold t ∧ PanelCold t ∧ UnitsCold t

/-- What a warm reset may change: everything else is kept (R21, R24, R88, R105, R114, R124, R164, R165,
R177, R184). -/
def warmParts : List Part :=
  [.systemReset, .presentationTable, .controlTable, .heldPresentation, .heldControl,
    .serviceBinding .primary, .serviceBinding .secondary, .serviceBinding .remote,
    .imageOperation, .imageBuffer, .promotions, .intakeQueue, .flow, .listener, .keyFifo, .transmitQueue,
    .transmitter, .lampRecord, .matcher, .pinEntry, .lockoutTimer, .session, .sessionRemaining, .shadow,
    .pointer, .notices, .flags, .masks, .attentionLevels, .view]
    ++ everyActivity ++ everyStack ++ everyEntry ++ everySection ++ everySlot

/-! ### Laws of the lanes (R6, R7, R11) -/

/-- R6: a window is UNSET and holds zeros, or SET with a legal base, size and fill word. -/
def Window.law (k : WindowKind) (w : Window) : Prop :=
  if w.set then
    w.base % 256 = 0 ∧ w.size % 256 = 0 ∧ 0 < w.size ∧ w.size ≤ Config.windowSizeMax
      ∧ w.base + w.size ≤ Config.addressSpace ∧ (k = .sound → w.fill = 0)
  else w = .unset

/-- R7: two SET windows share no byte. -/
def Window.apartFrom (v w : Window) : Prop :=
  v.set = true → w.set = true → v.base + v.size ≤ w.base ∨ w.base + w.size ≤ v.base

/-- R6, R7, R11: every window is legal, distinct windows are disjoint, and the in-flight tables hold at
most 16 and 4 entries. -/
def LanesLaw (s : State) : Prop :=
  (∀ o k, (s.window o k).law k)
    ∧ (∀ o k o' k', (o, k) ≠ (o', k') → (s.window o k).apartFrom (s.window o' k'))
    ∧ s.lanes.presentation.length ≤ Config.presentationCapacity
    ∧ s.lanes.control.length ≤ Config.controlCapacity

/-! ### Laws of verdicts and stacks (R29, R42, R91, R96) -/

/-- R91, R96: a stack holds at most 4 entries, and its top entry is LIVE whenever it is not empty. -/
def stackLaw (stack : List Override) : Prop :=
  stack.length ≤ Config.stackDepth ∧ ∀ e, stack.head? = some e → e.tag = .live

/-- R96 for every output. -/
def StackLaw (s : State) : Prop := ∀ o, stackLaw (s.context o).stack

/-- R29: a profile binding names an ACTIVE or SUSPENDED slot whenever it is not NONE. -/
def BindingLaw (s : State) : Prop := ∀ o n, (s.context o).profile = some n → (s.profile n).state ≠ .empty

/-- R42: an output bound to a profile that is SUSPENDED, or whose ceiling is CLOSED, is BLOCKED. -/
def BlockedLaw (s : State) : Prop :=
  ∀ o n, (s.context o).profile = some n →
    (s.profile n).state = .suspended ∨ (s.profile n).ceiling = .closed → (s.context o).verdict = .blocked

/-- R31: an output is UNSUPERVISED exactly while its profile binding is NONE. -/
def SupervisionLaw (s : State) : Prop :=
  ∀ o, (s.context o).verdict = .unsupervised ↔ (s.context o).profile = none

/-- R25: the reasons a verdict may carry. -/
def reasonFits : Verdict → Reason → Bool
  | .unsupervised, r | .opened, r => decide (r = .none)
  | .warning, r => decide (r = .budgetNear ∨ r = .curfewNear)
  | .pending, r => decide (r = .pending)
  | .blocked, r =>
      decide (r ≠ .none ∧ r ≠ .pending ∧ r ≠ .budgetNear ∧ r ≠ .curfewNear)

/-- R25 for every output. -/
def ReasonLaw (s : State) : Prop := ∀ o, reasonFits (s.context o).verdict (s.context o).reason = true

/-! ### The law of the profile store (R50 to R52, R71, R76) -/

/-- R76: a curfew window that a slot may hold. -/
def Curfew.legal (w : Curfew) : Prop :=
  w.days ≠ 0 ∧ w.days.toNat < 128 ∧ w.startMinute ≤ 1439 ∧ w.endMinute ≤ 1439 ∧ w.endMinute ≠ w.startMinute

/-- R50, R71, R76: every field of a record is in its range. -/
def Profile.inRange (p : Profile) : Prop :=
  (∀ a, p.ceiling = .age a → a ≤ 21) ∧ p.pendingLimit ≤ 60 ∧ (∀ a, p.allowance = some a → a ≤ 1440)
    ∧ p.carryCap ≤ 720 ∧ p.lead ≤ 900 ∧ (∀ i : Fin 4, p.rates[i] ≤ 8)
    ∧ (∀ (i : Fin 3) w, p.curfews[i] = some w → w.legal)
    ∧ p.remaining ≤ Config.quartersPerDay ∧ p.charged ≤ Config.quartersPerDay ∧ p.granted ≤ 1440

/-- R52: an EMPTY slot holds no account. -/
def Profile.emptyHoldsNothing (p : Profile) : Prop :=
  p.state = .empty → p.remaining = 0 ∧ p.charged = 0 ∧ p.granted = 0 ∧ p.budgetDay = none

/-- R50 to R52, R71 for every slot, and for the snapshot of an export. -/
def ProfileLaw (s : State) : Prop :=
  (∀ n, (s.profile n).inRange ∧ (s.profile n).emptyHoldsNothing)
    ∧ ∀ n slot snapshot, s.image.operation = .exporting n slot snapshot → snapshot.inRange

/-! ### The laws of the rating table (R27, R123) -/

/-- The outputs bound to a rating slot. -/
def boundTo (s : State) (n : Fin 64) : List Output :=
  allOutputs.filter (fun o => decide ((s.context o).service = some n))

/-- R27, R123: no two slots hold one key; an entry's bind count is the number of outputs bound to it, and
no output is bound to a free slot; an entry's source is that of its key. -/
def RatingLaw (s : State) : Prop :=
  (∀ m n e f, s.entry m = some e → s.entry n = some f → e.key = f.key → m = n)
    ∧ (∀ n e, s.entry n = some e → e.bindCount = (boundTo s n).length ∧ e.source = ServiceKey.source e.key)
    ∧ ∀ n, s.entry n = none → boundTo s n = []

/-! ### The law of the time base (R139, R140) -/

/-- R139, R140: every item of the time base is in its range, and while the source state is UNSET wall time
is day 0 second 0 and P is UNSET. -/
def TimeLaw (s : State) : Prop :=
  s.time.run ≤ Config.runSecondsMax ∧ s.time.day ≤ 65535 ∧ s.time.second ≤ 86399
    ∧ -780 ≤ s.time.offset ∧ s.time.offset ≤ 840 ∧ s.time.dayStart ≤ 1439
    ∧ (s.time.source = .unset → s.time.day = 0 ∧ s.time.second = 0 ∧ s.time.profileDay = none)

/-! ### The law of the section intake (R105, R114, R115) -/

/-- R114, R115: at most 8 records of at most 4,096 bytes are queued; while FLOWING the count is below H and
no context is SHED; while HALTED no context seeks or assembles; H is 1 to 8 and L is below H; a context is
UNSET exactly while its window is. -/
def IntakeLaw (s : State) : Prop :=
  s.intake.queue.length ≤ 8 ∧ poolUsed s.intake.queue ≤ Config.poolSize
    ∧ 1 ≤ s.intake.haltLevel ∧ s.intake.haltLevel ≤ 8 ∧ s.intake.resumeLevel < s.intake.haltLevel
    ∧ (s.intake.flow = .flowing → s.intake.queue.length < s.intake.haltLevel)
    ∧ (∀ w, (s.sectionWindow w).context = .unset ↔ (s.sectionWindow w).set = false)
    ∧ (s.intake.flow = .flowing → ∀ w, (s.sectionWindow w).context ≠ .shed)
    ∧ (s.intake.flow = .halted →
        ∀ w, (s.sectionWindow w).context = .unset ∨ (s.sectionWindow w).context = .shed)

/-! ### The law of the panel link (R159 to R161, R164) -/

/-- R159, R161, R164: the key FIFO holds at most 16 keys and the transmit queue at most 4 messages, of
which at most one is a LAMP; neither address is 0. -/
def PanelLaw (s : State) : Prop :=
  s.panel.fifo.length ≤ Config.keyFifoCapacity ∧ s.panel.queue.length ≤ Config.transmitCapacity
    ∧ (s.panel.queue.filter Message.isLamp).length ≤ 1
    ∧ s.panel.listenerAddress ≠ 0 ∧ s.panel.panelAddress ≠ 0

/-! ### The law of the PIN authority (R165, R174) -/

/-- R165, R174: the stored PIN has 4 to 8 digits and the buffer at most 8; the counts, the timer and the
session are in their ranges, with no seconds left while it is closed (the model's choice, log 33); no session
is open in LOCKOUT, nor while an entry collects that could lead there. -/
def PinLaw (s : State) : Prop :=
  (∀ d, s.pin.stored = some d → 4 ≤ d.length ∧ d.length ≤ 8)
    ∧ s.pin.entry.buffer.length ≤ 8
    ∧ (∀ d, s.pin.entry.firstCollection = some d → 4 ≤ d.length ∧ d.length ≤ 8)
    ∧ s.pin.failures < 3 ∧ s.pin.step ≤ 4 ∧ s.pin.timer ≤ 960
    ∧ 60 ≤ s.pin.sessionLength ∧ s.pin.sessionLength ≤ 1800
    ∧ s.pin.sessionRemaining ≤ (if s.pin.sessionOpen then s.pin.sessionLength else 0)
    ∧ (s.pin.matcher = .lockout → s.pin.sessionOpen = false)
    ∧ (s.pin.matcher.entering = true → s.pin.entry.purpose ≠ .pinChange → s.pin.sessionOpen = false)
    ∧ (s.pin.matcher = .releasing → s.pin.entry.outcome = .lockedOut → s.pin.sessionOpen = false)

/-! ### The laws of the command and report units (R177, R184, R186) -/

/-- The command shadow is in its one canonical form. -/
def ShadowLaw (s : State) : Prop :=
  Memory.wf s.command.shadow ∧ ∀ c ∈ s.command.shadow, c.1 < Config.commandWindowSize

/-- R184, R186: at most 32 notices, no two of one kind and subject, each with a count of 1 to 255; the level
is 1 to 32 and the urgent class 0 to 6; the attention line is as R186 gives it. -/
def ReportLaw (s : State) : Prop :=
  s.report.queue.length ≤ Config.noticeCapacity
    ∧ (s.report.queue.map (fun n => (n.kind, n.subject))).Nodup
    ∧ (∀ n ∈ s.report.queue, 1 ≤ n.count ∧ n.count ≤ 255)
    ∧ 1 ≤ s.report.level ∧ s.report.level ≤ 32 ∧ s.report.urgent ≤ 6
    ∧ s.report.attention = s.report.asserted

/-- The laws of all blocks together. -/
def AllLaws (s : State) : Prop :=
  LanesLaw s ∧ ShadowLaw s ∧ IntakeLaw s ∧ ProfileLaw s ∧ TimeLaw s ∧ PanelLaw s ∧ PinLaw s ∧ ReportLaw s
    ∧ StackLaw s ∧ SupervisionLaw s ∧ ReasonLaw s ∧ BlockedLaw s ∧ BindingLaw s ∧ RatingLaw s

end Sys2Proof.Machine
end

