-- ==== Sys2Proof/Certificates/Slice0/Obligations.lean ====
section
/-! DEFINITION. The statements about the gate, chapter by chapter: what a step is, the resets, the laws
that every step keeps, the lanes, the host's commands, and the events. -/

open Sys2Proof Sys2Proof.Machine

/-! ### Steps -/

/-- The command at the front of the queue is carried out on the state with the queue's rest; on an empty
queue the gate idles (the model's choice, log 2). -/
def Obligations.StepTakesTheFrontCommand : Prop :=
  ∀ s : State,
    (∀ c rest, s.pending = c :: rest → step s = exec c { s with pending := rest })
      ∧ (s.pending = [] → step s = .next s)

/-- No command changes the queue of commands (COLD_RESET included: the model's choice, log 35), nor the
straps and the salt (R22, R23). -/
def Obligations.CommandsKeepQueueAndInputs : Prop :=
  ∀ (i : Instr) (s t : State), exec i s = .next t → t.pending = s.pending ∧ t.inputs = s.inputs

/-- A command stops exactly where it is a lane transfer that is no burst in the sense of R1 (log 15). -/
def Obligations.OnlyABadBurstStops : Prop :=
  ∀ (i : Instr) (s : State),
    (laneTransfer i = true ∧ i.wellFormed = false → exec i s = .refused .notABurst)
      ∧ (¬ (laneTransfer i = true ∧ i.wellFormed = false) → ∃ t, exec i s = .next t)

/-! ### Resets (R23, R46) -/

/-- COLD_RESET gives every item its cold value; the straps and the salt stand, and so does the queue of
commands, which is outside the gate (log 35). That requests held on a lane are gone is the model's choice
(log 51). The machine after reset holds the cold values, an empty queue and every law; one of these, that a
closed session has no seconds left, is the model's choice (log 33). -/
def Obligations.ColdResetGivesTheColdValues : Prop :=
  (∀ s : State, ∃ t, exec .coldReset s = .next t
    ∧ ColdValues t ∧ t.inputs = s.inputs ∧ t.pending = s.pending)
  ∧ ColdValues State.reset ∧ State.reset.pending = [] ∧ AllLaws State.reset

/-- WARM_RESET keeps all but the parts named, and gives those their warm values. WARM_RESET_RELEASE
evaluates every output once, and nothing else follows but what a change of verdict sends; where the reset
input is not asserted it is no release and changes nothing (log 11). -/
def Obligations.WarmResetAndItsRelease : Prop :=
  ∀ s : State,
    (∃ t, exec .warmReset s = .next t ∧ Frame warmParts s t ∧ UnitsCold t
      ∧ t.lanes.presentation = [] ∧ t.lanes.control = []
      ∧ t.lanes.heldPresentation = [] ∧ t.lanes.heldControl = [] ∧ (∀ o, t.lanes.activity.get o = false)
      ∧ (∀ o, (t.context o).service = none ∧ (t.context o).stack = []) ∧ (∀ n, t.entry n = none)
      ∧ t.image = ⟨.idle, none⟩
      ∧ (∀ w, t.sectionWindow w
          = { s.sectionWindow w with
              context := if (s.sectionWindow w).set = true then .seeking none else .unset })
      ∧ t.intake.queue = [] ∧ t.intake.flow = .flowing ∧ t.intake.parsing = false
      ∧ t.panel.listener = .asleep ∧ t.panel.awaited = none ∧ t.panel.fifo = []
      ∧ t.panel.outstanding = none ∧ t.panel.transmitter = .idle
      ∧ (∃ l, (l = .on ↔ ∃ o, (s.context o).verdict = .blocked ∨ (s.context o).verdict = .pending)
          ∧ l ≠ .flashing ∧ t.panel.lampRecord = some l ∧ t.panel.queue = [.lamp l])
      ∧ t.pin.sessionOpen = false
      ∧ (s.pin.matcher = .lockout → t.pin.matcher = .lockout ∧ t.pin.timer = s.pin.timer)
      ∧ (s.pin.matcher ≠ .lockout → t.pin.matcher = .idle))
    ∧ (s.systemReset = true → ∃ t, exec .warmResetRelease s = .next t ∧ t.systemReset = false
      ∧ (∀ o, UpToDate t o) ∧ Frame (.systemReset :: allJudged) s t
      ∧ ∀ o, (s.context o).profile = none → (t.context o).verdict = .unsupervised)
    ∧ (s.systemReset = false → exec .warmResetRelease s = .next s)

/-! ### The laws every step keeps -/

/-- R6, R7, R11 and the canonical form of the command shadow hold after a step if they held before. -/
def Obligations.StepKeepsTheLanesAndTheShadow : Prop :=
  ∀ s t : State, step s = .next t → (LanesLaw s → LanesLaw t) ∧ (ShadowLaw s → ShadowLaw t)

/-- R25, R31, R42, R91, R96: the laws of verdicts and of override stacks hold after a step if they held
before. -/
def Obligations.StepKeepsVerdictsAndStacks : Prop :=
  ∀ s t : State, step s = .next t →
    (StackLaw s → StackLaw t) ∧ (SupervisionLaw s → SupervisionLaw t) ∧ (ReasonLaw s → ReasonLaw t)
      ∧ (BlockedLaw s → BlockedLaw t)

/-- R29, R50 to R52, R71, R76, and R27, R123: the laws of profile records, of profile bindings and of the
rating table (bind counts, keys and sources agree) hold after a step if they held before. -/
def Obligations.StepKeepsProfilesAndTheRatingTable : Prop :=
  ∀ s t : State, step s = .next t →
    (ProfileLaw s → ProfileLaw t) ∧ (BindingLaw s → BindingLaw t) ∧ (RatingLaw s → RatingLaw t)

/-- R105, R114, R115, R139, R140: the laws of the section intake and of the time base hold after a step if
they held before. -/
def Obligations.StepKeepsIntakeAndTime : Prop :=
  ∀ s t : State, step s = .next t → (IntakeLaw s → IntakeLaw t) ∧ (TimeLaw s → TimeLaw t)

/-- R159 to R161, R164, R165, R174, R184, R186: the laws of the panel link, of the PIN authority (no
session is open in LOCKOUT) and of the report unit hold after a step if they held before. That a closed
session has no seconds left, which the law of the PIN authority says, is the model's choice (log 33). -/
def Obligations.StepKeepsPanelPinAndReport : Prop :=
  ∀ s t : State, step s = .next t →
    (PanelLaw s → PanelLaw t) ∧ (PinLaw s → PinLaw t) ∧ (ReportLaw s → ReportLaw t)

/-- R150: once set, the profile day index does not fall, whatever the command, but for COLD_RESET and for
FACTORY_CLEAR: where neither the row, nor a record captured in a slot, nor a slot that the row's burst posts
is a FACTORY_CLEAR, none is taken. The shadow, from which a posted record is read, is in its canonical form.
-/
def Obligations.ProfileDayDoesNotFall : Prop :=
  ∀ (i : Instr) (s t : State) (p : Nat), ShadowLaw s → i ≠ .coldReset → i ≠ .factoryClear →
    (∀ n record, (s.slot n).captured = some record → byteAt record 0 ≠ 0x48) →
    (∀ start bytes, i = .controlWriteBurst start bytes → ∀ n, PostsSlot s.inputs start.toNat bytes n →
      bytes[s.inputs.commandBase + 32 * n.val - start.toNat]? ≠ some (0x48, true)) →
    exec i s = .next t → s.time.profileDay = some p → ∃ q, t.time.profileDay = some q ∧ p ≤ q

/-! ### The lanes (chapter 1) -/

/-- R2, R5: a read burst of the stream lane and a write burst of the presentation lane are forwarded, and
the read's response returned, without observation. R2, R107, R109: a stream write is forwarded whatever the
intake does with it; it can change nothing but the intake and what its notices change, and nothing at all
where every SET section window it touches is SHED. What is put out is kept in a record of the model's own
(log 13). -/
def Obligations.StreamAndPresentationTransfersPass : Prop :=
  ∀ s : State, Running s →
    (∀ tag start status data, burstOk start data.length = true →
      exec (.streamReadBurst tag start status data) s
        = .next { s with lanes := { s.lanes with
            out := s.lanes.out ++ [.readToMemory .stream tag none start.toNat data.length,
              .response .stream tag status data] } })
    ∧ (∀ start bytes, burstOk start bytes.length = true →
      exec (.presentationWriteBurst start bytes) s
        = .next { s with lanes := { s.lanes with
            out := s.lanes.out ++ [.writeToMemory .presentation start.toNat bytes] } })
    ∧ ∀ start bytes, burstOk start bytes.length = true →
      ∃ t, exec (.streamWriteBurst start bytes) s = .next t
        ∧ t.lanes.out = s.lanes.out ++ [.writeToMemory .stream start.toNat bytes]
        ∧ Frame (.transfers :: intakeParts) s t
        ∧ ((∀ w, (s.sectionWindow w).set = true →
              rangesMeet start.toNat bytes.length (s.sectionWindow w).base (s.sectionWindow w).size = true →
              (s.sectionWindow w).context = .shed) → Frame [.transfers] s t)

/-- R108, R110, R111, R113, R114: a whole record with a right check, written in one burst to a window that
seeks, is queued, and the context seeks at the record's successor address. -/
def Obligations.WholeRecordIsQueued : Prop :=
  ∀ (s : State) (w : Fin 4) (start : Word) (code : Byte) (body : List Byte) (bytes : List Byte),
    Running s → (s.sectionWindow w).set = true → (s.sectionWindow w).context = .seeking none →
    (s.sectionWindow w).base ≤ start.toNat →
    start.toNat + bytes.length ≤ (s.sectionWindow w).base + (s.sectionWindow w).size →
    (s.sectionWindow w).base % 4 = 0 → (s.sectionWindow w).size % 4 = 0 → start.toNat % 4 = 0 →
    burstOk start bytes.length = true →
    (∀ v, v ≠ w → (s.sectionWindow v).set = true →
      rangesMeet start.toNat bytes.length (s.sectionWindow v).base (s.sectionWindow v).size = false) →
    4 ≤ body.length → body.length ≤ 1020 →
    bytes = [0xA6, code] ++ nat16 body.length ++ body
      ++ bytes16 (crc16 ([code] ++ nat16 body.length ++ body)) →
    bytes.length ≤ poolFree s.intake → s.intake.queue.length + 1 < s.intake.haltLevel →
    ∃ t, exec (.streamWriteBurst start (bytes.map (fun b => (b, true)))) s = .next t
      ∧ t.intake.queue = s.intake.queue ++ [⟨w, start.toNat, code, body, body.length + 6⟩]
      ∧ t.intake.parsing = true ∧ t.report = s.report ∧ t.intake.flow = s.intake.flow
      ∧ (t.sectionWindow w).context = .seeking (some
          (if start.toNat + bytes.length + (4 - bytes.length % 4) % 4
              = (s.sectionWindow w).base + (s.sectionWindow w).size then (s.sectionWindow w).base
            else start.toNat + bytes.length + (4 - bytes.length % 4) % 4))

/-- R111 to R115: a window write to a context in ASSEMBLING. One off the expected address, or with a byte not
enabled, is a DISCONTINUITY: the record is given up, and the write taken again by a context that seeks. Any
other is appended, round the ring's wrap: the record goes on, or is malformed at its fourth byte (LENGTH), or
is complete at the last byte of the write; a complete one is discarded for its check, or for lack of pool, or
queued; and where the count comes to H the intake halts and every context but an UNSET one is SHED. The widths
of the fields of INTAKE_SHED are read from the spec by inference (log 20). R107: a burst that touches no
window, one or several is divided among them: cut anywhere but within one window's part, it does to the intake
what its two parts do as bursts, the windows in rising order of their numbers (log 9). -/
def Obligations.WindowWritesAreAssembled : Prop :=
  (∀ (s : State) (w : Fin 4) (start : Word) (bytes : List (Byte × Bool)) (a : Assembly) (all : List Byte)
    (n next successor : Nat),
    Running s → burstOk start bytes.length = true → LiesInWindow s w start.toNat bytes.length →
    (s.sectionWindow w).base % 4 = 0 → (s.sectionWindow w).size % 4 = 0 →
    (s.sectionWindow w).context = .assembling a →
    all = a.bytes ++ bytes.map (·.1) → n = recordLength all →
    a.total = (if a.bytes.length < 4 then none else some n) →
    next = ringAddress (s.sectionWindow w) (start.toNat + bytes.length) →
    successor = ringAddress (s.sectionWindow w) (next + paddingFrom next) →
    (start.toNat ≠ a.expected ∨ (∃ b ∈ bytes, b.2 = false) →
      exec (.streamWriteBurst start bytes) s
        = exec (.streamWriteBurst start bytes)
            (raise .intakeFormat w.val (nat32 a.start ++ nat8 1) (s.putIntakeContext w (.seeking none))))
    ∧ (start.toNat = a.expected → (∀ b ∈ bytes, b.2 = true) →
      ∃ t, exec (.streamWriteBurst start bytes) s = .next t
        ∧ t.lanes.out = s.lanes.out ++ [.writeToMemory .stream start.toNat bytes]
        ∧ (all.length < 4 ∨ (LegalLength (s.sectionWindow w).size n ∧ all.length < n) →
            (t.sectionWindow w = { s.sectionWindow w with
                context := .assembling ⟨a.start, next, all, if all.length < 4 then none else some n⟩ })
            ∧ Frame [.transfers, .sectionWindow w] s t)
        ∧ (a.bytes.length < 4 → 4 ≤ all.length → ¬ LegalLength (s.sectionWindow w).size n →
            t.sectionWindow w = { s.sectionWindow w with context := .seeking none }
            ∧ t.report = (raise .intakeFormat w.val (nat32 a.start ++ nat8 0) s).report
            ∧ Frame (.transfers :: .sectionWindow w :: raised) s t)
        ∧ (LegalLength (s.sectionWindow w).size n → a.bytes.length < n → all.length = n →
            (crc16 ((all.drop 1).take (n - 3)) ≠ halfAt all (n - 2) →
              t.sectionWindow w = { s.sectionWindow w with context := .seeking (some successor) }
              ∧ t.report = (raise .intakeCheck w.val (nat32 a.start) s).report
              ∧ Frame (.transfers :: .sectionWindow w :: raised) s t)
            ∧ (crc16 ((all.drop 1).take (n - 3)) = halfAt all (n - 2) →
              (poolFree s.intake < n →
                t.sectionWindow w = { s.sectionWindow w with context := .seeking (some successor) }
                ∧ t.report = (raise .intakeShed w.val (nat16 n ++ nat16 (poolFree s.intake)) s).report
                ∧ Frame (.transfers :: .sectionWindow w :: raised) s t)
              ∧ (n ≤ poolFree s.intake →
                t.intake.queue
                    = s.intake.queue ++ [⟨w, a.start, byteAt all 1, (all.drop 4).take (n - 6), n⟩]
                ∧ t.intake.parsing = true
                ∧ (s.intake.queue.length + 1 < s.intake.haltLevel →
                  t.sectionWindow w = { s.sectionWindow w with context := .seeking (some successor) }
                  ∧ Frame [.transfers, .sectionWindow w, .intakeQueue] s t)
                ∧ (s.intake.haltLevel ≤ s.intake.queue.length + 1 →
                  t.intake.flow = .halted
                  ∧ t.report = (raise .intakeShed 0xFF (nat8 t.intake.queue.length
                      ++ nat16 (t.intake.queue.map (·.total)).sum) s).report
                  ∧ (∀ v, t.sectionWindow v = { s.sectionWindow v with
                      context := if (s.sectionWindow v).context = .unset then .unset else .shed })
                  ∧ Frame (.transfers :: intakeParts) s t))))))
  ∧ ∀ (s : State) (start middle : Word) (first rest : List (Byte × Bool)), Running s →
    burstOk start (first ++ rest).length = true → first ≠ [] → rest ≠ [] →
    middle.toNat = start.toNat + first.length →
    ((∀ v w, Touches s start.toNat first v → Touches s middle.toNat rest w → v < w) →
      ∃ t u v, exec (.streamWriteBurst start (first ++ rest)) s = .next t
        ∧ exec (.streamWriteBurst start first) s = .next u ∧ exec (.streamWriteBurst middle rest) u = .next v
        ∧ t.intake = v.intake ∧ t.report = v.report)
    ∧ ((∀ v w, Touches s start.toNat first v → Touches s middle.toNat rest w → w < v) →
      ∃ t u v, exec (.streamWriteBurst start (first ++ rest)) s = .next t
        ∧ exec (.streamWriteBurst middle rest) s = .next u ∧ exec (.streamWriteBurst start first) u = .next v
        ∧ t.intake = v.intake ∧ t.report = v.report)

/-- R110, R113: a window write to a context in SEEKING begins a record at a successor address held, where it
covers that address and the marker stands there with every byte from there on enabled; else at its own start,
where that is a multiple of 4, it begins with the marker and every byte of it is enabled; else it is not read.
What follows a record that is complete within a window write is taken as a window write of its own, unless it
ends within the padding; that it is so taken, no successor address being held after it was examined there, is
read from the spec by inference (log 19). -/
def Obligations.SeekingContextsFindRecords : Prop :=
  ∀ (s : State) (w : Fin 4) (start : Word) (bytes : List (Byte × Bool)),
    Running s → burstOk start bytes.length = true → LiesInWindow s w start.toNat bytes.length →
    ((s.sectionWindow w).context = .seeking none →
      (start.toNat % 4 = 0 → BeginsRecord bytes →
        exec (.streamWriteBurst start bytes) s
          = exec (.streamWriteBurst start bytes)
              (s.putIntakeContext w (.assembling ⟨start.toNat, start.toNat, [], none⟩)))
      ∧ (start.toNat % 4 ≠ 0 ∨ ¬ BeginsRecord bytes →
        ∃ t, exec (.streamWriteBurst start bytes) s = .next t ∧ Frame [.transfers] s t))
    ∧ (∀ (x : Word), (s.sectionWindow w).context = .seeking (some x.toNat) →
      (start.toNat ≤ x.toNat → BeginsRecord (bytes.drop (x.toNat - start.toNat)) →
        ∃ t u, exec (.streamWriteBurst start bytes) s = .next t
          ∧ exec (.streamWriteBurst x (bytes.drop (x.toNat - start.toNat)))
              (s.putIntakeContext w (.assembling ⟨x.toNat, x.toNat, [], none⟩)) = .next u
          ∧ t.intake = u.intake ∧ t.report = u.report)
      ∧ (x.toNat < start.toNat ∨ ¬ BeginsRecord (bytes.drop (x.toNat - start.toNat)) →
        exec (.streamWriteBurst start bytes) s
          = exec (.streamWriteBurst start bytes) (s.putIntakeContext w (.seeking none))))
    ∧ ∀ (a : Assembly) (first rest : List (Byte × Bool)) (middle : Word) (all : List Byte),
      (s.sectionWindow w).base % 4 = 0 → (s.sectionWindow w).size % 4 = 0 →
      (s.sectionWindow w).context = .assembling a → start.toNat = a.expected → bytes = first ++ rest →
      (∀ b ∈ bytes, b.2 = true) → middle.toNat = start.toNat + first.length →
      all = a.bytes ++ first.map (·.1) → a.bytes.length < recordLength all →
      a.total = (if a.bytes.length < 4 then none else some (recordLength all)) →
      LegalLength (s.sectionWindow w).size (recordLength all) → all.length = recordLength all → rest ≠ [] →
      ∃ t u, exec (.streamWriteBurst start bytes) s = .next t
        ∧ exec (.streamWriteBurst start first) s = .next u
        ∧ (rest.length ≤ paddingFrom middle.toNat → t.intake = u.intake ∧ t.report = u.report)
        ∧ (paddingFrom middle.toNat < rest.length →
            ∃ v, exec (.streamWriteBurst middle rest) u = .next v
              ∧ t.intake = v.intake ∧ t.report = v.report)

/-- R3, R178: a control write is forwarded; each of its enabled bytes in the command window is copied into
the shadow at its offset and every other byte of the shadow stands; a burst that posts no slot changes
nothing else. The shadow is in its canonical form, which every step keeps. -/
def Obligations.ControlWriteReachesTheShadow : Prop :=
  ∀ start bytes (s : State), Running s → ShadowLaw s → burstOk start bytes.length = true →
    ∃ t, exec (.controlWriteBurst start bytes) s = .next t
      ∧ t.lanes.out = s.lanes.out ++ [.writeToMemory .control start.toNat bytes]
      ∧ (∀ a, t.command.shadow.read a
          = if a < Config.commandWindowSize ∧ start.toNat ≤ s.inputs.commandBase + a then
              match bytes[s.inputs.commandBase + a - start.toNat]? with
              | some (b, true) => b
              | _ => s.command.shadow.read a
            else s.command.shadow.read a)
      ∧ ((∀ p, ¬ PostsSlot s.inputs start.toNat bytes p) → Frame [.transfers, .shadow] s t)

/-- The model's choice of log 1: a host command's row is the control write burst of its whole record to the
slot at the next-slot pointer, the shadow being in its canonical form. -/
def Obligations.HostCommandIsItsRecordWritten : Prop :=
  ∀ (i : Instr) (c : Command) (s : State), commandOf i = some c → ShadowLaw s →
    s.inputs.commandBase + Config.commandWindowSize ≤ Config.addressSpace →
    exec (.controlWriteBurst (BitVec.ofNat 32 (s.inputs.commandBase + 32 * s.command.pointer.val))
        ((hostRecord c s).map (fun b => (b, true)))) s
      = exec i (if s.systemReset then s
          else s.putOut (.writeToMemory .control (s.inputs.commandBase + 32 * s.command.pointer.val)
            ((hostRecord c s).map (fun b => (b, true)))))

/-- R178, R180: a record written whole to a slot with the toggle that the slot does not expect is ignored;
one with the expected toggle in the slot at the pointer whose code names no command is taken, and its
outcome is BAD_CODE. The shadow is in its canonical form. -/
def Obligations.RewritesAreIgnoredAndUnknownCodesAnswered : Prop :=
  ∀ (s : State) (p : Fin 16) (record : List Byte), ShadowLaw s → record.length = 32 →
    s.inputs.commandBase + Config.commandWindowSize ≤ Config.addressSpace →
    (Running s → recordToggle record ≠ (s.slot p).expected →
      ∃ t, exec (.controlWriteBurst (BitVec.ofNat 32 (s.inputs.commandBase + 32 * p.val))
          (record.map (fun b => (b, true)))) s = .next t ∧ Frame [.transfers, .shadow] s t)
    ∧ (RingReady s → p = s.command.pointer → recordToggle record = (s.slot p).expected →
      Command.decode record = none →
      ∃ t, exec (.controlWriteBurst (BitVec.ofNat 32 (s.inputs.commandBase + 32 * p.val))
          (record.map (fun b => (b, true)))) s = .next t
        ∧ t.slot p = ⟨!(s.slot p).expected, .taken, none,
            ⟨.done, byteAt record 0, recordToggle record, .badCode, []⟩⟩
        ∧ t.command.pointer = p + 1 ∧ Frame (.transfers :: ringParts s) s t)

/-- R178, R179, R181: a whole record with the toggle its slot expects is captured, the shadow being in its
canonical form, and its slot is POSTED, and then the ring goes on. The ring takes nothing while the slot at
the pointer is not POSTED or its result is PENDING; so a post beyond the pointer waits, and so does one to a
slot whose long command is running. Where the slot at the pointer can be taken, its command is carried out and
answered, the pointer advances, and the ring goes on from there. An export or import that completes, and an
answer or a timeout that ends a PIN entry, let the ring go on. -/
def Obligations.PostsWaitAndAreTakenInRingOrder : Prop :=
  ∀ s : State, Running s →
    (∀ (p : Fin 16) (record : List Byte), ShadowLaw s → record.length = 32 →
      s.inputs.commandBase + Config.commandWindowSize ≤ Config.addressSpace →
      recordToggle record = (s.slot p).expected →
      ∃ u, exec (.controlWriteBurst (BitVec.ofNat 32 (s.inputs.commandBase + 32 * p.val))
            (record.map (fun b => (b, true)))) s = .next (runRing u)
        ∧ u.slot p = { s.slot p with state := .posted, captured := some record }
        ∧ u.lanes.out = s.lanes.out
          ++ [.writeToMemory .control (s.inputs.commandBase + 32 * p.val) (record.map (fun b => (b, true)))]
        ∧ (∀ a, u.command.shadow.read a
            = if 32 * p.val ≤ a ∧ a < 32 * p.val + 32 then byteAt record (a - 32 * p.val)
              else s.command.shadow.read a)
        ∧ Frame [.transfers, .shadow, .slot p] s u)
    ∧ ((s.slot s.command.pointer).state ≠ .posted
        ∨ (s.slot s.command.pointer).result.state = .pending → runRing s = s)
    ∧ (∀ record t, (s.slot s.command.pointer).state = .posted →
        (s.slot s.command.pointer).result.state ≠ .pending →
        (s.slot s.command.pointer).captured = some record → t = takeRecord record s →
        runRing s = runRing t
        ∧ t.command.pointer = s.command.pointer + 1
        ∧ (t.slot s.command.pointer).expected = !(s.slot s.command.pointer).expected
        ∧ (t.slot s.command.pointer).state = .taken ∧ (t.slot s.command.pointer).captured = none
        ∧ (t.slot s.command.pointer).result.code = byteAt record 0
        ∧ (t.slot s.command.pointer).result.toggle = recordToggle record
        ∧ (t.slot s.command.pointer).result.state ≠ .idle
        ∧ (∀ n, n ≠ s.command.pointer → (t.slot n).expected = (s.slot n).expected
            ∧ (t.slot n).state = (s.slot n).state ∧ (t.slot n).captured = (s.slot n).captured)
        ∧ (∀ outcome,
            (Command.decode record = none ∧ outcome = .badCode)
              ∨ (∃ c, Command.decode record = some c ∧ privileged c s = true ∧ authority s = false
                ∧ outcome = .notAuthorised) →
            (t.slot s.command.pointer).result
                = ⟨.done, byteAt record 0, recordToggle record, outcome, []⟩
              ∧ Frame [.pointer, .slot s.command.pointer] s t)
        ∧ ∀ c, Command.decode record = some c →
            Frame (.pointer :: .slot s.command.pointer :: .sessionRemaining :: commandParts c) s t)
    ∧ (∀ n slot snapshot, s.image.operation = .exporting n slot snapshot →
        ∃ u, exec .exportCompletion s = .next (runRing u)
          ∧ (u.slot slot).result.state = .done ∧ (u.slot slot).result.outcome = .doneOk
          ∧ Frame [.imageOperation, .imageBuffer, .slot slot] s u)
    ∧ (∀ n slot image, s.image.operation = .importing n slot image →
        ∃ u, exec .importCompletion s = .next (runRing u) ∧ (u.slot slot).result.state = .done
          ∧ Frame ([.imageOperation, .slot slot, .profile n] ++ allJudged) s u)
    ∧ exec .acknowledgementTimeout s = .next (runRing (waitRunsOut s))
    ∧ ∀ w, exec (.panelAnswer w) s = .next (runRing (receiveFrame w s))

/-- R4, R5, R11 to R13: a read request that can be taken is resolved, entered (on the control lane only
where it touches the report window, with a mark in its tag) and forwarded; one that cannot be taken is
held, and so is one behind a held request; a held request arrives when it can be taken, and is resolved
as the gate then stands, or, on the control lane where it touches no byte of the report window, only
forwarded. The numbers of the marks, one higher for each control entry, are the model's choice (log 14). -/
def Obligations.ReadRequestsAreEnteredOrHeld : Prop :=
  ∀ (tag : Nat) (start : Word) (count : Nat) (s : State), Running s →
    (burstOk start count = true →
      (s.lanes.presentation.length < 16 → s.lanes.heldPresentation = [] →
        exec (.presentationReadRequest tag start count) s
          = .next { s with lanes := { s.lanes with
              presentation := s.lanes.presentation
                ++ [⟨tag, 0, start.toNat, count, resolve (presentationMark s) start.toNat count⟩]
              out := s.lanes.out ++ [.readToMemory .presentation tag none start.toNat count] } })
      ∧ (16 ≤ s.lanes.presentation.length ∨ s.lanes.heldPresentation ≠ [] →
        exec (.presentationReadRequest tag start count) s
          = .next { s with lanes := { s.lanes with
              heldPresentation := s.lanes.heldPresentation ++ [⟨tag, start.toNat, count⟩] } })
      ∧ (rangesMeet start.toNat count s.inputs.reportBase 2048 = true → s.lanes.control.length < 4 →
          s.lanes.heldControl = [] →
        exec (.controlReadRequest tag start count) s
          = .next { s with lanes := { s.lanes with
              control := s.lanes.control
                ++ [⟨tag, s.lanes.nextMark, start.toNat, count, resolve (controlMark s) start.toNat count⟩]
              nextMark := s.lanes.nextMark + 1
              out := s.lanes.out
                ++ [.readToMemory .control tag (some s.lanes.nextMark) start.toNat count] } })
      ∧ (rangesMeet start.toNat count s.inputs.reportBase 2048 = false → s.lanes.heldControl = [] →
        exec (.controlReadRequest tag start count) s
          = .next { s with lanes := { s.lanes with
              out := s.lanes.out ++ [.readToMemory .control tag none start.toNat count] } })
      ∧ ((rangesMeet start.toNat count s.inputs.reportBase 2048 = true ∧ 4 ≤ s.lanes.control.length)
            ∨ s.lanes.heldControl ≠ [] →
        exec (.controlReadRequest tag start count) s
          = .next { s with lanes := { s.lanes with
              heldControl := s.lanes.heldControl ++ [⟨tag, start.toNat, count⟩] } }))
    ∧ (∀ r rest, s.lanes.heldPresentation = r :: rest → s.lanes.presentation.length < 16 →
        exec (.heldRequestArrival .presentation) s
          = .next { s with lanes := { s.lanes with
              heldPresentation := rest
              presentation := s.lanes.presentation
                ++ [⟨r.tag, 0, r.start, r.count, resolve (presentationMark s) r.start r.count⟩]
              out := s.lanes.out ++ [.readToMemory .presentation r.tag none r.start r.count] } })
    ∧ (∀ r rest, s.lanes.heldControl = r :: rest →
        rangesMeet r.start r.count s.inputs.reportBase 2048 = true → s.lanes.control.length < 4 →
        exec (.heldRequestArrival .control) s
          = .next { s with lanes := { s.lanes with
              heldControl := rest
              control := s.lanes.control
                ++ [⟨r.tag, s.lanes.nextMark, r.start, r.count, resolve (controlMark s) r.start r.count⟩]
              nextMark := s.lanes.nextMark + 1
              out := s.lanes.out
                ++ [.readToMemory .control r.tag (some s.lanes.nextMark) r.start r.count] } })
    ∧ ∀ r rest, s.lanes.heldControl = r :: rest →
        rangesMeet r.start r.count s.inputs.reportBase 2048 = false →
        exec (.heldRequestArrival .control) s
          = .next { s with lanes := { s.lanes with
              heldControl := rest
              out := s.lanes.out ++ [.readToMemory .control r.tag none r.start r.count] } }

/-- R12: the segments of a burst follow one another without a gap and cover it; every byte has the marking
of the window that covers it, or none; neighbours differ in marking; a presentation request has at most
three segments (two, up to 256 bytes) and a control request at most two. -/
def Obligations.SegmentsCoverTheBurst : Prop :=
  ∀ (s : State) (start count : Nat), LanesLaw s → count ≤ 512 →
    (resolve (presentationMark s) start count).length ≤ 3
    ∧ (count ≤ 256 → (resolve (presentationMark s) start count).length ≤ 2)
    ∧ (resolve (controlMark s) start count).length ≤ 2
    ∧ (∀ a o k, (s.window o k).covers a = true →
        presentationMark s a = .window o k (s.window o k).fill)
    ∧ (∀ a, (∀ o k, (s.window o k).covers a = false) → presentationMark s a = .none)
    ∧ ∀ mark : Nat → Marking, mark = presentationMark s ∨ mark = controlMark s →
        coveredBy (resolve mark start count) = count
        ∧ (∀ before g after, resolve mark start count = before ++ g :: after →
            g.start = start + coveredBy before ∧ 0 < g.count
            ∧ (∀ i, i < g.count → mark (g.start + i) = g.marking)
            ∧ ∀ h rest, after = h :: rest → h.marking ≠ g.marking)

/-- R4, R21, R182, R185: a control response without a mark is returned unchanged; one whose mark names no
entry is discarded; one whose mark names an entry removes it and returns, with memory's status, the report
unit's byte for each byte of the report window and memory's byte for every other; only an OKAY response
pops a notice (a read that begins at the port) and clears the flags (a read that touches the summary).
NOTICE_PORT_READ and SUMMARY_READ are such responses with status OKAY (the model's choice, log 34). -/
def Obligations.ControlResponsesAnswerFromTheReport : Prop :=
  ∀ (s : State) (tag m : Nat) (status : Status) (data : List Byte), Running s → responseOk data = true →
    exec (.controlReadResponse none tag status data) s
        = .next { s with lanes := { s.lanes with
            out := s.lanes.out ++ [.response .control tag status data] } }
    ∧ (markedEntry m s.lanes.control = none → exec (.controlReadResponse (some m) tag status data) s = .next s)
    ∧ (∀ e, markedEntry m s.lanes.control = some e → data.length = e.count →
        e.segments = resolve (controlMark s) e.start e.count →
        ∃ t d, exec (.controlReadResponse (some m) tag status data) s = .next t
          ∧ t.lanes.out = s.lanes.out ++ [.response .control e.tag status d]
          ∧ t.lanes.control = s.lanes.control.erase e
          ∧ d.length = data.length
          ∧ (∀ i, i < data.length →
              d[i]? = if s.inputs.reportBase ≤ e.start + i ∧ e.start + i < s.inputs.reportBase + 2048 then
                  (reportBytes s (decide (e.start = s.inputs.reportBase + 0x280)))[
                    e.start + i - s.inputs.reportBase]?
                else data[i]?)
          ∧ (status = .okay → e.start = s.inputs.reportBase + 0x280 → ∀ n, bestNotice s.report.queue = some n →
              t.report.queue = s.report.queue.erase n)
          ∧ (status = .okay →
              rangesMeet e.start e.count (s.inputs.reportBase + 0x200) 0x40 = true →
              t.report.sticky = 0 ∧ t.report.lost = false)
          ∧ Frame (.transfers :: .controlTable
              :: ((if status = .okay ∧ e.start = s.inputs.reportBase + 0x280 then [.notices] else [])
                ++ (if status = .okay
                      ∧ rangesMeet e.start e.count (s.inputs.reportBase + 0x200) 0x40 = true then [.flags]
                    else []))) s t)
    ∧ exec (.noticePortRead m data) s = exec (.controlReadResponse (some m) tag .okay data) s
    ∧ exec (.summaryRead m data) s = exec (.controlReadResponse (some m) tag .okay data) s

/-- R182, R185: the report window is 2 KiB: the result table, the summary record, the notice port, the
identification record and the view at their offsets, and zero at any other. The notice at the port is the one
of the highest class, and of that class the one that entered the queue first. -/
def Obligations.ReportWindowMap : Prop :=
  ∀ (s : State) (atPort : Bool),
    (reportBytes s atPort).length = 2048
    ∧ (∀ n : Fin 16, ((reportBytes s atPort).drop (32 * n.val)).take 32 = resultBytes (s.slot n).result)
    ∧ ((reportBytes s atPort).drop 0x200).take 0x40 = summaryBytes s
    ∧ ((reportBytes s true).drop 0x280).take 0x20 = noticeBytes (bestNotice s.report.queue)
    ∧ ((reportBytes s false).drop 0x280).take 0x20 = List.replicate 32 0
    ∧ ((reportBytes s atPort).drop 0x300).take 0x40 = identificationBytes s.inputs
    ∧ (reportBytes s atPort).drop 0x400 = viewBytes s
    ∧ (∀ a, (0x240 ≤ a ∧ a < 0x280) ∨ (0x2A0 ≤ a ∧ a < 0x300) ∨ (0x340 ≤ a ∧ a < 0x400) →
        (reportBytes s atPort)[a]? = some 0)
    ∧ (s.report.queue = [] → bestNotice s.report.queue = none)
    ∧ ∀ before n after, s.report.queue = before ++ n :: after →
        (∀ m ∈ before, noticeClass m.kind < noticeClass n.kind) →
        (∀ m ∈ after, noticeClass m.kind ≤ noticeClass n.kind) → bestNotice s.report.queue = some n

/-- R187, R188, section 12.4: the codes of the fields, the bytes of a number (the least significant first),
and the layout of a result record, the summary record, a notice at the port and the identification record; the
bytes between the fields are zero. A view kind without a number has number 0 (log 21), and the summary shows
the wall time held while it is UNSET too (log 25), both read from the spec by inference. -/
def Obligations.ReportRecordsAreLaidOut : Prop :=
  ([.unsupervised, .pending, .opened, .warning, .blocked].map verdictCode = List.range 5
    ∧ [.none, .pending, .budgetNear, .curfewNear, .suspended, .profileClosed, .manual, .curfew, .timeUnknown,
        .noService, .rating, .unrated, .scheme, .absent, .descriptor, .budget].map reasonCode = List.range 16
    ∧ [.doneOk, .clamped, .busy, .notAuthorised, .badCode, .badField, .noSuch, .overlap, .stackFull,
        .emptyStack, .lockedOut, .cancelled, .timedOut, .panelSilent, .panelRefused, .badImage].map
        commandOutcomeCode = List.range 16
    ∧ [.pinLockout, .lockKey, .sessionClosed, .verdictChanged, .budgetWarning, .budgetExhausted, .rollover,
        .pinMismatch, .pinDamaged, .entryEnded, .timeStep, .eventChange, .intakeCheck, .intakeShed,
        .intakeFormat, .panelBreak, .panelSilent, .panelNoise].map (fun k => (noticeKindCode k, noticeClass k))
      = [(1, 5), (2, 5), (3, 5), (4, 4), (5, 3), (6, 3), (7, 3), (8, 2), (9, 2), (10, 2), (11, 1), (12, 1),
        (13, 0), (14, 0), (15, 0), (16, 0), (17, 0), (18, 0)]
    ∧ [.idle, .pending, .done].map resultStateCode = List.range 3
    ∧ [.unset, .broadcast, .declared].map timeSourceCode = List.range 3
    ∧ [.opened, .committed].map layoutStateCode = List.range 2
    ∧ [.idle, .routing, .collecting, .releasing, .lockout].map matcherCode = List.range 5
    ∧ [.flowing, .halted].map flowStateCode = List.range 2
    ∧ [.primary, .secondary, .remote].map outputCode = List.range 3
    ∧ [.picture, .sound].map windowKindCode = List.range 2
    ∧ [.empty, .active, .suspended].map profileStateCode = List.range 3
    ∧ [.allow, .block].map policyCode = List.range 2
    ∧ (∀ a, ceilingCode (.age a) = (0, a)) ∧ ceilingCode .opened = (1, 0) ∧ ceilingCode .closed = (2, 0)
    ∧ [.allowEvent, .allowService, .curfewWaive, .forceBlock].map overrideKindCode = List.range 4
    ∧ [.eventEnd, .unbind, .untilTime, .pop].map overrideScopeCode = List.range 4
    ∧ (∀ a, classCode (.aged a) = (0, a))
    ∧ [.unrated, .unknownScheme, .absent].map classCode = [(1, 0), (2, 0), (3, 0)]
    ∧ [.session, .grant, .pinChange].map purposeCode = List.range 3
    ∧ [.asleep, .attendingOwn, .attendingAll, .fault].map listenerStateCode = List.range 4
    ∧ [.idle, .sending, .awaiting].map transmitterStateCode = List.range 3
    ∧ [.none, .windows, .intake, .panel, .image].map viewCode = [(0, 0), (5, 0), (6, 0), (7, 0), (9, 0)]
    ∧ (∀ n, viewCode (.profile n) = (1, n.val)) ∧ (∀ o, viewCode (.output o) = (2, outputCode o))
    ∧ (∀ n, viewCode (.ratingSlot n) = (3, n.val)) ∧ (∀ k, viewCode (.ratingKey k) = (4, 0))
    ∧ (∀ m, viewCode (.scheme m) = (8, m.val))
    ∧ slotByte (none : Option (Fin 64)) = 0xFF ∧ (∀ n : Fin 64, slotByte (some n) = BitVec.ofNat 8 n.val)
    ∧ slotByte (none : Option (Fin 8)) = 0xFF ∧ (∀ n : Fin 8, slotByte (some n) = BitVec.ofNat 8 n.val)
    ∧ [some .off, some .on, some .flashing, none].map lampRecordCode = List.range 4)
  ∧ (∀ x, nat8 x = [BitVec.ofNat 8 x] ∧ nat16 x = [BitVec.ofNat 8 x, BitVec.ofNat 8 (x / 256)]
    ∧ nat32 x = [BitVec.ofNat 8 x, BitVec.ofNat 8 (x / 256), BitVec.ofNat 8 (x / 65536),
        BitVec.ofNat 8 (x / 16777216)])
  ∧ (∀ r : ResultRecord, r.data.length ≤ 24 →
    (resultBytes r).length = 32
    ∧ HoldsAll (resultBytes r)
        [(0, nat8 (resultStateCode r.state)), (1, [r.code]), (2, [if r.toggle then 1 else 0]),
          (3, nat8 (commandOutcomeCode r.outcome)), (8, r.data)]
    ∧ ZeroFrom (resultBytes r) 4 8 ∧ ZeroFrom (resultBytes r) (8 + r.data.length) 32)
  ∧ (∀ s : State,
    (summaryBytes s).length = 64
    ∧ HoldsAll (summaryBytes s)
        [(0, nat32 s.time.run), (4, nat16 s.time.day), (6, nat8 (timeSourceCode s.time.source)),
          (7, nat8 (layoutStateCode s.lanes.layout)), (8, nat32 s.time.second),
          (12, bytes16 (BitVec.ofInt 16 s.time.offset)), (14, nat16 s.time.dayStart),
          (16, nat32 (s.time.profileDay.getD 0xFFFFFFFF)),
          (32, nat8 (matcherCode s.pin.matcher)), (33, nat8 s.pin.failures), (34, nat8 s.pin.step),
          (35, [if s.pin.sessionOpen then 1 else 0]), (36, nat16 s.pin.timer),
          (38, nat16 s.pin.sessionRemaining),
          (40, nat8 (match s.image.operation with
            | .idle => 0
            | .exporting .. => 1
            | .importing .. => 2)),
          (41, nat8 (flowStateCode s.intake.flow)), (42, nat8 (lampRecordCode s.panel.lampRecord)),
          (43, nat8 s.command.pointer.val),
          (44, nat8 ((List.finRange 16).filter (fun n => decide ((s.slot n).state = .posted))).length),
          (45, nat8 s.report.queue.length), (46, nat8 s.report.level), (47, nat8 s.report.urgent),
          (48, [if s.report.attention then 1 else 0]), (49, [if s.report.lost then 1 else 0]),
          (52, bytes32 s.report.sticky)]
    ∧ (∀ o, HoldsAll (summaryBytes s)
        [(20 + 4 * outputCode o, nat8 (verdictCode (s.context o).verdict)),
          (21 + 4 * outputCode o, nat8 (reasonCode (s.context o).reason)),
          (22 + 4 * outputCode o, [slotByte (s.context o).profile]),
          (23 + 4 * outputCode o, [slotByte (s.context o).service])])
    ∧ ZeroFrom (summaryBytes s) 50 52 ∧ ZeroFrom (summaryBytes s) 56 64)
  ∧ (∀ n : Notice, n.detail.length ≤ 20 →
    (noticeBytes (some n)).length = 32
    ∧ HoldsAll (noticeBytes (some n))
        [(0, nat8 (noticeKindCode n.kind)), (1, nat8 (noticeClass n.kind)), (2, nat8 n.count), (3, [0]),
          (4, bytes32 n.subject), (8, nat32 n.stamp), (12, n.detail)]
    ∧ ZeroFrom (noticeBytes (some n)) (12 + n.detail.length) 32)
  ∧ noticeBytes none = List.replicate 32 0
  ∧ ∀ i : Inputs,
    (identificationBytes i).length = 64
    ∧ HoldsAll (identificationBytes i)
        [(0, [0x4E, 0x47, 0x33, 0x43]), (4, bytes16 Config.revision), (6, [0, 0]), (8, nat32 i.commandBase),
          (12, nat32 i.reportBase),
          (16, nat32 (match i.bitRate with
            | .b9600 => 9600
            | .b19200 => 19200
            | .b38400 => 38400
            | .b57600 => 57600)),
          (20, [16, 4, 4, 8, 64, 8, 4, 16, 4, 32]), (30, nat16 4096)]
    ∧ ZeroFrom (identificationBytes i) 32 64

/-- R183, section 12.4: a view begins with run seconds, its kind and its number, and its content stands from
byte 16; NONE is all zero (the model's choice, log 21). The fields of a window, a rating entry, an event and
the intake stand without gaps (logs 23 and 40), the layout state behind the six windows (log 22), and the
PANEL view shows 0 where no message is outstanding (log 24). -/
def Obligations.ViewsAreLaidOut : Prop :=
  ∀ (s : State) (view : List Byte), view = viewBytes s →
    view.length = 1024
    ∧ (s.report.view = .none → view = List.replicate 1024 0)
    ∧ (s.report.view ≠ .none →
      HoldsAll view [(0, nat32 s.time.run), (4, nat8 (viewCode s.report.view).1),
          (5, nat8 (viewCode s.report.view).2)]
      ∧ ZeroFrom view 6 16)
    ∧ (∀ n p, s.report.view = .profile n → p = s.profile n →
      HoldsAll view [(16, [1]), (17, nat8 (profileStateCode p.state)), (18, nat8 (ceilingCode p.ceiling).1),
          (19, nat8 (ceilingCode p.ceiling).2), (20, [p.blockMask]), (21, nat8 (policyCode p.unrated)),
          (22, nat8 (policyCode p.scheme)), (23, nat8 (policyCode p.absent)), (24, nat8 p.pendingLimit),
          (26, nat16 (p.allowance.getD 0xFFFF)), (28, nat16 p.carryCap), (30, nat16 p.lead),
          (52, nat32 p.remaining), (56, nat32 p.charged), (60, nat16 p.granted),
          (64, nat32 (p.budgetDay.getD 0xFFFFFFFF))]
      ∧ (∀ g : Fin 4, Holds view (32 + g.val) (nat8 p.rates[g]))
      ∧ (∀ c : Fin 3, (p.curfews[c] = none → Holds view (36 + 5 * c.val) [0, 0, 0, 0, 0])
        ∧ ∀ w, p.curfews[c] = some w →
          Holds view (36 + 5 * c.val) ([w.days ||| 0x80] ++ nat16 w.startMinute ++ nat16 w.endMinute))
      ∧ ∀ a, a ∈ [25, 51, 62, 63] ∨ (68 ≤ a ∧ a < 1024) → view[a]? = some 0)
    ∧ (∀ o c, s.report.view = .output o → c = s.context o → c.stack.length ≤ 4 →
      HoldsAll view [(16, [slotByte c.profile]), (17, [slotByte c.service]), (18, nat8 (verdictCode c.verdict)),
          (19, nat8 (reasonCode c.reason)), (20, nat32 c.pendingSince), (24, nat8 c.stack.length)]
      ∧ ∀ k e, c.stack.reverse[k]? = some e →
        HoldsAll view [(32 + 20 * k, nat8 (overrideKindCode e.kind)),
          (33 + 20 * k, nat8 (overrideScopeCode e.scope)),
          (34 + 20 * k, nat8 (if e.tag = .live then 0 else 1)),
          (35 + 20 * k, nat8 (if e.origin = .session then 0 else 1))]
        ∧ (∀ key, e.subjectKey = some key → Holds view (36 + 20 * k) (keyField key))
        ∧ (∀ id, e.subjectEvent = some id → Holds view (42 + 20 * k) (bytes16 id))
        ∧ (∀ at_, e.endTime = some at_ → at_ / 86400 ≤ 65535 →
            HoldsAll view [(44 + 20 * k, nat16 (at_ / 86400)), (46 + 20 * k, nat32 (at_ % 86400))]))
    ∧ (∀ n, (s.report.view = .ratingSlot n
        ∨ ∃ k f, s.report.view = .ratingKey k ∧ s.entry n = some f ∧ f.key = k
          ∧ ∀ m g, s.entry m = some g → g.key = k → m = n) →
      (s.entry n = none → Holds view 16 [0xFF])
      ∧ ∀ e, s.entry n = some e →
        HoldsAll view [(16, nat8 n.val), (17, nat8 (if e.source = .broadcast then 0 else 1)),
          (18, nat8 (e.version.getD 0xFF)),
          (19, nat8 (match e.present with
            | .none => 0
            | .current _ => 1
            | .ended _ => 2)),
          (20, keyField e.key), (26, bytes16 (e.lastId.getD 0xFFFF)), (28, nat8 e.bindCount),
          (29, nat32 e.lastTouch)]
        ∧ ∀ v offset, ((e.present = .current v ∨ e.present = .ended v) ∧ offset = 48)
            ∨ (e.following = some v ∧ offset = 80) →
          HoldsAll view [(offset, [1]), (offset + 1, bytes16 v.id), (offset + 3, nat16 v.startDay),
            (offset + 5, nat32 v.startSecond), (offset + 9, nat32 v.duration),
            (offset + 13, nat8 (classCode v.rating.cls).1), (offset + 14, nat8 (classCode v.rating.cls).2),
            (offset + 15, [v.rating.flags]), (offset + 16, nat8 v.rating.genre.val)])
    ∧ (∀ k, s.report.view = .ratingKey k → (∀ m g, s.entry m = some g → g.key ≠ k) → Holds view 16 [0xFF])
    ∧ (s.report.view = .windows →
      (∀ o k offset, offset = 16 + 32 * outputCode o + 16 * windowKindCode k →
        HoldsAll view [(offset, [if (s.window o k).set then 1 else 0]), (offset + 1, nat32 (s.window o k).base),
          (offset + 5, nat32 (s.window o k).size), (offset + 9, bytes32 (s.window o k).fill)])
      ∧ Holds view 112 (nat8 (layoutStateCode s.lanes.layout)))
    ∧ (s.report.view = .intake →
      (∀ w : Fin 4,
        HoldsAll view [(16 + 16 * w.val, [if (s.sectionWindow w).set then 1 else 0]),
          (17 + 16 * w.val, nat8 (match (s.sectionWindow w).context with
            | .unset => 0
            | .seeking _ => 1
            | .assembling _ => 2
            | .shed => 3)),
          (18 + 16 * w.val, nat32 (s.sectionWindow w).base), (22 + 16 * w.val, nat32 (s.sectionWindow w).size)]
        ∧ ∀ a, (s.sectionWindow w).context = .assembling a →
          HoldsAll view [(26 + 16 * w.val, nat32 a.start), (80 + 6 * w.val, nat32 a.expected),
            (84 + 6 * w.val, nat16 a.bytes.length)])
      ∧ HoldsAll view [(104, nat8 s.intake.queue.length), (105, nat16 (poolUsed s.intake.queue)),
          (107, nat8 (flowStateCode s.intake.flow)), (108, nat8 s.intake.haltLevel),
          (109, nat8 s.intake.resumeLevel), (110, [if s.intake.parsing then 1 else 0])])
    ∧ (s.report.view = .panel →
      HoldsAll view [(16, nat8 (listenerStateCode s.panel.listener)), (17, [s.panel.listenerAddress]),
          (18, [s.panel.panelAddress]), (19, nat8 s.panel.fifo.length),
          (20, nat8 (transmitterStateCode s.panel.transmitter)),
          (21, [match s.panel.outstanding with
            | some m => messageCommand m
            | none => 0]),
          (22, nat8 (lampRecordCode s.panel.lampRecord)), (23, nat8 s.panel.queue.length)]
      ∧ ∀ (k : Nat) (m : Message), k < 4 → s.panel.queue[k]? = some m →
          Holds view (24 + 2 * k) [messageCommand m, messageOperand m])
    ∧ (∀ m : Fin 9, s.report.view = .scheme m →
      (m.val = 0 → Holds view 16 (0xFE :: List.replicate 15 0xFD))
      ∧ ∀ (i : Fin 8) (v : Fin 16), m.val = i.val + 1 →
        Holds view (16 + v.val) (nat8 (s.rating.schemes[i][v].getD 0xFF)))
    ∧ (s.report.view = .image →
      (s.image.buffer = none → Holds view 16 [0])
      ∧ ∀ image, s.image.buffer = some image → image.length = 64 →
        HoldsAll view [(16, [1]), (32, image)])

/-- R14 to R16, R19, R21, R25: a presentation response is matched to the oldest entry of its tag, which is
removed; every byte of a segment whose output is PENDING or BLOCKED is the substitution byte of its
window, every other byte is memory's, and the status is memory's; the activity flag of an output is set
where an OKAY response holds a PICTURE segment of it that passes. A response that matches no entry is
discarded. -/
def Obligations.SubstitutionLaw : Prop :=
  ∀ (s : State) (tag : Nat) (status : Status) (data : List Byte), Running s → responseOk data = true →
    ((∀ e ∈ s.lanes.presentation, e.tag ≠ tag) →
      exec (.presentationResponse tag status data) s = .next s)
    ∧ ∀ older e younger, s.lanes.presentation = older ++ e :: younger → e.tag = tag →
      (∀ d ∈ older, d.tag ≠ tag) → coveredBy e.segments = data.length →
      ∃ t d, exec (.presentationResponse tag status data) s = .next t
        ∧ t.lanes.presentation = older ++ younger
        ∧ t.lanes.out = s.lanes.out ++ [.response .presentation tag status d]
        ∧ d.length = data.length
        ∧ (∀ before g after i, e.segments = before ++ g :: after → i < g.count →
            d[coveredBy before + i]?
              = match g.marking with
                | .window o k fill =>
                    if (s.context o).verdict = .pending ∨ (s.context o).verdict = .blocked then
                      match k with
                      | .picture => some (fill.extractLsb' (8 * ((g.start + i) % 4)) 8)
                      | .sound => some 0
                    else data[coveredBy before + i]?
                | _ => data[coveredBy before + i]?)
        ∧ (∀ o, t.lanes.activity.get o = true ↔
            s.lanes.activity.get o = true
              ∨ (status = .okay ∧ (s.context o).verdict ≠ .pending ∧ (s.context o).verdict ≠ .blocked
                ∧ ∃ g ∈ e.segments, ∃ fill, g.marking = .window o .picture fill))
        ∧ Frame ([.presentationTable, .transfers] ++ everyActivity) s t

/-! ### The host's commands (chapters 1 to 11) -/

/-- R178 to R181: every host command but FACTORY_CLEAR is taken at once from a slot at the pointer that is
ready; its result record is written, the pointer and the toggle advance, and nothing else changes but what
its owner may change; a privileged command taken without authority, FACTORY_CLEAR too, is refused with
NOT_AUTHORISED and changes nothing more. -/
def Obligations.HostCommandsTouchOnlyTheirParts : Prop :=
  ∀ (i : Instr) (c : Command) (s : State), commandOf i = some c → RingReady s →
    (c ≠ .factoryClear → ∃ r t, EndsFreely i r (.sessionRemaining :: commandParts c) s t)
    ∧ (privileged c s = true → authority s = false → Refuses i .notAuthorised s)

/-- R8, R10, R160: SET_WINDOW makes its checks in their order and writes one window; COMMIT_LAYOUT commits the
layout; SET_PANEL_ADDRESSES sets both addresses unless one is 0x00. -/
def Obligations.WindowsLayoutAndPanelAddressesAreSet : Prop :=
  ∀ s : State,
    (∀ (i : Instr) (output kind : Byte) (base size fill : Word),
      i = .setWindow output kind base size fill → Ready i s →
      (3 ≤ output.toNat ∨ 2 ≤ kind.toNat → Refuses i .badField s)
      ∧ ∀ o k, outputCode o = output.toNat → windowKindCode k = kind.toNat →
        (size.toNat = 0 → ∃ t, Ends i (.done .doneOk []) [.window o k] s t ∧ t.window o k = ⟨false, 0, 0, 0⟩)
        ∧ (size.toNat ≠ 0 →
            (base.toNat % 256 ≠ 0 ∨ size.toNat % 256 ≠ 0 ∨ 268435456 < size.toNat
              ∨ 4294967296 < base.toNat + size.toNat → Refuses i .badField s)
            ∧ (base.toNat % 256 = 0 → size.toNat % 256 = 0 → size.toNat ≤ 268435456 →
                base.toNat + size.toNat ≤ 4294967296 →
                ((∃ o' k', (o', k') ≠ (o, k) ∧ (s.window o' k').set = true
                    ∧ rangesMeet base.toNat size.toNat (s.window o' k').base (s.window o' k').size = true) →
                  Refuses i .overlap s)
                ∧ ((∀ o' k', (o', k') ≠ (o, k) → (s.window o' k').set = true →
                    rangesMeet base.toNat size.toNat (s.window o' k').base (s.window o' k').size = false) →
                  ∃ t, Ends i (.done .doneOk []) [.window o k] s t
                    ∧ t.window o k = ⟨true, base.toNat, size.toNat,
                        match k with
                        | .picture => fill
                        | .sound => 0⟩))))
    ∧ (RingReady s → ∃ t, Ends .commitLayout (.done .doneOk []) [.layout] s t ∧ t.lanes.layout = .committed)
    ∧ ∀ (listener panel : Byte), Ready (.setPanelAddresses listener panel) s →
      (listener = 0 ∨ panel = 0 → Refuses (.setPanelAddresses listener panel) .badField s)
      ∧ (listener ≠ 0 → panel ≠ 0 →
        ∃ t, Ends (.setPanelAddresses listener panel) (.done .doneOk []) [.panelAddresses] s t
          ∧ t.panel.listenerAddress = listener ∧ t.panel.panelAddress = panel)

/-- R106, R117: SET_SECTION_WINDOW makes its checks in their order and writes one section window with a fresh
context; SET_INTAKE_LEVELS clamps and sets H and L and applies them to the queue as it stands. -/
def Obligations.SectionWindowsAndLevels : Prop :=
  ∀ s : State,
    (∀ (i : Instr) (number : Byte) (base size : Word), i = .setSectionWindow number base size → Ready i s →
      (4 ≤ number.toNat → Refuses i .badField s)
      ∧ ∀ w : Fin 4, w.val = number.toNat →
        (size.toNat = 0 → ∃ t, Ends i (.done .doneOk []) [.sectionWindow w] s t
          ∧ t.sectionWindow w = ⟨false, 0, 0, .unset⟩)
        ∧ (size.toNat ≠ 0 →
            (base.toNat % 256 ≠ 0 ∨ size.toNat % 256 ≠ 0 ∨ size.toNat < 1024 ∨ 65536 < size.toNat
              ∨ 4294967296 < base.toNat + size.toNat → Refuses i .badField s)
            ∧ (base.toNat % 256 = 0 → size.toNat % 256 = 0 → 1024 ≤ size.toNat → size.toNat ≤ 65536 →
                base.toNat + size.toNat ≤ 4294967296 →
                ((∃ v, v ≠ w ∧ (s.sectionWindow v).set = true
                    ∧ rangesMeet base.toNat size.toNat (s.sectionWindow v).base (s.sectionWindow v).size
                      = true) → Refuses i .overlap s)
                ∧ ((∀ v, v ≠ w → (s.sectionWindow v).set = true →
                    rangesMeet base.toNat size.toNat (s.sectionWindow v).base (s.sectionWindow v).size
                      = false) →
                  ∃ t, Ends i (.done .doneOk []) [.sectionWindow w] s t
                    ∧ t.sectionWindow w = ⟨true, base.toNat, size.toNat,
                        if s.intake.flow = .flowing then .seeking none else .shed⟩))))
    ∧ ∀ (i : Instr) (halt resume : Byte) (h l : Nat), i = .setIntakeLevels halt resume → Ready i s →
        h = max 1 (min 8 halt.toNat) → l = min (h - 1) resume.toNat →
        ∃ t, Ends i (.done (doneOr (decide (h ≠ halt.toNat ∨ l ≠ resume.toNat))) []) levelParts s t
          ∧ t.intake.haltLevel = h ∧ t.intake.resumeLevel = l
          ∧ (s.intake.flow = .flowing → h ≤ s.intake.queue.length →
              t.intake.flow = .halted ∧ Noted .intakeShed 0xFF t
              ∧ ∀ w, t.sectionWindow w = { s.sectionWindow w with
                  context := if (s.sectionWindow w).context = .unset then .unset else .shed })
          ∧ (s.intake.flow = .halted → s.intake.queue.length ≤ l →
              t.intake.flow = .flowing
              ∧ t.report = s.report
              ∧ ∀ w, t.sectionWindow w = { s.sectionWindow w with
                  context := if (s.sectionWindow w).context = .shed then .seeking none
                    else (s.sectionWindow w).context })
          ∧ ((s.intake.flow = .flowing ∧ s.intake.queue.length < h)
              ∨ (s.intake.flow = .halted ∧ l < s.intake.queue.length) →
            Frame (ringParts s ++ [.intakeLevels, .sessionRemaining]) s t)

/-- R26, R126, R134: BIND_SERVICE binds an output to the entry of the key given, which is made in its place
where no entry holds the key; a rebind to the same key only touches the entry; any other sets pending-since,
lowers the bind count of the entry held before and spends the entries of scope EVENT_END and UNBIND; the
output is evaluated, and every other rating slot stands. The slot as result data of a rebind to the same key
is read from the spec by inference (log 42). -/
def Obligations.BindServiceBindsTheOutput : Prop :=
  ∀ (i : Instr) (output : Byte) (network stream service : Half) (s : State),
    i = .bindService output network stream service → RingReady s → RatingLaw s →
    (3 ≤ output.toNat → Refuses i .badField s)
    ∧ ∀ o (k : ServiceKey), outputCode o = output.toNat → k = ⟨network, stream, service⟩ →
      ∃ n e t, Ends i (.done .doneOk [BitVec.ofNat 8 n.val]) (bindingParts o) s t
        ∧ (t.context o).service = some n ∧ t.entry n = some e ∧ e.key = k ∧ e.lastTouch = s.time.run
        ∧ UpToDate t o
        ∧ PlacedAt s k n
        ∧ ((∀ m f, s.entry m = some f → f.key ≠ k) →
            e.present = .none ∧ e.following = none ∧ e.version = none ∧ e.lastId = none ∧ e.bindCount = 1)
        ∧ (s.boundKey o = some k → (s.context o).service = some n
            ∧ (s.entry n).map (·.bindCount) = some e.bindCount
            ∧ (t.context o).pendingSince = (s.context o).pendingSince
            ∧ (t.context o).stack = (s.context o).stack ∧ (∀ m, m ≠ n → t.entry m = s.entry m)
            ∧ ∀ f, s.entry n = some f → e = { f with lastTouch := s.time.run })
        ∧ (s.boundKey o ≠ some k →
            (t.context o).pendingSince = s.time.run
            ∧ SpentIn (fun e => decide (e.scope = .eventEnd ∨ e.scope = .unbind))
                (s.context o).stack (t.context o).stack
            ∧ (∀ m, m ≠ n → t.entry m
                = if (s.context o).service = some m then
                    (s.entry m).map (fun f => { f with bindCount := f.bindCount - 1 })
                  else s.entry m)
            ∧ ∀ f, s.entry n = some f → f.key = k →
                e = { f with bindCount := f.bindCount + 1, lastTouch := s.time.run })

/-- R27, R28: UNBIND_SERVICE removes a service binding, lowers the entry's bind count and spends the entries
that end with the binding; BIND_PROFILE sets the profile binding to a slot that is not EMPTY, or to NONE;
each evaluates the output. -/
def Obligations.UnbindServiceAndBindProfile : Prop :=
  ∀ s : State,
    (∀ (output : Byte), RingReady s →
      (3 ≤ output.toNat → Refuses (.unbindService output) .badField s)
      ∧ ∀ o, outputCode o = output.toNat →
        ((s.context o).service = none →
          ∃ t, Ends (.unbindService output) (.done .doneOk []) (judgedParts o) s t ∧ UpToDate t o)
        ∧ ∀ n, (s.context o).service = some n →
          ∃ t, Ends (.unbindService output) (.done .doneOk [])
              ([.serviceBinding o, .stack o, .entry n] ++ judgedParts o) s t
            ∧ (t.context o).service = none
            ∧ t.entry n = (s.entry n).map (fun e => { e with bindCount := e.bindCount - 1 })
            ∧ SpentIn (fun e => decide (e.scope = .eventEnd ∨ e.scope = .unbind))
                (s.context o).stack (t.context o).stack
            ∧ UpToDate t o)
    ∧ ∀ (i : Instr) (output profile : Byte), i = .bindProfile output profile → Ready i s →
      (3 ≤ output.toNat ∨ (8 ≤ profile.toNat ∧ profile ≠ 0xFF) → Refuses i .badField s)
      ∧ ∀ o, outputCode o = output.toNat →
        (profile = 0xFF →
          ∃ t, Ends i (.done .doneOk []) (.profileBinding o :: judgedParts o) s t
            ∧ (t.context o).profile = none ∧ (t.context o).verdict = .unsupervised)
        ∧ ∀ n : Fin 8, n.val = profile.toNat →
          ((s.profile n).state = .empty → Refuses i .noSuch s)
          ∧ ((s.profile n).state ≠ .empty →
            ∃ t, Ends i (.done .doneOk []) (.profileBinding o :: judgedParts o) s t
              ∧ (t.context o).profile = some n ∧ UpToDate t o)

/-- R62, R63: GRANT_TIME makes its checks in their order, adds the minutes to R and G, and evaluates the
slot's outputs where a limited R was 0; that it evaluates none where R was above 0 follows R63 (log 16). -/
def Obligations.GrantTimeAddsMinutes : Prop :=
  ∀ (i : Instr) (profile : Byte) (m : Half) (s : State), i = .grantTime profile m → RingReady s →
    (authority s = false → Refuses i .notAuthorised s)
    ∧ (authority s = true →
      (8 ≤ profile.toNat → Refuses i .badField s)
      ∧ ∀ n : Fin 8, n.val = profile.toNat →
        (s.image.operation.importsInto n = true → Refuses i .busy s)
        ∧ (s.image.operation.importsInto n = false →
          ((s.profile n).state = .empty → Refuses i .noSuch s)
          ∧ ((s.profile n).state ≠ .empty →
            (m.toNat = 0 → Refuses i .badField s)
            ∧ (m.toNat ≠ 0 →
              ∃ t, Ends i
                  (.done (doneOr (decide (720 < m.toNat)))
                    (nat32 (grantedAccount (s.profile n) m.toNat).remaining
                      ++ nat16 (grantedAccount (s.profile n) m.toNat).granted))
                  (.profile n
                    :: (if (s.profile n).allowance.isSome = true ∧ (s.profile n).remaining = 0 then allJudged
                      else [])) s t
                ∧ t.profile n = grantedAccount (s.profile n) m.toNat
                ∧ ((s.profile n).allowance.isSome = true → (s.profile n).remaining = 0 →
                    BoundUpToDate n t)))))

/-- R73 to R77, R65, R66: SET_PROFILE_LIMITS and SET_PROFILE_TIME write their settings, clamped, adjust R for
a change of allowance and raise exhaustion where the account passed into it; SET_CURFEW writes or refuses one
curfew slot, clamping nothing, and CURFEW_CLEAR empties it; each evaluates the slot's outputs. -/
def Obligations.ProfileSettingsAndCurfewsAreWritten : Prop :=
  ∀ s : State,
    (∀ (i : Instr) (p kind age mask unrated scheme absent limit : Byte),
      i = .setProfileLimits p kind age mask unrated scheme absent limit → Ready i s →
      (8 ≤ p.toNat → Refuses i .badField s)
      ∧ ∀ n : Fin 8, n.val = p.toNat →
        (s.image.operation.importsInto n = true → Refuses i .busy s)
        ∧ (s.image.operation.importsInto n = false →
          (3 ≤ kind.toNat ∨ 2 ≤ unrated.toNat ∨ 2 ≤ scheme.toNat ∨ 2 ≤ absent.toNat → Refuses i .badField s)
          ∧ (kind.toNat < 3 → unrated.toNat < 2 → scheme.toNat < 2 → absent.toNat < 2 →
            ∃ t, Ends i
                (.done (doneOr (decide ((kind = 0 ∧ 21 < age.toNat) ∨ 60 < limit.toNat))) (profileData n t))
                (.profile n :: allJudged) s t
              ∧ t.profile n
                = { s.profile n with
                    ceiling := if kind = 0 then .age (min 21 age.toNat) else if kind = 1 then .opened else .closed
                    blockMask := mask
                    unrated := if unrated = 0 then .allow else .block
                    scheme := if scheme = 0 then .allow else .block
                    absent := if absent = 0 then .allow else .block
                    pendingLimit := min 60 limit.toNat }
              ∧ BoundUpToDate n t)))
    ∧ (∀ (i : Instr) (p : Byte) (a k lead : Half) (r0 r1 r2 r3 : Byte) (allowance : Option Nat),
      i = .setProfileTime p a k lead r0 r1 r2 r3 → Ready i s →
      allowance = (if a = 0xFFFF then none else some (min 1440 a.toNat)) →
      (8 ≤ p.toNat → Refuses i .badField s)
      ∧ ∀ n : Fin 8, n.val = p.toNat →
        (s.image.operation.importsInto n = true → Refuses i .busy s)
        ∧ (s.image.operation.importsInto n = false →
          ∃ t, Ends i
              (.done (doneOr (decide ((a ≠ 0xFFFF ∧ 1440 < a.toNat) ∨ 720 < k.toNat ∨ 900 < lead.toNat
                ∨ 8 < r0.toNat ∨ 8 < r1.toNat ∨ 8 < r2.toNat ∨ 8 < r3.toNat))) (profileData n t))
              (.profile n :: allJudged) s t
            ∧ t.profile n
              = { s.profile n with
                  allowance := allowance
                  carryCap := min 720 k.toNat
                  lead := min 900 lead.toNat
                  rates := #v[min 8 r0.toNat, min 8 r1.toNat, min 8 r2.toNat, min 8 r3.toNat]
                  remaining :=
                    if (s.profile n).state = .empty then (s.profile n).remaining
                    else remainingAfter (s.profile n).allowance allowance (s.profile n).remaining
                      (s.profile n).charged }
            ∧ ((t.profile n).exhausted = true → (s.profile n).exhausted = false →
                Noted .budgetExhausted n.val t)
            ∧ BoundUpToDate n t))
    ∧ ∀ (i : Instr) (p c days : Byte) (st en : Half) (clear : Bool),
      i = (if clear then .curfewClear p c else .setCurfew p c days st en) → Ready i s →
      (8 ≤ p.toNat → Refuses i .badField s)
      ∧ ∀ n : Fin 8, n.val = p.toNat →
        (s.image.operation.importsInto n = true → Refuses i .busy s)
        ∧ (s.image.operation.importsInto n = false →
          (3 ≤ c.toNat → Refuses i .badField s)
          ∧ ∀ slot : Fin 3, slot.val = c.toNat →
            (clear = true →
              ∃ t, Ends i (.done .doneOk (profileData n t)) (.profile n :: allJudged) s t
                ∧ t.profile n = { s.profile n with curfews := (s.profile n).curfews.set slot none }
                ∧ BoundUpToDate n t)
            ∧ (clear = false →
              (days &&& 0x7F = 0 ∨ 1439 < st.toNat ∨ 1439 < en.toNat ∨ en.toNat = st.toNat →
                Refuses i .badField s)
              ∧ (days &&& 0x7F ≠ 0 → st.toNat ≤ 1439 → en.toNat ≤ 1439 → en.toNat ≠ st.toNat →
                ∃ t, Ends i (.done .doneOk (profileData n t)) (.profile n :: allJudged) s t
                  ∧ t.profile n
                    = { s.profile n with
                        curfews := (s.profile n).curfews.set slot (some ⟨days &&& 0x7F, st.toNat, en.toNat⟩) }
                  ∧ BoundUpToDate n t)))

/-- R78, R60, R68, R69, R29: SET_PROFILE_STATE opens, keeps, settles or discards the account by the state
before and the new state; outputs bound to a slot that becomes EMPTY become unbound and UNSUPERVISED. -/
def Obligations.ProfileStatesChange : Prop :=
  ∀ (s : State) (i : Instr) (p new : Byte), i = .setProfileState p new → Ready i s →
    (8 ≤ p.toNat → Refuses i .badField s)
    ∧ ∀ n : Fin 8, n.val = p.toNat →
      (s.image.operation.importsInto n = true → Refuses i .busy s)
      ∧ (s.image.operation.importsInto n = false →
        (3 ≤ new.toNat → Refuses i .badField s)
        ∧ ∀ st, profileStateCode st = new.toNat →
          ∃ t, Ends i (.done .doneOk (profileData n t)) (.profile n :: everyProfileBinding ++ allJudged) s t
            ∧ BoundUpToDate n t
            ∧ ((s.profile n).state = .empty → st = .empty → t.profile n = s.profile n)
            ∧ ((s.profile n).state = .empty → st ≠ .empty →
                t.profile n
                  = { s.profile n with
                      state := st, charged := 0, granted := 0, budgetDay := s.time.profileDay
                      remaining := match (s.profile n).allowance with
                        | some a => a * 240
                        | none => 0 }
                ∧ ((s.profile n).allowance = some 0 → Noted .budgetExhausted n.val t))
            ∧ ((s.profile n).state ≠ .empty → st ≠ .empty →
                t.profile n
                  = if (s.profile n).state = .suspended ∧ st = .active ∧ s.time.profileDay.isSome = true then
                      settledAccount { s.profile n with state := .active } (s.time.profileDay.getD 0)
                    else { s.profile n with state := st })
            ∧ ((s.profile n).state ≠ .empty → st = .empty →
                t.profile n = Profile.default
                ∧ ∀ o, (s.context o).profile = some n →
                    (t.context o).profile = none ∧ (t.context o).verdict = .unsupervised)
            ∧ ∀ o, st ≠ .empty ∨ (s.profile n).state = .empty ∨ (s.context o).profile ≠ some n →
                (t.context o).profile = (s.context o).profile)

/-- R79, R81 to R87: EXPORT_PROFILE takes a snapshot of the record and IMPORT_PROFILE a copy of the first 64
bytes of the import area, each where the image unit is idle, and the result stays PENDING. An export
completes with the image of its snapshot in the export buffer; an import completes with BAD_IMAGE and no
change, or installs the image's record, settled against P, raises its exhaustion and evaluates the slot's
outputs; an event without its operation changes nothing (log 11). -/
def Obligations.ImageOperationsBeginAndComplete : Prop :=
  (∀ (s : State) (p : Byte),
    (RingReady s →
      (8 ≤ p.toNat → Refuses (.exportProfile p) .badField s)
      ∧ ∀ n : Fin 8, n.val = p.toNat →
        (s.image.operation ≠ .idle → Refuses (.exportProfile p) .busy s)
        ∧ (s.image.operation = .idle →
          ((s.profile n).state = .empty → Refuses (.exportProfile p) .noSuch s)
          ∧ ((s.profile n).state ≠ .empty →
            ∃ t, Ends (.exportProfile p) .long [.imageOperation] s t
              ∧ t.image.operation = .exporting n s.command.pointer (s.profile n))))
    ∧ (Ready (.importProfile p) s →
      (8 ≤ p.toNat → Refuses (.importProfile p) .badField s)
      ∧ ∀ n : Fin 8, n.val = p.toNat →
        (s.image.operation ≠ .idle → Refuses (.importProfile p) .busy s)
        ∧ (s.image.operation = .idle →
          ∃ t, Ends (.importProfile p) .long [.imageOperation] s t
            ∧ t.image.operation
              = .importing n s.command.pointer (s.command.shadow.readRun 0x200 64))))
  ∧ ∀ s : State, Quiet s →
    (∀ n slot snapshot, s.image.operation = .exporting n slot snapshot →
      ∃ t, exec .exportCompletion s = .next t
        ∧ t.image = ⟨.idle, some (profileImage s.inputs.salt snapshot)⟩
        ∧ t.slot slot
          = { s.slot slot with
              result := { (s.slot slot).result with
                state := .done, outcome := .doneOk, data := [BitVec.ofNat 8 n.val] } }
        ∧ Frame [.imageOperation, .imageBuffer, .slot slot] s t)
    ∧ (∀ n slot image, s.image.operation = .importing n slot image →
      (readImage s.inputs.salt image = none →
        ∃ t, exec .importCompletion s = .next t ∧ t.image.operation = .idle
          ∧ t.slot slot
            = { s.slot slot with
                result := { (s.slot slot).result with state := .done, outcome := .badImage, data := [] } }
          ∧ Frame [.imageOperation, .slot slot] s t)
      ∧ ∀ p, readImage s.inputs.salt image = some p →
        ∃ t, exec .importCompletion s = .next t ∧ t.image.operation = .idle
          ∧ t.profile n
            = (match s.time.profileDay with
              | some day => settledAccount p day
              | none => p)
          ∧ t.slot slot
            = { s.slot slot with
                result := { (s.slot slot).result with
                  state := .done, outcome := doneOr (imageClamped image), data := profileData n t } }
          ∧ ((t.profile n).exhausted = true → Noted .budgetExhausted n.val t)
          ∧ BoundUpToDate n t
          ∧ Frame ([.imageOperation, .slot slot, .profile n] ++ allJudged) s t)
    ∧ (s.image.operation = .idle →
      exec .exportCompletion s = .next s ∧ exec .importCompletion s = .next s)

/-- R80, R84, R85, section 12.5: the 64-byte image of any record in its ranges, with a budget day of at most
65,535 (log 32), is read back as that record, with nothing clamped; an image that is read has a right check
word and format code, and gives a record in its ranges that is not EMPTY. -/
def Obligations.ImageRoundTrip : Prop :=
  ∀ (salt : BitVec 64),
    (∀ p : Profile, p.inRange → p.state ≠ .empty → (∀ b, p.budgetDay = some b → b ≤ 65535) →
      (profileImage salt p).length = 64
      ∧ readImage salt (profileImage salt p) = some p ∧ imageClamped (profileImage salt p) = false)
    ∧ ∀ image p, readImage salt image = some p →
      wordAt image 60 = imageCheck salt (image.take 60) ∧ byteAt image 0 = 0x01
      ∧ p.inRange ∧ p.state ≠ .empty ∧ ∀ b, p.budgetDay = some b → b ≤ 65535

/-- R92 to R95: PUSH_OVERRIDE makes its checks in their order and puts one LIVE entry on top with its subject
captured; POP_OVERRIDE removes the top and the spent entries below it; CLEAR_OVERRIDES empties the stack; each
evaluates the output. That the result data of a push end with its origin is the model's choice (log 52). -/
def Obligations.OverridesArePushedPoppedAndCleared : Prop :=
  ∀ s : State,
    (∀ (i : Instr) (output kind scope : Byte) (day : Half) (second : Word) (at_ : Nat),
      i = .pushOverride output kind scope day second → Ready i s → at_ = day.toNat * 86400 + second.toNat →
      (3 ≤ output.toNat ∨ (kind.toNat, scope.toNat) ∉ [(0, 0), (1, 2), (1, 1), (2, 2), (3, 3), (3, 2)] →
        Refuses i .badField s)
      ∧ ∀ o k sc, outputCode o = output.toNat → overrideKindCode k = kind.toNat →
        overrideScopeCode sc = scope.toNat → scopeAllowed k sc = true →
        (((k = .allowEvent ∨ k = .allowService) ∧ s.boundKey o = none)
            ∨ (k = .allowEvent ∧ s.currentEvent o = none) → Refuses i .noSuch s)
        ∧ (((k = .allowEvent ∨ k = .allowService) → s.boundKey o ≠ none) →
            (k = .allowEvent → s.currentEvent o ≠ none) →
          (4 ≤ (s.context o).stack.length → Refuses i .stackFull s)
          ∧ ((s.context o).stack.length < 4 →
            (sc = .untilTime →
                (86399 < second.toNat ∨ (s.time.source ≠ .unset ∧ at_ ≤ s.time.localSeconds)) →
              Refuses i .badField s)
            ∧ ((sc = .untilTime → second.toNat ≤ 86399 ∧ (s.time.source ≠ .unset → s.time.localSeconds < at_)) →
              ∃ e t clamped, Ends i
                  (.done (doneOr clamped)
                    (nat8 ((s.context o).stack.length + 1)
                      ++ (match e.endTime with
                        | some u => localField u
                        | none => [])
                      ++ nat8 0))
                  (.stack o :: judgedParts o) s t
                ∧ (t.context o).stack = e :: (s.context o).stack
                ∧ e.kind = k ∧ e.scope = sc ∧ e.tag = .live ∧ e.origin = .session
                ∧ e.subjectKey = (if k = .allowEvent ∨ k = .allowService then s.boundKey o else none)
                ∧ e.subjectEvent
                  = (if k = .allowEvent then (s.currentEvent o).map (·.id) else none)
                ∧ (clamped = true ↔ sc = .untilTime ∧ k = .curfewWaive ∧ s.time.source ≠ .unset
                    ∧ s.time.localSeconds + 86400 < at_)
                ∧ e.endTime
                  = (if sc = .untilTime then
                      some (if clamped = true then s.time.localSeconds + 86400 else at_)
                    else none)
                ∧ UpToDate t o))))
    ∧ ∀ (output : Byte),
      (Ready (.popOverride output) s →
        (3 ≤ output.toNat → Refuses (.popOverride output) .badField s)
        ∧ ∀ o, outputCode o = output.toNat →
          ((s.context o).stack = [] → Refuses (.popOverride output) .emptyStack s)
          ∧ ∀ top below, (s.context o).stack = top :: below →
            ∃ t, Ends (.popOverride output)
                (.done .doneOk
                  (nat8 (below.length + 1 - (t.context o).stack.length) ++ nat8 (t.context o).stack.length))
                (.stack o :: judgedParts o) s t
              ∧ (t.context o).stack = below.dropWhile (fun e => decide (e.tag = .spent))
              ∧ UpToDate t o)
      ∧ (Ready (.clearOverrides output) s →
        (3 ≤ output.toNat → Refuses (.clearOverrides output) .badField s)
        ∧ ∀ o, outputCode o = output.toNat →
          ∃ t, Ends (.clearOverrides output) (.done .doneOk (nat8 (s.context o).stack.length))
              (.stack o :: judgedParts o) s t
            ∧ (t.context o).stack = [] ∧ UpToDate t o)

/-- R99, R100, R143, R144, R150, R151: SET_TIME declares wall time and offset, spends the overrides whose ends
the time before or after it has reached (log 7; at the first setting it settles all), compares the profile
day and evaluates every supervised output; SET_DAY_START writes M and compares the profile day. -/
def Obligations.TimeAndDayStartAreSet : Prop :=
  ∀ s : State,
    (∀ (i : Instr) (day : Half) (second offset : Word), i = .setTime day second offset → Ready i s →
      (86399 < second.toNat → Refuses i .badField s)
      ∧ (second.toNat ≤ 86399 →
        ∃ t, Ends i
            (.done (doneOr (decide (offset.toInt < -780 ∨ 840 < offset.toInt))) (timeData t.time))
            settingParts s t
          ∧ t.time.source = .declared ∧ t.time.day = day.toNat ∧ t.time.second = second.toNat
          ∧ t.time.offset = max (-780) (min 840 offset.toInt)
          ∧ t.time.profileDay = some (max (s.time.profileDay.getD 0) t.time.computedDay)
          ∧ SupervisedUpToDate t
          ∧ (s.time.source = .unset ∨ 2 < apart s.time.wallCount t.time.wallCount → Noted .timeStep 0 t)
          ∧ EndsMet s t
          ∧ (s.time.profileDay ≠ t.time.profileDay →
              t.pin.failures = 0 ∧ t.pin.step = 0
              ∧ ∀ n, t.profile n = settledAccount (s.profile n) (t.time.profileDay.getD 0))))
    ∧ ∀ (i : Instr) (minute : Half), i = .setDayStart minute → Ready i s →
      ∃ t, Ends i
          (.done (doneOr (decide (1439 < minute.toNat))) (nat16 t.time.dayStart ++ dayField4 t.time.profileDay))
          (.dayStart :: dayParts) s t
        ∧ t.time.dayStart = min 1439 minute.toNat
        ∧ t.time.profileDay = dayAfter { s.time with dayStart := min 1439 minute.toNat }
        ∧ (t.time.profileDay = s.time.profileDay → Frame (ringParts s ++ [.dayStart, .sessionRemaining]) s t)
        ∧ (t.time.profileDay ≠ s.time.profileDay → SupervisedUpToDate t
            ∧ t.pin.failures = 0 ∧ t.pin.step = 0
            ∧ ∀ n, t.profile n = settledAccount (s.profile n) (t.time.profileDay.getD 0))

/-- R126, R129, R130, R135, R137: DECLARE_PLAYBACK makes, in its place, or replaces the entry of the declared
key with an open-ended current event; the outputs bound to it are evaluated unless event and rating are those
it held (log 37); an event change spends the EVENT_END entries and is noted. SET_SCHEME is refused without
authority; it writes one scheme map, its ages clamped, and makes the version of every BROADCAST entry NONE; it
evaluates no output. -/
def Obligations.PlaybackIsDeclaredAndSchemeMapsWritten : Prop :=
  (∀ (i : Instr) (stream service id : Half) (cls age flags genre : Byte) (s : State),
    i = .declarePlayback stream service id cls age flags genre → RingReady s → RatingLaw s →
    (4 ≤ cls.toNat ∨ 4 ≤ genre.toNat → Refuses i .badField s)
    ∧ ∀ (k : ServiceKey) (rating : RatingRecord), cls.toNat < 4 → rating.genre.val = genre.toNat →
      k = ⟨0xFFFF, stream, service⟩ → rating.flags = flags →
      rating.cls = (if cls = 0 then .aged (min 21 age.toNat) else if cls = 1 then .unrated
        else if cls = 2 then .unknownScheme else .absent) →
      ∃ n e t, Ends i (.done (doneOr (decide (cls = 0 ∧ 21 < age.toNat))) [BitVec.ofNat 8 n.val])
          (.entry n :: consequenceParts) s t
        ∧ t.entry n = some e ∧ e.key = k ∧ e.source = .declared ∧ e.lastTouch = s.time.run
        ∧ e.present = .current ⟨id, if s.time.source = .unset then 0 else s.time.day,
            if s.time.source = .unset then 0 else s.time.second, 0, rating⟩
        ∧ e.following = none ∧ e.lastId = some id
        ∧ PlacedAt s k n
        ∧ (∀ f, s.entry n = some f → f.key = k → e.version = f.version ∧ e.bindCount = f.bindCount)
        ∧ ((∀ m f, s.entry m = some f → f.key ≠ k) → e.version = none ∧ e.bindCount = 0)
        ∧ ((¬ ∃ f h, s.entry n = some f ∧ f.key = k ∧ f.lastId = some id ∧ f.present = .current h
              ∧ h.rating = rating) → ∀ o, (t.context o).service = some n → UpToDate t o)
        ∧ ∀ f old, s.entry n = some f → f.key = k → f.lastId = some old → old ≠ id →
            (0 < f.bindCount → Noted .eventChange n.val t)
            ∧ ∀ o, (s.context o).service = some n →
                SpentIn (fun e => decide (e.scope = .eventEnd)) (s.context o).stack (t.context o).stack)
  ∧ ∀ (i : Instr) (scheme : Byte) (ages : Vector Byte 16) (s : State), i = .setScheme scheme ages →
    RingReady s →
    (authority s = false → Refuses i .notAuthorised s)
    ∧ (authority s = true →
      (scheme.toNat = 0 ∨ 8 < scheme.toNat → Refuses i .badField s)
      ∧ ∀ m : Fin 8, m.val + 1 = scheme.toNat →
        ∃ t, Ends i
            (.done (doneOr (decide (∃ v : Fin 16, ages[v] ≠ 0xFF ∧ 21 < ages[v].toNat))) [])
            (.schemes :: everyEntry) s t
          ∧ (∀ v : Fin 16, t.rating.schemes[m][v]
              = if ages[v] = 0xFF then none else some (min 21 ages[v].toNat))
          ∧ (∀ m' : Fin 8, m' ≠ m → t.rating.schemes[m'] = s.rating.schemes[m'])
          ∧ ∀ n, t.entry n = (s.entry n).map
              (fun e => if e.source = .broadcast then { e with version := none } else e))

/-- R62, R92, R93, R167: the checks of a staged action at the take: a staged grant passes the checks of
GRANT_TIME, its minutes clamped; a staged push those of PUSH_OVERRIDE, its subject captured and its end
fitted; any other staged kind is BAD_FIELD. -/
def Obligations.StagedActionsAreChecked : Prop :=
  ∀ (output profile staged : Byte) (m : Half) (kind scope : Byte) (day : Half) (second : Word) (s : State)
    (r : Except CommandOutcome Staged) (at_ : Nat),
    r = checkStaged output profile staged m kind scope day second s →
    at_ = day.toNat * 86400 + second.toNat →
    (2 ≤ staged.toNat → r = .error .badField)
    ∧ (staged = 0 →
      (8 ≤ profile.toNat → r = .error .badField)
      ∧ ∀ n : Fin 8, n.val = profile.toNat →
        (s.image.operation.importsInto n = true → r = .error .busy)
        ∧ (s.image.operation.importsInto n = false →
          ((s.profile n).state = .empty → r = .error .noSuch)
          ∧ ((s.profile n).state ≠ .empty →
            (m.toNat = 0 → r = .error .badField)
            ∧ (m.toNat ≠ 0 → r = .ok (.grant n (min 720 m.toNat) (decide (720 < m.toNat)))))))
    ∧ (staged = 1 →
      (3 ≤ output.toNat ∨ (kind.toNat, scope.toNat) ∉ [(0, 0), (1, 2), (1, 1), (2, 2), (3, 3), (3, 2)] →
        r = .error .badField)
      ∧ ∀ o k sc, outputCode o = output.toNat → overrideKindCode k = kind.toNat →
        overrideScopeCode sc = scope.toNat → scopeAllowed k sc = true →
        (((k = .allowEvent ∨ k = .allowService) ∧ s.boundKey o = none)
            ∨ (k = .allowEvent ∧ s.currentEvent o = none) → r = .error .noSuch)
        ∧ (((k = .allowEvent ∨ k = .allowService) → s.boundKey o ≠ none) →
            (k = .allowEvent → s.currentEvent o ≠ none) →
          (4 ≤ (s.context o).stack.length → r = .error .stackFull)
          ∧ ((s.context o).stack.length < 4 →
            (sc = .untilTime →
                (86399 < second.toNat ∨ (s.time.source ≠ .unset ∧ at_ ≤ s.time.localSeconds)) →
              r = .error .badField)
            ∧ ((sc = .untilTime → second.toNat ≤ 86399 ∧ (s.time.source ≠ .unset → s.time.localSeconds < at_)) →
              ∃ clamped,
                (clamped = true ↔ sc = .untilTime ∧ k = .curfewWaive ∧ s.time.source ≠ .unset
                  ∧ s.time.localSeconds + 86400 < at_)
                ∧ r = .ok (.push
                  { output := o, kind := k, scope := sc, clamped := clamped
                    endTime :=
                      if sc = .untilTime then
                        some (if clamped = true then s.time.localSeconds + 86400 else at_)
                      else none
                    key := if k = .allowEvent ∨ k = .allowService then s.boundKey o else none
                    event := if k = .allowEvent then (s.currentEvent o).map (·.id) else none })))))

/-- R166, R167: OPEN_PIN_ENTRY is refused in LOCKOUT and while an entry is in progress; a SESSION or GRANT
under authority completes at once, and otherwise the entry begins and ROUTE_KEYS is queued; a PIN_CHANGE needs
authority and always begins. The fields that a beginning entry does not fill yet, the last-key stamp among
them, hold zero (the model's choice, log 33). That the result data of a push end with its origin is the
model's choice (log 52). -/
def Obligations.PinEntriesAreOpened : Prop :=
  ∀ s : State, RingReady s → s.panel.queue.length < 4 →
    (∀ i : Instr, (i = .openSessionEntry ∨ i = .openPinChangeEntry
        ∨ ∃ o p k m ok sc d sec, i = .openGrantEntry o p k m ok sc d sec) →
      (s.pin.matcher = .lockout → Refuses i .lockedOut s)
      ∧ (s.pin.matcher = .routing ∨ s.pin.matcher = .collecting ∨ s.pin.matcher = .releasing →
          Refuses i .busy s))
    ∧ (s.pin.matcher = .idle →
      (authority s = true →
        ∃ t, EndsFreely .openSessionEntry (.done .doneOk []) ([.session, .sessionRemaining] ++ lit) s t
          ∧ t.pin.sessionOpen = true ∧ t.pin.sessionRemaining = s.pin.sessionLength)
      ∧ (authority s = false →
        ∃ t, EndsFreely .openSessionEntry .long beginParts s t ∧ t.pin.matcher = .routing
          ∧ t.pin.entry = begunEntry .session none s
          ∧ t.panel.queue = s.panel.queue ++ [.routeKeys 90])
      ∧ (authority s = false → Refuses .openPinChangeEntry .notAuthorised s)
      ∧ (authority s = true →
        ∃ t, EndsFreely .openPinChangeEntry .long beginParts s t ∧ t.pin.matcher = .routing
          ∧ t.pin.entry = begunEntry .pinChange none s
          ∧ t.panel.queue = s.panel.queue ++ [.routeKeys 90])
      ∧ ∀ (i : Instr) (o p stagedKind : Byte) (m : Half) (kind scope : Byte) (day : Half) (second : Word),
        i = .openGrantEntry o p stagedKind m kind scope day second →
        (∀ e, checkStaged o p stagedKind m kind scope day second s = .error e → Refuses i e s)
        ∧ ∀ a, checkStaged o p stagedKind m kind scope day second s = .ok a →
          (authority s = false →
            ∃ t, EndsFreely i .long beginParts s t ∧ t.pin.matcher = .routing
              ∧ t.pin.entry = begunEntry .grant (some a) s
              ∧ t.panel.queue = s.panel.queue ++ [.routeKeys 90])
          ∧ (authority s = true →
            (∀ n m clamped, a = .grant n m clamped →
              ∃ t, EndsFreely i
                  (.done (doneOr clamped) (nat32 (t.profile n).remaining ++ nat16 (t.profile n).granted))
                  (.profile n :: allJudged) s t
                ∧ t.profile n = grantedAccount (s.profile n) m
                ∧ ((s.profile n).allowance.isSome = true → (s.profile n).remaining = 0 →
                    BoundUpToDate n t))
            ∧ ∀ q, a = .push q →
              ∃ t, EndsFreely i (.done (doneOr q.clamped) (nat8 ((s.context q.output).stack.length + 1)
                    ++ (match q.endTime with
                      | some u => localField u
                      | none => [])
                    ++ nat8 1))
                  (.stack q.output :: judgedParts q.output) s t
                ∧ (t.context q.output).stack
                  = ⟨q.kind, q.scope, q.key, q.event, q.endTime, .live, .staged⟩ :: (s.context q.output).stack
                ∧ UpToDate t q.output))

/-- R174: CLOSE_SESSION closes an open session, with its notice and no seconds left (the model's choice, log
33), and changes nothing where none is open;
SET_SESSION_LENGTH clamps and writes the length, and an open session runs the new length. -/
def Obligations.SessionsAreClosedAndMeasured : Prop :=
  ∀ s : State,
    (RingReady s → s.pin.sessionOpen = true →
      ∃ t, EndsFreely .closeSession (.done .doneOk []) sessionParts s t
        ∧ t.pin.sessionOpen = false ∧ t.pin.sessionRemaining = 0 ∧ Noted .sessionClosed 0 t)
    ∧ (RingReady s → s.pin.sessionOpen = false →
      ∃ t, EndsFreely .closeSession (.done .doneOk []) [] s t)
    ∧ ∀ n : Half, Ready (.setSessionLength n) s →
      ∃ t, EndsFreely (.setSessionLength n) (.done (doneOr (decide (n.toNat < 60 ∨ 1800 < n.toNat))) [])
          [.sessionLength, .sessionRemaining] s t
        ∧ t.pin.sessionLength = max 60 (min 1800 n.toNat)
        ∧ t.pin.sessionRemaining
          = if s.pin.sessionOpen = true then t.pin.sessionLength else s.pin.sessionRemaining

/-- R176 with R10, R46, R88, R105, R114, R136, R140, R160: FACTORY_CLEAR under authority takes every retained
item to its cold value but run seconds, closes the session, ends an entry as CANCELLED and a lockout, and
makes the result of an image operation CANCELLED. That pending-since, which R46 does not name, is among the
items cleared is read from R24 and R176 (log 46). -/
def Obligations.FactoryClearTakesTheColdValues : Prop :=
  ∀ s : State, RingReady s → authority s = true →
    ∃ t, exec .factoryClear s = .next t
      ∧ Frame (ringParts s ++ clearingParts) s t
      ∧ t.slot s.command.pointer
        = ⟨!(s.slot s.command.pointer).expected, .taken, none,
            ⟨.done, 0x48, (s.slot s.command.pointer).expected, .doneOk, []⟩⟩
      ∧ t.command.pointer = s.command.pointer + 1
      ∧ (∀ n, n ≠ s.command.pointer →
          t.slot n = { s.slot n with
            result :=
              match s.image.operation with
              | .exporting _ q _ | .importing _ q _ =>
                  if q = n then { (s.slot n).result with state := .done, outcome := .cancelled, data := [] }
                  else (s.slot n).result
              | .idle => (s.slot n).result })
      ∧ (∀ o k, t.window o k = ⟨false, 0, 0, 0⟩) ∧ t.lanes.layout = .opened ∧ ProfilesCold t
      ∧ (∀ o, (t.context o).profile = none ∧ (t.context o).stack = [] ∧ (t.context o).pendingSince = 0
          ∧ (t.context o).verdict = .unsupervised ∧ (t.context o).reason = .none)
      ∧ (∀ (m : Fin 8) (v : Fin 16), t.rating.schemes[m][v] = none)
      ∧ t.time = ⟨s.time.run, .unset, 0, 0, 0, 240, none⟩
      ∧ (∀ w, t.sectionWindow w = ⟨false, 0, 0, .unset⟩)
      ∧ t.intake.haltLevel = 6 ∧ t.intake.resumeLevel = 2
      ∧ t.intake.flow = (if s.intake.queue.length < 6 then .flowing else .halted)
      ∧ (6 ≤ s.intake.queue.length → Noted .intakeShed 0xFF t)
      ∧ t.panel.listenerAddress = 0x5A ∧ t.panel.panelAddress = 0x01
      ∧ t.pin.stored = none ∧ t.pin.failures = 0 ∧ t.pin.step = 0 ∧ t.pin.sessionLength = 300
      ∧ t.pin.sessionOpen = false ∧ (s.pin.sessionOpen = true → Noted .sessionClosed 0 t)
      ∧ (s.pin.matcher = .idle ∨ s.pin.matcher = .lockout → t.pin.matcher = .idle)
      ∧ (s.pin.matcher = .routing ∨ s.pin.matcher = .collecting →
          t.pin.matcher = .releasing ∧ t.pin.entry.outcome = .cancelled ∧ t.panel.fifo = [])
      ∧ (s.pin.matcher = .releasing → t.pin.matcher = .releasing ∧ t.pin.entry = s.pin.entry)

/-- R180, R183, R184, R186: the null command has no effect; SELECT_VIEW, SET_NOTICE_MASK and SET_ATTENTION
refuse or clamp their operands and write the selection, the masks, the levels and the attention line. -/
def Obligations.ReportCommandsWriteTheirRegisters : Prop :=
  ∀ s : State, RingReady s →
    (∃ t, Ends .nullCommand (.done .doneOk []) [] s t)
    ∧ (∀ (i : Instr) (kind number : Byte) (network stream service : Half),
      i = .selectView kind number network stream service →
      (9 < kind.toNat ∨ (kind = 1 ∧ 7 < number.toNat) ∨ (kind = 2 ∧ 2 < number.toNat)
          ∨ (kind = 3 ∧ 63 < number.toNat) ∨ (kind = 8 ∧ 8 < number.toNat) → Refuses i .badField s)
      ∧ (kind.toNat ≤ 9 → (kind = 1 → number.toNat ≤ 7) → (kind = 2 → number.toNat ≤ 2) →
          (kind = 3 → number.toNat ≤ 63) → (kind = 8 → number.toNat ≤ 8) →
        ∃ t, Ends i (.done .doneOk []) [.view] s t
          ∧ (viewCode t.report.view).1 = kind.toNat
          ∧ (kind = 1 ∨ kind = 2 ∨ kind = 3 ∨ kind = 8 → (viewCode t.report.view).2 = number.toNat)
          ∧ (kind = 4 → t.report.view = .ratingKey ⟨network, stream, service⟩)))
    ∧ (∀ mask : Word,
      (mask &&& 0xFFF80001 ≠ 0 → Refuses (.setNoticeMask mask) .badField s)
      ∧ (mask &&& 0xFFF80001 = 0 →
        ∃ t, Ends (.setNoticeMask mask) (.done .doneOk []) [.masks] s t ∧ t.report.masks = mask))
    ∧ ∀ level urgent : Byte,
      ∃ t, Ends (.setAttention level urgent)
          (.done (doneOr (decide (level = 0 ∨ 32 < level.toNat ∨ 6 < urgent.toNat))) [])
          [.attentionLevels, .notices] s t
        ∧ t.report.level = max 1 (min 32 level.toNat) ∧ t.report.urgent = min 6 urgent.toNat
        ∧ t.report.queue = s.report.queue
        ∧ (t.report.attention = true ↔ t.report.level ≤ t.report.queue.length
            ∨ ∃ n ∈ t.report.queue, t.report.urgent ≤ noticeClass n.kind)

/-- R184, R186: what the raising of a notice does: where its kind is masked, its sticky flag is set and
nothing else; else it is coalesced into a queued notice of its kind and subject, which keeps its place and its
stamp; else it is queued at the end with count 1 and the run seconds of the raising; else, at 32, it is
dropped and the lost flag set. The attention line is judged at a queuing and a coalescing. While the reset
input is asserted a notice is lost. A break, for one, raises PANEL_BREAK so. -/
def Obligations.NoticesAreRaised : Prop :=
  ∀ (kind : NoticeKind) (subject : Nat) (detail : List Byte) (s t : State), t = raise kind subject detail s →
    (s.systemReset = true → t = s)
    ∧ (Running s →
      Frame raised s t
      ∧ (s.report.masks.getLsbD (noticeKindCode kind) = true →
          t.report = { s.report with sticky := s.report.sticky ||| (1#32 <<< noticeKindCode kind) })
      ∧ (s.report.masks.getLsbD (noticeKindCode kind) = false →
        (∀ before n after, s.report.queue = before ++ n :: after → n.kind = kind →
            n.subject = BitVec.ofNat 32 subject →
            (∀ m ∈ before ++ after, ¬ (m.kind = kind ∧ m.subject = BitVec.ofNat 32 subject)) →
          ∃ line, t.report = { s.report with
              queue := before ++ ⟨kind, BitVec.ofNat 32 subject, detail, n.stamp, min 255 (n.count + 1)⟩ :: after
              attention := line })
        ∧ ((∀ m ∈ s.report.queue, ¬ (m.kind = kind ∧ m.subject = BitVec.ofNat 32 subject)) →
          (s.report.queue.length < 32 →
            ∃ line, t.report = { s.report with
              queue := s.report.queue ++ [⟨kind, BitVec.ofNat 32 subject, detail, s.time.run, 1⟩]
              attention := line })
          ∧ (32 ≤ s.report.queue.length → t.report = { s.report with lost := true }))
        ∧ ((∃ m ∈ s.report.queue, m.kind = kind ∧ m.subject = BitVec.ofNat 32 subject)
              ∨ s.report.queue.length < 32 →
            (t.report.attention = true ↔ t.report.level ≤ t.report.queue.length
              ∨ ∃ n ∈ t.report.queue, t.report.urgent ≤ noticeClass n.kind)))
      ∧ (s.panel.listener ≠ .fault →
          exec .lineBreak s
            = .next (raise .panelBreak 0 []
                { s with panel := { s.panel with listener := .fault, awaited := none } })))

/-! ### The intake's parser and the work of seconds (chapters 6 to 8) -/

/-- R120 to R122: a body of code 0xC1 that is laid out as R120 gives, with legal entries, is read as its key,
its version and the events of its entries, each with the class, flags and genre that R121 derives from its
descriptors; no other body is read. A body of code 0xC2 is a day and a second of that day; one of code 0xC3 is
an offset, clamped. -/
def Obligations.SectionBodiesAreRead : Prop :=
  (∀ schemes key version flags present following, SectionLegal version flags present following →
    ∃ d, readService schemes (sectionBody key version flags present following) = some d
      ∧ d.key = key ∧ d.version = version.toNat
      ∧ HandedOn schemes present d.present ∧ HandedOn schemes following d.following)
  ∧ (∀ schemes body d, readService schemes body = some d →
    ∃ version flags present following, SectionLegal version flags present following
      ∧ body = sectionBody d.key version flags present following)
  ∧ (∀ body day second, readTime body = some (day, second) ↔
    ∃ (d : Half) (x : Word), body = bytes16 d ++ bytes32 x ∧ x.toNat ≤ 86399 ∧ day = d.toNat
      ∧ second = x.toNat)
  ∧ ∀ body offset, readOffset body = some offset ↔
    ∃ x : Word, body = bytes32 x ∧ offset = max (-780) (min 840 x.toInt)

/-- R37, R99, R116, R118 to R122, R126 to R129, R142, R145: PARSE_COMPLETION applies the oldest record's
effect (none for an unknown code or a declared key, INTAKE_FORMAT for a malformed body), takes the record from
the queue, makes the resume test and begins the next parse; without a parse it changes nothing (log 11). A new
version of a section installs its events in the key's entry; another present event id is an event change, and
the loss of the current event sets pending-since. That a malformed body is noted whatever its key is read by
inference (log 18); the evaluations of a differing offset while time is UNSET are so too (log 44); a setting
of time spends the ends that the time before it has reached (log 7). -/
def Obligations.ParseAppliesTheOldestRecord : Prop :=
  ∀ s : State, Running s →
    (s.intake.parsing = false ∨ s.intake.queue = [] → exec .parseCompletion s = .next s)
    ∧ ∀ r rest base, s.intake.parsing = true → s.intake.queue = r :: rest →
      base = [.intakeQueue, .flow] ++ everySection →
      ∃ t, exec .parseCompletion s = .next t
        ∧ t.intake.queue = rest ∧ t.intake.parsing = !rest.isEmpty
        ∧ (s.intake.flow = .halted → rest.length ≤ s.intake.resumeLevel →
            t.intake.flow = .flowing
            ∧ ∀ w, t.sectionWindow w = { s.sectionWindow w with
                context := if (s.sectionWindow w).context = .shed then .seeking none
                  else (s.sectionWindow w).context })
        ∧ (s.intake.flow = .flowing ∨ s.intake.resumeLevel < rest.length →
            t.intake.flow = s.intake.flow ∧ ∀ w, t.sectionWindow w = s.sectionWindow w)
        ∧ (r.code ≠ 0xC1 → r.code ≠ 0xC2 → r.code ≠ 0xC3 → Frame base s t)
        ∧ ((r.code = 0xC1 ∧ readService s.rating.schemes r.body = none)
            ∨ (r.code = 0xC2 ∧ readTime r.body = none) ∨ (r.code = 0xC3 ∧ readOffset r.body = none) →
            Noted .intakeFormat r.window.val t ∧ Frame (base ++ raised) s t)
        ∧ (∀ day second, r.code = 0xC2 → readTime r.body = some (day, second) →
            (s.time.source = .broadcast → apart s.time.wallCount (day * 86400 + second) ≤ 2 → Frame base s t)
            ∧ (s.time.source ≠ .broadcast ∨ 2 < apart s.time.wallCount (day * 86400 + second) →
                t.time.source = .broadcast ∧ t.time.day = day ∧ t.time.second = second
                ∧ t.time.profileDay = some (max (s.time.profileDay.getD 0) t.time.computedDay)
                ∧ EndsMet s t ∧ SupervisedUpToDate t ∧ Frame (base ++ settingParts) s t))
        ∧ (∀ offset, r.code = 0xC3 → readOffset r.body = some offset →
            t.time.offset = offset ∧ (s.time.offset = offset → Frame base s t)
            ∧ (s.time.offset ≠ offset →
                t.time.profileDay = dayAfter { s.time with offset := offset }
                ∧ (s.time.source ≠ .unset → EndsMet s t)
                ∧ (s.time.source = .unset → ∀ o, (t.context o).stack = (s.context o).stack)
                ∧ SupervisedUpToDate t ∧ Frame (base ++ settingParts) s t))
        ∧ ∀ d, r.code = 0xC1 → readService s.rating.schemes r.body = some d →
            (d.key.network = 0xFFFF → Frame base s t)
            ∧ (d.key.network ≠ 0xFFFF → RatingLaw s →
                ∃ n e, t.entry n = some e ∧ e.key = d.key ∧ e.lastTouch = s.time.run
                  ∧ e.version = some d.version
                  ∧ Frame (base ++ .entry n :: consequenceParts) s t
                  ∧ PlacedAt s d.key n
                  ∧ ((∀ m f, s.entry m = some f → f.key ≠ d.key) →
                      e.bindCount = 0 ∧ e.lastId = d.present.map (·.id))
                  ∧ ((∀ f, s.entry n = some f → f.key = d.key → f.version ≠ some d.version) →
                      e.following = d.following
                      ∧ e.present = (match d.present with
                        | some p => .current p
                        | none => .none))
                  ∧ ∀ f, s.entry n = some f → f.key = d.key →
                      (f.version = some d.version → e = { f with lastTouch := s.time.run }
                        ∧ Frame (base ++ [.entry n]) s t)
                      ∧ (f.present.currentEvent.map (·.rating) ≠ e.present.currentEvent.map (·.rating) →
                          ∀ o, (t.context o).service = some n → UpToDate t o)
                      ∧ (f.version ≠ some d.version →
                        e.bindCount = f.bindCount
                        ∧ (d.present = none → e.lastId = f.lastId)
                        ∧ (∀ p, d.present = some p → e.lastId = some p.id
                          ∧ ∀ old, f.lastId = some old → old ≠ p.id →
                            (0 < f.bindCount → Noted .eventChange n.val t)
                            ∧ ∀ o, (s.context o).service = some n →
                                SpentIn (fun x => decide (x.scope = .eventEnd))
                                  (s.context o).stack (t.context o).stack
                                ∧ UpToDate t o)
                        ∧ ((∀ p old, d.present = some p → f.lastId = some old → old = p.id) →
                            ∀ o, (t.context o).stack = (s.context o).stack)
                        ∧ ∀ o, (t.context o).pendingSince
                            = if (s.context o).service = some n ∧ d.present = none
                                ∧ f.present.currentEvent.isSome = true then s.time.run
                              else (s.context o).pendingSince))

/-- R53, R139, R141, R150, R173, R174: at a second event with no work left over from the one before (log 7),
run seconds and wall time advance, the profile day is compared, the sample clears the activity flags, and
the timers fall; taken in the plain order, each account is settled where the profile day rose and then
charged by the sample, and with the reset input released every supervised output then holds what an evaluation
decides. -/
def Obligations.SecondEventAdvancesTime : Prop :=
  ∀ (order : List SecondWork) (s : State), finishSecond s = s →
    ∃ t, exec (.secondEvent order) s = .next t
      ∧ Frame secondParts s t
      ∧ t.time.run = min 4294967295 (s.time.run + 1)
      ∧ (t.time.day, t.time.second)
        = (if s.time.source = .unset then (s.time.day, s.time.second)
          else if s.time.second < 86399 then (s.time.day, s.time.second + 1)
          else if s.time.day < 65535 then (s.time.day + 1, 0) else (s.time.day, s.time.second))
      ∧ t.time.source = s.time.source
      ∧ t.time.profileDay = dayAfter { t.time with profileDay := s.time.profileDay }
      ∧ (∀ o, t.lanes.activity.get o = false)
      ∧ (order = [] →
          t.pin.timer = (if s.pin.matcher = .lockout then s.pin.timer - 1 else s.pin.timer)
          ∧ t.pin.sessionRemaining
            = (if s.pin.sessionOpen = true then s.pin.sessionRemaining - 1 else s.pin.sessionRemaining)
          ∧ t.rating.promotionDue = (if s.time.source = .unset then [] else List.finRange 64)
          ∧ (∀ n, (compareDay (tick s)).profile n
              = (if t.time.profileDay = s.time.profileDay then s.profile n
                else settledAccount (s.profile n) (t.time.profileDay.getD 0))
            ∧ t.profile n = (sample (compareDay (tick s))).profile n)
          ∧ (Running s → SupervisedUpToDate t))

/-- R53 to R55: the sample charges each ACTIVE slot whose watching set is not empty with the greatest content
rate among it, once, charges no other slot, clears the three flags, and evaluates the slot's outputs where
the charge exhausts the account. R57: the settlement of a slot against a profile day follows the table of its
state and its B; R58: the rollover carries at most K minutes, adds the allowance once and begins the day (an
unlimited account keeps R, log 48); R59: it is told by a ROLLOVER notice and evaluates the slot's outputs. -/
def Obligations.AccountsAreChargedAndSettled : Prop :=
  (∀ (s : State) (n : Fin 8) (watched : List Output),
    watched = allOutputs.filter (fun o =>
      decide ((s.context o).profile = some n)
        && decide ((s.context o).verdict = .opened ∨ (s.context o).verdict = .warning)
        && s.lanes.activity.get o) →
    (∀ o, (sample s).lanes.activity.get o = false)
    ∧ ((s.profile n).state ≠ .active ∨ watched = [] → (sample s).profile n = s.profile n)
    ∧ ∀ r, (s.profile n).state = .active →
        (∃ o ∈ watched, contentRate (s.profile n) (s.currentEvent o) = r) →
        (∀ o ∈ watched, contentRate (s.profile n) (s.currentEvent o) ≤ r) →
        (sample s).profile n
          = { s.profile n with
              charged := min 345600 ((s.profile n).charged + r)
              remaining := if (s.profile n).allowance.isSome = true then (s.profile n).remaining - r
                else (s.profile n).remaining }
        ∧ (ProfileLaw s → r ≤ 8)
        ∧ ((s.profile n).allowance.isSome = true → 0 < (s.profile n).remaining →
            (s.profile n).remaining ≤ r → Running s →
            Noted .budgetExhausted n.val (sample s) ∧ BoundUpToDate n (sample s)))
  ∧ ∀ (s : State) (n : Fin 8) (day : Nat),
    (settleAll day s).profile n = settledAccount (s.profile n) day
    ∧ ((s.profile n).state = .active → (∃ b, (s.profile n).budgetDay = some b ∧ b < day) → Running s →
        Noted .rollover n.val (settleAll day s) ∧ BoundUpToDate n (settleAll day s))
    ∧ ((∀ m, (s.profile m).state = .active → ∀ b, (s.profile m).budgetDay = some b → day ≤ b) →
        Frame everyProfile s (settleAll day s))

/-- R131, R132: PROMOTION tests one BROADCAST entry once at a second event, while time is set: a following
event that has started becomes present where the present event is over, ended or absent; a present event that
is over, with none to follow it, becomes ENDED and its outputs wait from then; an event change is noted and
spends EVENT_END entries. The list of tests due (log 7), the wall count held for them (log 8) and that a test
not due changes nothing (log 11) are the model's. -/
def Obligations.PromotionMovesEvents : Prop :=
  ∀ (s : State) (n : Fin 64) (wall : Nat), Running s → wall = s.rating.promotionWall →
    (n ∉ s.rating.promotionDue → exec (.promotion n) s = .next s)
    ∧ (n ∈ s.rating.promotionDue → ∃ t, exec (.promotion n) s = .next t
        ∧ n ∉ t.rating.promotionDue ∧ Frame (.promotions :: .entry n :: consequenceParts) s t
        ∧ (s.time.source = .unset → Frame [.promotions] s t)
        ∧ ∀ e, s.entry n = some e → s.time.source ≠ .unset →
          (e.source = .declared → Frame [.promotions] s t)
          ∧ (e.source = .broadcast →
            (∀ f, e.following = some f → f.start ≤ wall →
              ((∃ p, e.present = .current p ∧ p.over wall = true) ∨ (∀ p, e.present ≠ .current p)) →
              t.entry n = some { e with present := .current f, following := none, lastId := some f.id }
              ∧ ∀ old, e.lastId = some old → old ≠ f.id →
                  (0 < e.bindCount → Noted .eventChange n.val t)
                  ∧ ∀ o, (s.context o).service = some n →
                      SpentIn (fun e => decide (e.scope = .eventEnd)) (s.context o).stack (t.context o).stack
                      ∧ UpToDate t o)
            ∧ (∀ p, e.present = .current p → p.over wall = true →
                (∀ f, e.following = some f → wall < f.start) →
                t.entry n = some { e with present := .ended p }
                ∧ ∀ o, (s.context o).service = some n →
                    (t.context o).pendingSince = s.time.run ∧ UpToDate t o)
            ∧ (∀ p, e.present = .current p → p.over wall = false → Frame [.promotions] s t)
            ∧ ((∀ p, e.present ≠ .current p) → (∀ f, e.following = some f → wall < f.start) →
                Frame [.promotions] s t)))

/-- R36, R99, R172 to R174: what runs out at a second event: the reached UNTIL_TIME entries of an output, the
pending limit of an output, the session, the lockout, and the limits of an entry; where none has run out
nothing changes (log 11). -/
def Obligations.TimersRunOut : Prop :=
  ∀ s : State, Running s →
    (∀ o, (s.time.source ≠ .unset → (∃ e ∈ (s.context o).stack, e.reached s.time.localSeconds = true) →
          ∃ t, exec (.untilTimeExpiry o) s = .next t
            ∧ SpentIn (fun e => e.reached s.time.localSeconds) (s.context o).stack (t.context o).stack
            ∧ UpToDate t o ∧ Frame (.stack o :: judgedParts o) s t)
      ∧ (s.time.source = .unset ∨ (∀ e ∈ (s.context o).stack, e.reached s.time.localSeconds = false) →
          exec (.untilTimeExpiry o) s = .next s))
    ∧ (∀ o n, (s.context o).profile = some n →
        ((s.context o).verdict = .pending →
          (s.profile n).pendingLimit ≤ s.time.run - (s.context o).pendingSince →
          ∃ t, exec (.pendingLimitExpiry o) s = .next t ∧ UpToDate t o ∧ (t.context o).verdict ≠ .pending
            ∧ Frame (judgedParts o) s t)
        ∧ ((s.context o).verdict ≠ .pending
              ∨ s.time.run - (s.context o).pendingSince < (s.profile n).pendingLimit →
            exec (.pendingLimitExpiry o) s = .next s))
    ∧ (s.pin.sessionOpen = true → s.pin.sessionRemaining = 0 →
        ∃ t, exec .sessionExpiry s = .next t ∧ t.pin.sessionOpen = false ∧ Noted .sessionClosed 0 t
          ∧ Frame sessionParts s t)
    ∧ (s.pin.sessionOpen = false ∨ 0 < s.pin.sessionRemaining → exec .sessionExpiry s = .next s)
    ∧ (s.pin.matcher = .lockout → s.pin.timer = 0 →
        ∃ t, exec .lockoutExpiry s = .next t ∧ t.pin.matcher = .idle ∧ Frame [.matcher] s t)
    ∧ (s.pin.matcher ≠ .lockout ∨ 0 < s.pin.timer → exec .lockoutExpiry s = .next s)
    ∧ (s.panel.queue.length < 4 →
        ((s.pin.matcher = .routing ∨ s.pin.matcher = .collecting) →
          90 ≤ s.time.run - s.pin.entry.takeStamp →
          ∃ t, exec .wholeEntryLimit s = .next t ∧ Ending .timedOut t ∧ Frame endingParts s t)
        ∧ (s.pin.matcher = .collecting → 15 ≤ s.time.run - s.pin.entry.lastKeyStamp →
          ∃ t, exec .interKeyLimit s = .next t ∧ Ending .timedOut t ∧ Frame endingParts s t))
    ∧ ((s.pin.matcher ≠ .routing ∧ s.pin.matcher ≠ .collecting)
          ∨ s.time.run - s.pin.entry.takeStamp < 90 → exec .wholeEntryLimit s = .next s)
    ∧ (s.pin.matcher ≠ .collecting ∨ s.time.run - s.pin.entry.lastKeyStamp < 15 →
        exec .interKeyLimit s = .next s)

/-! ### The panel link and the PIN authority (chapters 9 and 10) -/

/-- R153, R154: a sender shapes a frame with its start bit low, the data bits from the least significant, the
address flag, a parity bit that makes the ones even in number, and the stop bit high; sampled without noise it
is received with its byte and its address flag and no error flag. Each bit is decided by at least two of its
three samples, a start bit decided high is no frame, and the flags NOISE, PARITY and FRAMING are as R154 gives
them. -/
def Obligations.FramesAreReceivedAsSent : Prop :=
  (∀ (value : Byte) (address : Bool) (bits : List Bool), bits = (lineFrame value address).toList →
    bits.length = 12 ∧ bits[0]? = some false ∧ (∀ i, i < 8 → bits[i + 1]? = some (value.getLsbD i))
    ∧ bits[9]? = some address ∧ ((bits.drop 1).take 10).count true % 2 = 0 ∧ bits[11]? = some true)
  ∧ (∀ (value : Byte) (address : Bool),
    (lineFrame value address).sampled.received = some ⟨value, address, ⟨false, false, false⟩⟩)
  ∧ (∀ b : Samples, b.value = true ↔
      (b.first = true ∧ b.second = true) ∨ (b.first = true ∧ b.third = true)
        ∨ (b.second = true ∧ b.third = true))
  ∧ ∀ w : WireFrame,
      (w.start.value = true → w.received = none)
      ∧ (w.start.value = false → ∃ f, w.received = some f ∧ f.address = w.addressFlag.value
        ∧ (∀ i, i < 8 → ([w.d0, w.d1, w.d2, w.d3, w.d4, w.d5, w.d6, w.d7].map Samples.value)[i]?
            = some (f.value.getLsbD i))
        ∧ (f.flags.framing = true ↔ w.stop.value = false)
        ∧ (f.flags.noise = true ↔ ∃ b ∈ [w.start, w.d0, w.d1, w.d2, w.d3, w.d4, w.d5, w.d6, w.d7,
              w.addressFlag, w.parity, w.stop], ¬ (b.first = b.second ∧ b.second = b.third))
        ∧ (f.flags.parity = true ↔
            (([w.d0, w.d1, w.d2, w.d3, w.d4, w.d5, w.d6, w.d7, w.addressFlag, w.parity].map
              Samples.value).count true) % 2 = 1))

/-- R156 to R159: an address frame selects the listener state and discards an awaited answer; a key is put in
the FIFO while the matcher collects, and a full FIFO marks its newest entry; a frame that begins an answer is
held; a flagged data frame in ATTENDING_ALL is told by PANEL_NOISE and dropped, and other data frames are
dropped untold; each row is the arrival of its frame (log 30). -/
def Obligations.FramesAreTakenByTheListener : Prop :=
  ∀ (s : State) (w : WireFrame) (f : ReceivedFrame), Quiet s → w.received = some f →
    (f.address = true → s.panel.listener ≠ .fault →
      ∃ t, exec (.addressFrame w) s = .next t
        ∧ t.panel.listener = (if f.flags.any = true then .asleep
            else if f.value = s.panel.listenerAddress then .attendingOwn
            else if f.value = 0 then .attendingAll else .asleep)
        ∧ t.panel.awaited = none
        ∧ (f.flags.any = true → Noted .panelNoise 0 t)
        ∧ Frame (.listener :: (if f.flags.any = true then raised else [])) s t)
    ∧ (f.address = false → s.panel.listener = .attendingOwn → s.panel.awaited = none →
        f.flags.any = true ∨ (f.value.toNat < 0x80 ∧ f.value ≠ 0x4C) →
      ∃ t, exec (.keyFrame w) s = .next t
        ∧ (s.pin.matcher ≠ .collecting → t.panel.fifo = s.panel.fifo)
        ∧ (s.pin.matcher = .collecting → s.panel.fifo.length < 16 →
            t.panel.fifo = s.panel.fifo ++ [⟨f.value, f.flags, false⟩])
        ∧ (s.pin.matcher = .collecting → ∀ older k, s.panel.fifo = older ++ [k] → 15 ≤ older.length →
            t.panel.fifo = older ++ [{ k with overrun := true }])
        ∧ (f.flags.any = true → Noted .panelNoise 0 t)
        ∧ Frame (.keyFifo :: (if f.flags.any = true then raised else [])) s t)
    ∧ (f.address = false → s.panel.listener = .attendingOwn → s.panel.awaited = none →
        f.flags.any = false → f.value = 0xF1 ∨ f.value = 0xF2 →
      ∃ t, exec (.answerAwaitingEcho w) s = .next t
        ∧ t.panel.awaited = some (if f.value = 0xF1 then .acknowledgement else .refusal)
        ∧ t.panel.listener = .attendingOwn ∧ Frame [.listener] s t)
    ∧ (f.address = false → s.panel.listener = .attendingAll → f.flags.any = true →
      ∃ t, exec (.dataFrameDropped w) s = .next t ∧ Noted .panelNoise 0 t ∧ Frame raised s t)
    ∧ (f.address = false →
        (s.panel.listener = .asleep ∨ s.panel.listener = .fault
          ∨ (s.panel.listener = .attendingAll ∧ f.flags.any = false ∧ f.value ≠ 0x4C)
          ∨ (s.panel.listener = .attendingOwn ∧ s.panel.awaited = none ∧ f.flags.any = false
            ∧ 0x80 ≤ f.value.toNat ∧ f.value ≠ 0xF1 ∧ f.value ≠ 0xF2)) →
      exec (.dataFrameDropped w) s = .next s)

/-- R157, R163, R164, R168: the echo byte of an awaited answer ends the message outstanding where it equals
its command byte; the wait's end ends it by timeout; the outcome of ROUTE_KEYS and RELEASE_KEYS moves the
matcher, and a failed LAMP makes the record UNKNOWN where no LAMP is queued. An answer whose echo byte carries
an error flag is discarded; one whose echo byte differs from that command byte, or that arrives while no
message is awaiting, is dropped. -/
def Obligations.MessagesEndByAnswerOrTimeout : Prop :=
  (∀ (s : State) (i : Instr) (m : Message) (ending : MessageEnd), Quiet s →
    s.panel.transmitter = .awaiting → s.panel.outstanding = some m →
    ((i = .acknowledgementTimeout ∧ ending = .timeout)
      ∨ ∃ w f, i = .panelAnswer w ∧ w.received = some f ∧ f.address = false ∧ f.flags.any = false
          ∧ f.value = messageCommand m ∧ s.panel.listener = .attendingOwn
          ∧ ((s.panel.awaited = some .acknowledgement ∧ ending = .succeeded)
            ∨ (s.panel.awaited = some .refusal ∧ ending = .refused))) →
    ∃ t, exec i s = .next t ∧ t.panel.transmitter = .idle ∧ t.panel.outstanding = none
      ∧ (i ≠ .acknowledgementTimeout → t.panel.awaited = none)
      ∧ t.panel.listener = s.panel.listener
      ∧ Frame (.listener :: messageEndParts s) s t
      ∧ (∀ timeout, m = .routeKeys timeout →
          (s.pin.matcher = .routing → ending = .succeeded →
            t.pin.matcher = .collecting ∧ t.pin.entry = { s.pin.entry with lastKeyStamp := s.time.run })
          ∧ (s.pin.matcher = .routing → ending ≠ .succeeded → s.panel.queue.length < 4 →
            Ending (if ending = .refused then .panelRefused else .panelSilent) t)
          ∧ (s.pin.matcher ≠ .routing → Frame [.listener, .transmitter] s t))
      ∧ (m = .releaseKeys →
          (ending ≠ .succeeded → Noted .panelSilent 0 t)
          ∧ (s.pin.matcher = .releasing →
            t.pin.matcher = (if s.pin.entry.outcome = .lockedOut then .lockout else .idle)
            ∧ t.slot s.pin.entry.slot
              = { s.slot s.pin.entry.slot with
                  result := { (s.slot s.pin.entry.slot).result with
                    state := .done, outcome := s.pin.entry.outcome, data := s.pin.entry.outcomeData } }
            ∧ Noted .entryEnded 0 t)
          ∧ (s.pin.matcher ≠ .releasing → t.pin = s.pin))
      ∧ (∀ l, m = .lamp l →
          (ending = .succeeded → Frame [.listener, .transmitter] s t)
          ∧ (ending ≠ .succeeded → Noted .panelSilent 0 t
            ∧ t.panel.lampRecord
              = if s.panel.queue.any Message.isLamp = true then s.panel.lampRecord else none)))
  ∧ ∀ (s : State) (w : WireFrame) (f : ReceivedFrame) (a : Answer), Quiet s → w.received = some f →
    f.address = false → s.panel.listener = .attendingOwn → s.panel.awaited = some a →
    (f.flags.any = false →
        (s.panel.transmitter ≠ .awaiting ∨ ∀ m, s.panel.outstanding = some m → f.value ≠ messageCommand m) →
      exec (.panelAnswer w) s = .next { s with panel := { s.panel with awaited := none } })
    ∧ (f.flags.any = true →
      ∃ t, exec (.panelAnswer w) s = .next t ∧ t.panel.awaited = none
        ∧ t.panel.listener = .attendingOwn ∧ Noted .panelNoise 0 t
        ∧ Frame (.listener :: raised) s t)

/-- R155, R158, R175: a LOCK taken in ATTENDING_OWN (with no answer awaited) or in ATTENDING_ALL raises
LOCK_KEY, closes an open session and ends an entry in ROUTING or COLLECTING as CANCELLED; a break takes the
receiver to FAULT once, discarding an awaited answer, and the line's recovery takes it to ASLEEP. That a
session closed by LOCK has no seconds left (log 33) and that a recovery outside FAULT changes nothing (log 11)
is the model's choice. -/
def Obligations.LocksAndBreaks : Prop :=
  ∀ s : State,
    (∀ (w : WireFrame), Quiet s →
      w.received = some ⟨0x4C, false, ⟨false, false, false⟩⟩ →
      (s.panel.listener = .attendingOwn ∧ s.panel.awaited = none) ∨ s.panel.listener = .attendingAll →
      ∃ t, exec (.lock w) s = .next t ∧ Noted .lockKey 0 t ∧ t.pin.sessionOpen = false
        ∧ (s.pin.sessionOpen = true → Noted .sessionClosed 0 t ∧ t.pin.sessionRemaining = 0)
        ∧ (s.pin.matcher = .routing ∨ s.pin.matcher = .collecting →
            t.pin.matcher = .releasing ∧ t.pin.entry.outcome = .cancelled ∧ t.pin.entry.staged = none
            ∧ t.panel.fifo = [])
        ∧ (s.pin.matcher ≠ .routing → s.pin.matcher ≠ .collecting →
            t.pin.matcher = s.pin.matcher ∧ t.pin.entry = s.pin.entry ∧ t.pin.timer = s.pin.timer)
        ∧ Frame lockParts s t)
    ∧ (Running s → s.panel.listener ≠ .fault →
        ∃ t, exec .lineBreak s = .next t ∧ t.panel.listener = .fault ∧ t.panel.awaited = none
          ∧ Noted .panelBreak 0 t ∧ Frame (.listener :: raised) s t)
    ∧ (Running s → s.panel.listener = .fault → exec .lineBreak s = .next s
        ∧ exec .faultRecovery s = .next { s with panel := { s.panel with listener := .asleep } })
    ∧ (Running s → s.panel.listener ≠ .fault → exec .faultRecovery s = .next s)

/-- R153, R161, R162: an idle transmitter takes the oldest message, which becomes outstanding, with the
address frame of the panel address as it then stands; when the third frame has left, the message's three
frames have been sent in their order, bit by bit, and the transmitter awaits the acknowledgement. That the
address frame stands in the shift stage till then and the three frames leave in one step is the model's choice
(log 31), and so are the record of what was sent (log 13) and that the row without its condition changes
nothing (log 11). -/
def Obligations.MessagesAreSent : Prop :=
  ∀ s : State, Running s →
    (∀ m rest, s.panel.transmitter = .idle → s.panel.queue = m :: rest →
      exec .transmitStart s
        = .next { s with panel := { s.panel with
            queue := rest, outstanding := some m, transmitter := .sending, holding := none
            shifting := some ⟨s.panel.panelAddress, true⟩ } })
    ∧ (s.panel.transmitter ≠ .idle ∨ s.panel.queue = [] → exec .transmitStart s = .next s)
    ∧ (∀ m address, s.panel.transmitter = .sending → s.panel.outstanding = some m →
        s.panel.shifting = some address →
      exec .messageSent s
        = .next { s with panel := { s.panel with
            transmitter := .awaiting, holding := none, shifting := none
            sent := s.panel.sent ++ [lineFrame address.value address.address,
              lineFrame (match m with
                | .routeKeys _ => 0x31
                | .releaseKeys => 0x32
                | .lamp _ => 0x33) false,
              lineFrame (match m with
                | .routeKeys timeout => timeout
                | .releaseKeys => 0
                | .lamp .off => 0
                | .lamp .on => 1
                | .lamp .flashing => 2) false] } })
    ∧ (s.panel.transmitter ≠ .sending → exec .messageSent s = .next s)

/-- R64, R103, R169 to R171, R174: in COLLECTING the oldest key is removed and acted on: a flagged key marks
damage, a digit is appended or marks the entry overlong, BACK and CANCEL act, and OK is judged: against the
stored PIN for a SESSION or GRANT, with the third mismatch beginning a lockout, and against the first
collection for a PIN_CHANGE. At a match a staged grant or push is checked again and executed; one that is
refused changes nothing. That a second collection which differs clears both marks too is read from the spec by
inference (log 26). That the result data of a push end with its origin is the model's choice (log 52). -/
def Obligations.KeysAreTaken : Prop :=
  ∀ (s : State) (k : Key) (rest : List Key) (e : PinEntry), Running s → s.pin.matcher = .collecting →
    s.panel.fifo = k :: rest → e = { s.pin.entry with lastKeyStamp := s.time.run } →
    s.panel.queue.length < 3 →
    ∃ t, exec .keyTaken s = .next t ∧ Frame keyParts s t
      ∧ (t.pin.matcher = .collecting → t.panel.fifo = rest)
      ∧ (t.pin.matcher ≠ .collecting → ∃ outcome, Ending outcome t)
      ∧ (k.flagged = true → t.pin.matcher = .collecting ∧ t.pin.entry = { e with damaged := true })
      ∧ (k.flagged = false →
        (∀ d : Digit, k.code.toNat = 0x30 + d.val →
          t.pin.matcher = .collecting
          ∧ t.pin.entry = if e.buffer.length < 8 then { e with buffer := e.buffer ++ [d] }
              else { e with overlong := true })
        ∧ (k.code = 0x08 → t.pin.matcher = .collecting ∧ t.pin.entry = { e with buffer := e.buffer.dropLast })
        ∧ (k.code = 0x1B → Ending .cancelled t ∧ t.pin.failures = s.pin.failures)
        ∧ (k.code ≠ 0x08 → k.code ≠ 0x1B → k.code ≠ 0x0D → (k.code.toNat < 0x30 ∨ 0x39 < k.code.toNat) →
            t.pin.matcher = .collecting ∧ t.pin.entry = e)
        ∧ (k.code = 0x0D → e.damaged = true →
            t.pin.matcher = .collecting
            ∧ t.pin.entry = { e with buffer := [], damaged := false, overlong := false }
            ∧ t.pin.failures = s.pin.failures ∧ Noted .pinDamaged 0 t)
        ∧ (k.code = 0x0D → e.damaged = false → e.buffer = [] →
            t.pin.matcher = .collecting ∧ t.pin.entry = e)
        ∧ (k.code = 0x0D → e.damaged = false → e.buffer ≠ [] →
          (e.purpose ≠ .pinChange →
            (s.pin.stored = some e.buffer → e.overlong = false →
              t.pin.failures = 0 ∧ t.pin.matcher = .releasing
              ∧ (e.purpose = .session → t.pin.sessionOpen = true ∧ Ending .doneOk t
                  ∧ t.pin.sessionRemaining = s.pin.sessionLength)
              ∧ (∀ n m clamped, e.purpose = .grant → e.staged = some (.grant n m clamped) →
                  s.image.operation.importsInto n = false → (s.profile n).state ≠ .empty → m ≤ 720 →
                  Ending (doneOr clamped) t ∧ t.profile n = grantedAccount (s.profile n) m
                  ∧ t.pin.entry.outcomeData = nat32 (t.profile n).remaining ++ nat16 (t.profile n).granted)
              ∧ (∀ n m clamped, e.purpose = .grant → e.staged = some (.grant n m clamped) →
                  ∀ outcome, (s.image.operation.importsInto n = true ∧ outcome = .busy)
                      ∨ (s.image.operation.importsInto n = false ∧ (s.profile n).state = .empty
                        ∧ outcome = .noSuch) →
                    Ending outcome t ∧ t.pin.entry.outcomeData = [] ∧ Frame (.failures :: endingParts) s t)
              ∧ (∀ q reached, e.purpose = .grant → e.staged = some (.push q) →
                  (reached = true ↔ s.time.source ≠ .unset ∧ ∃ at_, q.endTime = some at_
                    ∧ at_ ≤ s.time.localSeconds) →
                  (∀ outcome, (SubjectMoved q s ∧ outcome = .noSuch)
                        ∨ (¬ SubjectMoved q s ∧ 4 ≤ (s.context q.output).stack.length ∧ outcome = .stackFull)
                        ∨ (¬ SubjectMoved q s ∧ (s.context q.output).stack.length < 4 ∧ reached = true
                          ∧ outcome = .badField) →
                      Ending outcome t ∧ t.pin.entry.outcomeData = []
                        ∧ Frame (.failures :: endingParts) s t)
                  ∧ (¬ SubjectMoved q s → (s.context q.output).stack.length < 4 → reached = false →
                    ∃ moved last,
                      (moved = true ↔ q.kind = .curfewWaive ∧ s.time.source ≠ .unset
                        ∧ ∃ at_, q.endTime = some at_ ∧ s.time.localSeconds + 86400 < at_)
                      ∧ last = (if moved = true then some (s.time.localSeconds + 86400) else q.endTime)
                      ∧ Ending (doneOr (q.clamped || moved)) t
                      ∧ (t.context q.output).stack
                        = ⟨q.kind, q.scope, q.key, q.event, last, .live, .staged⟩ :: (s.context q.output).stack
                      ∧ UpToDate t q.output
                      ∧ t.pin.entry.outcomeData = nat8 ((s.context q.output).stack.length + 1)
                        ++ (match last with
                          | some u => localField u
                          | none => [])
                        ++ nat8 1)))
            ∧ (s.pin.stored ≠ some e.buffer ∨ e.overlong = true →
              (s.pin.failures + 1 < 3 →
                t.pin.failures = s.pin.failures + 1 ∧ t.pin.matcher = .collecting
                ∧ t.pin.entry = { e with buffer := [], damaged := false, overlong := false }
                ∧ Noted .pinMismatch 0 t)
              ∧ (3 ≤ s.pin.failures + 1 →
                Ending .lockedOut t ∧ Noted .pinLockout 0 t ∧ t.pin.failures = 0
                ∧ t.pin.timer = 60 * 2 ^ s.pin.step ∧ t.pin.step = min 4 (s.pin.step + 1))))
          ∧ (e.purpose = .pinChange → t.pin.failures = s.pin.failures
            ∧ (e.firstCollection = none →
              (e.overlong = true ∨ e.buffer.length < 4 →
                t.pin.entry = { e with buffer := [], damaged := false, overlong := false }
                ∧ t.pin.matcher = .collecting ∧ Noted .pinMismatch 0 t)
              ∧ (e.overlong = false → 4 ≤ e.buffer.length →
                t.pin.entry = { e with firstCollection := some e.buffer, buffer := [] }
                ∧ t.pin.matcher = .collecting))
            ∧ ∀ first, e.firstCollection = some first →
              (e.overlong = true ∨ e.buffer ≠ first →
                t.pin.entry = { e with firstCollection := none, buffer := [], damaged := false, overlong := false }
                ∧ t.pin.matcher = .collecting ∧ Noted .pinMismatch 0 t)
              ∧ (e.overlong = false → e.buffer = first →
                (authority s = true → t.pin.stored = some first ∧ Ending .doneOk t
                  ∧ t.pin.sessionOpen = s.pin.sessionOpen)
                ∧ (authority s = false → t.pin.stored = s.pin.stored ∧ Ending .notAuthorised t)))))

/-! ### What an evaluation decides (chapter 2) -/

/-- R31 to R40: the tests of an evaluation, in their order: the profile binding, its state and ceiling; the
stack; the curfew; the service; under an age ceiling without an ALLOW lift the content class and the flags;
the budget; and the approaching curfew. -/
def Obligations.EvaluationsFollowTheTests : Prop :=
  ∀ (s : State) (o : Output),
    ((s.context o).profile = none → judge s o = (.unsupervised, .none))
    ∧ ∀ n p, (s.context o).profile = some n → p = s.profile n →
      (p.state = .suspended → judge s o = (.blocked, .suspended))
      ∧ (p.state ≠ .suspended → p.ceiling = .closed → judge s o = (.blocked, .profileClosed))
      ∧ (p.state ≠ .suspended → p.ceiling ≠ .closed →
        (LiveKind s o .forceBlock → judge s o = (.blocked, .manual))
        ∧ (¬ LiveKind s o .forceBlock →
          (CurfewApplies s o p → s.time.source = .unset → judge s o = (.blocked, .timeUnknown))
          ∧ (CurfewApplies s o p → s.time.source ≠ .unset → InCurfew s p → judge s o = (.blocked, .curfew))
          ∧ ((CurfewApplies s o p → s.time.source ≠ .unset ∧ ¬ InCurfew s p) →
            (∀ c, p.ceiling = .age c → (s.context o).service = none → judge s o = (.blocked, .noService))
            ∧ (∀ c r, p.ceiling = .age c → (s.context o).service ≠ none → ¬ AllowLift s o →
                contentDecision p c (s.time.run - (s.context o).pendingSince) (s.currentEvent o) = some r →
                judge s o = r)
            ∧ (p.ceiling = .opened
                ∨ (∃ c, p.ceiling = .age c ∧ (s.context o).service ≠ none
                  ∧ (AllowLift s o ∨ contentDecision p c (s.time.run - (s.context o).pendingSince)
                      (s.currentEvent o) = none)) →
              ∀ rate, rate = p.rates[(match s.currentEvent o with
                  | some e => e.rating.genre
                  | none => 1 : Fin 4)] →
                (p.allowance ≠ none → rate ≠ 0 → p.remaining = 0 → judge s o = (.blocked, .budget))
                ∧ (p.allowance ≠ none → rate ≠ 0 → 0 < p.remaining → p.remaining < p.lead * rate →
                    judge s o = (.warning, .budgetNear))
                ∧ (p.allowance = none ∨ rate = 0 ∨ (0 < p.remaining ∧ p.lead * rate ≤ p.remaining) →
                    (CurfewNear s o p → judge s o = (.warning, .curfewNear))
                    ∧ (¬ CurfewNear s o p → judge s o = (.opened, .none)))))))

/-- R30, R47 to R49, R164: an evaluation that decides the verdict and reason held changes nothing. Any other
writes both, is told by VERDICT_CHANGED, and by BUDGET_WARNING where it newly gives WARNING with BUDGET_NEAR;
where the verdict changed the lamp state is computed and handed to the panel link, which does nothing with the
state recorded, and else records it and queues a LAMP, or gives a queued LAMP the new operand. The end of a
pending limit (R36) is such an evaluation. That BUDGET_WARNING is raised after VERDICT_CHANGED is the model's
choice (log 10). -/
def Obligations.VerdictChangesAreTold : Prop :=
  ∀ (s t : State) (o : Output) (v : Verdict) (r : Reason), Running s → judge s o = (v, r) → t = evaluate o s →
    (((s.context o).verdict, (s.context o).reason) = (v, r) → t = s)
    ∧ (((s.context o).verdict, (s.context o).reason) ≠ (v, r) → ∀ u : State,
      u = raise .verdictChanged (outputCode o)
        (nat8 (verdictCode v) ++ nat8 (reasonCode r) ++ [slotByte (s.context o).profile]) s →
      t.context o = { s.context o with verdict := v, reason := r } ∧ Frame (judgedParts o) s t
      ∧ ((v, r) ≠ (.warning, .budgetNear) → t.report = u.report)
      ∧ (∀ n, (s.context o).profile = some n → (v, r) = (.warning, .budgetNear) →
          t.report
            = (raise .budgetWarning n.val (nat32 (s.profile n).remaining ++ nat8 (outputCode o)) u).report)
      ∧ ((s.context o).verdict = v → t.panel = s.panel)
      ∧ ((s.context o).verdict ≠ v → ∀ l : Lamp,
          (l = .flashing ↔ s.pin.sessionOpen = true) →
          (l = .on ↔ s.pin.sessionOpen = false
            ∧ ∃ p, (t.context p).verdict = .blocked ∨ (t.context p).verdict = .pending) →
          (s.panel.lampRecord = some l → t.panel = s.panel)
          ∧ (s.panel.lampRecord ≠ some l →
            t.panel.lampRecord = some l
            ∧ (∀ before old after, s.panel.queue = before ++ .lamp old :: after →
                (∀ m ∈ before ++ after, ∀ x, m ≠ .lamp x) →
                t.panel.queue = before ++ .lamp l :: after)
            ∧ ((∀ m ∈ s.panel.queue, ∀ x, m ≠ .lamp x) → s.panel.queue.length < 4 →
                t.panel.queue = s.panel.queue ++ [.lamp l]))))
    ∧ (∀ n, (s.context o).profile = some n → (s.context o).verdict = .pending →
        (s.profile n).pendingLimit ≤ s.time.run - (s.context o).pendingSince →
        exec (.pendingLimitExpiry o) s = .next t)

/-- R146 to R149: local time, the covering of a curfew window, the next curfew start and the profile day. -/
def Obligations.LocalTimeAndCurfews : Prop :=
  (∀ t : TimeBase,
    (t.localSeconds : Int) = max 0 ((t.day : Int) * 86400 + t.second + t.offset * 60)
    ∧ t.weekday = t.localSeconds / 86400 % 7 ∧ t.timeOfDay = t.localSeconds % 86400
    ∧ (t.localSeconds < t.dayStart * 60 → t.computedDay = 0)
    ∧ (t.dayStart * 60 ≤ t.localSeconds → t.computedDay = (t.localSeconds - t.dayStart * 60) / 86400))
  ∧ (∀ (w : Curfew) (weekday time : Nat), weekday < 7 →
    (w.covers weekday time = true ↔
      (w.startMinute < w.endMinute ∧ w.days.getLsbD weekday = true
        ∧ w.startMinute * 60 ≤ time ∧ time < w.endMinute * 60)
      ∨ (w.endMinute < w.startMinute ∧ w.days.getLsbD weekday = true ∧ w.startMinute * 60 ≤ time)
      ∨ (w.endMinute < w.startMinute
        ∧ w.days.getLsbD (if weekday = 0 then 6 else weekday - 1) = true ∧ time < w.endMinute * 60)))
  ∧ ∀ (p : Profile) (weekday time : Nat) (candidate : Curfew → Nat → Prop), weekday < 7 → time < 86400 →
    (∀ w n, candidate w n ↔
      (w.days.getLsbD weekday = true ∧ time < w.startMinute * 60 ∧ n = w.startMinute * 60 - time)
      ∨ (w.days.getLsbD (if weekday = 6 then 0 else weekday + 1) = true
        ∧ n = w.startMinute * 60 + 86400 - time)) →
    ((∀ w n, some w ∈ p.curfews.toList → ¬ candidate w n) → nextCurfewStart p weekday time = none)
    ∧ (∀ least, (∃ w, some w ∈ p.curfews.toList ∧ candidate w least) →
        (∀ w n, some w ∈ p.curfews.toList → candidate w n → least ≤ n) →
        nextCurfewStart p weekday time = some least)
    ∧ ∀ n, (∀ w, some w ∈ p.curfews.toList → w.startMinute ≤ 1439) →
        nextCurfewStart p weekday time = some n → 1 ≤ n ∧ n ≤ 172799
end

