-- ==== Sys2Proof/Laws/State.lean ====
section
/-! SUPPORT. What each write of one piece of State leaves, field by field, and what a read after a write
finds. -/

namespace Sys2Proof.Machine

open Sys2Proof

/-! ### putContext -/

@[simp] theorem putContext_inputs (s : State) (o : Output) (c : OutputContext) : (s.putContext o c).inputs = s.inputs := rfl

@[simp] theorem putContext_lanes (s : State) (o : Output) (c : OutputContext) : (s.putContext o c).lanes = s.lanes := rfl

@[simp] theorem putContext_profiles (s : State) (o : Output) (c : OutputContext) : (s.putContext o c).profiles = s.profiles := rfl

@[simp] theorem putContext_image (s : State) (o : Output) (c : OutputContext) : (s.putContext o c).image = s.image := rfl

@[simp] theorem putContext_rating (s : State) (o : Output) (c : OutputContext) : (s.putContext o c).rating = s.rating := rfl

@[simp] theorem putContext_time (s : State) (o : Output) (c : OutputContext) : (s.putContext o c).time = s.time := rfl

@[simp] theorem putContext_intake (s : State) (o : Output) (c : OutputContext) : (s.putContext o c).intake = s.intake := rfl

@[simp] theorem putContext_panel (s : State) (o : Output) (c : OutputContext) : (s.putContext o c).panel = s.panel := rfl

@[simp] theorem putContext_pin (s : State) (o : Output) (c : OutputContext) : (s.putContext o c).pin = s.pin := rfl

@[simp] theorem putContext_command (s : State) (o : Output) (c : OutputContext) : (s.putContext o c).command = s.command := rfl

@[simp] theorem putContext_report (s : State) (o : Output) (c : OutputContext) : (s.putContext o c).report = s.report := rfl

@[simp] theorem putContext_systemReset (s : State) (o : Output) (c : OutputContext) : (s.putContext o c).systemReset = s.systemReset := rfl

@[simp] theorem putContext_pending (s : State) (o : Output) (c : OutputContext) : (s.putContext o c).pending = s.pending := rfl

@[simp] theorem putContext_profile (s : State) (o : Output) (c : OutputContext) (n' : Fin 8) : (s.putContext o c).profile n' = s.profile n' := rfl

@[simp] theorem putContext_entry (s : State) (o : Output) (c : OutputContext) (m : Fin 64) : (s.putContext o c).entry m = s.entry m := rfl

@[simp] theorem putContext_sectionWindow (s : State) (o : Output) (c : OutputContext) (v : Fin 4) : (s.putContext o c).sectionWindow v = s.sectionWindow v := rfl

@[simp] theorem putContext_slot (s : State) (o : Output) (c : OutputContext) (j : Fin 16) : (s.putContext o c).slot j = s.slot j := rfl

@[simp] theorem putContext_window (s : State) (o : Output) (c : OutputContext) (q : Output) (kq : WindowKind) : (s.putContext o c).window q kq = s.window q kq := rfl

/-! ### putProfile -/

@[simp] theorem putProfile_inputs (s : State) (n : Fin 8) (p : Profile) : (s.putProfile n p).inputs = s.inputs := rfl

@[simp] theorem putProfile_lanes (s : State) (n : Fin 8) (p : Profile) : (s.putProfile n p).lanes = s.lanes := rfl

@[simp] theorem putProfile_outputs (s : State) (n : Fin 8) (p : Profile) : (s.putProfile n p).outputs = s.outputs := rfl

@[simp] theorem putProfile_image (s : State) (n : Fin 8) (p : Profile) : (s.putProfile n p).image = s.image := rfl

@[simp] theorem putProfile_rating (s : State) (n : Fin 8) (p : Profile) : (s.putProfile n p).rating = s.rating := rfl

@[simp] theorem putProfile_time (s : State) (n : Fin 8) (p : Profile) : (s.putProfile n p).time = s.time := rfl

@[simp] theorem putProfile_intake (s : State) (n : Fin 8) (p : Profile) : (s.putProfile n p).intake = s.intake := rfl

@[simp] theorem putProfile_panel (s : State) (n : Fin 8) (p : Profile) : (s.putProfile n p).panel = s.panel := rfl

@[simp] theorem putProfile_pin (s : State) (n : Fin 8) (p : Profile) : (s.putProfile n p).pin = s.pin := rfl

@[simp] theorem putProfile_command (s : State) (n : Fin 8) (p : Profile) : (s.putProfile n p).command = s.command := rfl

@[simp] theorem putProfile_report (s : State) (n : Fin 8) (p : Profile) : (s.putProfile n p).report = s.report := rfl

@[simp] theorem putProfile_systemReset (s : State) (n : Fin 8) (p : Profile) : (s.putProfile n p).systemReset = s.systemReset := rfl

@[simp] theorem putProfile_pending (s : State) (n : Fin 8) (p : Profile) : (s.putProfile n p).pending = s.pending := rfl

@[simp] theorem putProfile_context (s : State) (n : Fin 8) (p : Profile) (o' : Output) : (s.putProfile n p).context o' = s.context o' := rfl

@[simp] theorem putProfile_entry (s : State) (n : Fin 8) (p : Profile) (m : Fin 64) : (s.putProfile n p).entry m = s.entry m := rfl

@[simp] theorem putProfile_sectionWindow (s : State) (n : Fin 8) (p : Profile) (v : Fin 4) : (s.putProfile n p).sectionWindow v = s.sectionWindow v := rfl

@[simp] theorem putProfile_slot (s : State) (n : Fin 8) (p : Profile) (j : Fin 16) : (s.putProfile n p).slot j = s.slot j := rfl

@[simp] theorem putProfile_window (s : State) (n : Fin 8) (p : Profile) (q : Output) (kq : WindowKind) : (s.putProfile n p).window q kq = s.window q kq := rfl

/-! ### putEntry -/

@[simp] theorem putEntry_inputs (s : State) (n : Fin 64) (e : Option Entry) : (s.putEntry n e).inputs = s.inputs := rfl

@[simp] theorem putEntry_lanes (s : State) (n : Fin 64) (e : Option Entry) : (s.putEntry n e).lanes = s.lanes := rfl

@[simp] theorem putEntry_outputs (s : State) (n : Fin 64) (e : Option Entry) : (s.putEntry n e).outputs = s.outputs := rfl

@[simp] theorem putEntry_profiles (s : State) (n : Fin 64) (e : Option Entry) : (s.putEntry n e).profiles = s.profiles := rfl

@[simp] theorem putEntry_image (s : State) (n : Fin 64) (e : Option Entry) : (s.putEntry n e).image = s.image := rfl

@[simp] theorem putEntry_time (s : State) (n : Fin 64) (e : Option Entry) : (s.putEntry n e).time = s.time := rfl

@[simp] theorem putEntry_intake (s : State) (n : Fin 64) (e : Option Entry) : (s.putEntry n e).intake = s.intake := rfl

@[simp] theorem putEntry_panel (s : State) (n : Fin 64) (e : Option Entry) : (s.putEntry n e).panel = s.panel := rfl

@[simp] theorem putEntry_pin (s : State) (n : Fin 64) (e : Option Entry) : (s.putEntry n e).pin = s.pin := rfl

@[simp] theorem putEntry_command (s : State) (n : Fin 64) (e : Option Entry) : (s.putEntry n e).command = s.command := rfl

@[simp] theorem putEntry_report (s : State) (n : Fin 64) (e : Option Entry) : (s.putEntry n e).report = s.report := rfl

@[simp] theorem putEntry_systemReset (s : State) (n : Fin 64) (e : Option Entry) : (s.putEntry n e).systemReset = s.systemReset := rfl

@[simp] theorem putEntry_pending (s : State) (n : Fin 64) (e : Option Entry) : (s.putEntry n e).pending = s.pending := rfl

@[simp] theorem putEntry_context (s : State) (n : Fin 64) (e : Option Entry) (o' : Output) : (s.putEntry n e).context o' = s.context o' := rfl

@[simp] theorem putEntry_profile (s : State) (n : Fin 64) (e : Option Entry) (n' : Fin 8) : (s.putEntry n e).profile n' = s.profile n' := rfl

@[simp] theorem putEntry_sectionWindow (s : State) (n : Fin 64) (e : Option Entry) (v : Fin 4) : (s.putEntry n e).sectionWindow v = s.sectionWindow v := rfl

@[simp] theorem putEntry_slot (s : State) (n : Fin 64) (e : Option Entry) (j : Fin 16) : (s.putEntry n e).slot j = s.slot j := rfl

@[simp] theorem putEntry_window (s : State) (n : Fin 64) (e : Option Entry) (q : Output) (kq : WindowKind) : (s.putEntry n e).window q kq = s.window q kq := rfl

@[simp] theorem putEntry_rating_schemes (s : State) (n : Fin 64) (e : Option Entry) :
    (s.putEntry n e).rating.schemes = s.rating.schemes := rfl

@[simp] theorem putEntry_rating_promotionDue (s : State) (n : Fin 64) (e : Option Entry) :
    (s.putEntry n e).rating.promotionDue = s.rating.promotionDue := rfl

@[simp] theorem putEntry_rating_promotionWall (s : State) (n : Fin 64) (e : Option Entry) :
    (s.putEntry n e).rating.promotionWall = s.rating.promotionWall := rfl

/-! ### putSectionWindow -/

@[simp] theorem putSectionWindow_inputs (s : State) (w : Fin 4) (x : SectionWindow) : (s.putSectionWindow w x).inputs = s.inputs := rfl

@[simp] theorem putSectionWindow_lanes (s : State) (w : Fin 4) (x : SectionWindow) : (s.putSectionWindow w x).lanes = s.lanes := rfl

@[simp] theorem putSectionWindow_outputs (s : State) (w : Fin 4) (x : SectionWindow) : (s.putSectionWindow w x).outputs = s.outputs := rfl

@[simp] theorem putSectionWindow_profiles (s : State) (w : Fin 4) (x : SectionWindow) : (s.putSectionWindow w x).profiles = s.profiles := rfl

@[simp] theorem putSectionWindow_image (s : State) (w : Fin 4) (x : SectionWindow) : (s.putSectionWindow w x).image = s.image := rfl

@[simp] theorem putSectionWindow_rating (s : State) (w : Fin 4) (x : SectionWindow) : (s.putSectionWindow w x).rating = s.rating := rfl

@[simp] theorem putSectionWindow_time (s : State) (w : Fin 4) (x : SectionWindow) : (s.putSectionWindow w x).time = s.time := rfl

@[simp] theorem putSectionWindow_panel (s : State) (w : Fin 4) (x : SectionWindow) : (s.putSectionWindow w x).panel = s.panel := rfl

@[simp] theorem putSectionWindow_pin (s : State) (w : Fin 4) (x : SectionWindow) : (s.putSectionWindow w x).pin = s.pin := rfl

@[simp] theorem putSectionWindow_command (s : State) (w : Fin 4) (x : SectionWindow) : (s.putSectionWindow w x).command = s.command := rfl

@[simp] theorem putSectionWindow_report (s : State) (w : Fin 4) (x : SectionWindow) : (s.putSectionWindow w x).report = s.report := rfl

@[simp] theorem putSectionWindow_systemReset (s : State) (w : Fin 4) (x : SectionWindow) : (s.putSectionWindow w x).systemReset = s.systemReset := rfl

@[simp] theorem putSectionWindow_pending (s : State) (w : Fin 4) (x : SectionWindow) : (s.putSectionWindow w x).pending = s.pending := rfl

@[simp] theorem putSectionWindow_context (s : State) (w : Fin 4) (x : SectionWindow) (o' : Output) : (s.putSectionWindow w x).context o' = s.context o' := rfl

@[simp] theorem putSectionWindow_profile (s : State) (w : Fin 4) (x : SectionWindow) (n' : Fin 8) : (s.putSectionWindow w x).profile n' = s.profile n' := rfl

@[simp] theorem putSectionWindow_entry (s : State) (w : Fin 4) (x : SectionWindow) (m : Fin 64) : (s.putSectionWindow w x).entry m = s.entry m := rfl

@[simp] theorem putSectionWindow_slot (s : State) (w : Fin 4) (x : SectionWindow) (j : Fin 16) : (s.putSectionWindow w x).slot j = s.slot j := rfl

@[simp] theorem putSectionWindow_window (s : State) (w : Fin 4) (x : SectionWindow) (q : Output) (kq : WindowKind) : (s.putSectionWindow w x).window q kq = s.window q kq := rfl

@[simp] theorem putSectionWindow_intake_queue (s : State) (w : Fin 4) (x : SectionWindow) :
    (s.putSectionWindow w x).intake.queue = s.intake.queue := rfl

@[simp] theorem putSectionWindow_intake_flow (s : State) (w : Fin 4) (x : SectionWindow) :
    (s.putSectionWindow w x).intake.flow = s.intake.flow := rfl

@[simp] theorem putSectionWindow_intake_haltLevel (s : State) (w : Fin 4) (x : SectionWindow) :
    (s.putSectionWindow w x).intake.haltLevel = s.intake.haltLevel := rfl

@[simp] theorem putSectionWindow_intake_resumeLevel (s : State) (w : Fin 4) (x : SectionWindow) :
    (s.putSectionWindow w x).intake.resumeLevel = s.intake.resumeLevel := rfl

@[simp] theorem putSectionWindow_intake_parsing (s : State) (w : Fin 4) (x : SectionWindow) :
    (s.putSectionWindow w x).intake.parsing = s.intake.parsing := rfl

/-! ### putIntakeContext -/

@[simp] theorem putIntakeContext_inputs (s : State) (w : Fin 4) (x : IntakeContext) : (s.putIntakeContext w x).inputs = s.inputs := rfl

@[simp] theorem putIntakeContext_lanes (s : State) (w : Fin 4) (x : IntakeContext) : (s.putIntakeContext w x).lanes = s.lanes := rfl

@[simp] theorem putIntakeContext_outputs (s : State) (w : Fin 4) (x : IntakeContext) : (s.putIntakeContext w x).outputs = s.outputs := rfl

@[simp] theorem putIntakeContext_profiles (s : State) (w : Fin 4) (x : IntakeContext) : (s.putIntakeContext w x).profiles = s.profiles := rfl

@[simp] theorem putIntakeContext_image (s : State) (w : Fin 4) (x : IntakeContext) : (s.putIntakeContext w x).image = s.image := rfl

@[simp] theorem putIntakeContext_rating (s : State) (w : Fin 4) (x : IntakeContext) : (s.putIntakeContext w x).rating = s.rating := rfl

@[simp] theorem putIntakeContext_time (s : State) (w : Fin 4) (x : IntakeContext) : (s.putIntakeContext w x).time = s.time := rfl

@[simp] theorem putIntakeContext_panel (s : State) (w : Fin 4) (x : IntakeContext) : (s.putIntakeContext w x).panel = s.panel := rfl

@[simp] theorem putIntakeContext_pin (s : State) (w : Fin 4) (x : IntakeContext) : (s.putIntakeContext w x).pin = s.pin := rfl

@[simp] theorem putIntakeContext_command (s : State) (w : Fin 4) (x : IntakeContext) : (s.putIntakeContext w x).command = s.command := rfl

@[simp] theorem putIntakeContext_report (s : State) (w : Fin 4) (x : IntakeContext) : (s.putIntakeContext w x).report = s.report := rfl

@[simp] theorem putIntakeContext_systemReset (s : State) (w : Fin 4) (x : IntakeContext) : (s.putIntakeContext w x).systemReset = s.systemReset := rfl

@[simp] theorem putIntakeContext_pending (s : State) (w : Fin 4) (x : IntakeContext) : (s.putIntakeContext w x).pending = s.pending := rfl

@[simp] theorem putIntakeContext_context (s : State) (w : Fin 4) (x : IntakeContext) (o' : Output) : (s.putIntakeContext w x).context o' = s.context o' := rfl

@[simp] theorem putIntakeContext_profile (s : State) (w : Fin 4) (x : IntakeContext) (n' : Fin 8) : (s.putIntakeContext w x).profile n' = s.profile n' := rfl

@[simp] theorem putIntakeContext_entry (s : State) (w : Fin 4) (x : IntakeContext) (m : Fin 64) : (s.putIntakeContext w x).entry m = s.entry m := rfl

@[simp] theorem putIntakeContext_slot (s : State) (w : Fin 4) (x : IntakeContext) (j : Fin 16) : (s.putIntakeContext w x).slot j = s.slot j := rfl

@[simp] theorem putIntakeContext_window (s : State) (w : Fin 4) (x : IntakeContext) (q : Output) (kq : WindowKind) : (s.putIntakeContext w x).window q kq = s.window q kq := rfl

@[simp] theorem putIntakeContext_intake_queue (s : State) (w : Fin 4) (x : IntakeContext) :
    (s.putIntakeContext w x).intake.queue = s.intake.queue := rfl

@[simp] theorem putIntakeContext_intake_flow (s : State) (w : Fin 4) (x : IntakeContext) :
    (s.putIntakeContext w x).intake.flow = s.intake.flow := rfl

@[simp] theorem putIntakeContext_intake_haltLevel (s : State) (w : Fin 4) (x : IntakeContext) :
    (s.putIntakeContext w x).intake.haltLevel = s.intake.haltLevel := rfl

@[simp] theorem putIntakeContext_intake_resumeLevel (s : State) (w : Fin 4) (x : IntakeContext) :
    (s.putIntakeContext w x).intake.resumeLevel = s.intake.resumeLevel := rfl

@[simp] theorem putIntakeContext_intake_parsing (s : State) (w : Fin 4) (x : IntakeContext) :
    (s.putIntakeContext w x).intake.parsing = s.intake.parsing := rfl

/-! ### putSlot -/

@[simp] theorem putSlot_inputs (s : State) (i : Fin 16) (c : CommandSlot) : (s.putSlot i c).inputs = s.inputs := rfl

@[simp] theorem putSlot_lanes (s : State) (i : Fin 16) (c : CommandSlot) : (s.putSlot i c).lanes = s.lanes := rfl

@[simp] theorem putSlot_outputs (s : State) (i : Fin 16) (c : CommandSlot) : (s.putSlot i c).outputs = s.outputs := rfl

@[simp] theorem putSlot_profiles (s : State) (i : Fin 16) (c : CommandSlot) : (s.putSlot i c).profiles = s.profiles := rfl

@[simp] theorem putSlot_image (s : State) (i : Fin 16) (c : CommandSlot) : (s.putSlot i c).image = s.image := rfl

@[simp] theorem putSlot_rating (s : State) (i : Fin 16) (c : CommandSlot) : (s.putSlot i c).rating = s.rating := rfl

@[simp] theorem putSlot_time (s : State) (i : Fin 16) (c : CommandSlot) : (s.putSlot i c).time = s.time := rfl

@[simp] theorem putSlot_intake (s : State) (i : Fin 16) (c : CommandSlot) : (s.putSlot i c).intake = s.intake := rfl

@[simp] theorem putSlot_panel (s : State) (i : Fin 16) (c : CommandSlot) : (s.putSlot i c).panel = s.panel := rfl

@[simp] theorem putSlot_pin (s : State) (i : Fin 16) (c : CommandSlot) : (s.putSlot i c).pin = s.pin := rfl

@[simp] theorem putSlot_report (s : State) (i : Fin 16) (c : CommandSlot) : (s.putSlot i c).report = s.report := rfl

@[simp] theorem putSlot_systemReset (s : State) (i : Fin 16) (c : CommandSlot) : (s.putSlot i c).systemReset = s.systemReset := rfl

@[simp] theorem putSlot_pending (s : State) (i : Fin 16) (c : CommandSlot) : (s.putSlot i c).pending = s.pending := rfl

@[simp] theorem putSlot_context (s : State) (i : Fin 16) (c : CommandSlot) (o' : Output) : (s.putSlot i c).context o' = s.context o' := rfl

@[simp] theorem putSlot_profile (s : State) (i : Fin 16) (c : CommandSlot) (n' : Fin 8) : (s.putSlot i c).profile n' = s.profile n' := rfl

@[simp] theorem putSlot_entry (s : State) (i : Fin 16) (c : CommandSlot) (m : Fin 64) : (s.putSlot i c).entry m = s.entry m := rfl

@[simp] theorem putSlot_sectionWindow (s : State) (i : Fin 16) (c : CommandSlot) (v : Fin 4) : (s.putSlot i c).sectionWindow v = s.sectionWindow v := rfl

@[simp] theorem putSlot_window (s : State) (i : Fin 16) (c : CommandSlot) (q : Output) (kq : WindowKind) : (s.putSlot i c).window q kq = s.window q kq := rfl

@[simp] theorem putSlot_command_shadow (s : State) (i : Fin 16) (c : CommandSlot) :
    (s.putSlot i c).command.shadow = s.command.shadow := rfl

@[simp] theorem putSlot_command_pointer (s : State) (i : Fin 16) (c : CommandSlot) :
    (s.putSlot i c).command.pointer = s.command.pointer := rfl

/-! ### putResult -/

@[simp] theorem putResult_inputs (s : State) (i : Fin 16) (r : ResultRecord) : (s.putResult i r).inputs = s.inputs := rfl

@[simp] theorem putResult_lanes (s : State) (i : Fin 16) (r : ResultRecord) : (s.putResult i r).lanes = s.lanes := rfl

@[simp] theorem putResult_outputs (s : State) (i : Fin 16) (r : ResultRecord) : (s.putResult i r).outputs = s.outputs := rfl

@[simp] theorem putResult_profiles (s : State) (i : Fin 16) (r : ResultRecord) : (s.putResult i r).profiles = s.profiles := rfl

@[simp] theorem putResult_image (s : State) (i : Fin 16) (r : ResultRecord) : (s.putResult i r).image = s.image := rfl

@[simp] theorem putResult_rating (s : State) (i : Fin 16) (r : ResultRecord) : (s.putResult i r).rating = s.rating := rfl

@[simp] theorem putResult_time (s : State) (i : Fin 16) (r : ResultRecord) : (s.putResult i r).time = s.time := rfl

@[simp] theorem putResult_intake (s : State) (i : Fin 16) (r : ResultRecord) : (s.putResult i r).intake = s.intake := rfl

@[simp] theorem putResult_panel (s : State) (i : Fin 16) (r : ResultRecord) : (s.putResult i r).panel = s.panel := rfl

@[simp] theorem putResult_pin (s : State) (i : Fin 16) (r : ResultRecord) : (s.putResult i r).pin = s.pin := rfl

@[simp] theorem putResult_report (s : State) (i : Fin 16) (r : ResultRecord) : (s.putResult i r).report = s.report := rfl

@[simp] theorem putResult_systemReset (s : State) (i : Fin 16) (r : ResultRecord) : (s.putResult i r).systemReset = s.systemReset := rfl

@[simp] theorem putResult_pending (s : State) (i : Fin 16) (r : ResultRecord) : (s.putResult i r).pending = s.pending := rfl

@[simp] theorem putResult_context (s : State) (i : Fin 16) (r : ResultRecord) (o' : Output) : (s.putResult i r).context o' = s.context o' := rfl

@[simp] theorem putResult_profile (s : State) (i : Fin 16) (r : ResultRecord) (n' : Fin 8) : (s.putResult i r).profile n' = s.profile n' := rfl

@[simp] theorem putResult_entry (s : State) (i : Fin 16) (r : ResultRecord) (m : Fin 64) : (s.putResult i r).entry m = s.entry m := rfl

@[simp] theorem putResult_sectionWindow (s : State) (i : Fin 16) (r : ResultRecord) (v : Fin 4) : (s.putResult i r).sectionWindow v = s.sectionWindow v := rfl

@[simp] theorem putResult_window (s : State) (i : Fin 16) (r : ResultRecord) (q : Output) (kq : WindowKind) : (s.putResult i r).window q kq = s.window q kq := rfl

@[simp] theorem putResult_command_shadow (s : State) (i : Fin 16) (r : ResultRecord) :
    (s.putResult i r).command.shadow = s.command.shadow := rfl

@[simp] theorem putResult_command_pointer (s : State) (i : Fin 16) (r : ResultRecord) :
    (s.putResult i r).command.pointer = s.command.pointer := rfl

/-! ### finishResult -/

@[simp] theorem finishResult_inputs (s : State) (i : Fin 16) (oc : CommandOutcome) (d : List Byte) : (s.finishResult i oc d).inputs = s.inputs := rfl

@[simp] theorem finishResult_lanes (s : State) (i : Fin 16) (oc : CommandOutcome) (d : List Byte) : (s.finishResult i oc d).lanes = s.lanes := rfl

@[simp] theorem finishResult_outputs (s : State) (i : Fin 16) (oc : CommandOutcome) (d : List Byte) : (s.finishResult i oc d).outputs = s.outputs := rfl

@[simp] theorem finishResult_profiles (s : State) (i : Fin 16) (oc : CommandOutcome) (d : List Byte) : (s.finishResult i oc d).profiles = s.profiles := rfl

@[simp] theorem finishResult_image (s : State) (i : Fin 16) (oc : CommandOutcome) (d : List Byte) : (s.finishResult i oc d).image = s.image := rfl

@[simp] theorem finishResult_rating (s : State) (i : Fin 16) (oc : CommandOutcome) (d : List Byte) : (s.finishResult i oc d).rating = s.rating := rfl

@[simp] theorem finishResult_time (s : State) (i : Fin 16) (oc : CommandOutcome) (d : List Byte) : (s.finishResult i oc d).time = s.time := rfl

@[simp] theorem finishResult_intake (s : State) (i : Fin 16) (oc : CommandOutcome) (d : List Byte) : (s.finishResult i oc d).intake = s.intake := rfl

@[simp] theorem finishResult_panel (s : State) (i : Fin 16) (oc : CommandOutcome) (d : List Byte) : (s.finishResult i oc d).panel = s.panel := rfl

@[simp] theorem finishResult_pin (s : State) (i : Fin 16) (oc : CommandOutcome) (d : List Byte) : (s.finishResult i oc d).pin = s.pin := rfl

@[simp] theorem finishResult_report (s : State) (i : Fin 16) (oc : CommandOutcome) (d : List Byte) : (s.finishResult i oc d).report = s.report := rfl

@[simp] theorem finishResult_systemReset (s : State) (i : Fin 16) (oc : CommandOutcome) (d : List Byte) : (s.finishResult i oc d).systemReset = s.systemReset := rfl

@[simp] theorem finishResult_pending (s : State) (i : Fin 16) (oc : CommandOutcome) (d : List Byte) : (s.finishResult i oc d).pending = s.pending := rfl

@[simp] theorem finishResult_context (s : State) (i : Fin 16) (oc : CommandOutcome) (d : List Byte) (o' : Output) : (s.finishResult i oc d).context o' = s.context o' := rfl

@[simp] theorem finishResult_profile (s : State) (i : Fin 16) (oc : CommandOutcome) (d : List Byte) (n' : Fin 8) : (s.finishResult i oc d).profile n' = s.profile n' := rfl

@[simp] theorem finishResult_entry (s : State) (i : Fin 16) (oc : CommandOutcome) (d : List Byte) (m : Fin 64) : (s.finishResult i oc d).entry m = s.entry m := rfl

@[simp] theorem finishResult_sectionWindow (s : State) (i : Fin 16) (oc : CommandOutcome) (d : List Byte) (v : Fin 4) : (s.finishResult i oc d).sectionWindow v = s.sectionWindow v := rfl

@[simp] theorem finishResult_window (s : State) (i : Fin 16) (oc : CommandOutcome) (d : List Byte) (q : Output) (kq : WindowKind) : (s.finishResult i oc d).window q kq = s.window q kq := rfl

@[simp] theorem finishResult_command_shadow (s : State) (i : Fin 16) (oc : CommandOutcome) (d : List Byte) :
    (s.finishResult i oc d).command.shadow = s.command.shadow := rfl

@[simp] theorem finishResult_command_pointer (s : State) (i : Fin 16) (oc : CommandOutcome) (d : List Byte) :
    (s.finishResult i oc d).command.pointer = s.command.pointer := rfl

/-! ### putPin -/

@[simp] theorem putPin_inputs (s : State) (p : PinAuthority) : (s.putPin p).inputs = s.inputs := rfl

@[simp] theorem putPin_lanes (s : State) (p : PinAuthority) : (s.putPin p).lanes = s.lanes := rfl

@[simp] theorem putPin_outputs (s : State) (p : PinAuthority) : (s.putPin p).outputs = s.outputs := rfl

@[simp] theorem putPin_profiles (s : State) (p : PinAuthority) : (s.putPin p).profiles = s.profiles := rfl

@[simp] theorem putPin_image (s : State) (p : PinAuthority) : (s.putPin p).image = s.image := rfl

@[simp] theorem putPin_rating (s : State) (p : PinAuthority) : (s.putPin p).rating = s.rating := rfl

@[simp] theorem putPin_time (s : State) (p : PinAuthority) : (s.putPin p).time = s.time := rfl

@[simp] theorem putPin_intake (s : State) (p : PinAuthority) : (s.putPin p).intake = s.intake := rfl

@[simp] theorem putPin_panel (s : State) (p : PinAuthority) : (s.putPin p).panel = s.panel := rfl

@[simp] theorem putPin_command (s : State) (p : PinAuthority) : (s.putPin p).command = s.command := rfl

@[simp] theorem putPin_report (s : State) (p : PinAuthority) : (s.putPin p).report = s.report := rfl

@[simp] theorem putPin_systemReset (s : State) (p : PinAuthority) : (s.putPin p).systemReset = s.systemReset := rfl

@[simp] theorem putPin_pending (s : State) (p : PinAuthority) : (s.putPin p).pending = s.pending := rfl

@[simp] theorem putPin_context (s : State) (p : PinAuthority) (o' : Output) : (s.putPin p).context o' = s.context o' := rfl

@[simp] theorem putPin_profile (s : State) (p : PinAuthority) (n' : Fin 8) : (s.putPin p).profile n' = s.profile n' := rfl

@[simp] theorem putPin_entry (s : State) (p : PinAuthority) (m : Fin 64) : (s.putPin p).entry m = s.entry m := rfl

@[simp] theorem putPin_sectionWindow (s : State) (p : PinAuthority) (v : Fin 4) : (s.putPin p).sectionWindow v = s.sectionWindow v := rfl

@[simp] theorem putPin_slot (s : State) (p : PinAuthority) (j : Fin 16) : (s.putPin p).slot j = s.slot j := rfl

@[simp] theorem putPin_window (s : State) (p : PinAuthority) (q : Output) (kq : WindowKind) : (s.putPin p).window q kq = s.window q kq := rfl

/-! ### putPanel -/

@[simp] theorem putPanel_inputs (s : State) (p : PanelLink) : (s.putPanel p).inputs = s.inputs := rfl

@[simp] theorem putPanel_lanes (s : State) (p : PanelLink) : (s.putPanel p).lanes = s.lanes := rfl

@[simp] theorem putPanel_outputs (s : State) (p : PanelLink) : (s.putPanel p).outputs = s.outputs := rfl

@[simp] theorem putPanel_profiles (s : State) (p : PanelLink) : (s.putPanel p).profiles = s.profiles := rfl

@[simp] theorem putPanel_image (s : State) (p : PanelLink) : (s.putPanel p).image = s.image := rfl

@[simp] theorem putPanel_rating (s : State) (p : PanelLink) : (s.putPanel p).rating = s.rating := rfl

@[simp] theorem putPanel_time (s : State) (p : PanelLink) : (s.putPanel p).time = s.time := rfl

@[simp] theorem putPanel_intake (s : State) (p : PanelLink) : (s.putPanel p).intake = s.intake := rfl

@[simp] theorem putPanel_pin (s : State) (p : PanelLink) : (s.putPanel p).pin = s.pin := rfl

@[simp] theorem putPanel_command (s : State) (p : PanelLink) : (s.putPanel p).command = s.command := rfl

@[simp] theorem putPanel_report (s : State) (p : PanelLink) : (s.putPanel p).report = s.report := rfl

@[simp] theorem putPanel_systemReset (s : State) (p : PanelLink) : (s.putPanel p).systemReset = s.systemReset := rfl

@[simp] theorem putPanel_pending (s : State) (p : PanelLink) : (s.putPanel p).pending = s.pending := rfl

@[simp] theorem putPanel_context (s : State) (p : PanelLink) (o' : Output) : (s.putPanel p).context o' = s.context o' := rfl

@[simp] theorem putPanel_profile (s : State) (p : PanelLink) (n' : Fin 8) : (s.putPanel p).profile n' = s.profile n' := rfl

@[simp] theorem putPanel_entry (s : State) (p : PanelLink) (m : Fin 64) : (s.putPanel p).entry m = s.entry m := rfl

@[simp] theorem putPanel_sectionWindow (s : State) (p : PanelLink) (v : Fin 4) : (s.putPanel p).sectionWindow v = s.sectionWindow v := rfl

@[simp] theorem putPanel_slot (s : State) (p : PanelLink) (j : Fin 16) : (s.putPanel p).slot j = s.slot j := rfl

@[simp] theorem putPanel_window (s : State) (p : PanelLink) (q : Output) (kq : WindowKind) : (s.putPanel p).window q kq = s.window q kq := rfl

/-! ### putOut -/

@[simp] theorem putOut_inputs (s : State) (x : LaneOut) : (s.putOut x).inputs = s.inputs := rfl

@[simp] theorem putOut_outputs (s : State) (x : LaneOut) : (s.putOut x).outputs = s.outputs := rfl

@[simp] theorem putOut_profiles (s : State) (x : LaneOut) : (s.putOut x).profiles = s.profiles := rfl

@[simp] theorem putOut_image (s : State) (x : LaneOut) : (s.putOut x).image = s.image := rfl

@[simp] theorem putOut_rating (s : State) (x : LaneOut) : (s.putOut x).rating = s.rating := rfl

@[simp] theorem putOut_time (s : State) (x : LaneOut) : (s.putOut x).time = s.time := rfl

@[simp] theorem putOut_intake (s : State) (x : LaneOut) : (s.putOut x).intake = s.intake := rfl

@[simp] theorem putOut_panel (s : State) (x : LaneOut) : (s.putOut x).panel = s.panel := rfl

@[simp] theorem putOut_pin (s : State) (x : LaneOut) : (s.putOut x).pin = s.pin := rfl

@[simp] theorem putOut_command (s : State) (x : LaneOut) : (s.putOut x).command = s.command := rfl

@[simp] theorem putOut_report (s : State) (x : LaneOut) : (s.putOut x).report = s.report := rfl

@[simp] theorem putOut_systemReset (s : State) (x : LaneOut) : (s.putOut x).systemReset = s.systemReset := rfl

@[simp] theorem putOut_pending (s : State) (x : LaneOut) : (s.putOut x).pending = s.pending := rfl

@[simp] theorem putOut_context (s : State) (x : LaneOut) (o' : Output) : (s.putOut x).context o' = s.context o' := rfl

@[simp] theorem putOut_profile (s : State) (x : LaneOut) (n' : Fin 8) : (s.putOut x).profile n' = s.profile n' := rfl

@[simp] theorem putOut_entry (s : State) (x : LaneOut) (m : Fin 64) : (s.putOut x).entry m = s.entry m := rfl

@[simp] theorem putOut_sectionWindow (s : State) (x : LaneOut) (v : Fin 4) : (s.putOut x).sectionWindow v = s.sectionWindow v := rfl

@[simp] theorem putOut_slot (s : State) (x : LaneOut) (j : Fin 16) : (s.putOut x).slot j = s.slot j := rfl

@[simp] theorem putOut_window (s : State) (x : LaneOut) (q : Output) (kq : WindowKind) : (s.putOut x).window q kq = s.window q kq := rfl

@[simp] theorem putOut_lanes_windows (s : State) (x : LaneOut) :
    (s.putOut x).lanes.windows = s.lanes.windows := rfl

@[simp] theorem putOut_lanes_layout (s : State) (x : LaneOut) :
    (s.putOut x).lanes.layout = s.lanes.layout := rfl

@[simp] theorem putOut_lanes_presentation (s : State) (x : LaneOut) :
    (s.putOut x).lanes.presentation = s.lanes.presentation := rfl

@[simp] theorem putOut_lanes_control (s : State) (x : LaneOut) :
    (s.putOut x).lanes.control = s.lanes.control := rfl

@[simp] theorem putOut_lanes_heldPresentation (s : State) (x : LaneOut) :
    (s.putOut x).lanes.heldPresentation = s.lanes.heldPresentation := rfl

@[simp] theorem putOut_lanes_heldControl (s : State) (x : LaneOut) :
    (s.putOut x).lanes.heldControl = s.lanes.heldControl := rfl

@[simp] theorem putOut_lanes_nextMark (s : State) (x : LaneOut) :
    (s.putOut x).lanes.nextMark = s.lanes.nextMark := rfl

@[simp] theorem putOut_lanes_activity (s : State) (x : LaneOut) :
    (s.putOut x).lanes.activity = s.lanes.activity := rfl

/-! ### putWindow -/

@[simp] theorem putWindow_inputs (s : State) (o : Output) (k : WindowKind) (w : Window) : (s.putWindow o k w).inputs = s.inputs := rfl

@[simp] theorem putWindow_outputs (s : State) (o : Output) (k : WindowKind) (w : Window) : (s.putWindow o k w).outputs = s.outputs := rfl

@[simp] theorem putWindow_profiles (s : State) (o : Output) (k : WindowKind) (w : Window) : (s.putWindow o k w).profiles = s.profiles := rfl

@[simp] theorem putWindow_image (s : State) (o : Output) (k : WindowKind) (w : Window) : (s.putWindow o k w).image = s.image := rfl

@[simp] theorem putWindow_rating (s : State) (o : Output) (k : WindowKind) (w : Window) : (s.putWindow o k w).rating = s.rating := rfl

@[simp] theorem putWindow_time (s : State) (o : Output) (k : WindowKind) (w : Window) : (s.putWindow o k w).time = s.time := rfl

@[simp] theorem putWindow_intake (s : State) (o : Output) (k : WindowKind) (w : Window) : (s.putWindow o k w).intake = s.intake := rfl

@[simp] theorem putWindow_panel (s : State) (o : Output) (k : WindowKind) (w : Window) : (s.putWindow o k w).panel = s.panel := rfl

@[simp] theorem putWindow_pin (s : State) (o : Output) (k : WindowKind) (w : Window) : (s.putWindow o k w).pin = s.pin := rfl

@[simp] theorem putWindow_command (s : State) (o : Output) (k : WindowKind) (w : Window) : (s.putWindow o k w).command = s.command := rfl

@[simp] theorem putWindow_report (s : State) (o : Output) (k : WindowKind) (w : Window) : (s.putWindow o k w).report = s.report := rfl

@[simp] theorem putWindow_systemReset (s : State) (o : Output) (k : WindowKind) (w : Window) : (s.putWindow o k w).systemReset = s.systemReset := rfl

@[simp] theorem putWindow_pending (s : State) (o : Output) (k : WindowKind) (w : Window) : (s.putWindow o k w).pending = s.pending := rfl

@[simp] theorem putWindow_context (s : State) (o : Output) (k : WindowKind) (w : Window) (o' : Output) : (s.putWindow o k w).context o' = s.context o' := rfl

@[simp] theorem putWindow_profile (s : State) (o : Output) (k : WindowKind) (w : Window) (n' : Fin 8) : (s.putWindow o k w).profile n' = s.profile n' := rfl

@[simp] theorem putWindow_entry (s : State) (o : Output) (k : WindowKind) (w : Window) (m : Fin 64) : (s.putWindow o k w).entry m = s.entry m := rfl

@[simp] theorem putWindow_sectionWindow (s : State) (o : Output) (k : WindowKind) (w : Window) (v : Fin 4) : (s.putWindow o k w).sectionWindow v = s.sectionWindow v := rfl

@[simp] theorem putWindow_slot (s : State) (o : Output) (k : WindowKind) (w : Window) (j : Fin 16) : (s.putWindow o k w).slot j = s.slot j := rfl

@[simp] theorem putWindow_lanes_layout (s : State) (o : Output) (k : WindowKind) (w : Window) :
    (s.putWindow o k w).lanes.layout = s.lanes.layout := rfl

@[simp] theorem putWindow_lanes_presentation (s : State) (o : Output) (k : WindowKind) (w : Window) :
    (s.putWindow o k w).lanes.presentation = s.lanes.presentation := rfl

@[simp] theorem putWindow_lanes_control (s : State) (o : Output) (k : WindowKind) (w : Window) :
    (s.putWindow o k w).lanes.control = s.lanes.control := rfl

@[simp] theorem putWindow_lanes_heldPresentation (s : State) (o : Output) (k : WindowKind) (w : Window) :
    (s.putWindow o k w).lanes.heldPresentation = s.lanes.heldPresentation := rfl

@[simp] theorem putWindow_lanes_heldControl (s : State) (o : Output) (k : WindowKind) (w : Window) :
    (s.putWindow o k w).lanes.heldControl = s.lanes.heldControl := rfl

@[simp] theorem putWindow_lanes_nextMark (s : State) (o : Output) (k : WindowKind) (w : Window) :
    (s.putWindow o k w).lanes.nextMark = s.lanes.nextMark := rfl

@[simp] theorem putWindow_lanes_activity (s : State) (o : Output) (k : WindowKind) (w : Window) :
    (s.putWindow o k w).lanes.activity = s.lanes.activity := rfl

@[simp] theorem putWindow_lanes_out (s : State) (o : Output) (k : WindowKind) (w : Window) :
    (s.putWindow o k w).lanes.out = s.lanes.out := rfl

/-! ### The written piece -/

@[simp] theorem putPin_pin (s : State) (p : PinAuthority) : (s.putPin p).pin = p := rfl

@[simp] theorem putPanel_panel (s : State) (p : PanelLink) : (s.putPanel p).panel = p := rfl

@[simp] theorem putOut_lanes_out (s : State) (x : LaneOut) : (s.putOut x).lanes.out = s.lanes.out ++ [x] := rfl

theorem PerOutput.get_put {α : Type} (p : PerOutput α) (o o' : Output) (a : α) :
    (p.put o a).get o' = if o' = o then a else p.get o' := by
  cases o <;> cases o' <;> rfl

theorem PerOutput.ext_get {α : Type} {p q : PerOutput α} (h : ∀ o, p.get o = q.get o) : p = q := by
  cases p; cases q
  have h1 := h .primary
  have h2 := h .secondary
  have h3 := h .remote
  simp only [PerOutput.get] at h1 h2 h3
  simp [h1, h2, h3]

theorem context_putContext (s : State) (o o' : Output) (c : OutputContext) :
    (s.putContext o c).context o' = if o' = o then c else s.context o' :=
  PerOutput.get_put s.outputs o o' c

@[simp] theorem context_putContext_self (s : State) (o : Output) (c : OutputContext) :
    (s.putContext o c).context o = c := by simp [context_putContext]

theorem context_putContext_ne (s : State) {o o' : Output} (c : OutputContext) (h : o' ≠ o) :
    (s.putContext o c).context o' = s.context o' := by simp [context_putContext, h]

theorem profile_putProfile (s : State) (n m : Fin 8) (p : Profile) :
    (s.putProfile n p).profile m = if m = n then p else s.profile m := by
  simp only [State.putProfile, State.profile, Fin.getElem_fin, Vector.getElem_set, Fin.ext_iff]
  by_cases h : n.val = m.val <;> simp [h, eq_comm]

@[simp] theorem profile_putProfile_self (s : State) (n : Fin 8) (p : Profile) :
    (s.putProfile n p).profile n = p := by simp [profile_putProfile]

theorem profile_putProfile_ne (s : State) {n m : Fin 8} (p : Profile) (h : m ≠ n) :
    (s.putProfile n p).profile m = s.profile m := by simp [profile_putProfile, h]

theorem entry_putEntry (s : State) (n m : Fin 64) (e : Option Entry) :
    (s.putEntry n e).entry m = if m = n then e else s.entry m := by
  simp only [State.putEntry, State.entry, Fin.getElem_fin, Vector.getElem_set, Fin.ext_iff]
  by_cases h : n.val = m.val <;> simp [h, eq_comm]

@[simp] theorem entry_putEntry_self (s : State) (n : Fin 64) (e : Option Entry) :
    (s.putEntry n e).entry n = e := by simp [entry_putEntry]

theorem entry_putEntry_ne (s : State) {n m : Fin 64} (e : Option Entry) (h : m ≠ n) :
    (s.putEntry n e).entry m = s.entry m := by simp [entry_putEntry, h]

theorem sectionWindow_putSectionWindow (s : State) (w v : Fin 4) (x : SectionWindow) :
    (s.putSectionWindow w x).sectionWindow v = if v = w then x else s.sectionWindow v := by
  simp only [State.putSectionWindow, State.sectionWindow, Fin.getElem_fin, Vector.getElem_set, Fin.ext_iff]
  by_cases h : w.val = v.val <;> simp [h, eq_comm]

@[simp] theorem sectionWindow_putSectionWindow_self (s : State) (w : Fin 4) (x : SectionWindow) :
    (s.putSectionWindow w x).sectionWindow w = x := by simp [sectionWindow_putSectionWindow]

theorem sectionWindow_putIntakeContext (s : State) (w v : Fin 4) (c : IntakeContext) :
    (s.putIntakeContext w c).sectionWindow v =
      if v = w then { s.sectionWindow w with context := c } else s.sectionWindow v :=
  sectionWindow_putSectionWindow s w v _

@[simp] theorem sectionWindow_putIntakeContext_self (s : State) (w : Fin 4) (c : IntakeContext) :
    (s.putIntakeContext w c).sectionWindow w = { s.sectionWindow w with context := c } := by
  simp [sectionWindow_putIntakeContext]

theorem slot_putSlot (s : State) (i j : Fin 16) (c : CommandSlot) :
    (s.putSlot i c).slot j = if j = i then c else s.slot j := by
  simp only [State.putSlot, State.slot, Fin.getElem_fin, Vector.getElem_set, Fin.ext_iff]
  by_cases h : i.val = j.val <;> simp [h, eq_comm]

@[simp] theorem slot_putSlot_self (s : State) (i : Fin 16) (c : CommandSlot) :
    (s.putSlot i c).slot i = c := by simp [slot_putSlot]

theorem slot_putSlot_ne (s : State) {i j : Fin 16} (c : CommandSlot) (h : j ≠ i) :
    (s.putSlot i c).slot j = s.slot j := by simp [slot_putSlot, h]

theorem slot_putResult (s : State) (i j : Fin 16) (r : ResultRecord) :
    (s.putResult i r).slot j = if j = i then { s.slot i with result := r } else s.slot j :=
  slot_putSlot s i j _

@[simp] theorem slot_putResult_self (s : State) (i : Fin 16) (r : ResultRecord) :
    (s.putResult i r).slot i = { s.slot i with result := r } := by simp [slot_putResult]

theorem window_putWindow (s : State) (o o' : Output) (k k' : WindowKind) (w : Window) :
    (s.putWindow o k w).window o' k' = if (o', k') = (o, k) then w else s.window o' k' := by
  cases o <;> cases o' <;> cases k <;> cases k' <;> rfl

@[simp] theorem window_putWindow_self (s : State) (o : Output) (k : WindowKind) (w : Window) :
    (s.putWindow o k w).window o k = w := by simp [window_putWindow]

end Sys2Proof.Machine
end

