-- ==== Sys2Proof/Laws/Within.lean ====
section
/-! SUPPORT. The two things every shared operation is shown to do: leave all but its own parts of State
alone, and keep the laws that one block holds by itself. The lemmas here put such facts together. -/

namespace Sys2Proof.Machine

open Sys2Proof

/-! ### Frames -/

theorem Part.same_refl (p : Part) (s : State) : p.same s s := by
  cases p <;> simp [Part.same]

theorem Part.same_trans {p : Part} {s t u : State} (h : p.same s t) (k : p.same t u) : p.same s u := by
  cases p <;> simp_all [Part.same]

theorem Frame.refl (ps : List Part) (s : State) : Frame ps s s := fun p _ => p.same_refl s

theorem Frame.trans {ps : List Part} {s t u : State} (h : Frame ps s t) (k : Frame ps t u) :
    Frame ps s u := fun p hp => Part.same_trans (h p hp) (k p hp)

theorem Frame.mono {ps qs : List Part} {s t : State} (h : Frame ps s t) (sub : ∀ p, p ∈ ps → p ∈ qs) :
    Frame qs s t := fun p hp => h p (fun m => hp (sub p m))

/-- The parts are all of State: with none named, nothing has changed. -/
theorem Frame.eq {s t : State} (h : Frame [] s t) : t = s := by
  have g : ∀ p : Part, p.same s t := fun p => h p List.not_mem_nil
  obtain ⟨i, l, o, pr, im, ra, ti, it, pa, pi, co, re, sr, pe⟩ := s
  obtain ⟨i', l', o', pr', im', ra', ti', it', pa', pi', co', re', sr', pe'⟩ := t
  have h1 := g .inputs; have h2 := g .systemReset; have h3 := g .pending
  have w := fun o k => g (.window o k)
  have c := fun o => And.intro (g (.profileBinding o)) (And.intro (g (.serviceBinding o))
    (And.intro (g (.verdict o)) (And.intro (g (.pendingSince o)) (g (.stack o)))))
  have hp := fun n => g (.profile n)
  have he := fun n => g (.entry n)
  have hw := fun n => g (.sectionWindow n)
  have hs := fun n => g (.slot n)
  have ha := fun n => g (.activity n)
  have l1 := g .layout; have l2 := g .presentationTable; have l3 := g .controlTable
  have l4 := g .heldPresentation; have l5 := g .heldControl; have l6 := g .nextMark
  have l7 := g .transfers
  have i1 := g .imageOperation; have i2 := g .imageBuffer
  have r1 := g .schemes; have r2 := g .promotions
  have t1 := g .run; have t2 := g .wall; have t3 := g .offset; have t4 := g .dayStart
  have t5 := g .profileDay
  have q1 := g .intakeQueue; have q2 := g .flow; have q3 := g .intakeLevels
  have p1 := g .listener; have p2 := g .panelAddresses; have p3 := g .keyFifo
  have p4 := g .transmitQueue; have p5 := g .transmitter; have p6 := g .lampRecord
  have p7 := g .sentFrames
  have n1 := g .storedPin; have n2 := g .matcher; have n3 := g .pinEntry; have n4 := g .failures
  have n5 := g .lockoutTimer; have n6 := g .session; have n7 := g .sessionRemaining
  have n8 := g .sessionLength
  have c1 := g .shadow; have c2 := g .pointer
  have e1 := g .notices; have e2 := g .flags; have e3 := g .masks; have e4 := g .attentionLevels
  have e5 := g .view
  clear g h
  simp only [Part.same] at *
  have hl : l' = l := by
    obtain ⟨lw, ly, lp, lc, lhp, lhc, lm, la, lo⟩ := l
    obtain ⟨lw', ly', lp', lc', lhp', lhc', lm', la', lo'⟩ := l'
    simp only [State.window] at w
    have hw' : lw' = lw := PerOutput.ext_get fun o => by
      have a := w o .picture
      have b := w o .sound
      simp only [WindowPair.get] at a b
      generalize lw'.get o = x at *
      generalize lw.get o = y at *
      cases x; cases y; simp_all
    have ha' : la' = la := PerOutput.ext_get ha
    simp_all
  have ho : o' = o := PerOutput.ext_get fun x => by
    have := c x
    simp only [State.context] at this
    generalize o'.get x = a at *
    generalize o.get x = b at *
    cases a; cases b; simp_all
  have hpr : pr' = pr := Vector.ext fun i hi => hp ⟨i, hi⟩
  have hra : ra' = ra := by
    cases ra; cases ra'
    have := Vector.ext fun i hi => he ⟨i, hi⟩
    simp_all [State.entry]
  have hit : it' = it := by
    cases it; cases it'
    have := Vector.ext fun i hi => hw ⟨i, hi⟩
    simp_all [State.sectionWindow]
  have hco : co' = co := by
    cases co; cases co'
    have := Vector.ext fun i hi => hs ⟨i, hi⟩
    simp_all [State.slot]
  have him : im' = im := by cases im; cases im'; simp_all
  have hti : ti' = ti := by cases ti; cases ti'; simp_all
  have hpa : pa' = pa := by cases pa; cases pa'; simp_all
  have hpi : pi' = pi := by cases pi; cases pi'; simp_all
  have hre : re' = re := by cases re; cases re'; simp_all
  simp_all

/-! ### Laws that one block keeps by itself -/

/-- The laws that are about one block. -/
inductive LocalLaw where
  | lanes | stackTops | profiles | time | intake | panel | pin | report | shadow
  deriving DecidableEq, Repr

/-- What a law of one block says. -/
def LocalLaw.holds : LocalLaw → State → Prop
  | .lanes => LanesLaw
  | .stackTops => StackLaw
  | .profiles => ProfileLaw
  | .time => TimeLaw
  | .intake => IntakeLaw
  | .panel => PanelLaw
  | .pin => PinLaw
  | .report => ReportLaw
  | .shadow => ShadowLaw

/-- Nothing but the parts named has changed, and every law of one block that held still holds. -/
structure Within (ps : List Part) (s t : State) : Prop where
  frame : Frame ps s t
  keeps : ∀ l : LocalLaw, l.holds s → l.holds t

theorem Within.refl (ps : List Part) (s : State) : Within ps s s := ⟨.refl ps s, fun _ h => h⟩

theorem Within.trans {ps : List Part} {s t u : State} (h : Within ps s t) (k : Within ps t u) :
    Within ps s u := ⟨h.frame.trans k.frame, fun l hl => k.keeps l (h.keeps l hl)⟩

theorem Within.mono {ps qs : List Part} {s t : State} (h : Within ps s t) (sub : ∀ p, p ∈ ps → p ∈ qs) :
    Within qs s t := ⟨h.frame.mono sub, h.keeps⟩

/-- Two operations, one after the other, each within its own parts. -/
theorem Within.andThen {ps qs rs : List Part} {s t u : State} (h : Within ps s t) (k : Within qs t u)
    (hs : ∀ p, p ∈ ps → p ∈ rs) (ks : ∀ p, p ∈ qs → p ∈ rs) : Within rs s u :=
  (h.mono hs).trans (k.mono ks)

theorem Within.foldl {α : Type} {ps : List Part} {f : State → α → State}
    (h : ∀ s a, Within ps s (f s a)) (l : List α) (s : State) : Within ps s (l.foldl f s) := by
  induction l generalizing s with
  | nil => exact .refl ps s
  | cons a l ih => exact (h s a).trans (ih (f s a))

theorem Within.ite {ps : List Part} {c : Prop} [Decidable c] {s t u : State} (h : Within ps s t)
    (k : Within ps s u) : Within ps s (if c then t else u) := by
  split <;> assumption

/-! ### Writes of one block -/

/-- A change of the report unit alone. -/
theorem within_report {ps : List Part} {s : State} {r : ReportUnit}
    (h1 : .notices ∈ ps ∨ (r.queue = s.report.queue ∧ r.attention = s.report.attention))
    (h2 : .flags ∈ ps ∨ (r.sticky = s.report.sticky ∧ r.lost = s.report.lost))
    (h3 : .masks ∈ ps ∨ r.masks = s.report.masks)
    (h4 : .attentionLevels ∈ ps ∨ (r.level = s.report.level ∧ r.urgent = s.report.urgent))
    (h5 : .view ∈ ps ∨ r.view = s.report.view)
    (law : ReportLaw s → ReportLaw { s with report := r }) : Within ps s { s with report := r } := by
  refine ⟨fun p hp => ?_, fun l hl => ?_⟩
  · cases p
    case notices => exact h1.resolve_left hp
    case flags => exact h2.resolve_left hp
    case masks => exact h3.resolve_left hp
    case attentionLevels => exact h4.resolve_left hp
    case view => exact h5.resolve_left hp
    all_goals first | exact rfl | exact ⟨rfl, rfl⟩ | exact ⟨rfl, rfl, rfl⟩ | exact ⟨rfl, rfl, rfl, rfl⟩
  · cases l
    case report => exact law hl
    all_goals exact hl

/-- A change of the panel link alone. -/
theorem within_panel {ps : List Part} {s : State} {p : PanelLink}
    (h1 : .listener ∈ ps ∨ (p.listener = s.panel.listener ∧ p.awaited = s.panel.awaited))
    (h2 : .panelAddresses ∈ ps ∨
      (p.listenerAddress = s.panel.listenerAddress ∧ p.panelAddress = s.panel.panelAddress))
    (h3 : .keyFifo ∈ ps ∨ p.fifo = s.panel.fifo)
    (h4 : .transmitQueue ∈ ps ∨ p.queue = s.panel.queue)
    (h5 : .transmitter ∈ ps ∨ (p.transmitter = s.panel.transmitter ∧ p.outstanding = s.panel.outstanding
      ∧ p.holding = s.panel.holding ∧ p.shifting = s.panel.shifting))
    (h6 : .lampRecord ∈ ps ∨ p.lampRecord = s.panel.lampRecord)
    (h7 : .sentFrames ∈ ps ∨ p.sent = s.panel.sent)
    (law : PanelLaw s → PanelLaw (s.putPanel p)) : Within ps s (s.putPanel p) := by
  refine ⟨fun q hq => ?_, fun l hl => ?_⟩
  · cases q
    case listener => exact h1.resolve_left hq
    case panelAddresses => exact h2.resolve_left hq
    case keyFifo => exact h3.resolve_left hq
    case transmitQueue => exact h4.resolve_left hq
    case transmitter => exact h5.resolve_left hq
    case lampRecord => exact h6.resolve_left hq
    case sentFrames => exact h7.resolve_left hq
    all_goals first | exact rfl | exact ⟨rfl, rfl⟩ | exact ⟨rfl, rfl, rfl⟩
  · cases l
    case panel => exact law hl
    all_goals exact hl

/-- A change of the PIN authority alone. -/
theorem within_pin {ps : List Part} {s : State} {p : PinAuthority}
    (h1 : .storedPin ∈ ps ∨ p.stored = s.pin.stored) (h2 : .matcher ∈ ps ∨ p.matcher = s.pin.matcher)
    (h3 : .pinEntry ∈ ps ∨ p.entry = s.pin.entry)
    (h4 : .failures ∈ ps ∨ (p.failures = s.pin.failures ∧ p.step = s.pin.step))
    (h5 : .lockoutTimer ∈ ps ∨ p.timer = s.pin.timer)
    (h6 : .session ∈ ps ∨ p.sessionOpen = s.pin.sessionOpen)
    (h7 : .sessionRemaining ∈ ps ∨ p.sessionRemaining = s.pin.sessionRemaining)
    (h8 : .sessionLength ∈ ps ∨ p.sessionLength = s.pin.sessionLength)
    (law : PinLaw s → PinLaw (s.putPin p)) : Within ps s (s.putPin p) := by
  refine ⟨fun q hq => ?_, fun l hl => ?_⟩
  · cases q
    case storedPin => exact h1.resolve_left hq
    case matcher => exact h2.resolve_left hq
    case pinEntry => exact h3.resolve_left hq
    case failures => exact h4.resolve_left hq
    case lockoutTimer => exact h5.resolve_left hq
    case session => exact h6.resolve_left hq
    case sessionRemaining => exact h7.resolve_left hq
    case sessionLength => exact h8.resolve_left hq
    all_goals first | exact rfl | exact ⟨rfl, rfl⟩ | exact ⟨rfl, rfl, rfl⟩ | exact ⟨rfl, rfl, rfl, rfl⟩
  · cases l
    case pin => exact law hl
    all_goals exact hl

/-- A change of one output context alone. -/
theorem within_context {ps : List Part} {s : State} {o : Output} {c : OutputContext}
    (h1 : .profileBinding o ∈ ps ∨ c.profile = (s.context o).profile)
    (h2 : .serviceBinding o ∈ ps ∨ c.service = (s.context o).service)
    (h3 : .verdict o ∈ ps ∨ (c.verdict = (s.context o).verdict ∧ c.reason = (s.context o).reason))
    (h4 : .pendingSince o ∈ ps ∨ c.pendingSince = (s.context o).pendingSince)
    (h5 : .stack o ∈ ps ∨ c.stack = (s.context o).stack)
    (law : stackLaw (s.context o).stack → stackLaw c.stack) : Within ps s (s.putContext o c) := by
  refine ⟨fun p hp => ?_, fun l hl => ?_⟩
  · cases p
    case profileBinding o' =>
      simp only [Part.same, context_putContext]
      split
      · next h => subst h; exact h1.resolve_left hp
      · rfl
    case serviceBinding o' =>
      simp only [Part.same, context_putContext]
      split
      · next h => subst h; exact h2.resolve_left hp
      · rfl
    case verdict o' =>
      simp only [Part.same, context_putContext]
      split
      · next h => subst h; exact h3.resolve_left hp
      · exact ⟨rfl, rfl⟩
    case pendingSince o' =>
      simp only [Part.same, context_putContext]
      split
      · next h => subst h; exact h4.resolve_left hp
      · rfl
    case stack o' =>
      simp only [Part.same, context_putContext]
      split
      · next h => subst h; exact h5.resolve_left hp
      · rfl
    all_goals first | exact rfl | exact ⟨rfl, rfl⟩ | exact ⟨rfl, rfl, rfl⟩ | exact ⟨rfl, rfl, rfl, rfl⟩
  · cases l
    case stackTops =>
      intro o'
      simp only [context_putContext]
      split
      · exact law (hl o)
      · exact hl o'
    all_goals exact hl

/-- A change of one profile record alone. -/
theorem within_profile {ps : List Part} {s : State} {n : Fin 8} {p : Profile}
    (h : .profile n ∈ ps)
    (law : (s.profile n).inRange ∧ (s.profile n).emptyHoldsNothing → p.inRange ∧ p.emptyHoldsNothing) :
    Within ps s (s.putProfile n p) := by
  refine ⟨fun q hq => ?_, fun l hl => ?_⟩
  · cases q
    case profile m =>
      simp only [Part.same, profile_putProfile]
      split
      · next e => subst e; exact absurd h hq
      · rfl
    all_goals first | exact rfl | exact ⟨rfl, rfl⟩ | exact ⟨rfl, rfl, rfl⟩ | exact ⟨rfl, rfl, rfl, rfl⟩
  · cases l
    case profiles =>
      refine ⟨fun m => ?_, hl.2⟩
      rw [profile_putProfile]
      split
      · exact law (hl.1 n)
      · exact hl.1 m
    all_goals exact hl

/-- A change of the image unit alone. -/
theorem within_image {ps : List Part} {s : State} {i : ImageUnit}
    (h1 : .imageOperation ∈ ps ∨ i.operation = s.image.operation)
    (h2 : .imageBuffer ∈ ps ∨ i.buffer = s.image.buffer)
    (law : ProfileLaw s → ∀ n slot q, i.operation = .exporting n slot q → q.inRange) :
    Within ps s { s with image := i } := by
  refine ⟨fun q hq => ?_, fun l hl => ?_⟩
  · cases q
    case imageOperation => exact h1.resolve_left hq
    case imageBuffer => exact h2.resolve_left hq
    all_goals first | exact rfl | exact ⟨rfl, rfl⟩ | exact ⟨rfl, rfl, rfl⟩ | exact ⟨rfl, rfl, rfl, rfl⟩
  · cases l
    case profiles => exact ⟨hl.1, law hl⟩
    all_goals exact hl

/-- A change of one rating slot alone. -/
theorem within_entry {ps : List Part} {s : State} {n : Fin 64} {e : Option Entry} (h : .entry n ∈ ps) :
    Within ps s (s.putEntry n e) := by
  refine ⟨fun q hq => ?_, fun l hl => ?_⟩
  · cases q
    case entry m =>
      simp only [Part.same, entry_putEntry]
      split
      · next e => subst e; exact absurd h hq
      · rfl
    all_goals first | exact rfl | exact ⟨rfl, rfl⟩ | exact ⟨rfl, rfl, rfl⟩ | exact ⟨rfl, rfl, rfl, rfl⟩
  · cases l
    all_goals exact hl

/-- A change of the rating table alone. -/
theorem within_rating {ps : List Part} {s : State} {r : RatingTable}
    (h1 : ∀ n, .entry n ∈ ps ∨ r.entries[n] = s.rating.entries[n])
    (h2 : .schemes ∈ ps ∨ r.schemes = s.rating.schemes)
    (h3 : .promotions ∈ ps ∨
      (r.promotionDue = s.rating.promotionDue ∧ r.promotionWall = s.rating.promotionWall)) :
    Within ps s { s with rating := r } := by
  refine ⟨fun q hq => ?_, fun l hl => ?_⟩
  · cases q
    case entry m => exact (h1 m).resolve_left hq
    case schemes => exact h2.resolve_left hq
    case promotions => exact h3.resolve_left hq
    all_goals first | exact rfl | exact ⟨rfl, rfl⟩ | exact ⟨rfl, rfl, rfl⟩ | exact ⟨rfl, rfl, rfl, rfl⟩
  · cases l
    all_goals exact hl

/-- A change of the time base alone. -/
theorem within_time {ps : List Part} {s : State} {b : TimeBase}
    (h1 : .run ∈ ps ∨ b.run = s.time.run)
    (h2 : .wall ∈ ps ∨ (b.source = s.time.source ∧ b.day = s.time.day ∧ b.second = s.time.second))
    (h3 : .offset ∈ ps ∨ b.offset = s.time.offset) (h4 : .dayStart ∈ ps ∨ b.dayStart = s.time.dayStart)
    (h5 : .profileDay ∈ ps ∨ b.profileDay = s.time.profileDay)
    (law : TimeLaw s → TimeLaw { s with time := b }) : Within ps s { s with time := b } := by
  refine ⟨fun q hq => ?_, fun l hl => ?_⟩
  · cases q
    case run => exact h1.resolve_left hq
    case wall => exact h2.resolve_left hq
    case offset => exact h3.resolve_left hq
    case dayStart => exact h4.resolve_left hq
    case profileDay => exact h5.resolve_left hq
    all_goals first | exact rfl | exact ⟨rfl, rfl⟩ | exact ⟨rfl, rfl, rfl⟩ | exact ⟨rfl, rfl, rfl, rfl⟩
  · cases l
    case time => exact law hl
    all_goals exact hl

/-- A change of the section intake alone. -/
theorem within_intake {ps : List Part} {s : State} {i : Intake}
    (h1 : ∀ w, .sectionWindow w ∈ ps ∨ i.windows[w] = s.intake.windows[w])
    (h2 : .intakeQueue ∈ ps ∨ (i.queue = s.intake.queue ∧ i.parsing = s.intake.parsing))
    (h3 : .flow ∈ ps ∨ i.flow = s.intake.flow)
    (h4 : .intakeLevels ∈ ps ∨ (i.haltLevel = s.intake.haltLevel ∧ i.resumeLevel = s.intake.resumeLevel))
    (law : IntakeLaw s → IntakeLaw { s with intake := i }) : Within ps s { s with intake := i } := by
  refine ⟨fun q hq => ?_, fun l hl => ?_⟩
  · cases q
    case sectionWindow w => exact (h1 w).resolve_left hq
    case intakeQueue => exact h2.resolve_left hq
    case flow => exact h3.resolve_left hq
    case intakeLevels => exact h4.resolve_left hq
    all_goals first | exact rfl | exact ⟨rfl, rfl⟩ | exact ⟨rfl, rfl, rfl⟩ | exact ⟨rfl, rfl, rfl, rfl⟩
  · cases l
    case intake => exact law hl
    all_goals exact hl

/-- A change of the lanes alone. -/
theorem within_lanes {ps : List Part} {s : State} {x : Lanes}
    (h1 : ∀ o k, .window o k ∈ ps ∨ (x.windows.get o).get k = s.window o k)
    (h2 : .layout ∈ ps ∨ x.layout = s.lanes.layout)
    (h3 : .presentationTable ∈ ps ∨ x.presentation = s.lanes.presentation)
    (h4 : .controlTable ∈ ps ∨ x.control = s.lanes.control)
    (h5 : .heldPresentation ∈ ps ∨ x.heldPresentation = s.lanes.heldPresentation)
    (h6 : .heldControl ∈ ps ∨ x.heldControl = s.lanes.heldControl)
    (h7 : .nextMark ∈ ps ∨ x.nextMark = s.lanes.nextMark)
    (h8 : ∀ o, .activity o ∈ ps ∨ x.activity.get o = s.lanes.activity.get o)
    (h9 : .transfers ∈ ps ∨ x.out = s.lanes.out)
    (law : LanesLaw s → LanesLaw { s with lanes := x }) : Within ps s { s with lanes := x } := by
  refine ⟨fun q hq => ?_, fun l hl => ?_⟩
  · cases q
    case window o k => exact (h1 o k).resolve_left hq
    case layout => exact h2.resolve_left hq
    case presentationTable => exact h3.resolve_left hq
    case controlTable => exact h4.resolve_left hq
    case heldPresentation => exact h5.resolve_left hq
    case heldControl => exact h6.resolve_left hq
    case nextMark => exact h7.resolve_left hq
    case activity o => exact (h8 o).resolve_left hq
    case transfers => exact h9.resolve_left hq
    all_goals first | exact rfl | exact ⟨rfl, rfl⟩ | exact ⟨rfl, rfl, rfl⟩ | exact ⟨rfl, rfl, rfl, rfl⟩
  · cases l
    case lanes => exact law hl
    all_goals exact hl

/-- A change of the command unit alone. -/
theorem within_command {ps : List Part} {s : State} {c : CommandUnit}
    (h1 : .shadow ∈ ps ∨ c.shadow = s.command.shadow) (h2 : .pointer ∈ ps ∨ c.pointer = s.command.pointer)
    (h3 : ∀ n, .slot n ∈ ps ∨ c.slots[n] = s.command.slots[n])
    (law : ShadowLaw s → ShadowLaw { s with command := c }) : Within ps s { s with command := c } := by
  refine ⟨fun q hq => ?_, fun l hl => ?_⟩
  · cases q
    case shadow => exact h1.resolve_left hq
    case pointer => exact h2.resolve_left hq
    case slot n => exact (h3 n).resolve_left hq
    all_goals first | exact rfl | exact ⟨rfl, rfl⟩ | exact ⟨rfl, rfl, rfl⟩ | exact ⟨rfl, rfl, rfl, rfl⟩
  · cases l
    case shadow => exact law hl
    all_goals exact hl

/-- A change of one command slot alone. -/
theorem within_slot {ps : List Part} {s : State} {i : Fin 16} {c : CommandSlot} (h : .slot i ∈ ps) :
    Within ps s (s.putSlot i c) := by
  refine within_command (.inr rfl) (.inr rfl) (fun n => ?_) (fun hl => hl)
  by_cases e : n = i
  · exact .inl (e ▸ h)
  · exact .inr (by
      have := slot_putSlot_ne s c e
      simpa [State.slot, State.putSlot] using this)

end Sys2Proof.Machine
end

