-- ==== Sys2Proof/Laws/Ops.lean ====
section
/-! SUPPORT. What the shared operations of Ops.lean do: raising a notice, offering a message, handing over
a lamp state. -/

namespace Sys2Proof.Machine

open Sys2Proof

/-! ### Raising a notice (R184) -/

theorem raised_masks (r : ReportUnit) (k : NoticeKind) (subj : Word) (d : List Byte) (run : Nat) :
    (r.raised k subj d run).masks = r.masks := by
  unfold ReportUnit.raised; split_ifs <;> rfl

theorem raised_level (r : ReportUnit) (k : NoticeKind) (subj : Word) (d : List Byte) (run : Nat) :
    (r.raised k subj d run).level = r.level := by
  unfold ReportUnit.raised; split_ifs <;> rfl

theorem raised_urgent (r : ReportUnit) (k : NoticeKind) (subj : Word) (d : List Byte) (run : Nat) :
    (r.raised k subj d run).urgent = r.urgent := by
  unfold ReportUnit.raised; split_ifs <;> rfl

theorem raised_view (r : ReportUnit) (k : NoticeKind) (subj : Word) (d : List Byte) (run : Nat) :
    (r.raised k subj d run).view = r.view := by
  unfold ReportUnit.raised; split_ifs <;> rfl

/-- The kinds and subjects of a queue are not changed by coalescing. -/
theorem coalesce_names (q : List Notice) (k : NoticeKind) (subj : Word) (d : List Byte) :
    (q.map (fun n => if n.isFor k subj then n.coalesced d else n)).map (fun n => (n.kind, n.subject))
      = q.map (fun n => (n.kind, n.subject)) := by
  rw [List.map_map]
  refine List.map_congr_left fun n _ => ?_
  simp only [Function.comp]
  split <;> rfl

/-- A raising keeps the law of the report unit. -/
theorem raised_law {s : State} (h : ReportLaw s) (k : NoticeKind) (subj : Word) (d : List Byte) (run : Nat) :
    ReportLaw { s with report := s.report.raised k subj d run } := by
  obtain ⟨h1, h2, h3, h4, h5, h6, h7⟩ := h
  unfold ReportLaw ReportUnit.raised
  split_ifs with hm ha hl
  · exact ⟨h1, h2, h3, h4, h5, h6, h7⟩
  · refine ⟨?_, ?_, ?_, h4, h5, h6, rfl⟩
    · simpa [ReportUnit.judged] using h1
    · simpa only [ReportUnit.judged, coalesce_names] using h2
    · intro n hn
      simp only [ReportUnit.judged, List.mem_map] at hn
      obtain ⟨m, hm', rfl⟩ := hn
      have := h3 m hm'
      split
      · simp only [Notice.coalesced]; omega
      · exact this
  · refine ⟨?_, ?_, ?_, h4, h5, h6, rfl⟩
    · simp only [ReportUnit.judged, List.length_append, List.length_singleton]; omega
    · simp only [ReportUnit.judged, List.map_append, List.map_cons, List.map_nil]
      refine List.Nodup.append h2 (List.nodup_singleton _) ?_
      simp only [List.disjoint_singleton, List.mem_map, not_exists, not_and]
      intro n hn e
      apply ha
      simp only [List.any_eq_true]
      refine ⟨n, hn, ?_⟩
      simp only [Prod.mk.injEq] at e
      simp [Notice.isFor, e.1, e.2]
    · intro n hn
      simp only [ReportUnit.judged, List.mem_append, List.mem_singleton] at hn
      rcases hn with hn | rfl
      · exact h3 n hn
      · simp
  · exact ⟨h1, h2, h3, h4, h5, h6, h7⟩

/-- Raising a notice changes only the notice queue, the attention line and the flags. -/
theorem raise_within (k : NoticeKind) (subj : Nat) (d : List Byte) (s : State) :
    Within raised s (raise k subj d s) := by
  unfold raise
  split
  · exact .refl _ s
  · exact within_report (.inl (by simp)) (.inl (by simp)) (.inr (raised_masks ..))
      (.inr ⟨raised_level .., raised_urgent ..⟩) (.inr (raised_view ..)) (fun h => raised_law h ..)

/-! ### Messages and the lamp (R161, R164) -/

theorem panelLaw_queue {s : State} {q : List Message} {l : LampRecord} (h : PanelLaw s)
    (h1 : q.length ≤ Config.transmitCapacity) (h2 : (q.filter Message.isLamp).length ≤ 1) :
    PanelLaw (s.putPanel { s.panel with queue := q, lampRecord := l }) :=
  ⟨h.1, h1, h2, h.2.2.2⟩

/-- Offering a message that is no LAMP changes only the transmit queue. -/
theorem offerMessage_within (m : Message) (hm : m.isLamp = false) (s : State) :
    Within [.transmitQueue] s (offerMessage m s) := by
  unfold offerMessage
  split
  · next hl =>
    refine within_panel (.inr ⟨rfl, rfl⟩) (.inr ⟨rfl, rfl⟩) (.inr rfl) (.inl (by simp))
      (.inr ⟨rfl, rfl, rfl, rfl⟩) (.inr rfl) (.inr rfl) (fun h => ?_)
    refine ⟨h.1, ?_, ?_, h.2.2.2⟩
    · simp only [putPanel_panel, List.length_append, List.length_singleton]; omega
    · simpa [hm] using h.2.2.1
  · exact .refl _ s

@[simp] theorem isLamp_lamp (l : Lamp) : (Message.lamp l).isLamp = true := rfl

theorem relamp_filter (q : List Message) (l : Lamp) :
    ((q.map (fun m => if m.isLamp then Message.lamp l else m)).filter Message.isLamp).length
      = (q.filter Message.isLamp).length := by
  induction q with
  | nil => rfl
  | cons m q ih =>
    simp only [List.map_cons]
    by_cases h : m.isLamp
    · simp [h, List.filter_cons, ih]
    · simp [h, ih]

/-- Handing over a lamp state changes only the lamp record and the transmit queue. -/
theorem handLamp_within (l : Lamp) (s : State) : Within lit s (handLamp l s) := by
  unfold handLamp offerLamp offerMessage
  split_ifs with h1 h2 h3
  · exact .refl _ s
  · refine within_panel (.inr ⟨rfl, rfl⟩) (.inr ⟨rfl, rfl⟩) (.inr rfl) (.inl (by simp))
      (.inr ⟨rfl, rfl, rfl, rfl⟩) (.inl (by simp)) (.inr rfl) (fun h => ?_)
    refine ⟨h.1, ?_, ?_, h.2.2.2⟩
    · simpa using h.2.1
    · simpa only [putPanel_panel, relamp_filter] using h.2.2.1
  · refine within_panel (.inr ⟨rfl, rfl⟩) (.inr ⟨rfl, rfl⟩) (.inr rfl) (.inl (by simp))
      (.inr ⟨rfl, rfl, rfl, rfl⟩) (.inl (by simp)) (.inr rfl) (fun h => ?_)
    refine ⟨h.1, ?_, ?_, h.2.2.2⟩
    · simp only [putPanel_panel, List.length_append, List.length_singleton]
      simp only at h3
      omega
    · simp only [putPanel_panel, List.filter_append, List.length_append]
      have : s.panel.queue.filter Message.isLamp = [] := by
        simp only [List.filter_eq_nil_iff]
        intro m hm e
        exact h2 (List.any_eq_true.2 ⟨m, hm, e⟩)
      simp [this, List.filter_cons]
  · refine within_panel (.inr ⟨rfl, rfl⟩) (.inr ⟨rfl, rfl⟩) (.inr rfl) (.inr rfl)
      (.inr ⟨rfl, rfl, rfl, rfl⟩) (.inl (by simp)) (.inr rfl) (fun h => ?_)
    exact h

/-- Computing the lamp state changes only the lamp record and the transmit queue. -/
theorem recomputeLamp_within (s : State) : Within lit s (recomputeLamp s) := handLamp_within _ s

/-- R164: after a lamp state is handed over the record holds it. -/
theorem handLamp_record (l : Lamp) (s : State) : (handLamp l s).panel.lampRecord = some l := by
  unfold handLamp offerLamp offerMessage
  split_ifs with h1 h2 h3 <;> first | exact h1 | rfl

end Sys2Proof.Machine
end

