-- ==== Sys2Proof/Laws/Verdict.lean ====
section
/-! SUPPORT. What an evaluation does (R30, R47 to R49): it writes what the tests decide, tells what changed,
and leaves everything that it reads. -/

namespace Sys2Proof.Machine

open Sys2Proof

/-! ### What the tests read -/

/-- What the decision about an output is made from (R30). -/
def judgeReads (o : Output) : List Part :=
  [.profileBinding o, .serviceBinding o, .pendingSince o, .stack o, .run, .wall, .offset]
    ++ everyProfile ++ everyEntry

theorem profile_mem_everyProfile (n : Fin 8) : Part.profile n ∈ everyProfile := by
  fin_cases n <;> simp [everyProfile, allProfiles]

theorem entry_mem_everyEntry (n : Fin 64) : Part.entry n ∈ everyEntry := by
  simp [everyEntry, allRatingSlots]

/-- The decision depends on nothing but what it reads. -/
theorem judge_congr {s t : State} {o : Output}
    (hp : (t.context o).profile = (s.context o).profile)
    (hs : (t.context o).service = (s.context o).service)
    (hq : (t.context o).pendingSince = (s.context o).pendingSince)
    (hk : (t.context o).stack = (s.context o).stack)
    (hr : t.time.run = s.time.run)
    (hw : t.time.source = s.time.source ∧ t.time.day = s.time.day ∧ t.time.second = s.time.second)
    (ho : t.time.offset = s.time.offset)
    (hpr : ∀ n, t.profile n = s.profile n) (he : ∀ n, t.entry n = s.entry n) :
    judge t o = judge s o := by
  have hb : t.boundEntry o = s.boundEntry o := by
    have : t.entry = s.entry := funext he
    simp [State.boundEntry, hs, this]
  have hc : t.currentEvent o = s.currentEvent o := by simp [State.currentEvent, hb]
  have hkey : t.boundKey o = s.boundKey o := by simp [State.boundKey, hb]
  have hl : t.time.localSeconds = s.time.localSeconds := by
    simp [TimeBase.localSeconds, TimeBase.wallCount, hw.2.1, hw.2.2, ho]
  have hset : t.time.isSet = s.time.isSet := by simp [TimeBase.isSet, hw.1]
  have hd : t.time.weekday = s.time.weekday := by simp [TimeBase.weekday, hl]
  have htod : t.time.timeOfDay = s.time.timeOfDay := by simp [TimeBase.timeOfDay, hl]
  have h5 : curfewTest t.time = curfewTest s.time := by
    funext p l; simp only [curfewTest, hd, htod, hset]
  have h9 : curfewNearTest t.time = curfewNearTest s.time := by
    funext p l; simp only [curfewNearTest, hd, htod, hset]
  have hj : ∀ p, judgeProfile t o p = judgeProfile s o p := fun p => by
    simp only [judgeProfile, hs, hq, hk, hr, hc, hkey, h5, h9]
  simp only [judge, hp, hpr, hj]

/-- The decision is the same in two states that differ only in parts it does not read. -/
theorem judge_frame {ps : List Part} {s t : State} {o : Output} (h : Frame ps s t)
    (d : ∀ p ∈ judgeReads o, p ∉ ps) : judge t o = judge s o := by
  refine judge_congr (h (.profileBinding o) (d _ (by simp [judgeReads])))
    (h (.serviceBinding o) (d _ (by simp [judgeReads]))) (h (.pendingSince o) (d _ (by simp [judgeReads])))
    (h (.stack o) (d _ (by simp [judgeReads])))
    (h .run (d _ (by simp [judgeReads]))) (h .wall (d _ (by simp [judgeReads])))
    (h .offset (d _ (by simp [judgeReads]))) (fun n => h (.profile n) (d _ ?_)) (fun n => h (.entry n) (d _ ?_))
  · exact List.mem_append_left _ (List.mem_append_right _ (profile_mem_everyProfile n))
  · exact List.mem_append_right _ (entry_mem_everyEntry n)

/-- Being up to date survives what changes neither the output's verdict nor what it is judged by. -/
theorem UpToDate.frame {ps : List Part} {s t : State} {o : Output} (u : UpToDate s o) (h : Frame ps s t)
    (d : ∀ p ∈ judgeReads o, p ∉ ps) (hv : .verdict o ∉ ps) : UpToDate t o := by
  have v := h _ hv
  simp only [Part.same] at v
  simp only [UpToDate, v.1, v.2, judge_frame h d] at u ⊢
  exact u

theorem judged_disjoint {o o' : Output} {p : Part} (hp : p ∈ judgeReads o) : p ∉ judgedParts o' := by
  intro hq
  simp only [judgeReads, List.cons_append, List.nil_append, List.mem_cons, List.mem_append,
    everyProfile, everyEntry, List.mem_map] at hp
  simp only [judgedParts, raised, lit, List.cons_append, List.nil_append, List.mem_cons,
    List.not_mem_nil, or_false] at hq
  rcases hq with rfl | rfl | rfl | rfl | rfl <;> simp at hp

/-! ### One evaluation -/

theorem warnBudget_within (o : Output) (r : Verdict × Reason) (s : State) :
    Within raised s (warnBudget o r s) := by
  unfold warnBudget
  split
  · split
    · exact raise_within ..
    · exact .refl _ s
  · exact .refl _ s

theorem changeVerdict_within (o : Output) (r : Verdict × Reason) (s : State) :
    Within (judgedParts o) s (changeVerdict o r s) := by
  have h1 : Within (judgedParts o) s
      (s.putContext o { s.context o with verdict := r.1, reason := r.2 }) :=
    within_context (.inr rfl) (.inr rfl) (.inl (by simp)) (.inr rfl) (.inr rfl) id
  have h2 := h1.trans ((raise_within .verdictChanged (outputCode o)
    (nat8 (verdictCode r.1) ++ nat8 (reasonCode r.2) ++ [slotByte (s.context o).profile]) _).mono
      (by simp))
  have h3 := h2.trans ((warnBudget_within o r _).mono (by simp))
  simp only [changeVerdict]
  split
  · exact h3
  · exact h3.trans ((recomputeLamp_within _).mono (by simp))

/-- An evaluation changes only the output's verdict and what is told of the change. -/
theorem evaluate_within (o : Output) (s : State) : Within (judgedParts o) s (evaluate o s) := by
  unfold evaluate
  split_ifs
  · exact .refl _ s
  · exact .refl _ s
  · exact changeVerdict_within ..

theorem evaluate_within_all (o : Output) (s : State) : Within allJudged s (evaluate o s) :=
  (evaluate_within o s).mono (by cases o <;> simp)

theorem raise_outputs (k : NoticeKind) (subj : Nat) (d : List Byte) (s : State) :
    (raise k subj d s).outputs = s.outputs := by unfold raise; split <;> rfl

theorem warnBudget_outputs (o : Output) (r : Verdict × Reason) (s : State) :
    (warnBudget o r s).outputs = s.outputs := by
  unfold warnBudget; split
  · split
    · exact raise_outputs ..
    · rfl
  · rfl

theorem handLamp_outputs (l : Lamp) (s : State) : (handLamp l s).outputs = s.outputs := by
  unfold handLamp offerLamp offerMessage; split_ifs <;> rfl

/-- The output contexts after a change of verdict. -/
theorem changeVerdict_outputs (o : Output) (r : Verdict × Reason) (s : State) :
    (changeVerdict o r s).outputs
      = s.outputs.put o { s.context o with verdict := r.1, reason := r.2 } := by
  simp only [changeVerdict]
  split
  · rw [warnBudget_outputs, raise_outputs]; rfl
  · rw [recomputeLamp, handLamp_outputs, warnBudget_outputs, raise_outputs]; rfl

/-- R30: after its evaluation an output holds what the tests decide. -/
theorem evaluate_upToDate (o : Output) (s : State) (h : s.systemReset = false) :
    UpToDate (evaluate o s) o := by
  have f := (evaluate_within o s).frame
  have hj : judge (evaluate o s) o = judge s o := judge_frame f (fun p hp => judged_disjoint hp)
  unfold UpToDate
  rw [hj]
  unfold evaluate
  split_ifs with h1 h2
  · simp [h] at h1
  · exact h2.symm
  · simp only [State.context, changeVerdict_outputs, PerOutput.get_put, if_true]

/-- R30: an evaluation leaves an output that already holds what the tests decide. -/
theorem evaluate_eq_self (o : Output) (s : State) (h : UpToDate s o) : evaluate o s = s := by
  unfold evaluate
  split_ifs with h1 h2
  · rfl
  · rfl
  · exact absurd h.symm h2

/-! ### Evaluations of several outputs -/

theorem evaluateWhere_within (chosen : OutputContext → Bool) (s : State) :
    Within allJudged s (evaluateWhere chosen s) := by
  refine Within.foldl (fun t o => ?_) allOutputs s
  split
  · exact evaluate_within_all o t
  · exact .refl _ t

/-- A choice of outputs by what an evaluation leaves. -/
def KeptByEvaluation (chosen : OutputContext → Bool) : Prop :=
  ∀ c v r, chosen { c with verdict := v, reason := r } = chosen c

theorem chosen_evaluate {chosen : OutputContext → Bool} (hc : KeptByEvaluation chosen) (o o' : Output)
    (s : State) : chosen ((evaluate o s).context o') = chosen (s.context o') := by
  have f := (evaluate_within o s).frame
  have e : (evaluate o s).context o'
      = { s.context o' with verdict := ((evaluate o s).context o').verdict
                            reason := ((evaluate o s).context o').reason } := by
    have h1 := f (.profileBinding o') (by simp)
    have h2 := f (.serviceBinding o') (by simp)
    have h3 := f (.pendingSince o') (by simp)
    have h4 := f (.stack o') (by simp)
    simp only [Part.same] at h1 h2 h3 h4
    clear f
    generalize (evaluate o s).context o' = a at *
    generalize s.context o' = b at *
    cases a; cases b; simp_all
  rw [e, hc]

/-- One evaluation in a row of them. -/
def evaluateIf (chosen : OutputContext → Bool) (o : Output) (s : State) : State :=
  if chosen (s.context o) then evaluate o s else s

theorem evaluateWhere_eq (chosen : OutputContext → Bool) (s : State) :
    evaluateWhere chosen s
      = evaluateIf chosen .remote (evaluateIf chosen .secondary (evaluateIf chosen .primary s)) := rfl

theorem evaluateIf_within (chosen : OutputContext → Bool) (o : Output) (s : State) :
    Within (judgedParts o) s (evaluateIf chosen o s) := by
  unfold evaluateIf
  split
  · exact evaluate_within o s
  · exact .refl _ s

theorem evaluateIf_upToDate {chosen : OutputContext → Bool} (o : Output) (s : State)
    (h : s.systemReset = false) (hs : chosen (s.context o) = true) : UpToDate (evaluateIf chosen o s) o := by
  unfold evaluateIf; rw [if_pos hs]; exact evaluate_upToDate o s h

theorem evaluateIf_other {chosen : OutputContext → Bool} {o o' : Output} (s : State) (ne : o ≠ o')
    (u : UpToDate s o) : UpToDate (evaluateIf chosen o' s) o := by
  refine u.frame (evaluateIf_within chosen o' s).frame (fun p hp => judged_disjoint hp) ?_
  simp only [judgedParts, raised, lit, List.cons_append, List.nil_append, List.mem_cons,
    List.not_mem_nil, or_false, not_or]
  simp [ne]

theorem evaluateIf_running (chosen : OutputContext → Bool) (o : Output) (s : State) :
    (evaluateIf chosen o s).systemReset = s.systemReset :=
  (evaluateIf_within chosen o s).frame .systemReset (by simp)

theorem chosen_evaluateIf {chosen : OutputContext → Bool} (hc : KeptByEvaluation chosen) (o o' : Output)
    (s : State) : chosen ((evaluateIf chosen o s).context o') = chosen (s.context o') := by
  unfold evaluateIf
  split
  · exact chosen_evaluate hc o o' s
  · rfl

/-- Every output chosen holds, after the evaluations, what the tests then decide. -/
theorem evaluateWhere_upToDate {chosen : OutputContext → Bool} (hc : KeptByEvaluation chosen) (s : State)
    (h : s.systemReset = false) (o : Output) (ho : chosen (s.context o) = true) :
    UpToDate (evaluateWhere chosen s) o := by
  rw [evaluateWhere_eq]
  cases o
  · exact evaluateIf_other _ (by simp) (evaluateIf_other _ (by simp) (evaluateIf_upToDate _ _ h ho))
  · refine evaluateIf_other _ (by simp) (evaluateIf_upToDate _ _ ?_ ?_)
    · rw [evaluateIf_running, h]
    · rw [chosen_evaluateIf hc, ho]
  · refine evaluateIf_upToDate _ _ ?_ ?_
    · rw [evaluateIf_running, evaluateIf_running, h]
    · rw [chosen_evaluateIf hc, chosen_evaluateIf hc, ho]

theorem evaluateIf_verdict_of_not {chosen : OutputContext → Bool} (s : State) (o : Output)
    (ho : chosen (s.context o) = false) : evaluateIf chosen o s = s := by simp [evaluateIf, ho]

theorem evaluateIf_context_other {chosen : OutputContext → Bool} {o o' : Output} (ne : o ≠ o') (s : State) :
    (evaluateIf chosen o' s).context o = s.context o := by
  unfold evaluateIf
  split
  · unfold evaluate
    split_ifs
    · rfl
    · rfl
    · simp only [State.context, changeVerdict_outputs, PerOutput.get_put, if_neg ne]
  · rfl

/-- An output that is not chosen keeps its whole context. -/
theorem evaluateWhere_context_of_not {chosen : OutputContext → Bool} (s : State)
    (o : Output) (ho : chosen (s.context o) = false) : (evaluateWhere chosen s).context o = s.context o := by
  rw [evaluateWhere_eq]
  cases o
  · rw [evaluateIf_context_other (by simp), evaluateIf_context_other (by simp),
      evaluateIf_verdict_of_not _ _ ho]
  · have h2 : chosen ((evaluateIf chosen .primary s).context .secondary) = false := by
      rw [evaluateIf_context_other (by simp)]; exact ho
    rw [evaluateIf_context_other (by simp), evaluateIf_verdict_of_not _ _ h2,
      evaluateIf_context_other (by simp)]
  · have h3 : chosen ((evaluateIf chosen .secondary (evaluateIf chosen .primary s)).context .remote)
        = false := by
      rw [evaluateIf_context_other (by simp), evaluateIf_context_other (by simp)]; exact ho
    rw [evaluateIf_verdict_of_not _ _ h3, evaluateIf_context_other (by simp),
      evaluateIf_context_other (by simp)]

theorem keptByEvaluation_true : KeptByEvaluation (fun _ => true) := fun _ _ _ => rfl

theorem keptByEvaluation_supervised : KeptByEvaluation (fun c => c.profile.isSome) := fun _ _ _ => rfl

theorem keptByEvaluation_profile (n : Fin 8) : KeptByEvaluation (fun c => decide (c.profile = some n)) :=
  fun _ _ _ => rfl

theorem keptByEvaluation_entry (n : Fin 64) : KeptByEvaluation (fun c => decide (c.service = some n)) :=
  fun _ _ _ => rfl

theorem evaluateProfile_within (n : Fin 8) (s : State) : Within allJudged s (evaluateProfile n s) :=
  evaluateWhere_within _ s

theorem evaluateEntry_within (n : Fin 64) (s : State) : Within allJudged s (evaluateEntry n s) :=
  evaluateWhere_within _ s

theorem evaluateSupervised_within (s : State) : Within allJudged s (evaluateSupervised s) :=
  evaluateWhere_within _ s

theorem evaluateAll_within (s : State) : Within allJudged s (evaluateAll s) := evaluateWhere_within _ s

end Sys2Proof.Machine
end

