-- ==== Sys2Proof/Laws/Overrides.lean ====
section
/-! SUPPORT. What the operations on override stacks do (R89 to R103): each touches its own stacks, keeps the
law of R96, and evaluates. -/

namespace Sys2Proof.Machine

open Sys2Proof

/-! ### The law of a stack -/

theorem dropSpent_length (st : List Override) : (dropSpent st).length ≤ st.length :=
  List.length_dropWhile_le _ st

/-- R96: the top of a stack without spent tops is LIVE. -/
theorem dropSpent_head (st : List Override) : ∀ e, (dropSpent st).head? = some e → e.tag = .live := by
  induction st with
  | nil => intro e h; simp [dropSpent] at h
  | cons a st ih =>
    intro e h
    by_cases ha : a.tag = .spent
    · simp only [dropSpent, List.dropWhile_cons, ha, decide_true, if_true] at h
      exact ih e h
    · simp only [dropSpent, List.dropWhile_cons, ha, decide_false, Bool.false_eq_true, if_false,
        List.head?_cons, Option.some.injEq] at h
      subst h
      cases ht : a.tag
      · rfl
      · exact absurd ht ha

theorem dropSpent_law {st : List Override} (h : st.length ≤ Config.stackDepth) : stackLaw (dropSpent st) :=
  ⟨(dropSpent_length st).trans h, dropSpent_head st⟩

theorem spendStack_law {st : List Override} (cond : Override → Bool) (h : stackLaw st) :
    stackLaw (spendStack cond st) :=
  dropSpent_law (by simpa using h.1)

theorem settleStack_law {st : List Override} (ls : Nat) (h : stackLaw st) : stackLaw (settleStack ls st) :=
  dropSpent_law (by simpa using h.1)

theorem nil_law : stackLaw [] := ⟨by simp, by simp⟩

/-- R92: a LIVE entry on a stack with room. -/
theorem cons_law {st : List Override} {e : Override} (h : st.length < Config.stackDepth)
    (he : e.tag = .live) : stackLaw (e :: st) :=
  ⟨h, by simp [he]⟩

/-- R94: what is left after a pop. -/
theorem pop_law {st : List Override} (h : stackLaw st) : stackLaw (dropSpent st.tail) :=
  dropSpent_law (by have := h.1; simp only [List.length_tail]; omega)

/-! ### Spending -/

/-- A new stack for one output. -/
theorem within_stack {s : State} {o : Output} {st : List Override}
    (law : stackLaw (s.context o).stack → stackLaw st) :
    Within [.stack o] s (s.putContext o { s.context o with stack := st }) :=
  within_context (.inr rfl) (.inr rfl) (.inr ⟨rfl, rfl⟩) (.inr rfl) (.inl (by simp)) law

theorem spendOn_within (o : Output) (cond : Override → Bool) (s : State) :
    Within [.stack o] s (spendOn o cond s) := within_stack (spendStack_law cond)

theorem stack_mem_everyStack (o : Output) : Part.stack o ∈ everyStack := by cases o <;> simp

theorem spendEventEnd_within (n : Fin 64) (s : State) : Within everyStack s (spendEventEnd n s) := by
  refine Within.foldl (fun t o => ?_) allOutputs s
  split
  · exact (spendOn_within o _ t).mono (by simpa using stack_mem_everyStack o)
  · exact .refl _ t

theorem spendReached_within (s : State) : Within everyStack s (spendReached s) :=
  Within.foldl (fun t o => (spendOn_within o _ t).mono (by simpa using stack_mem_everyStack o)) allOutputs s

theorem settleStacks_within (s : State) : Within everyStack s (settleStacks s) :=
  Within.foldl
    (fun t o => (within_stack (settleStack_law _)).mono (by simpa using stack_mem_everyStack o)) allOutputs s

/-- R99: the expiry touches the output's stack and evaluates the output. -/
theorem expireUntilTime_within (o : Output) (s : State) :
    Within (.stack o :: judgedParts o) s (expireUntilTime o s) := by
  unfold expireUntilTime
  split
  · exact (spendOn_within o _ s).andThen (evaluate_within o _) (by simp) (by simp)
  · exact .refl _ s

/-! ### Pushing, popping, clearing -/

theorem pushEntry_within (o : Output) (e : Override) (s : State)
    (h : (s.context o).stack.length < Config.stackDepth) (he : e.tag = .live) :
    Within (.stack o :: judgedParts o) s (pushEntry o e s) :=
  (within_stack (fun _ => cons_law h he)).andThen (evaluate_within o _) (by simp) (by simp)

theorem popStack_within (o : Output) (s : State) :
    Within (.stack o :: judgedParts o) s (popStack o s) :=
  (within_stack pop_law).andThen (evaluate_within o _) (by simp) (by simp)

theorem clearStack_within (o : Output) (s : State) :
    Within (.stack o :: judgedParts o) s (clearStack o s) :=
  (within_stack (fun _ => nil_law)).andThen (evaluate_within o _) (by simp) (by simp)

/-- R103: the execution of a staged push. -/
theorem executePush_within (p : StagedPush) (s : State) :
    Within (.stack p.output :: judgedParts p.output) s (executePush p s).1 := by
  unfold executePush
  split_ifs with h1 h2
  · exact .refl _ s
  · exact .refl _ s
  · split
    · exact .refl _ s
    · exact pushEntry_within _ _ _ (by omega) rfl

/-- R92: a push that passes its checks finds room on its stack. -/
theorem checkPush_room {output kind scope : Byte} {endDay : Half} {endSecond : Word} {s : State}
    {p : StagedPush} (h : checkPush output kind scope endDay endSecond s = .ok p) :
    (s.context p.output).stack.length < Config.stackDepth := by
  unfold checkPush at h
  split at h
  · simp at h
  · split at h
    · simp at h
    · split at h
      · simp at h
      · split_ifs at h with hl
        split at h
        · simp at h
        · simp only [Except.ok.injEq] at h
          subst h
          exact Nat.lt_of_not_le hl

end Sys2Proof.Machine
end

