-- ==== Sys2Proof/Laws/Accounts.lean ====
section
/-! SUPPORT. What the operations on accounts do (R50 to R69): each keeps every field of the record in its
range, touches its own slot and evaluates the outputs bound to it. -/

namespace Sys2Proof.Machine

open Sys2Proof

/-- What the laws say of one record. -/
def Profile.ok (p : Profile) : Prop := p.inRange ∧ p.emptyHoldsNothing

/-! ### Records after an operation -/

theorem ok_of_account {p q : Profile} (h : p.ok) (hs : q.state ≠ .empty)
    (e : q.ceiling = p.ceiling ∧ q.pendingLimit = p.pendingLimit ∧ q.allowance = p.allowance
      ∧ q.carryCap = p.carryCap ∧ q.lead = p.lead ∧ q.rates = p.rates ∧ q.curfews = p.curfews)
    (hr : q.remaining ≤ Config.quartersPerDay) (hc : q.charged ≤ Config.quartersPerDay)
    (hg : q.granted ≤ 1440) : q.ok := by
  obtain ⟨⟨h1, h2, h3, h4, h5, h6, h7, -⟩, -⟩ := h
  obtain ⟨e1, e2, e3, e4, e5, e6, e7⟩ := e
  refine ⟨⟨?_, ?_, ?_, ?_, ?_, ?_, ?_, hr, hc, hg⟩, fun h => absurd h hs⟩
  · rw [e1]; exact h1
  · rw [e2]; exact h2
  · rw [e3]; exact h3
  · rw [e4]; exact h4
  · rw [e5]; exact h5
  · rw [e6]; exact h6
  · rw [e7]; exact h7

theorem afterCharge_ok {p : Profile} (h : p.ok) (hs : p.state ≠ .empty) (r : Nat) : (p.afterCharge r).ok := by
  refine ok_of_account h hs ⟨rfl, rfl, rfl, rfl, rfl, rfl, rfl⟩ ?_ ?_ h.1.2.2.2.2.2.2.2.2.2
  · have := h.1.2.2.2.2.2.2.2.1
    simp only [Profile.afterCharge]
    split <;> omega
  · simp only [Profile.afterCharge]; omega

theorem rolledOver_ok {p : Profile} (h : p.ok) (hs : p.state ≠ .empty) (day : Nat) :
    (p.rolledOver day).ok := by
  refine ok_of_account h hs ⟨rfl, rfl, rfl, rfl, rfl, rfl, rfl⟩ ?_ (by simp [Profile.rolledOver])
    (by simp [Profile.rolledOver])
  have := h.1.2.2.2.2.2.2.2.1
  simp only [Profile.rolledOver]
  split <;> omega

theorem afterGrant_ok {p : Profile} (h : p.ok) (hs : p.state ≠ .empty) (m : Nat) : (p.afterGrant m).ok := by
  refine ok_of_account h hs ⟨rfl, rfl, rfl, rfl, rfl, rfl, rfl⟩ ?_ h.1.2.2.2.2.2.2.2.2.1 ?_
  · simp only [Profile.afterGrant]; omega
  · simp only [Profile.afterGrant]; omega

theorem withBudgetDay_ok {p : Profile} (h : p.ok) (hs : p.state ≠ .empty) (d : Option Nat) :
    ({ p with budgetDay := d } : Profile).ok :=
  ok_of_account h hs ⟨rfl, rfl, rfl, rfl, rfl, rfl, rfl⟩ h.1.2.2.2.2.2.2.2.1 h.1.2.2.2.2.2.2.2.2.1
    h.1.2.2.2.2.2.2.2.2.2

theorem withState_ok {p : Profile} (h : p.ok) {st : ProfileState} (hs : st ≠ .empty) :
    ({ p with state := st } : Profile).ok :=
  ok_of_account h hs ⟨rfl, rfl, rfl, rfl, rfl, rfl, rfl⟩ h.1.2.2.2.2.2.2.2.1 h.1.2.2.2.2.2.2.2.2.1
    h.1.2.2.2.2.2.2.2.2.2

theorem openedAccount_ok {p : Profile} (h : p.ok) {st : ProfileState} (hs : st ≠ .empty) (d : Option Nat) :
    (p.openedAccount st d).ok := by
  refine ok_of_account h hs ⟨rfl, rfl, rfl, rfl, rfl, rfl, rfl⟩ ?_ (by simp [Profile.openedAccount])
    (by simp [Profile.openedAccount])
  have := h.1.2.2.1
  simp only [Profile.openedAccount]
  cases ha : p.allowance with
  | none => simp
  | some a => have := this a ha; simp only [Config.quartersPerMinute, Config.quartersPerDay]; omega

theorem default_ok : Profile.default.ok := by
  refine ⟨⟨?_, ?_, ?_, ?_, ?_, ?_, ?_, ?_, ?_, ?_⟩, ?_⟩
  · simp [Profile.default]
  · simp [Profile.default]
  · simp [Profile.default]
  · simp [Profile.default]
  · simp [Profile.default]
  · intro i; fin_cases i <;> simp [Profile.default]
  · intro i w; fin_cases i <;> simp [Profile.default]
  · simp [Profile.default]
  · simp [Profile.default]
  · simp [Profile.default]
  · intro _; exact ⟨rfl, rfl, rfl, rfl⟩

/-! ### Exhaustion -/

theorem raiseExhausted_within (n : Fin 8) (s : State) : Within raised s (raiseExhausted n s) := raise_within ..

theorem noteExhaustion_within (n : Fin 8) (p : Profile) (s : State) :
    Within raised s (noteExhaustion n p s) := by
  unfold noteExhaustion
  split
  · exact raiseExhausted_within n s
  · exact .refl _ s

theorem noteExhaustion_profiles (n : Fin 8) (p : Profile) (s : State) :
    (noteExhaustion n p s).profiles = s.profiles := by
  unfold noteExhaustion raiseExhausted raise; split_ifs <;> rfl

/-! ### Charges -/

theorem chargeProfile_within (n : Fin 8) (r : Nat) (s : State) (hs : (s.profile n).state ≠ .empty) :
    Within (.profile n :: allJudged) s (chargeProfile n r s) := by
  have h := within_profile (ps := .profile n :: allJudged) (s := s) (n := n)
    (p := (s.profile n).afterCharge r) (by simp) (fun h => afterCharge_ok h hs r)
  simp only [chargeProfile]
  split
  · exact (h.trans ((raiseExhausted_within n _).mono (by simp))).trans
      ((evaluateProfile_within n _).mono (by simp))
  · exact h

/-- An evaluation leaves the records. -/
theorem evaluateWhere_profile (chosen : OutputContext → Bool) (s : State) (m : Fin 8) :
    (evaluateWhere chosen s).profile m = s.profile m :=
  (evaluateWhere_within chosen s).frame (.profile m) (by simp)

theorem raise_profile (k : NoticeKind) (subj : Nat) (d : List Byte) (s : State) (m : Fin 8) :
    (raise k subj d s).profile m = s.profile m :=
  (raise_within k subj d s).frame (.profile m) (by simp)

/-- R54: the record of a slot after its charge; the others stand. -/
theorem chargeProfile_profile (n m : Fin 8) (r : Nat) (s : State) :
    (chargeProfile n r s).profile m = if m = n then (s.profile n).afterCharge r else s.profile m := by
  simp only [chargeProfile]
  split
  · rw [evaluateProfile, evaluateWhere_profile, raiseExhausted, raise_profile, profile_putProfile]
  · rw [profile_putProfile]

theorem sampleProfile_profile (seen : State) (n m : Fin 8) (s : State) :
    (sampleProfile seen n s).profile m =
      if m = n then
        if (seen.profile n).state = .active then
          match chargeRate seen n with
          | some r => (s.profile n).afterCharge r
          | none => s.profile n
        else s.profile n
      else s.profile m := by
  unfold sampleProfile
  by_cases hm : m = n
  · subst hm
    rw [if_pos rfl]
    by_cases ha : (seen.profile m).state = .active
    · rw [if_pos ha, if_pos ha]
      cases chargeRate seen m with
      | some r => simp only [chargeProfile_profile, if_true]
      | none => rfl
    · rw [if_neg ha, if_neg ha]
  · rw [if_neg hm]
    by_cases ha : (seen.profile n).state = .active
    · rw [if_pos ha]
      cases chargeRate seen n with
      | some r => simp only [chargeProfile_profile, if_neg hm]
      | none => rfl
    · rw [if_neg ha]

theorem sampleProfile_state (seen : State) (n m : Fin 8) (s : State) :
    ((sampleProfile seen n s).profile m).state = (s.profile m).state := by
  rw [sampleProfile_profile]
  split_ifs with h1 h2
  · subst h1; split <;> rfl
  · subst h1; rfl
  · rfl

theorem sampleProfile_within (seen : State) (n : Fin 8) (s : State)
    (hs : (s.profile n).state = (seen.profile n).state) :
    Within (.profile n :: allJudged) s (sampleProfile seen n s) := by
  unfold sampleProfile
  split_ifs with ha
  · split
    · exact chargeProfile_within n _ s (by rw [hs, ha]; simp)
    · exact .refl _ s
  · exact .refl _ s

/-- A row of operations that keep a condition they need. -/
theorem Within.foldlWith {α : Type} {ps : List Part} {f : State → α → State} (C : State → Prop)
    (h : ∀ s a, C s → Within ps s (f s a) ∧ C (f s a)) (l : List α) (s : State) (hc : C s) :
    Within ps s (l.foldl f s) := by
  induction l generalizing s with
  | nil => exact .refl ps s
  | cons a l ih =>
    have := h s a hc
    exact this.1.trans (ih (f s a) this.2)

theorem profile_mem (n : Fin 8) (l : List Part) : Part.profile n ∈ everyProfile ++ l :=
  List.mem_append_left _ (profile_mem_everyProfile n)

theorem profile_cons_sub (n : Fin 8) (l : List Part) : ∀ p, p ∈ Part.profile n :: l → p ∈ everyProfile ++ l := by
  intro p hp
  rcases List.mem_cons.1 hp with rfl | hp
  · exact profile_mem n l
  · exact List.mem_append_right _ hp

theorem clearActivity_within (s : State) : Within everyActivity s (clearActivity s) := by
  refine within_lanes (fun _ _ => .inr rfl) (.inr rfl) (.inr rfl) (.inr rfl) (.inr rfl) (.inr rfl) (.inr rfl)
    (fun o => .inl (by cases o <;> simp)) (.inr rfl) id

/-- R53: the sample touches the records, the activity flags, and what its evaluations may. -/
theorem sample_within (s : State) : Within (everyProfile ++ everyActivity ++ allJudged) s (sample s) := by
  have h : Within (everyProfile ++ allJudged) s (allProfiles.foldl (fun t n => sampleProfile s n t) s) := by
    refine Within.foldlWith (fun t => ∀ m, (t.profile m).state = (s.profile m).state) ?_ allProfiles s
      (fun _ => rfl)
    intro t n ht
    refine ⟨(sampleProfile_within s n t (ht n)).mono (profile_cons_sub n _), fun m => ?_⟩
    rw [sampleProfile_state, ht]
  refine h.andThen (clearActivity_within _) ?_ ?_
  · intro p hp
    rcases List.mem_append.1 hp with hp | hp
    · exact List.mem_append_left _ (List.mem_append_left _ hp)
    · exact List.mem_append_right _ hp
  · intro p hp
    exact List.mem_append_left _ (List.mem_append_right _ hp)

/-! ### Rollover and settlement -/

theorem rollOver_within (n : Fin 8) (day : Nat) (s : State) (hs : (s.profile n).state ≠ .empty) :
    Within (.profile n :: raised) s (rollOver n day s) :=
  (within_profile (ps := .profile n :: raised) (by simp) (fun h => rolledOver_ok h hs day)).trans
    ((raise_within ..).mono (by simp))

theorem settlement_roll {p : Profile} {day : Nat} (h : p.settlement day = .roll) : p.state = .active := by
  unfold Profile.settlement at h
  split at h <;> simp_all

theorem settlement_adopt {p : Profile} {day : Nat} (h : p.settlement day = .adopt) : p.state ≠ .empty := by
  unfold Profile.settlement at h
  split at h <;> simp_all

/-- R57: a settlement touches its own record, and evaluates what is bound to it. -/
theorem settleProfile_within (n : Fin 8) (day : Nat) (s : State) :
    Within (.profile n :: allJudged) s (settleProfile n day s) := by
  unfold settleProfile
  split
  · exact .refl _ s
  · next h => exact within_profile (by simp) (fun k => withBudgetDay_ok k (settlement_adopt h) _)
  · next h =>
    have hs : (s.profile n).state ≠ .empty := by rw [settlement_roll h]; simp
    exact (((rollOver_within n day s hs).mono (by simp)).trans
      ((noteExhaustion_within n _ _).mono (by simp))).trans ((evaluateProfile_within n _).mono (by simp))

theorem settleAll_within (day : Nat) (s : State) : Within (everyProfile ++ allJudged) s (settleAll day s) :=
  Within.foldl (fun t n => (settleProfile_within n day t).mono (profile_cons_sub n _)) allProfiles s

/-! ### Grants -/

theorem grant_within (n : Fin 8) (m : Nat) (s : State) (hs : (s.profile n).state ≠ .empty) :
    Within (.profile n :: allJudged) s (grant n m s) := by
  have h := within_profile (ps := .profile n :: allJudged) (s := s) (n := n)
    (p := (s.profile n).afterGrant m) (by simp) (fun h => afterGrant_ok h hs m)
  simp only [grant]
  split
  · exact h.trans ((evaluateProfile_within n _).mono (by simp))
  · exact h

/-- R62: the record of a slot after a grant. -/
theorem grant_profile (n : Fin 8) (m : Nat) (s : State) :
    (grant n m s).profile n = (s.profile n).afterGrant m := by
  simp only [grant]
  split
  · rw [evaluateProfile, evaluateWhere_profile, profile_putProfile_self]
  · rw [profile_putProfile_self]

theorem executeGrant_within (n : Fin 8) (m : Nat) (c : Bool) (s : State) :
    Within (.profile n :: allJudged) s (executeGrant n m c s).1 := by
  unfold executeGrant
  split_ifs with h1 h2
  · exact .refl _ s
  · exact .refl _ s
  · exact grant_within n m s h2

theorem checkGrant_state {profile : Byte} {minutes : Half} {s : State} {n : Fin 8} {m : Nat} {c : Bool}
    (h : checkGrant profile minutes s = .ok (n, m, c)) : (s.profile n).state ≠ .empty := by
  unfold checkGrant at h
  split at h
  · simp at h
  · split_ifs at h with h1 h2 h3
    simp only [Except.ok.injEq, Prod.mk.injEq] at h
    obtain ⟨rfl, -⟩ := h
    exact h2

/-! ### Unbinding -/

/-- R29: the outputs bound to a slot lose their binding and are evaluated. -/
theorem unbindProfile_within (n : Fin 8) (s : State) :
    Within (everyProfileBinding ++ allJudged) s (unbindProfile n s) := by
  refine Within.foldl (fun t o => ?_) allOutputs s
  split
  · have h : Within [.profileBinding o] t (t.putContext o { t.context o with profile := none }) :=
      within_context (.inl (by simp)) (.inr rfl) (.inr ⟨rfl, rfl⟩) (.inr rfl) (.inr rfl) id
    refine h.andThen (evaluate_within o _) ?_ ?_
    · cases o <;> simp
    · cases o <;> simp
  · exact .refl _ t

end Sys2Proof.Machine
end

