-- ==== Sys2Proof/Laws/Codec.lean ====
section
/-! SUPPORT. Reading back what was laid out: the fields of R187 and the command records of section 12.3. -/

namespace Sys2Proof

theorem le16_bytes16 (x : Half) : le16 (x.extractLsb' 0 8) (x.extractLsb' 8 8) = x := by
  unfold le16
  apply BitVec.eq_of_getLsbD_eq
  intro i hi
  simp only [BitVec.getLsbD_append, BitVec.getLsbD_extractLsb']
  interval_cases i <;> simp

theorem le32_bytes32 (x : Word) :
    le32 (x.extractLsb' 0 8) (x.extractLsb' 8 8) (x.extractLsb' 16 8) (x.extractLsb' 24 8) = x := by
  unfold le32
  apply BitVec.eq_of_getLsbD_eq
  intro i hi
  simp only [BitVec.getLsbD_append, BitVec.getLsbD_extractLsb']
  interval_cases i <;> simp

theorem flagByte_bit (b : Bool) : (flagByte b).getLsbD 0 = b := by cases b <;> rfl

/-- A record begins with its header. -/
theorem commandRecord_header (code : Byte) (t : Bool) (o p : Byte) (ops : List Byte) :
    byteAt (commandRecord code t o p ops) 0 = code
      ∧ byteAt (commandRecord code t o p ops) 1 = flagByte t
      ∧ byteAt (commandRecord code t o p ops) 2 = o ∧ byteAt (commandRecord code t o p ops) 3 = p :=
  ⟨rfl, rfl, rfl, rfl⟩

/-- Section 12.3: a command's record reads back as the command. -/
theorem Command.decode_encode (c : Command) (t : Bool) : Command.decode (c.encode t) = some c := by
  cases c
  case setScheme m ages =>
    simp only [Command.encode, Command.decode]
    have h : ages = #v[ages[0], ages[1], ages[2], ages[3], ages[4], ages[5], ages[6], ages[7], ages[8],
        ages[9], ages[10], ages[11], ages[12], ages[13], ages[14], ages[15]] := by
      apply Vector.ext
      intro i hi
      interval_cases i <;> rfl
    conv_rhs => rw [h]
    rfl
  all_goals
    simp only [Command.encode, Command.decode, commandRecord, byteAt, halfAt, wordAt, bytes16, bytes32,
      List.cons_append, List.nil_append, List.getD_cons_zero, List.getD_cons_succ, le16_bytes16, le32_bytes32,
      flagByte_bit]
  all_goals rfl

/-- Section 12.3: a record is 32 bytes. -/
theorem Command.encode_length (c : Command) (t : Bool) : (c.encode t).length = 32 := by cases c <;> rfl

/-- Section 12.3: the toggle is bit 0 of byte 1. -/
theorem Command.encode_toggle (c : Command) (t : Bool) : (byteAt (c.encode t) 1).getLsbD 0 = t := by
  cases c <;> exact flagByte_bit t

end Sys2Proof
end

