-- ==== Sys2Proof/Laws/TimeBase.lean ====
section
/-! SUPPORT. What the operations of the time base do (R139 to R152): each touches its own items, spends,
settles and evaluates. -/

namespace Sys2Proof.Machine

open Sys2Proof

theorem clearFailures_within (s : State) : Within [.failures] s (clearFailures s) :=
  within_pin (.inr rfl) (.inr rfl) (.inr rfl) (.inl (by simp)) (.inr rfl) (.inr rfl) (.inr rfl) (.inr rfl)
    (fun h => ⟨h.1, h.2.1, h.2.2.1, by simp, by simp, h.2.2.2.2.2⟩)

theorem mem_dayParts_settle : ∀ p, p ∈ everyProfile ++ allJudged → p ∈ dayParts := by
  intro p hp
  rcases List.mem_append.1 hp with hp | hp
  · exact List.mem_append_left _ (List.mem_append_right _ hp)
  · exact List.mem_append_right _ hp

theorem advanceDay_within (day : Nat) (s : State) (h : s.time.isSet = true) :
    Within dayParts s (advanceDay day s) := by
  have h1 : Within dayParts s { s with time := { s.time with profileDay := some day } } :=
    within_time (.inr rfl) (.inr ⟨rfl, rfl, rfl⟩) (.inr rfl) (.inr rfl) (.inl (by simp))
      (fun k => ⟨k.1, k.2.1, k.2.2.1, k.2.2.2.1, k.2.2.2.2.1, k.2.2.2.2.2.1, fun e => by
        simp [TimeBase.isSet] at h; exact absurd e h⟩)
  refine (h1.trans ((settleAll_within day _).mono mem_dayParts_settle)).trans
    ((clearFailures_within _).mono ?_)
  intro p hp
  simp only [List.mem_singleton] at hp
  subst hp
  exact List.mem_append_left _ (List.mem_append_left _ (by simp))

theorem advances_isSet {t : TimeBase} (h : t.advances = true) : t.isSet = true := by
  simp only [TimeBase.advances, Bool.and_eq_true] at h
  exact h.1

/-- R150: the comparison touches P, and what an advance settles and evaluates. -/
theorem compareDay_within (s : State) : Within dayParts s (compareDay s) := by
  unfold compareDay
  split
  · next h => exact advanceDay_within _ s (advances_isSet h)
  · exact .refl _ s

/-- R139, R141: the advance keeps every item in its range. -/
theorem ticked_law {s : State} (h : TimeLaw s) : TimeLaw { s with time := s.time.ticked } := by
  obtain ⟨h1, h2, h3, h4, h5, h6, h7⟩ := h
  have hd : s.time.wallAfterSecond.1 ≤ 65535 := by
    unfold TimeBase.wallAfterSecond; split_ifs <;> simp only <;> omega
  have hsec : s.time.wallAfterSecond.2 ≤ 86399 := by
    unfold TimeBase.wallAfterSecond; split_ifs <;> simp only <;> omega
  refine ⟨?_, ?_, ?_, h4, h5, h6, ?_⟩
  · simp only [TimeBase.ticked]; omega
  · simp only [TimeBase.ticked]; split <;> assumption
  · simp only [TimeBase.ticked]; split <;> assumption
  · intro hu
    simp only [TimeBase.ticked] at hu
    have := h7 hu
    have hs : s.time.isSet = false := by simp [TimeBase.isSet, hu]
    simp only [TimeBase.ticked, hs, Bool.false_eq_true, if_false]
    exact this

/-- The numbers a setting of wall time may give. -/
def SettingOk (day second : Nat) (source : TimeSource) (offset : Int) : Prop :=
  day ≤ 65535 ∧ second ≤ 86399 ∧ source ≠ .unset ∧ -780 ≤ offset ∧ offset ≤ 840

theorem withWall_within {day second : Nat} {source : TimeSource} {offset : Int} (s : State)
    (h : source ≠ .unset ∧ (TimeLaw s → SettingOk day second source offset)) :
    Within [.wall, .offset] s { s with time := s.time.withWall day second source offset } :=
  within_time (.inr rfl) (.inl (by simp)) (.inl (by simp)) (.inr rfl) (.inr rfl) (fun k => by
    obtain ⟨a, b, c, d, e⟩ := h.2 k
    exact ⟨k.1, a, b, d, e, k.2.2.2.2.2.1, fun u => absurd u c⟩)

theorem noteTimeStep_within (before : TimeBase) (s : State) : Within raised s (noteTimeStep before s) := by
  unfold noteTimeStep
  split
  · exact raise_within ..
  · exact .refl _ s

theorem mem_settingParts_day : ∀ p, p ∈ dayParts → p ∈ settingParts := fun _ hp => List.mem_append_right _ hp

theorem mem_settingParts_stack : ∀ p, p ∈ everyStack → p ∈ settingParts := fun _ hp =>
  List.mem_append_left _ (List.mem_append_right _ hp)

theorem mem_dayParts_judged : ∀ p, p ∈ allJudged → p ∈ dayParts := fun _ hp => List.mem_append_right _ hp

theorem mem_dayParts_raised : ∀ p, p ∈ raised → p ∈ dayParts := fun p hp =>
  mem_dayParts_judged p (by
    simp only [allJudged, List.mem_append]
    exact .inl (.inr hp))

/-- A frame that leaves every part of the time base out keeps the time base. -/
theorem Frame.time {ps : List Part} {s t : State} (f : Frame ps s t)
    (h : ∀ p ∈ [Part.run, .wall, .offset, .dayStart, .profileDay], p ∉ ps) : t.time = s.time := by
  have h1 := f .run (h _ (by simp))
  have h2 := f .wall (h _ (by simp))
  have h3 := f .offset (h _ (by simp))
  have h4 := f .dayStart (h _ (by simp))
  have h5 := f .profileDay (h _ (by simp))
  simp only [Part.same] at h1 h2 h3 h4 h5
  clear f h
  generalize t.time = a at *
  generalize s.time = b at *
  cases a; cases b; simp_all

/-- R99: the ends met touch the stacks, and evaluate the outputs whose entries are spent. -/
theorem meetEnds_within (s : State) : Within (everyStack ++ allJudged) s (meetEnds s) :=
  Within.foldl
    (fun t o => (expireUntilTime_within o t).mono (by
      intro p hp
      rcases List.mem_cons.1 hp with rfl | hp
      · exact List.mem_append_left _ (stack_mem_everyStack o)
      · refine List.mem_append_right _ ?_
        cases o <;> simp only [List.mem_cons, List.mem_append, List.not_mem_nil, or_false] at hp ⊢ <;> tauto))
    allOutputs s

theorem meetEnds_time (s : State) : (meetEnds s).time = s.time := (meetEnds_within s).frame.time (by simp)

/-- Where no LIVE UNTIL_TIME entry is reached, as is so right after a setting, there is no end to meet. -/
theorem meetEnds_eq_self {s : State}
    (h : ∀ o, ∀ e ∈ (s.context o).stack, e.reached s.time.localSeconds = false) : meetEnds s = s := by
  have hx : ∀ o, expireUntilTime o s = s := fun o => by
    unfold expireUntilTime
    rw [if_neg]
    simp only [Bool.and_eq_true, List.any_eq_true, not_and, not_exists]
    exact fun _ e he hr => by simp [h o e he] at hr
  simp only [meetEnds, allOutputs, List.foldl_cons, List.foldl_nil, hx]

theorem mem_settingParts_met : ∀ p, p ∈ everyStack ++ allJudged → p ∈ settingParts := fun p hp =>
  (List.mem_append.1 hp).elim (mem_settingParts_stack p)
    (fun h => mem_settingParts_day p (mem_dayParts_judged p h))

/-- R143: wall time is replaced, with what follows. -/
theorem replaceWall_within {day second : Nat} {source : TimeSource} {offset : Int} (s : State)
    (h : source ≠ .unset ∧ (TimeLaw s → SettingOk day second source offset)) :
    Within settingParts s (replaceWall day second source offset s) := by
  have h1 : Within settingParts s { s with time := s.time.withWall day second source offset } :=
    (withWall_within s h).mono (by simp)
  have h2 : Within settingParts s
      (if s.time.isSet then spendReached { s with time := s.time.withWall day second source offset }
        else settleStacks { s with time := s.time.withWall day second source offset }) := by
    split
    · exact h1.trans ((spendReached_within _).mono mem_settingParts_stack)
    · exact h1.trans ((settleStacks_within _).mono mem_settingParts_stack)
  exact (((h2.trans ((compareDay_within _).mono mem_settingParts_day)).trans
    ((evaluateSupervised_within _).mono (fun p hp => mem_settingParts_day p (mem_dayParts_judged p hp)))).trans
    ((noteTimeStep_within _ _).mono (fun p hp => mem_settingParts_day p (mem_dayParts_raised p hp))))

/-- R143: a setting of wall time. -/
theorem setWall_within {day second : Nat} {source : TimeSource} {offset : Int} (s : State)
    (h : source ≠ .unset ∧ (TimeLaw s → SettingOk day second source offset)) :
    Within settingParts s (setWall day second source offset s) := by
  have h1 := (meetEnds_within s).mono mem_settingParts_met
  refine h1.trans (replaceWall_within _ ⟨h.1, fun k => h.2 ?_⟩)
  simpa only [TimeLaw, meetEnds_time] using k

/-- R142: a broadcast time. -/
theorem takeBroadcastTime_within (day second : Nat) (s : State) (hd : day ≤ 65535) (hs : second ≤ 86399) :
    Within settingParts s (takeBroadcastTime day second s) := by
  unfold takeBroadcastTime
  split
  · exact .refl _ s
  · exact setWall_within s ⟨by simp, fun k => ⟨hd, hs, by simp, k.2.2.2.1, k.2.2.2.2.1⟩⟩

/-- R145: the local offset is replaced, with what follows. -/
theorem replaceOffset_within (offset : Int) (s : State) (h1 : -780 ≤ offset) (h2 : offset ≤ 840) :
    Within settingParts s (replaceOffset offset s) := by
  have h : Within settingParts s { s with time := { s.time with offset := offset } } :=
    within_time (.inr rfl) (.inr ⟨rfl, rfl, rfl⟩) (.inl (by simp)) (.inr rfl) (.inr rfl)
      (fun k => ⟨k.1, k.2.1, k.2.2.1, h1, h2, k.2.2.2.2.2⟩)
  simp only [replaceOffset]
  split_ifs
  · exact ((h.trans ((spendReached_within _).mono mem_settingParts_stack)).trans
      ((compareDay_within _).mono mem_settingParts_day)).trans
      ((evaluateSupervised_within _).mono (fun p hp => mem_settingParts_day p (mem_dayParts_judged p hp)))
  · exact h.trans
      ((evaluateSupervised_within _).mono (fun p hp => mem_settingParts_day p (mem_dayParts_judged p hp)))

/-- R145: a local offset. -/
theorem takeOffset_within (offset : Int) (s : State) (h1 : -780 ≤ offset) (h2 : offset ≤ 840) :
    Within settingParts s (takeOffset offset s) := by
  unfold takeOffset
  split_ifs
  · exact .refl _ s
  · exact ((meetEnds_within s).mono mem_settingParts_met).trans (replaceOffset_within offset _ h1 h2)

/-- R151: the day-start minute. -/
theorem takeDayStart_within (minute : Nat) (s : State) (hm : minute ≤ 1439) :
    Within (.dayStart :: dayParts) s (takeDayStart minute s) := by
  have h : Within (.dayStart :: dayParts) s { s with time := { s.time with dayStart := minute } } :=
    within_time (.inr rfl) (.inr ⟨rfl, rfl, rfl⟩) (.inr rfl) (.inl (by simp)) (.inr rfl)
      (fun k => ⟨k.1, k.2.1, k.2.2.1, k.2.2.2.1, k.2.2.2.2.1, hm, k.2.2.2.2.2.2⟩)
  simp only [takeDayStart]
  split
  · exact (h.trans ((compareDay_within _).mono (fun _ hp => List.mem_cons_of_mem _ hp))).trans
      ((evaluateSupervised_within _).mono (fun p hp => List.mem_cons_of_mem _ (mem_dayParts_judged p hp)))
  · exact h

/-- R150: a comparison never lowers P. -/
theorem settleAll_time (day : Nat) (s : State) : (settleAll day s).time = s.time :=
  (settleAll_within day s).frame.time (by simp [everyProfile])

theorem compareDay_profileDay (s : State) :
    (compareDay s).time.profileDay
      = if s.time.advances then some s.time.computedDay else s.time.profileDay := by
  unfold compareDay
  split
  · simp only [advanceDay, clearFailures, putPin_time, settleAll_time]
  · rfl

end Sys2Proof.Machine
end

