-- ==== Sys2Proof/Laws/Rating.lean ====
section
/-! SUPPORT. What the operations of the rating table do (R123 to R137). -/

namespace Sys2Proof.Machine

open Sys2Proof

/-! ### Entries -/

theorem entry_mem (n : Fin 64) (l : List Part) : Part.entry n ∈ everyEntry ++ l :=
  List.mem_append_left _ (entry_mem_everyEntry n)

theorem entry_cons_sub (n : Fin 64) (l : List Part) : ∀ p, p ∈ Part.entry n :: l → p ∈ everyEntry ++ l := by
  intro p hp
  rcases List.mem_cons.1 hp with rfl | hp
  · exact entry_mem n l
  · exact List.mem_append_right _ hp

theorem changeEntry_within (n : Fin 64) (f : Entry → Entry) (s : State) :
    Within [.entry n] s (changeEntry n f s) := within_entry (by simp)

theorem touch_within (n : Fin 64) (s : State) : Within [.entry n] s (touch n s) := changeEntry_within n _ s

theorem ensureEntry_within (k : ServiceKey) (s : State) :
    Within [.entry (ensureEntry k s).1] s (ensureEntry k s).2 := by
  unfold ensureEntry
  split
  · exact .refl _ s
  · exact within_entry (by simp)

/-- Whether the slot holds an entry is not changed. -/
theorem changeEntry_isSome (n m : Fin 64) (f : Entry → Entry) (s : State) :
    ((changeEntry n f s).entry m).isSome = (s.entry m).isSome := by
  simp only [changeEntry, entry_putEntry]
  split
  · next h => subst h; simp
  · rfl

/-! ### Consequences -/

theorem markPending_within (n : Fin 64) (s : State) : Within everyPendingSince s (markPending n s) := by
  refine Within.foldl (fun t o => ?_) allOutputs s
  split
  · have h : Within [.pendingSince o] t
        (t.putContext o { t.context o with pendingSince := t.time.run }) :=
      within_context (.inr rfl) (.inr rfl) (.inr ⟨rfl, rfl⟩) (.inl (by simp)) (.inr rfl) id
    exact h.mono (by cases o <;> simp)
  · exact .refl _ t

theorem noteEventChange_within (n : Fin 64) (a b : Half) (c : ChangeCause) (s : State) :
    Within raised s (noteEventChange n a b c s) := by
  unfold noteEventChange
  split
  · split
    · exact raise_within ..
    · exact .refl _ s
  · exact .refl _ s

theorem carryOut_within (n : Fin 64) (cause : ChangeCause) (c : Consequence) (s : State) :
    Within consequenceParts s (carryOut n cause c s) := by
  cases c with
  | event a b =>
    exact ((((spendEventEnd_within n s).mono (by simp)).trans
      ((noteEventChange_within n a b cause _).mono (by simp))).trans
      ((evaluateEntry_within n _).mono (by simp)))
  | lost => exact (markPending_within n s).andThen (evaluateEntry_within n _) (by simp) (by simp)
  | evaluated => exact (evaluateEntry_within n s).mono (by simp)
  | nothing => exact .refl _ s

/-- R128 to R131: an entry is replaced, with the consequences of the change. -/
theorem replaceEntry_within (n : Fin 64) (e f : Entry) (cause : ChangeCause) (s : State) :
    Within (.entry n :: consequenceParts) s (replaceEntry n e f cause s) :=
  (within_entry (ps := .entry n :: consequenceParts) (by simp)).trans
    ((carryOut_within n cause _ _).mono (fun _ hp => List.mem_cons_of_mem _ hp))

/-- R127: the taking of a section. -/
theorem takeSection_within (d : ServiceSection) (s : State) :
    Within (.entry (ensureEntry d.key s).1 :: consequenceParts) s (takeSection d s) := by
  have h1 : Within (.entry (ensureEntry d.key s).1 :: consequenceParts) s
      (touch (ensureEntry d.key s).1 (ensureEntry d.key s).2) :=
    (ensureEntry_within d.key s).andThen (touch_within _ _) (by simp) (by simp)
  simp only [takeSection]
  split
  · split
    · exact h1
    · exact h1.trans (replaceEntry_within _ _ _ _ _)
  · exact h1

/-- R131, R132: the promotion test of one slot. -/
theorem testPromotion_within (n : Fin 64) (s : State) :
    Within (.entry n :: consequenceParts) s (testPromotion n s) := by
  unfold testPromotion
  split
  · exact .refl _ s
  · split
    · split
      · exact replaceEntry_within ..
      · exact .refl _ s
    · exact .refl _ s

theorem promoteOnce_within (n : Fin 64) (s : State) :
    Within (.promotions :: .entry n :: consequenceParts) s (promoteOnce n s) := by
  unfold promoteOnce
  split
  · refine Within.trans ?_ ((testPromotion_within n _).mono (fun _ hp => List.mem_cons_of_mem _ hp))
    exact within_rating (fun _ => .inr rfl) (.inr rfl) (.inl (by simp))
  · exact .refl _ s

/-- R135: a declared event. -/
theorem declareEvent_within (k : ServiceKey) (id : Half) (r : RatingRecord) (s : State) :
    Within (.entry (declareEvent k id r s).1 :: consequenceParts) s (declareEvent k id r s).2 := by
  have hn : (declareEvent k id r s).1 = (ensureEntry k s).1 := by
    simp only [declareEvent]; split <;> rfl
  have h1 : Within (.entry (ensureEntry k s).1 :: consequenceParts) s
      (touch (ensureEntry k s).1 (ensureEntry k s).2) :=
    (ensureEntry_within k s).andThen (touch_within _ _) (by simp) (by simp)
  rw [hn]
  simp only [declareEvent]
  split
  · exact h1.trans (replaceEntry_within _ _ _ _ _)
  · exact h1

/-! ### Bindings -/

theorem lowerBind_within (b : Option (Fin 64)) (s : State) : Within everyEntry s (lowerBind b s) := by
  unfold lowerBind
  split
  · exact (changeEntry_within _ _ s).mono (by simpa using entry_mem_everyEntry _)
  · exact .refl _ s

theorem entry_in_bindingParts (o : Output) : ∀ p, p ∈ everyEntry → p ∈ bindingParts o :=
  fun _ hp => List.mem_append_right _ hp

theorem single_entry_in_bindingParts (o : Output) (n : Fin 64) : ∀ p, p ∈ [Part.entry n] → p ∈ bindingParts o := by
  intro p hp
  simp only [List.mem_singleton] at hp
  subst hp
  exact entry_in_bindingParts o _ (entry_mem_everyEntry n)

theorem judged_in_bindingParts (o : Output) : ∀ p, p ∈ judgedParts o → p ∈ bindingParts o :=
  fun _ hp => List.mem_append_left _ (List.mem_append_right _ hp)

theorem bindOutput_within (o : Output) (n : Fin 64) (s : State) :
    Within (bindingParts o) s (bindOutput o n s) := by
  have h1 : Within (bindingParts o) s (raiseBind n s) :=
    (changeEntry_within n _ s).mono (single_entry_in_bindingParts o n)
  have h2 := h1.trans ((touch_within n _).mono (single_entry_in_bindingParts o n))
  refine (h2.trans ?_).trans ((evaluate_within o _).mono (judged_in_bindingParts o))
  exact within_context (.inr rfl) (.inl (by simp)) (.inr ⟨rfl, rfl⟩) (.inl (by simp)) (.inl (by simp))
    (spendStack_law _)

/-- R26: a bind touches the output's own items and the rating table's entries. -/
theorem bindService_within (o : Output) (k : ServiceKey) (s : State) :
    Within (bindingParts o) s (bindService o k s).2 := by
  unfold bindService
  split
  · exact (touch_within _ s).andThen (evaluate_within o _) (single_entry_in_bindingParts o _)
      (judged_in_bindingParts o)
  · exact (((ensureEntry_within k s).mono (single_entry_in_bindingParts o _)).trans
      ((lowerBind_within _ _).mono (entry_in_bindingParts o))).trans (bindOutput_within o _ _)

/-- R27: an unbind. -/
theorem unbindService_within (o : Output) (s : State) : Within (bindingParts o) s (unbindService o s) := by
  unfold unbindService
  split
  · exact (evaluate_within o s).mono (judged_in_bindingParts o)
  · next n _ =>
    refine (((lowerBind_within (some n) s).mono (entry_in_bindingParts o)).trans ?_).trans
      ((evaluate_within o _).mono (judged_in_bindingParts o))
    exact within_context (.inr rfl) (.inl (by simp)) (.inr ⟨rfl, rfl⟩) (.inr rfl) (.inl (by simp))
      (spendStack_law _)

/-! ### Scheme maps -/

theorem forgetVersions_within (s : State) : Within everyEntry s (forgetVersions s) :=
  within_rating (fun n => .inl (entry_mem_everyEntry n)) (.inr rfl) (.inr ⟨rfl, rfl⟩)

/-- R137: a scheme map is written and versions are forgotten. -/
theorem writeScheme_within (m : Fin 8) (v : Vector (Option Nat) 16) (s : State) :
    Within (.schemes :: everyEntry) s (writeScheme m v s) := by
  have h : Within (.schemes :: everyEntry) s
      { s with rating := { s.rating with schemes := s.rating.schemes.set m v } } :=
    within_rating (fun _ => .inr rfl) (.inl (by simp)) (.inr ⟨rfl, rfl⟩)
  exact h.trans ((forgetVersions_within _).mono (fun _ hp => List.mem_cons_of_mem _ hp))

/-- R137 step 4. -/
theorem forgetVersions_entry (s : State) (n : Fin 64) :
    (forgetVersions s).entry n
      = (s.entry n).map (fun e => if e.source = .broadcast then { e with version := none } else e) := by
  simp [forgetVersions, State.entry]

end Sys2Proof.Machine
end

