-- ==== Sys2Proof/Laws/Intake.lean ====
section
/-! SUPPORT. What the section intake does with a window write and at the completion of a parse (R105 to
R122), and that it keeps the law of R114. -/

namespace Sys2Proof.Machine

open Sys2Proof

/-- A context that reads window writes. -/
def IntakeContext.active : IntakeContext → Bool
  | .seeking _ | .assembling _ => true
  | .unset | .shed => false

theorem section_mem (w : Fin 4) : Part.sectionWindow w ∈ everySection := by
  fin_cases w <;> simp [everySection, allSections]

theorem section_sub (w : Fin 4) : ∀ p, p ∈ [Part.sectionWindow w] → p ∈ intakeParts := by
  intro p hp
  simp only [List.mem_singleton] at hp
  subst hp
  exact List.mem_append_left _ (List.mem_append_left _ (section_mem w))

theorem raised_sub_intake : ∀ p, p ∈ raised → p ∈ intakeParts := fun _ hp => List.mem_append_right _ hp

/-! ### Contexts -/

/-- R114, R115: a context that reads window writes stands in a SET window while FLOWING. -/
theorem active_flowing {s : State} (h : IntakeLaw s) {w : Fin 4}
    (ha : (s.sectionWindow w).context.active = true) :
    s.intake.flow = .flowing ∧ (s.sectionWindow w).set = true := by
  obtain ⟨-, -, -, -, -, -, h7, -, h9⟩ := h
  constructor
  · cases hf : s.intake.flow with
    | flowing => rfl
    | halted =>
      rcases h9 hf w with e | e <;> rw [e] at ha <;> simp [IntakeContext.active] at ha
  · cases hs : (s.sectionWindow w).set with
    | true => rfl
    | false =>
      rw [(h7 w).2 hs] at ha
      simp [IntakeContext.active] at ha

theorem putIntakeContext_within (w : Fin 4) (c : IntakeContext) (s : State)
    (ha : (s.sectionWindow w).context.active = true) (hc : c.active = true) :
    Within [.sectionWindow w] s (s.putIntakeContext w c) := by
  refine within_intake (fun v => ?_) (.inr ⟨rfl, rfl⟩) (.inr rfl) (.inr ⟨rfl, rfl⟩) (fun h => ?_)
  · by_cases e : v = w
    · subst e; exact .inl (by simp)
    · refine .inr ?_
      have := sectionWindow_putIntakeContext s w v c
      rw [if_neg e] at this
      simpa [State.sectionWindow, State.putIntakeContext, State.putSectionWindow] using this
  · have hfs := active_flowing h ha
    obtain ⟨h1, h2, h3, h4, h5, h6, h7, h8, h9⟩ := h
    have cu : c ≠ .unset := by rintro rfl; simp [IntakeContext.active] at hc
    have cs : c ≠ .shed := by rintro rfl; simp [IntakeContext.active] at hc
    refine ⟨h1, h2, h3, h4, h5, h6, fun v => ?_, fun _ v => ?_, fun hh => ?_⟩
    · show ((s.putIntakeContext w c).sectionWindow v).context = .unset
        ↔ ((s.putIntakeContext w c).sectionWindow v).set = false
      rw [sectionWindow_putIntakeContext]
      split
      · simp [cu, hfs.2]
      · exact h7 v
    · show ((s.putIntakeContext w c).sectionWindow v).context ≠ .shed
      rw [sectionWindow_putIntakeContext]
      split
      · exact cs
      · exact h8 hfs.1 v
    · have : s.intake.flow = .halted := hh
      rw [hfs.1] at this
      simp at this

/-! ### Halting and resuming -/

/-- A change of every context, in an intake that may change otherwise. -/
theorem mapped_section (i : Intake) (f : IntakeContext → IntakeContext) (w : Fin 4) :
    (i.windows.map (fun x => { x with context := f x.context }))[w]
      = { i.windows[w] with context := f i.windows[w].context } := by
  simp

theorem halted_unset (c : IntakeContext) : c.halted = .unset ↔ c = .unset := by
  cases c <;> simp [IntakeContext.halted]

theorem halted_cases (c : IntakeContext) : c.halted = .unset ∨ c.halted = .shed := by
  cases c <;> simp [IntakeContext.halted]

theorem resumed_unset (c : IntakeContext) : c.resumed = .unset ↔ c = .unset := by
  cases c <;> simp [IntakeContext.resumed]

theorem resumed_not_shed (c : IntakeContext) : c.resumed ≠ .shed := by
  cases c <;> simp [IntakeContext.resumed]

/-- What a halt needs of the intake, its count apart. -/
def HaltReady (i : Intake) : Prop :=
  i.queue.length ≤ 8 ∧ poolUsed i.queue ≤ Config.poolSize ∧ 1 ≤ i.haltLevel ∧ i.haltLevel ≤ 8
    ∧ i.resumeLevel < i.haltLevel ∧ ∀ w : Fin 4, i.windows[w].context = .unset ↔ i.windows[w].set = false

/-- R115: a halt leaves the law of the intake. -/
theorem haltIntake_law {s : State} (h : HaltReady s.intake) : IntakeLaw (haltIntake s) := by
  refine (raise_within .intakeShed allWindowsSubject _ _).keeps .intake ?_
  obtain ⟨h1, h2, h3, h4, h5, h6⟩ := h
  refine ⟨h1, h2, h3, h4, h5, fun e => absurd e (by simp [changeContexts]), fun w => ?_,
    fun e => absurd e (by simp [changeContexts]), fun _ w => ?_⟩
  · simp only [changeContexts, State.sectionWindow, mapped_section, halted_unset]
    exact h6 w
  · simp only [changeContexts, State.sectionWindow, mapped_section]
    exact halted_cases _

/-- R116: a resumption leaves the law of the intake, where the count is below H. -/
theorem resumeIntake_law {s : State} (h : HaltReady s.intake)
    (hc : s.intake.queue.length < s.intake.haltLevel) : IntakeLaw (resumeIntake s) := by
  obtain ⟨h1, h2, h3, h4, h5, h6⟩ := h
  refine ⟨h1, h2, h3, h4, h5, fun _ => hc, fun w => ?_, fun _ w => ?_, fun e => absurd e ?_⟩
  · simp only [resumeIntake, changeContexts, State.sectionWindow, mapped_section, resumed_unset]
    exact h6 w
  · simp only [resumeIntake, changeContexts, State.sectionWindow, mapped_section]
    exact resumed_not_shed _
  · simp [resumeIntake, changeContexts]

theorem IntakeLaw.ready {s : State} (h : IntakeLaw s) : HaltReady s.intake :=
  ⟨h.1, h.2.1, h.2.2.1, h.2.2.2.1, h.2.2.2.2.1, h.2.2.2.2.2.2.1⟩

/-- Two intakes written one after the other. -/
theorem within_intake_any {s : State} {i : Intake} (hl : i.haltLevel = s.intake.haltLevel)
    (hr : i.resumeLevel = s.intake.resumeLevel) (law : IntakeLaw s → IntakeLaw { s with intake := i }) :
    Within intakeParts s { s with intake := i } :=
  within_intake
    (fun w => .inl (List.mem_append_left _ (List.mem_append_left _ (section_mem w))))
    (.inl (by simp)) (.inl (by simp)) (.inr ⟨hl, hr⟩) law

/-- The state a halt leaves, before its notice is raised. -/
theorem haltIntake_eq (s : State) : haltIntake s
    = raise .intakeShed allWindowsSubject (nat8 s.intake.queue.length ++ nat16 (poolUsed s.intake.queue))
        { s with intake := { s.intake with
            flow := .halted
            windows := s.intake.windows.map (fun w => { w with context := w.context.halted }) } } := rfl

/-- A halt touches the contexts and the flow state, and raises a notice. -/
theorem haltIntake_frame (s : State) : Frame intakeParts s (haltIntake s) := by
  rw [haltIntake_eq]
  refine Frame.trans (t := { s with intake := { s.intake with
    flow := .halted
    windows := s.intake.windows.map (fun w => { w with context := w.context.halted }) } }) ?_
    ((raise_within ..).frame.mono raised_sub_intake)
  intro p hp
  cases p
  case sectionWindow w => exact absurd (List.mem_append_left _ (List.mem_append_left _ (section_mem w))) hp
  case flow => exact absurd (by simp) hp
  all_goals first | exact rfl | exact ⟨rfl, rfl⟩ | exact ⟨rfl, rfl, rfl⟩ | exact ⟨rfl, rfl, rfl, rfl⟩

theorem haltIntake_keeps {s : State} (l : LocalLaw) (hl : l ≠ .intake) (h : l.holds s) :
    l.holds (haltIntake s) := by
  rw [haltIntake_eq]
  refine (raise_within ..).keeps l ?_
  cases l
  case intake => exact absurd rfl hl
  all_goals exact h

theorem haltIntake_within {s : State} (h : IntakeLaw s → HaltReady s.intake) :
    Within intakeParts s (haltIntake s) :=
  ⟨haltIntake_frame s, fun l hl => by
    by_cases e : l = .intake
    · subst e; exact haltIntake_law (h hl)
    · exact haltIntake_keeps l e hl⟩

theorem resumeIntake_within {s : State}
    (h : IntakeLaw s → HaltReady s.intake ∧ s.intake.queue.length < s.intake.haltLevel) :
    Within intakeParts s (resumeIntake s) :=
  within_intake_any rfl rfl (fun k => resumeIntake_law (h k).1 (h k).2)

/-! ### Queuing -/

theorem poolUsed_append (q : List QueuedRecord) (r : QueuedRecord) :
    poolUsed (q ++ [r]) = poolUsed q + r.total := by
  simp [poolUsed]

/-- R114, R115: queuing a record that fits, into a context that reads. -/
theorem queueRecord_within {w : Fin 4} (r : QueuedRecord) (s : State)
    (ha : (s.sectionWindow w).context.active = true) (hp : r.total ≤ poolFree s.intake) :
    Within intakeParts s (queueRecord r s) := by
  have ready : IntakeLaw s → HaltReady { s.intake with queue := s.intake.queue ++ [r], parsing := true } := by
    intro h
    have hf := (active_flowing h ha).1
    obtain ⟨h1, h2, h3, h4, h5, h6⟩ := h.ready
    have hc := h.2.2.2.2.2.1 hf
    refine ⟨?_, ?_, h3, h4, h5, h6⟩
    · simp only [List.length_append, List.length_singleton]; omega
    · rw [poolUsed_append]; unfold poolFree at hp; omega
  refine ⟨?_, fun l hl => ?_⟩
  · have h0 : Frame intakeParts s
        { s with intake := { s.intake with queue := s.intake.queue ++ [r], parsing := true } } := by
      intro p hp
      cases p
      case intakeQueue => exact absurd (by simp) hp
      all_goals first | exact rfl | exact ⟨rfl, rfl⟩ | exact ⟨rfl, rfl, rfl⟩ | exact ⟨rfl, rfl, rfl, rfl⟩
    simp only [queueRecord]
    split
    · exact h0.trans (haltIntake_frame _)
    · exact h0
  · by_cases e : l = .intake
    · subst e
      have hr := ready hl
      simp only [queueRecord]
      split
      · exact haltIntake_law hr
      · next hlt =>
        have hf := (active_flowing hl ha).1
        obtain ⟨h1, h2, h3, h4, h5, h6⟩ := hr
        refine ⟨h1, h2, h3, h4, h5, fun _ => Nat.lt_of_not_le hlt, h6, hl.2.2.2.2.2.2.2.1, fun hh => ?_⟩
        have : s.intake.flow = .halted := hh
        rw [hf] at this
        simp at this
    · have h0 : l.holds
          { s with intake := { s.intake with queue := s.intake.queue ++ [r], parsing := true } } := by
        cases l
        case intake => exact absurd rfl e
        all_goals exact hl
      simp only [queueRecord]
      split
      · exact haltIntake_keeps l e h0
      · exact h0

/-! ### Reading a window write -/

theorem noteFormat_within (w : Fin 4) (start : Nat) (c : FormatCause) (s : State) :
    Within intakeParts s (noteFormat w start c s) := (raise_within ..).mono raised_sub_intake

/-- R113: a complete record is judged. -/
theorem judgeRecord_within (w : Fin 4) (start : Nat) (bytes : List Byte) (s : State)
    (ha : (s.sectionWindow w).context.active = true) : Within intakeParts s (judgeRecord w start bytes s) := by
  unfold judgeRecord
  split_ifs with h1 h2
  · exact (raise_within ..).mono raised_sub_intake
  · exact (raise_within ..).mono raised_sub_intake
  · exact queueRecord_within (w := w) _ s ha (Nat.le_of_not_lt h2)

theorem completeRecord_within (w : Fin 4) (start next : Nat) (bytes : List Byte) (s : State)
    (ha : (s.sectionWindow w).context.active = true) :
    Within intakeParts s (completeRecord w start next bytes s).2 := by
  simp only [completeRecord]
  exact ((putIntakeContext_within w _ s ha rfl).mono (section_sub w)).trans
    (judgeRecord_within w start bytes _ (by simp [IntakeContext.active]))

/-- R111: one byte is appended. -/
theorem appendByte_within (w : Fin 4) (a : Assembly) (b : Byte) (s : State)
    (ha : (s.sectionWindow w).context.active = true) : Within intakeParts s (appendByte w a b s).2 := by
  simp only [appendByte]
  split_ifs with h1 h2
  · split
    · exact ((putIntakeContext_within w _ s ha rfl).mono (section_sub w)).trans (noteFormat_within ..)
    · exact (putIntakeContext_within w _ s ha rfl).mono (section_sub w)
  · exact completeRecord_within w _ _ _ s ha
  · exact (putIntakeContext_within w _ s ha rfl).mono (section_sub w)

/-- R110, R111, R113: the reading of a window write. -/
theorem readBytes_within (w : Fin 4) (r : Reading) (bytes : List (Byte × Bool)) (s : State) :
    Within intakeParts s (readBytes w r bytes s) := by
  induction bytes generalizing r s with
  | nil => cases r <;> simp only [readBytes] <;> exact .refl _ s
  | cons b rest ih =>
    cases r with
    | stop => simp only [readBytes]; exact .refl _ s
    | append =>
      simp only [readBytes]
      split
      · next a h =>
        exact (appendByte_within w a b.1 s (by rw [h]; rfl)).trans (ih _ _)
      · exact .refl _ s
    | skip n successor =>
      cases n with
      | succ n => simp only [readBytes]; exact ih _ _
      | zero =>
        simp only [readBytes]
        split
        · next a h =>
          have ha : (s.sectionWindow w).context.active = true := by rw [h]; rfl
          split
          · exact (appendByte_within w _ b.1 s ha).trans (ih _ _)
          · exact (putIntakeContext_within w _ s ha rfl).mono (section_sub w)
        · exact .refl _ s

theorem testCandidate_within (w : Fin 4) (start : Nat) (bytes : List (Byte × Bool)) (s : State)
    (ha : (s.sectionWindow w).context.active = true) :
    Within intakeParts s (testCandidate w start bytes s) := by
  unfold testCandidate
  split
  · exact ((putIntakeContext_within w _ s ha rfl).mono (section_sub w)).trans (readBytes_within ..)
  · exact .refl _ s

theorem seek_within (w : Fin 4) (successor : Option Nat) (start : Nat) (bytes : List (Byte × Bool)) (s : State)
    (ha : (s.sectionWindow w).context.active = true) :
    Within intakeParts s (seek w successor start bytes s) := by
  have h1 : Within intakeParts s (s.putIntakeContext w (.seeking none)) :=
    (putIntakeContext_within w _ s ha rfl).mono (section_sub w)
  have h2 := h1.trans (testCandidate_within w start bytes _ (by simp [IntakeContext.active]))
  unfold seek
  simp only
  split
  · split
    · exact (h1.trans ((putIntakeContext_within w _ _ (by simp [IntakeContext.active]) rfl).mono
        (section_sub w))).trans (readBytes_within ..)
    · exact h2
  · exact h2

theorem sectionWindow_raise (k : NoticeKind) (subj : Nat) (d : List Byte) (s : State) (w : Fin 4) :
    (raise k subj d s).sectionWindow w = s.sectionWindow w :=
  (raise_within k subj d s).frame (.sectionWindow w) (by simp)

theorem continueAssembly_within (w : Fin 4) (a : Assembly) (start : Nat) (bytes : List (Byte × Bool))
    (s : State) (ha : (s.sectionWindow w).context.active = true) :
    Within intakeParts s (continueAssembly w a start bytes s) := by
  unfold continueAssembly
  split
  · exact readBytes_within ..
  · refine (((putIntakeContext_within w _ s ha rfl).mono (section_sub w)).trans (noteFormat_within ..)).trans
      (testCandidate_within w start bytes _ ?_)
    rw [noteFormat, sectionWindow_raise]
    simp [IntakeContext.active]

/-- R107, R109: a window write touches nothing but the intake and the notices. -/
theorem takeWindowWrite_within (w : Fin 4) (start : Nat) (bytes : List (Byte × Bool)) (s : State) :
    Within intakeParts s (takeWindowWrite w start bytes s) := by
  unfold takeWindowWrite
  split
  · exact .refl _ s
  · exact .refl _ s
  · next h => exact seek_within w _ start bytes s (by rw [h]; rfl)
  · next h => exact continueAssembly_within w _ start bytes s (by rw [h]; rfl)

/-- R107: a stream write burst touches nothing but the intake and the notices. -/
theorem snoopStream_within (start : Nat) (bytes : List (Byte × Bool)) (s : State) :
    Within intakeParts s (snoopStream start bytes s) := by
  refine Within.foldl (fun t w => ?_) allSections s
  simp only [handWindow]
  split
  · split
    · exact takeWindowWrite_within ..
    · exact .refl _ t
  · exact .refl _ t

/-- R107, R115: a window write to a context that is UNSET or SHED changes nothing. -/
theorem takeWindowWrite_inactive (w : Fin 4) (start : Nat) (bytes : List (Byte × Bool)) (s : State)
    (h : (s.sectionWindow w).context.active = false) : takeWindowWrite w start bytes s = s := by
  unfold takeWindowWrite
  split <;> simp_all [IntakeContext.active]

/-! ### Parsing -/

theorem setting_sub : ∀ p, p ∈ everyStack ++ everyPendingSince ++ allJudged → p ∈ consequenceParts := fun _ h => h

theorem raised_sub_record : ∀ p, p ∈ raised → p ∈ recordParts := by
  intro p hp
  refine List.mem_append_right _ ?_
  simp only [consequenceParts, allJudged, List.mem_append]
  exact .inr (.inl (.inr hp))

theorem readTime_bounds {b : List Byte} {d sec : Nat} (h : readTime b = some (d, sec)) :
    d ≤ 65535 ∧ sec ≤ 86399 := by
  unfold readTime at h
  split at h
  · next hc =>
    simp only [Option.some.injEq, Prod.mk.injEq] at h
    obtain ⟨rfl, rfl⟩ := h
    exact ⟨by have := (halfAt b 0).isLt; omega, hc.2⟩
  · simp at h

theorem readOffset_bounds {b : List Byte} {o : Int} (h : readOffset b = some o) : -780 ≤ o ∧ o ≤ 840 := by
  unfold readOffset at h
  split at h
  · simp only [Option.some.injEq] at h
    subst h
    unfold offsetOf
    split_ifs <;> simp only <;> omega
  · simp at h

/-- R119 to R122: the effect of a record. -/
theorem applyRecord_within (r : QueuedRecord) (s : State) : Within recordParts s (applyRecord r s) := by
  have hs : ∀ p, p ∈ settingParts → p ∈ recordParts := fun _ hp =>
    List.mem_append_left _ (List.mem_append_left _ hp)
  have hb : Within recordParts s (badBody r s) := (raise_within ..).mono raised_sub_record
  unfold applyRecord
  split
  · split
    · split
      · exact .refl _ s
      · refine (takeSection_within _ s).mono ?_
        intro p hp
        rcases List.mem_cons.1 hp with rfl | hp
        · exact List.mem_append_left _ (List.mem_append_right _ (entry_mem_everyEntry _))
        · exact List.mem_append_right _ hp
    · exact hb
  · split
    · next h => exact (takeBroadcastTime_within _ _ s (readTime_bounds h).1 (readTime_bounds h).2).mono hs
    · exact hb
  · split
    · next h => exact (takeOffset_within _ s (readOffset_bounds h).1 (readOffset_bounds h).2).mono hs
    · exact hb
  · exact .refl _ s

theorem poolUsed_tail (q : List QueuedRecord) : poolUsed q.tail ≤ poolUsed q := by
  cases q <;> simp [poolUsed]

/-- R116, R118: the oldest record leaves the queue. -/
theorem dequeue_within (s : State) : Within intakeParts s (dequeue s) := by
  have h0 : Within intakeParts s
      { s with intake := { s.intake with
          queue := s.intake.queue.tail, parsing := !s.intake.queue.tail.isEmpty } } := by
    refine within_intake_any rfl rfl (fun h => ?_)
    obtain ⟨h1, h2, h3, h4, h5, h6, h7, h8, h9⟩ := h
    refine ⟨?_, (poolUsed_tail _).trans h2, h3, h4, h5, fun hf => ?_, h7, h8, h9⟩
    · simp only [List.length_tail]; omega
    · have := h6 hf; simp only [List.length_tail]; omega
  simp only [dequeue]
  split
  · next hc =>
    refine h0.trans (resumeIntake_within (fun k => ⟨k.ready, ?_⟩))
    have := k.2.2.2.2.1
    have := hc.2
    simp only at *
    omega
  · exact h0

/-- R118: the completion of a parse. -/
theorem completeParse_within (s : State) : Within (recordParts ++ intakeParts) s (completeParse s) := by
  unfold completeParse
  split
  · exact (applyRecord_within _ s).andThen (dequeue_within _) (fun _ hp => List.mem_append_left _ hp)
      (fun _ hp => List.mem_append_right _ hp)
  · exact .refl _ s

/-- R117: levels applied to the queue as it stands. -/
theorem applyLevels_frame (s : State) : Frame intakeParts s (applyLevels s) := by
  unfold applyLevels
  split
  · split
    · exact haltIntake_frame s
    · exact .refl _ s
  · split
    · exact (resumeIntake_within (s := s) (fun k => ⟨k.ready, by
        have := k.2.2.2.2.1; omega⟩)).frame
    · exact .refl _ s

theorem applyLevels_keeps {s : State} (l : LocalLaw) (hl : l ≠ .intake) (h : l.holds s) :
    l.holds (applyLevels s) := by
  unfold applyLevels
  split
  · split
    · exact haltIntake_keeps l hl h
    · exact h
  · split
    · cases l
      case intake => exact absurd rfl hl
      all_goals exact h
    · exact h

/-- R117: after the levels are applied the law of the intake holds. -/
theorem applyLevels_law {s : State} (h : HaltReady s.intake)
    (h8 : s.intake.flow = .flowing → ∀ w, (s.sectionWindow w).context ≠ .shed)
    (h9 : s.intake.flow = .halted →
      ∀ w, (s.sectionWindow w).context = .unset ∨ (s.sectionWindow w).context = .shed) :
    IntakeLaw (applyLevels s) := by
  obtain ⟨k1, k2, k3, k4, k5, k6⟩ := h
  unfold applyLevels
  split
  · next hf =>
    split
    · exact haltIntake_law ⟨k1, k2, k3, k4, k5, k6⟩
    · next hn =>
      exact ⟨k1, k2, k3, k4, k5, fun _ => Nat.lt_of_not_le hn, k6, h8, fun e => absurd e (by rw [hf]; simp)⟩
  · next hf =>
    split
    · exact resumeIntake_law ⟨k1, k2, k3, k4, k5, k6⟩ (by omega)
    · exact ⟨k1, k2, k3, k4, k5, fun e => absurd e (by rw [hf]; simp), k6, h8, h9⟩

/-! ### Bytes after which a record goes on (R111) -/

/-- A context written again as it stands changes nothing. -/
theorem putIntakeContext_held (s : State) (w : Fin 4) :
    s.putIntakeContext w (s.sectionWindow w).context = s := by
  have e : s.intake.windows.set w (s.intake.windows[w]) = s.intake.windows :=
    Vector.set_getElem_self ..
  show { s with intake := { s.intake with windows := s.intake.windows.set w (s.intake.windows[w]) } } = s
  rw [e]

/-- The last write of a context stands. -/
theorem putIntakeContext_twice (s : State) (w : Fin 4) (c d : IntakeContext) :
    (s.putIntakeContext w c).putIntakeContext w d = s.putIntakeContext w d := by
  simp [State.putIntakeContext, State.putSectionWindow, State.sectionWindow]

theorem byteAt_append {l : List Byte} (x : List Byte) {i : Nat} (h : i < l.length) :
    byteAt (l ++ x) i = byteAt l i := by
  simp [byteAt, List.getD_eq_getElem?_getD, List.getElem?_append_left h]

/-- R111: the total length is read from the first four bytes. -/
theorem totalLength_append (size : Nat) {l : List Byte} (x : List Byte) (h : 4 ≤ l.length) :
    totalLength size (l ++ x) = totalLength size l := by
  have e : halfAt (l ++ x) 2 = halfAt l 2 := by
    rw [halfAt, halfAt, byteAt_append x (by omega), byteAt_append x (by omega)]
  simp only [totalLength, e]

/-- What an assembly holds as its record's total length (R109). -/
def heldTotal (size : Nat) (bytes : List Byte) : Option Nat :=
  if bytes.length < 4 then none else totalLength size bytes

/-- R111: a record goes on after some bytes: its length is not yet read, or legal and not reached. -/
def GoesOn (size : Nat) (bytes : List Byte) : Prop :=
  bytes.length < 4 ∨ ∃ n, totalLength size bytes = some n ∧ bytes.length < n

theorem GoesOn.left {size : Nat} {l x : List Byte} (h : GoesOn size (l ++ x)) : GoesOn size l := by
  by_cases k : l.length < 4
  · exact .inl k
  · rcases h with h | ⟨n, hn, hl⟩
    · simp at h; omega
    · refine .inr ⟨n, ?_, ?_⟩
      · rwa [totalLength_append size x (by omega)] at hn
      · simp at hl; omega

/-- R111: a byte after which the record goes on is appended, and nothing else happens. -/
theorem appendByte_goes_on {w : Fin 4} {a : Assembly} {b : Byte} {s : State}
    (ht : a.total = heldTotal (s.sectionWindow w).size a.bytes)
    (hg : GoesOn (s.sectionWindow w).size (a.bytes ++ [b])) :
    appendByte w a b s = (.append, s.putIntakeContext w (.assembling
      ⟨a.start, (s.sectionWindow w).wrap (a.expected + 1), a.bytes ++ [b],
        heldTotal (s.sectionWindow w).size (a.bytes ++ [b])⟩)) := by
  simp only [appendByte]
  split_ifs with h1 h2
  · rcases hg with h | ⟨n, hn, -⟩
    · omega
    · simp [heldTotal, hn, h1]
  · exfalso
    rw [ht, heldTotal] at h2
    split_ifs at h2 with k
    rcases hg with h | ⟨n, hn, hl⟩
    · simp at h; omega
    · rw [totalLength_append _ _ (by omega), h2] at hn
      cases hn; omega
  · have e : heldTotal (s.sectionWindow w).size (a.bytes ++ [b]) = a.total := by
      rw [ht, heldTotal, heldTotal]
      simp only [List.length_append, List.length_singleton] at h1 ⊢
      by_cases k : a.bytes.length < 4
      · rw [if_pos k, if_pos (by omega)]
      · rw [if_neg k, if_neg (by omega), totalLength_append _ _ (by omega)]
    rw [e]

/-- R111: bytes after which the record goes on are all appended, the expected address moving round the ring,
and the rest is read from there. -/
theorem readBytes_goes_on {w : Fin 4} (bytes rest : List (Byte × Bool)) {a : Assembly} {s : State}
    (hc : (s.sectionWindow w).context = .assembling a)
    (ht : a.total = heldTotal (s.sectionWindow w).size a.bytes)
    (hg : GoesOn (s.sectionWindow w).size (a.bytes ++ bytes.map (·.1))) :
    readBytes w .append (bytes ++ rest) s = readBytes w .append rest (s.putIntakeContext w (.assembling
      ⟨a.start, bytes.foldl (fun x _ => (s.sectionWindow w).wrap (x + 1)) a.expected,
        a.bytes ++ bytes.map (·.1), heldTotal (s.sectionWindow w).size (a.bytes ++ bytes.map (·.1))⟩)) := by
  induction bytes generalizing a s with
  | nil =>
    have e : (⟨a.start, a.expected, a.bytes, heldTotal (s.sectionWindow w).size a.bytes⟩ : Assembly) = a := by
      rw [← ht]
    simp only [List.nil_append, List.map_nil, List.append_nil, List.foldl_nil, e, ← hc,
      putIntakeContext_held]
  | cons b bytes ih =>
    have hb : GoesOn (s.sectionWindow w).size (a.bytes ++ [b.1]) := by
      refine GoesOn.left (x := bytes.map (·.1)) ?_
      simpa using hg
    rw [List.cons_append, readBytes, hc]
    simp only
    rw [appendByte_goes_on ht hb]
    simp only
    rw [ih (a := ⟨a.start, (s.sectionWindow w).wrap (a.expected + 1), a.bytes ++ [b.1],
        heldTotal (s.sectionWindow w).size (a.bytes ++ [b.1])⟩) (by simp) (by simp) (by simpa using hg)]
    simp [SectionWindow.wrap, putIntakeContext_twice]

/-! ### The intake and the record of transfers -/

theorem raise_putOut (k : NoticeKind) (subj : Nat) (d : List Byte) (s : State) (x : LaneOut) :
    raise k subj d (s.putOut x) = (raise k subj d s).putOut x := by
  cases h : s.systemReset <;> simp [raise, State.putOut, h]

theorem putIntakeContext_putOut (w : Fin 4) (c : IntakeContext) (s : State) (x : LaneOut) :
    (s.putOut x).putIntakeContext w c = (s.putIntakeContext w c).putOut x := rfl

theorem sectionWindow_putOut (w : Fin 4) (s : State) (x : LaneOut) :
    (s.putOut x).sectionWindow w = s.sectionWindow w := rfl

theorem haltIntake_putOut (s : State) (x : LaneOut) : haltIntake (s.putOut x) = (haltIntake s).putOut x := by
  cases h : s.systemReset <;> simp [haltIntake, changeContexts, raise, State.putOut, h]

theorem queueRecord_putOut (r : QueuedRecord) (s : State) (x : LaneOut) :
    queueRecord r (s.putOut x) = (queueRecord r s).putOut x := by
  by_cases k : s.intake.haltLevel ≤ (s.intake.queue ++ [r]).length
  · have e : ∀ u : State, u.intake = s.intake → queueRecord r u
        = haltIntake { u with intake := { u.intake with queue := u.intake.queue ++ [r], parsing := true } } :=
      fun u h => if_pos (by rw [h]; exact k)
    rw [e s rfl, e (s.putOut x) rfl, ← haltIntake_putOut]
    rfl
  · have e : ∀ u : State, u.intake = s.intake → queueRecord r u
        = { u with intake := { u.intake with queue := u.intake.queue ++ [r], parsing := true } } :=
      fun u h => if_neg (by rw [h]; exact k)
    rw [e s rfl, e (s.putOut x) rfl]
    rfl

theorem judgeRecord_putOut (w : Fin 4) (start : Nat) (bytes : List Byte) (s : State) (x : LaneOut) :
    judgeRecord w start bytes (s.putOut x) = (judgeRecord w start bytes s).putOut x := by
  simp only [judgeRecord, putOut_intake, raise_putOut, queueRecord_putOut]
  split_ifs <;> rfl

theorem appendByte_putOut (w : Fin 4) (a : Assembly) (b : Byte) (s : State) (x : LaneOut) :
    appendByte w a b (s.putOut x) = ((appendByte w a b s).1, (appendByte w a b s).2.putOut x) := by
  simp only [appendByte, completeRecord, noteFormat, sectionWindow_putOut, putIntakeContext_putOut,
    judgeRecord_putOut, raise_putOut]
  split_ifs
  · split <;> rfl
  · rfl
  · rfl

theorem readBytes_putOut (w : Fin 4) (r : Reading) (bytes : List (Byte × Bool)) (s : State) (x : LaneOut) :
    readBytes w r bytes (s.putOut x) = (readBytes w r bytes s).putOut x := by
  induction bytes generalizing r s with
  | nil => cases r <;> rfl
  | cons b rest ih =>
    cases r with
    | stop => rfl
    | append =>
      simp only [readBytes, sectionWindow_putOut, appendByte_putOut]
      split
      · exact ih _ _
      · rfl
    | skip n successor =>
      cases n with
      | succ n => exact ih _ _
      | zero =>
        simp only [readBytes, sectionWindow_putOut, appendByte_putOut]
        split
        · split
          · exact ih _ _
          · rfl
        · rfl

theorem testCandidate_putOut (w : Fin 4) (start : Nat) (bytes : List (Byte × Bool)) (s : State) (x : LaneOut) :
    testCandidate w start bytes (s.putOut x) = (testCandidate w start bytes s).putOut x := by
  unfold testCandidate
  split
  · rw [putIntakeContext_putOut, readBytes_putOut]
  · rfl

theorem takeWindowWrite_putOut (w : Fin 4) (start : Nat) (bytes : List (Byte × Bool)) (s : State)
    (x : LaneOut) :
    takeWindowWrite w start bytes (s.putOut x) = (takeWindowWrite w start bytes s).putOut x := by
  simp only [takeWindowWrite, seek, continueAssembly, noteFormat, sectionWindow_putOut, putIntakeContext_putOut,
    readBytes_putOut, testCandidate_putOut, raise_putOut]
  split
  · rfl
  · rfl
  · split
    · split <;> rfl
    · rfl
  · split <;> rfl

theorem handWindow_putOut (start : Nat) (bytes : List (Byte × Bool)) (s : State) (w : Fin 4) (x : LaneOut) :
    handWindow start bytes (s.putOut x) w = (handWindow start bytes s w).putOut x := by
  simp only [handWindow, sectionWindow_putOut, takeWindowWrite_putOut]
  split
  · split <;> rfl
  · rfl

/-- R2, R107: what the intake does with a burst does not depend on what has been put out. -/
theorem snoopStream_putOut (start : Nat) (bytes : List (Byte × Bool)) (s : State) (x : LaneOut) :
    snoopStream start bytes (s.putOut x) = (snoopStream start bytes s).putOut x := by
  unfold snoopStream
  induction allSections generalizing s with
  | nil => rfl
  | cons w ws ih => rw [List.foldl_cons, handWindow_putOut, ih]; rfl

/-! ### The division of a burst among the windows (R107) -/

/-- The two states have the same section windows, apart from their contexts. -/
structure SameWindows (s t : State) : Prop where
  held : ∀ v, ∃ c, t.sectionWindow v = { s.sectionWindow v with context := c }

theorem SameWindows.refl (s : State) : SameWindows s s := ⟨fun v => ⟨(s.sectionWindow v).context, rfl⟩⟩

theorem SameWindows.trans {s t u : State} (h : SameWindows s t) (k : SameWindows t u) : SameWindows s u := by
  refine ⟨fun v => ?_⟩
  obtain ⟨c, hc⟩ := h.held v
  obtain ⟨d, hd⟩ := k.held v
  exact ⟨d, by rw [hd, hc]⟩

theorem putIntakeContext_sameWindows (s : State) (w : Fin 4) (c : IntakeContext) :
    SameWindows s (s.putIntakeContext w c) := by
  refine ⟨fun v => ?_⟩
  rw [sectionWindow_putIntakeContext]
  split
  · next h => exact ⟨c, by rw [h]⟩
  · exact ⟨_, rfl⟩

theorem raise_sameWindows (k : NoticeKind) (subj : Nat) (d : List Byte) (s : State) :
    SameWindows s (raise k subj d s) := ⟨fun v => ⟨(s.sectionWindow v).context, by rw [sectionWindow_raise]⟩⟩

theorem haltIntake_sameWindows (s : State) : SameWindows s (haltIntake s) := by
  refine ⟨fun v => ?_⟩
  simp only [haltIntake, sectionWindow_raise]
  exact ⟨_, mapped_section s.intake _ v⟩

theorem judgeRecord_sameWindows (w : Fin 4) (start : Nat) (bytes : List Byte) (s : State) :
    SameWindows s (judgeRecord w start bytes s) := by
  unfold judgeRecord
  split_ifs
  · exact raise_sameWindows ..
  · exact raise_sameWindows ..
  · simp only [queueRecord]
    have q : SameWindows s { s with intake := { s.intake with
        queue := s.intake.queue ++ [queuedForm w start bytes], parsing := true } } :=
      ⟨fun v => ⟨(s.sectionWindow v).context, rfl⟩⟩
    split_ifs
    · exact q.trans (haltIntake_sameWindows _)
    · exact q

theorem appendByte_sameWindows (w : Fin 4) (a : Assembly) (b : Byte) (s : State) :
    SameWindows s (appendByte w a b s).2 := by
  simp only [appendByte, completeRecord, noteFormat]
  split_ifs
  · split
    · exact (putIntakeContext_sameWindows ..).trans (raise_sameWindows ..)
    · exact putIntakeContext_sameWindows ..
  · exact (putIntakeContext_sameWindows ..).trans (judgeRecord_sameWindows ..)
  · exact putIntakeContext_sameWindows ..

theorem readBytes_sameWindows (w : Fin 4) (r : Reading) (bytes : List (Byte × Bool)) (s : State) :
    SameWindows s (readBytes w r bytes s) := by
  induction bytes generalizing r s with
  | nil => cases r <;> exact .refl s
  | cons b rest ih =>
    cases r with
    | stop => exact .refl s
    | append =>
      simp only [readBytes]
      split
      · exact (appendByte_sameWindows ..).trans (ih _ _)
      · exact .refl s
    | skip n successor =>
      cases n with
      | succ n => exact ih _ _
      | zero =>
        simp only [readBytes]
        split
        · split
          · exact (appendByte_sameWindows ..).trans (ih _ _)
          · exact putIntakeContext_sameWindows ..
        · exact .refl s

theorem testCandidate_sameWindows (w : Fin 4) (start : Nat) (bytes : List (Byte × Bool)) (s : State) :
    SameWindows s (testCandidate w start bytes s) := by
  unfold testCandidate
  split
  · exact (putIntakeContext_sameWindows ..).trans (readBytes_sameWindows ..)
  · exact .refl s

theorem takeWindowWrite_sameWindows (w : Fin 4) (start : Nat) (bytes : List (Byte × Bool)) (s : State) :
    SameWindows s (takeWindowWrite w start bytes s) := by
  unfold takeWindowWrite
  split
  · exact .refl s
  · exact .refl s
  · simp only [seek]
    split
    · split
      · exact ((putIntakeContext_sameWindows ..).trans (putIntakeContext_sameWindows ..)).trans
          (readBytes_sameWindows ..)
      · exact (putIntakeContext_sameWindows ..).trans (testCandidate_sameWindows ..)
    · exact (putIntakeContext_sameWindows ..).trans (testCandidate_sameWindows ..)
  · unfold continueAssembly
    split
    · exact readBytes_sameWindows ..
    · exact ((putIntakeContext_sameWindows ..).trans (raise_sameWindows ..)).trans
        (testCandidate_sameWindows ..)

theorem handWindow_sameWindows (start : Nat) (bytes : List (Byte × Bool)) (s : State) (w : Fin 4) :
    SameWindows s (handWindow start bytes s w) := by
  simp only [handWindow]
  split
  · split
    · exact takeWindowWrite_sameWindows ..
    · exact .refl s
  · exact .refl s

theorem SameWindows.touches {s t : State} (h : SameWindows s t) (start : Nat) (bytes : List (Byte × Bool))
    (w : Fin 4) : Touches t start bytes w ↔ Touches s start bytes w := by
  obtain ⟨c, hc⟩ := h.held w
  simp [Touches, hc]

theorem handWindow_untouched {start : Nat} {bytes : List (Byte × Bool)} {s : State} {w : Fin 4}
    (h : ¬ Touches s start bytes w) : handWindow start bytes s w = s := by
  simp only [handWindow]
  split
  · next hs =>
    have e : partWithin (s.sectionWindow w).base (s.sectionWindow w).size start bytes = none := by
      simp only [Touches, hs, rangesMeet, decide_eq_true_eq, true_and, not_and_or, not_lt] at h
      simp only [partWithin]
      rw [if_neg (by omega)]
    rw [e]
  · rfl

theorem handWindow_empty {start : Nat} {bytes : List (Byte × Bool)} {s : State} {w : Fin 4}
    (h : (s.sectionWindow w).size = 0) : handWindow start bytes s w = s := by
  have e : partWithin (s.sectionWindow w).base (s.sectionWindow w).size start bytes = none := by
    simp only [partWithin]
    rw [if_neg (by omega)]
  simp only [handWindow, e, ite_self]

theorem handWindow_first {start : Nat} {first rest : List (Byte × Bool)} {s : State} {w : Fin 4}
    (h : Touches s start first w) (k : ¬ Touches s (start + first.length) rest w) :
    handWindow start (first ++ rest) s w = handWindow start first s w := by
  obtain ⟨hs, hm⟩ := h
  simp only [Touches, hs, rangesMeet, decide_eq_true_eq, true_and, not_and_or, not_lt] at hm k
  by_cases hr : rest = []
  · simp [hr]
  have : 0 < rest.length := List.length_pos_iff.mpr hr
  have e : partWithin (s.sectionWindow w).base (s.sectionWindow w).size start (first ++ rest)
      = partWithin (s.sectionWindow w).base (s.sectionWindow w).size start first := by
    simp only [partWithin, List.length_append]
    have hi : min (start + (first.length + rest.length)) ((s.sectionWindow w).base + (s.sectionWindow w).size)
        = min (start + first.length) ((s.sectionWindow w).base + (s.sectionWindow w).size) := by omega
    rw [hi]
    split_ifs
    · rw [List.drop_append_of_le_length (by omega), List.take_append_of_le_length (by rw [List.length_drop]; omega)]
    · rfl
  simp only [handWindow, e]

theorem handWindow_rest {start : Nat} {first rest : List (Byte × Bool)} {s : State} {w : Fin 4}
    (h : Touches s (start + first.length) rest w) (k : ¬ Touches s start first w) :
    handWindow start (first ++ rest) s w = handWindow (start + first.length) rest s w := by
  obtain ⟨hs, hm⟩ := h
  simp only [Touches, hs, rangesMeet, decide_eq_true_eq, true_and, not_and_or, not_lt] at hm k
  have e : partWithin (s.sectionWindow w).base (s.sectionWindow w).size start (first ++ rest)
      = partWithin (s.sectionWindow w).base (s.sectionWindow w).size (start + first.length) rest := by
    simp only [partWithin, List.length_append]
    by_cases hf : first = []
    · simp [hf]
    have : 0 < first.length := List.length_pos_iff.mpr hf
    have lo : max start (s.sectionWindow w).base = max (start + first.length) (s.sectionWindow w).base := by omega
    rw [lo, ← Nat.add_assoc]
    have dr : (first ++ rest).drop (max (start + first.length) (s.sectionWindow w).base - start)
        = rest.drop (max (start + first.length) (s.sectionWindow w).base - (start + first.length)) := by
      rw [List.drop_append, List.drop_eq_nil_of_le (by omega), List.nil_append]
      congr 1; omega
    rw [dr]
  simp only [handWindow, e]

/-- A window that neither part of a burst touches is not touched by the whole. -/
theorem handWindow_neither {start : Nat} {first rest : List (Byte × Bool)} {s : State} {w : Fin 4}
    (hf : ¬ Touches s start first w) (hr : ¬ Touches s (start + first.length) rest w) :
    handWindow start (first ++ rest) s w = s := by
  by_cases hz : (s.sectionWindow w).size = 0
  · exact handWindow_empty hz
  refine handWindow_untouched fun k => ?_
  obtain ⟨hs, hm⟩ := k
  simp only [Touches, hs, rangesMeet, decide_eq_true_eq, true_and, not_and_or, not_lt,
    List.length_append] at hf hr hm
  omega

/-- A window that the second part does not touch takes its write from the first. -/
theorem handWindow_fromFirst {start : Nat} {first rest : List (Byte × Bool)} {s : State} {w : Fin 4}
    (hr : ¬ Touches s (start + first.length) rest w) :
    handWindow start (first ++ rest) s w = handWindow start first s w := by
  by_cases hf : Touches s start first w
  · exact handWindow_first hf hr
  · rw [handWindow_untouched hf, handWindow_neither hf hr]

/-- A window that the first part does not touch takes its write from the second. -/
theorem handWindow_fromRest {start : Nat} {first rest : List (Byte × Bool)} {s : State} {w : Fin 4}
    (hf : ¬ Touches s start first w) :
    handWindow start (first ++ rest) s w = handWindow (start + first.length) rest s w := by
  by_cases hr : Touches s (start + first.length) rest w
  · exact handWindow_rest hr hf
  · rw [handWindow_untouched hr, handWindow_neither hf hr]

theorem handAll_sameWindows (bytes : List (Byte × Bool)) (start : Nat) (ws : List (Fin 4)) (s : State) :
    SameWindows s (ws.foldl (handWindow start bytes) s) := by
  induction ws generalizing s with
  | nil => exact .refl s
  | cons w ws ih => exact (handWindow_sameWindows start bytes s w).trans (ih _)

theorem handAll_untouched {start : Nat} {bytes : List (Byte × Bool)} (ws : List (Fin 4)) {s : State}
    (h : ∀ w ∈ ws, ¬ Touches s start bytes w) : ws.foldl (handWindow start bytes) s = s := by
  induction ws with
  | nil => rfl
  | cons w ws ih =>
    rw [List.foldl_cons, handWindow_untouched (h w (by simp))]
    exact ih fun v hv => h v (by simp [hv])

/-- R107: windows are handed their writes one after another (log 9); where those that one part of a burst
touches come first, that part may be taken as a burst before the other. -/
theorem handAll_cut {start : Nat} {first rest : List (Byte × Bool)} (ws : List (Fin 4)) {s : State}
    (hw : ws.Pairwise (· < ·))
    (h : ∀ v ∈ ws, ∀ w ∈ ws, Touches s start first v → Touches s (start + first.length) rest w → v < w) :
    ws.foldl (handWindow start (first ++ rest)) s
      = ws.foldl (handWindow (start + first.length) rest) (ws.foldl (handWindow start first) s) := by
  induction ws generalizing s with
  | nil => rfl
  | cons x ws ih =>
    obtain ⟨hx, hw⟩ := List.pairwise_cons.1 hw
    have next : ∀ {t}, SameWindows s t → ws.foldl (handWindow start (first ++ rest)) t
        = ws.foldl (handWindow (start + first.length) rest) (ws.foldl (handWindow start first) t) := by
      intro t ht
      refine ih hw fun v hv w hww hf hr => h v (by simp [hv]) w (by simp [hww]) ?_ ?_
      · exact (ht.touches ..).1 hf
      · exact (ht.touches ..).1 hr
    simp only [List.foldl_cons]
    by_cases hr : Touches s (start + first.length) rest x
    · have hf : ¬ Touches s start first x := fun k => absurd (h x (by simp) x (by simp) k hr) (lt_irrefl x)
      have none : ∀ {t}, SameWindows s t → ∀ w ∈ ws, ¬ Touches t start first w := fun ht w hm k =>
        absurd (h w (by simp [hm]) x (by simp) ((ht.touches ..).1 k) hr) (not_lt.2 (hx w hm).le)
      rw [handWindow_rest hr hf, handWindow_untouched hf, handAll_untouched ws (none (.refl s)),
        next (handWindow_sameWindows ..), handAll_untouched ws (none (handWindow_sameWindows ..))]
    · rw [handWindow_fromFirst hr, next (handWindow_sameWindows ..)]
      congr 1
      refine (handWindow_untouched fun k => hr ?_).symm
      exact (((handWindow_sameWindows start first s x).trans (handAll_sameWindows first start ws _)).touches ..).1 k

/-- The same where the windows that the other part touches come first. -/
theorem handAll_cut_late {start : Nat} {first rest : List (Byte × Bool)} (ws : List (Fin 4)) {s : State}
    (hw : ws.Pairwise (· < ·))
    (h : ∀ v ∈ ws, ∀ w ∈ ws, Touches s start first v → Touches s (start + first.length) rest w → w < v) :
    ws.foldl (handWindow start (first ++ rest)) s
      = ws.foldl (handWindow start first) (ws.foldl (handWindow (start + first.length) rest) s) := by
  induction ws generalizing s with
  | nil => rfl
  | cons x ws ih =>
    obtain ⟨hx, hw⟩ := List.pairwise_cons.1 hw
    have next : ∀ {t}, SameWindows s t → ws.foldl (handWindow start (first ++ rest)) t
        = ws.foldl (handWindow start first) (ws.foldl (handWindow (start + first.length) rest) t) := by
      intro t ht
      refine ih hw fun v hv w hww hf hr => h v (by simp [hv]) w (by simp [hww]) ?_ ?_
      · exact (ht.touches ..).1 hf
      · exact (ht.touches ..).1 hr
    simp only [List.foldl_cons]
    by_cases hf : Touches s start first x
    · have hr : ¬ Touches s (start + first.length) rest x := fun k =>
        absurd (h x (by simp) x (by simp) hf k) (lt_irrefl x)
      have none : ∀ {t}, SameWindows s t → ∀ w ∈ ws, ¬ Touches t (start + first.length) rest w :=
        fun ht w hm k =>
          absurd (h x (by simp) w (by simp [hm]) hf ((ht.touches ..).1 k)) (not_lt.2 (hx w hm).le)
      rw [handWindow_first hf hr, handWindow_untouched hr, handAll_untouched ws (none (.refl s)),
        next (handWindow_sameWindows ..), handAll_untouched ws (none (handWindow_sameWindows ..))]
    · rw [handWindow_fromRest hf, next (handWindow_sameWindows ..)]
      congr 1
      refine (handWindow_untouched fun k => hf ?_).symm
      exact (((handWindow_sameWindows (start + first.length) rest s x).trans
        (handAll_sameWindows rest (start + first.length) ws _)).touches ..).1 k

/-- R107: a burst cut where the windows of its first part are numbered below those of its second is taken
as two. -/
theorem snoopStream_cut {start : Nat} {first rest : List (Byte × Bool)} {s : State}
    (h : ∀ v w, Touches s start first v → Touches s (start + first.length) rest w → v < w) :
    snoopStream start (first ++ rest) s = snoopStream (start + first.length) rest (snoopStream start first s) :=
  handAll_cut allSections (by decide) fun v _ w _ => h v w

theorem snoopStream_cut_late {start : Nat} {first rest : List (Byte × Bool)} {s : State}
    (h : ∀ v w, Touches s start first v → Touches s (start + first.length) rest w → w < v) :
    snoopStream start (first ++ rest) s = snoopStream start first (snoopStream (start + first.length) rest s) :=
  handAll_cut_late allSections (by decide) fun v _ w _ => h v w

end Sys2Proof.Machine
end

