-- ==== Sys2Proof/Laws/Memory.lean ====
section
/-! SUPPORT. The bytes of the command shadow (R177): every write keeps the canonical form, and a byte reads as
what was last written to it. -/

namespace Sys2Proof.Machine

open Sys2Proof

/-- Every listed offset is above a bound. -/
def Memory.above (a : Nat) (m : Memory) : Prop := ∀ c ∈ m, a < c.1

theorem Memory.wf_nil : Memory.wf [] := ⟨.nil, by simp⟩

theorem Memory.wf_cons {k : Nat} {v : Byte} {t : Memory} :
    Memory.wf ((k, v) :: t) ↔ v ≠ 0 ∧ Memory.above k t ∧ Memory.wf t := by
  simp only [Memory.wf, List.pairwise_cons, List.mem_cons, forall_eq_or_imp, Memory.above]
  tauto

theorem Memory.cell_wf {a : Nat} {b : Byte} {m : Memory} (h : m.wf) (k : Memory.above a m) :
    (Memory.cell a b m).wf := by
  unfold Memory.cell
  split
  · exact h
  · next hb => exact wf_cons.2 ⟨hb, k, h⟩

theorem Memory.cell_above {a c : Nat} {b : Byte} {m : Memory} (h : Memory.above c m) (k : c < a) :
    Memory.above c (Memory.cell a b m) := by
  unfold Memory.cell
  split
  · exact h
  · intro x hx
    rcases List.mem_cons.1 hx with rfl | hx
    · exact k
    · exact h x hx

theorem Memory.write_above {c a : Nat} {b : Byte} {m : Memory} (h : Memory.above c m) (k : c < a) :
    Memory.above c (m.write a b) := by
  induction m with
  | nil => exact cell_above h k
  | cons x t ih =>
    obtain ⟨i, v⟩ := x
    have ht : Memory.above c t := fun y hy => h y (List.mem_cons_of_mem _ hy)
    unfold Memory.write
    split_ifs
    · exact cell_above h k
    · exact cell_above ht k
    · intro y hy
      rcases List.mem_cons.1 hy with rfl | hy
      · exact h _ List.mem_cons_self
      · exact ih ht y hy

/-- A write keeps the canonical form. -/
theorem Memory.write_wf {m : Memory} (h : m.wf) (a : Nat) (b : Byte) : (m.write a b).wf := by
  induction m with
  | nil => exact cell_wf wf_nil (by simp [Memory.above])
  | cons x t ih =>
    obtain ⟨i, v⟩ := x
    obtain ⟨hv, hi, ht⟩ := wf_cons.1 h
    unfold Memory.write
    split_ifs with h1 h2
    · refine cell_wf h ?_
      intro y hy
      rcases List.mem_cons.1 hy with rfl | hy
      · exact h1
      · exact h1.trans (hi y hy)
    · subst h2; exact cell_wf ht hi
    · exact wf_cons.2 ⟨hv, write_above hi (by omega), ih ht⟩

theorem Memory.read_of_above {m : Memory} {a : Nat} (h : Memory.above a m) : m.read a = 0 := by
  induction m with
  | nil => rfl
  | cons x t ih =>
    obtain ⟨i, v⟩ := x
    have := h (i, v) List.mem_cons_self
    unfold Memory.read
    rw [if_neg (by simp only at this; omega)]
    exact ih (fun y hy => h y (List.mem_cons_of_mem _ hy))

theorem Memory.read_cell {a x : Nat} {b : Byte} {m : Memory} (h : Memory.above a m) :
    (Memory.cell a b m).read x = if x = a then b else m.read x := by
  unfold Memory.cell
  split
  · next hb =>
    split
    · next e => rw [e, read_of_above h, hb]
    · rfl
  · by_cases e : x = a
    · simp [Memory.read, e]
    · simp [Memory.read, e, Ne.symm e]

/-- A byte reads as what was last written to it. -/
theorem Memory.read_write {m : Memory} (h : m.wf) (a x : Nat) (b : Byte) :
    (m.write a b).read x = if x = a then b else m.read x := by
  induction m with
  | nil => exact read_cell (by simp [Memory.above])
  | cons c t ih =>
    obtain ⟨i, v⟩ := c
    obtain ⟨hv, hi, ht⟩ := wf_cons.1 h
    unfold Memory.write
    by_cases h1 : a < i
    · rw [if_pos h1, read_cell]
      intro y hy
      rcases List.mem_cons.1 hy with rfl | hy
      · exact h1
      · exact h1.trans (hi y hy)
    · rw [if_neg h1]
      by_cases h2 : a = i
      · subst h2
        rw [if_pos rfl, read_cell hi]
        by_cases h3 : x = a
        · rw [if_pos h3, if_pos h3]
        · rw [if_neg h3, if_neg h3, Memory.read, if_neg (Ne.symm h3)]
      · rw [if_neg h2, Memory.read, ih ht]
        by_cases h3 : i = x
        · rw [if_pos h3, if_neg (by omega), Memory.read, if_pos h3]
        · rw [if_neg h3, Memory.read, if_neg h3]

/-- A run of writes keeps the canonical form. -/
theorem Memory.writeRun_wf {m : Memory} (h : m.wf) (a : Nat) (bytes : List (Byte × Bool)) :
    (m.writeRun a bytes).wf := by
  induction bytes generalizing m a with
  | nil => exact h
  | cons x t ih =>
    obtain ⟨b, en⟩ := x
    unfold Memory.writeRun
    refine ih ?_ _
    split
    · exact write_wf h a b
    · exact h

/-- A run of writes lists no offset outside the run that was not listed before. -/
theorem Memory.write_mem {m : Memory} {a : Nat} {b : Byte} {c : Host.Cell} (h : c ∈ m.write a b) :
    c.1 = a ∨ c ∈ m := by
  induction m with
  | nil =>
    simp only [Memory.write, Memory.cell] at h
    split at h
    · simp at h
    · simp only [List.mem_singleton] at h; exact .inl (by rw [h])
  | cons x t ih =>
    obtain ⟨i, v⟩ := x
    unfold Memory.write Memory.cell at h
    split_ifs at h
    · exact .inr h
    · rcases List.mem_cons.1 h with rfl | h
      · exact .inl rfl
      · exact .inr h
    · exact .inr (List.mem_cons_of_mem _ h)
    · rcases List.mem_cons.1 h with rfl | h
      · exact .inl rfl
      · exact .inr (List.mem_cons_of_mem _ h)
    · rcases List.mem_cons.1 h with rfl | h
      · exact .inr List.mem_cons_self
      · rcases ih h with h | h
        · exact .inl h
        · exact .inr (List.mem_cons_of_mem _ h)

theorem Memory.writeRun_mem {m : Memory} {a : Nat} {bytes : List (Byte × Bool)} {c : Host.Cell}
    (h : c ∈ m.writeRun a bytes) : (a ≤ c.1 ∧ c.1 < a + bytes.length) ∨ c ∈ m := by
  induction bytes generalizing m a with
  | nil => exact .inr h
  | cons x t ih =>
    obtain ⟨b, en⟩ := x
    unfold Memory.writeRun at h
    simp only [List.length_cons]
    rcases ih h with k | k
    · exact .inl (by omega)
    · split at k
      · rcases write_mem k with k | k
        · exact .inl (by omega)
        · exact .inr k
      · exact .inr k

/-- R3: after a run of writes an enabled byte of the run reads as written, and every other as before. -/
theorem Memory.read_writeRun {m : Memory} (h : m.wf) (a x : Nat) (bytes : List (Byte × Bool)) :
    (m.writeRun a bytes).read x =
      match if a ≤ x then bytes[x - a]? else none with
      | some (b, true) => b
      | _ => m.read x := by
  induction bytes generalizing m a with
  | nil => simp [Memory.writeRun]
  | cons c t ih =>
    obtain ⟨b, en⟩ := c
    have hw : (if en then m.write a b else m).wf := by split; exacts [write_wf h a b, h]
    unfold Memory.writeRun
    rw [ih hw (a + 1)]
    have hr : x ≠ a → (if en then m.write a b else m).read x = m.read x := by
      intro hx
      split
      · rw [read_write h, if_neg hx]
      · rfl
    rcases Nat.lt_trichotomy x a with hx | hx | hx
    · have e1 : ¬ a + 1 ≤ x := by omega
      have e2 : ¬ a ≤ x := by omega
      simp only [e1, e2, if_false]
      exact hr (by omega)
    · subst hx
      have e1 : ¬ x + 1 ≤ x := by omega
      simp only [e1, if_false, le_refl, if_true, Nat.sub_self, List.getElem?_cons_zero]
      cases en
      · rfl
      · simp [read_write h]
    · obtain ⟨k, rfl⟩ : ∃ k, x = a + 1 + k := ⟨x - (a + 1), by omega⟩
      have e1 : a + 1 ≤ a + 1 + k := by omega
      have e2 : a ≤ a + 1 + k := by omega
      have e3 : a + 1 + k - (a + 1) = k := by omega
      have e4 : a + 1 + k - a = k + 1 := by omega
      simp only [e1, e2, e3, e4, if_true, List.getElem?_cons_succ]
      rw [hr (by omega)]

theorem Memory.readRun_length (m : Memory) (a n : Nat) : (m.readRun a n).length = n := by
  induction n generalizing a with
  | zero => rfl
  | succ n ih => simp [Memory.readRun, ih]

theorem Memory.readRun_getElem? (m : Memory) (a n i : Nat) (hi : i < n) :
    (m.readRun a n)[i]? = some (m.read (a + i)) := by
  induction n generalizing a i with
  | zero => omega
  | succ n ih =>
    cases i with
    | zero => simp [Memory.readRun]
    | succ i =>
      simp only [Memory.readRun, List.getElem?_cons_succ]
      rw [ih _ _ (by omega)]
      congr 2; omega

/-- A run written with every byte enabled reads back. -/
theorem Memory.readRun_writeRun {m : Memory} (h : m.wf) (a : Nat) (bytes : List Byte) :
    (m.writeRun a (bytes.map (fun b => (b, true)))).readRun a bytes.length = bytes := by
  apply List.ext_getElem?
  intro i
  by_cases hi : i < bytes.length
  · rw [readRun_getElem? _ _ _ _ hi, read_writeRun h, if_pos (by omega)]
    simp [hi]
  · rw [List.getElem?_eq_none (by rw [readRun_length]; omega), List.getElem?_eq_none (by omega)]

end Sys2Proof.Machine
end

