-- ==== Sys2Proof/Laws/Profiles.lean ====
section
/-! SUPPORT. What the profile commands and the image unit do (R71 to R88), and that every record they write
is in its ranges. -/

namespace Sys2Proof.Machine

open Sys2Proof

/-! ### Slots -/

theorem finishResult_within (i : Fin 16) (oc : CommandOutcome) (d : List Byte) (s : State) :
    Within [.slot i] s (s.finishResult i oc d) := within_slot (by simp)

/-! ### Images (R84, R85) -/

theorem atMost_le {hi n m : Nat} (h : atMost hi n = some m) : m ≤ hi := by
  unfold atMost at h; split at h
  · simp only [Option.some.injEq] at h; omega
  · simp at h

theorem imageState_ne {b : Byte} {st : ProfileState} (h : imageState b = some st) : st ≠ .empty := by
  unfold imageState at h
  split at h <;> simp only [Option.some.injEq, reduceCtorEq] at h <;> subst h <;> simp

theorem imageCeiling_le {k a : Byte} {c : Ceiling} (h : imageCeiling k a = some c) :
    ∀ n, c = .age n → n ≤ 21 := by
  unfold imageCeiling at h
  split at h
  · simp only [Option.map_eq_some_iff] at h
    obtain ⟨m, hm, rfl⟩ := h
    intro n e
    simp only [Ceiling.age.injEq] at e
    exact e ▸ atMost_le hm
  · simp only [Option.some.injEq] at h; subst h; simp
  · simp only [Option.some.injEq] at h; subst h; simp
  · simp at h

theorem imageAllowance_le {a : Half} {o : Option Nat} (h : imageAllowance a = some o) :
    ∀ n, o = some n → n ≤ 1440 := by
  unfold imageAllowance at h
  split at h
  · simp only [Option.some.injEq] at h; subst h; simp
  · simp only [Option.map_eq_some_iff] at h
    obtain ⟨m, hm, rfl⟩ := h
    intro n e
    simp only [Option.some.injEq] at e
    exact e ▸ atMost_le hm

/-- R76, R84: a window that passes the check, held with its seven day flags, is legal. -/
theorem legalWindow_legal {days : Byte} {a b : Nat} (h : legalWindow days a b = true) :
    (⟨days &&& 0x7F, a, b⟩ : Curfew).legal := by
  simp only [legalWindow, decide_eq_true_eq] at h
  refine ⟨h.1, ?_, h.2.1, h.2.2.1, h.2.2.2⟩
  have : ∀ d : Byte, (d &&& 0x7F#8).toNat < 128 := by decide
  exact this days

theorem imageCurfew_legal {image : List Byte} {i : Nat} {o : Option Curfew}
    (h : imageCurfew image i = some o) : ∀ w, o = some w → w.legal := by
  unfold imageCurfew at h
  simp only at h
  split_ifs at h with h1 h2
  · simp only [Option.some.injEq] at h
    subst h
    intro w e
    simp only [Option.some.injEq] at e
    subst e
    exact legalWindow_legal h2
  · simp only [Option.some.injEq] at h; subst h; simp

theorem imageRates_le {image : List Byte} {v : Vector Nat 4} (h : imageRates image = some v) :
    ∀ i : Fin 4, v[i] ≤ 8 := by
  simp only [imageRates, Option.bind_eq_bind, Option.bind_eq_some_iff, Option.some.injEq] at h
  obtain ⟨r0, h0, r1, h1, r2, h2, r3, h3, rfl⟩ := h
  intro i
  fin_cases i
  · exact atMost_le h0
  · exact atMost_le h1
  · exact atMost_le h2
  · exact atMost_le h3

theorem imageCurfews_legal {image : List Byte} {v : Vector (Option Curfew) 3}
    (h : imageCurfews image = some v) : ∀ (i : Fin 3) w, v[i] = some w → w.legal := by
  simp only [imageCurfews, Option.bind_eq_bind, Option.bind_eq_some_iff, Option.some.injEq] at h
  obtain ⟨c0, h0, c1, h1, c2, h2, rfl⟩ := h
  intro i
  fin_cases i
  · exact imageCurfew_legal h0
  · exact imageCurfew_legal h1
  · exact imageCurfew_legal h2

/-- R84, R85: a record read from an image is in its ranges, and is ACTIVE or SUSPENDED. -/
theorem readImage_ok {salt : BitVec 64} {image : List Byte} {p : Profile}
    (h : readImage salt image = some p) : p.ok ∧ p.state ≠ .empty := by
  unfold readImage at h
  split at h
  · simp only [imageRecord, Option.bind_eq_bind, Option.bind_eq_some_iff, Option.some.injEq] at h
    obtain ⟨st, hst, c, hc, u, -, sc, -, ab, -, pl, hpl, al, hal, k, hk, l, hl, r, hr, cu, hcu, b, -, rfl⟩ := h
    have hne := imageState_ne hst
    refine ⟨⟨⟨imageCeiling_le hc, atMost_le hpl, imageAllowance_le hal, atMost_le hk, atMost_le hl,
      imageRates_le hr, imageCurfews_legal hcu, ?_, ?_, ?_⟩, fun e => absurd e hne⟩, hne⟩
    · exact min_le_left _ _
    · exact min_le_left _ _
    · exact min_le_left _ _
  · simp at h

/-! ### Completions -/

/-- R82: the completion of an export. -/
theorem completeExport_within (source : Fin 8) (slot : Fin 16) (p : Profile) (s : State) :
    Within [.imageOperation, .imageBuffer, .slot slot] s (completeExport source slot p s) :=
  (within_image (ps := [.imageOperation, .imageBuffer, .slot slot]) (.inl (by simp)) (.inl (by simp))
    (fun _ n sl q e => by simp at e)).trans ((finishResult_within slot _ _ _).mono (by simp))

theorem imageIdle_within (s : State) : Within [.imageOperation] s (imageIdle s) :=
  within_image (.inl (by simp)) (.inr rfl) (fun _ n sl q e => by simp at e)

theorem settleInstalled_within (n : Fin 8) (s : State) :
    Within (.profile n :: raised) s (settleInstalled n s) := by
  unfold settleInstalled
  split
  · exact .refl _ s
  · split
    · exact .refl _ s
    · next h => exact within_profile (by simp) (fun k => withBudgetDay_ok k (settlement_adopt h) _)
    · next h => exact rollOver_within n _ s (by rw [settlement_roll h]; simp)

theorem noteInstalledExhaustion_within (n : Fin 8) (s : State) :
    Within raised s (noteInstalledExhaustion n s) := by
  unfold noteInstalledExhaustion
  split
  · exact raiseExhausted_within n s
  · exact .refl _ s

/-- R85 to R87: an installation. -/
theorem installImage_within (n : Fin 8) (p : Profile) (hp : p.ok) (s : State) :
    Within (.profile n :: allJudged) s (installImage n p s) :=
  (((within_profile (ps := .profile n :: allJudged) (by simp) (fun _ => hp)).trans
    ((settleInstalled_within n _).mono (by simp))).trans
    ((noteInstalledExhaustion_within n _).mono (by simp))).trans ((evaluateProfile_within n _).mono (by simp))

/-- R84 to R87: the completion of an import. -/
theorem completeImport_within (target : Fin 8) (slot : Fin 16) (image : List Byte) (s : State) :
    Within ([.imageOperation, .slot slot, .profile target] ++ allJudged) s
      (completeImport target slot image s) := by
  unfold completeImport
  split
  · exact ((imageIdle_within s).mono (by simp)).trans ((finishResult_within slot _ _ _).mono (by simp))
  · next h =>
    exact (((installImage_within target _ (readImage_ok h).1 s).mono (by simp)).trans
      ((imageIdle_within _).mono (by simp))).trans ((finishResult_within slot _ _ _).mono (by simp))

/-! ### The profile commands -/

/-- R73: a record is written and what follows. -/
theorem writeProfile_within (n : Fin 8) (p : Profile) (c : Bool) (s : State)
    (hp : (s.profile n).ok → p.ok) : Within (.profile n :: allJudged) s (writeProfile n p c s).1 :=
  ((within_profile (ps := .profile n :: allJudged) (by simp) hp).trans
    ((noteExhaustion_within n _ _).mono (by simp))).trans ((evaluateProfile_within n _).mono (by simp))

/-- R73: the record of a slot after it is written. -/
theorem writeProfile_profile (n : Fin 8) (p : Profile) (c : Bool) (s : State) :
    (writeProfile n p c s).1.profile n = p := by
  simp only [writeProfile, complete, evaluateProfile, evaluateWhere_profile]
  have : (noteExhaustion n (s.profile n) (s.putProfile n p)).profile n = (s.putProfile n p).profile n := by
    simp only [State.profile, noteExhaustion_profiles]
  rw [this, profile_putProfile_self]

theorem withCurfew_ok {p : Profile} (h : p.ok) (c : Fin 3) (w : Option Curfew)
    (hw : ∀ x, w = some x → x.legal) : (p.withCurfew c w).ok := by
  obtain ⟨⟨h1, h2, h3, h4, h5, h6, h7, h8⟩, h9⟩ := h
  refine ⟨⟨h1, h2, h3, h4, h5, h6, fun i x hx => ?_, h8⟩, h9⟩
  simp only [Profile.withCurfew, Fin.getElem_fin, Vector.getElem_set] at hx
  split at hx
  · exact hw x hx
  · exact h7 i x hx

theorem clampTo_le (hi n : Nat) : (clampTo hi n).1 ≤ hi := by
  unfold clampTo; split <;> simp only <;> omega

/-- R65: R after a change of allowance stays in its range. -/
theorem adjustedRemaining_le {old new : Option Nat} {r c : Nat} (hn : ∀ a, new = some a → a ≤ 1440)
    (hr : r ≤ Config.quartersPerDay) : adjustedRemaining old new r c ≤ Config.quartersPerDay := by
  unfold adjustedRemaining
  split
  · exact min_le_left _ _
  · next b =>
    have := hn b rfl
    simp only [Config.quartersPerMinute, Config.quartersPerDay] at *
    omega
  · exact hr

theorem withTime_ok {p : Profile} (h : p.ok) {a : Option Nat} {k l : Nat} {r : Vector Nat 4}
    (ha : ∀ n, a = some n → n ≤ 1440) (hk : k ≤ 720) (hl : l ≤ 900) (hr : ∀ i : Fin 4, r[i] ≤ 8) :
    (p.withTime a k l r).ok := by
  obtain ⟨⟨h1, h2, h3, h4, h5, h6, h7, h8, h9, h10⟩, h11⟩ := h
  refine ⟨⟨h1, h2, ha, hk, hl, hr, h7, ?_, h9, h10⟩, fun e => ?_⟩
  · simp only [Profile.withTime]
    split
    · exact h8
    · exact adjustedRemaining_le ha h8
  · have e' : p.state = .empty := e
    have := h11 e'
    simpa [Profile.withTime, e'] using this

/-- R78: the effect of a change of state, before the evaluation. -/
theorem changeProfileState_within (n : Fin 8) (st : ProfileState) (s : State) :
    Within (.profile n :: everyProfileBinding ++ allJudged) s (changeProfileState n st s) := by
  have big : ∀ p, p ∈ Part.profile n :: allJudged → p ∈ Part.profile n :: everyProfileBinding ++ allJudged := by
    intro p hp
    rcases List.mem_cons.1 hp with rfl | hp
    · simp
    · exact List.mem_append_right _ hp
  have note : ∀ p, p ∈ raised → p ∈ Part.profile n :: everyProfileBinding ++ allJudged := by
    intro p hp
    exact big p (List.mem_cons_of_mem _ (by simp only [allJudged, List.mem_append]; exact .inl (.inr hp)))
  unfold changeProfileState
  simp only
  split
  · exact .refl _ s
  · exact .refl _ s
  · exact .refl _ s
  · refine (within_profile (by simp) (fun k => openedAccount_ok k ?_ _)).trans
      ((noteExhaustion_within n _ _).mono note)
    rintro rfl
    simp_all
  · exact within_profile (by simp) (fun k => withState_ok k (by simp))
  · unfold resumeProfile
    simp only
    have h : Within (Part.profile n :: everyProfileBinding ++ allJudged) s
        (s.putProfile n { s.profile n with state := .active }) :=
      within_profile (by simp) (fun k => withState_ok k (by simp))
    split
    · exact h.trans ((settleProfile_within n _ _).mono big)
    · exact h
  · unfold emptyProfile
    exact (within_profile (by simp) (fun _ => default_ok)).trans
      ((unbindProfile_within n _).mono (fun p hp => by
        simp only [List.cons_append]
        exact List.mem_cons_of_mem _ hp))

end Sys2Proof.Machine
end

