-- ==== Sys2Proof/Laws/Pin.lean ====
section
/-! SUPPORT. What the PIN authority and the panel link do (R153 to R175), and that the PIN authority keeps the
law of R174. -/

namespace Sys2Proof.Machine

open Sys2Proof

/-! ### The parent session -/

theorem recomputeLamp_pin (s : State) : (recomputeLamp s).pin = s.pin := by
  unfold recomputeLamp handLamp offerLamp offerMessage; split_ifs <;> rfl

theorem raise_pin (k : NoticeKind) (subj : Nat) (d : List Byte) (s : State) :
    (raise k subj d s).pin = s.pin := by unfold raise; split <;> rfl

/-- The PIN authority after a session is opened. -/
theorem openSession_pin (s : State) :
    (openSession s).pin = { s.pin with sessionOpen := true, sessionRemaining := s.pin.sessionLength } := by
  unfold openSession; simp only; split
  · rfl
  · rw [recomputeLamp_pin]; rfl

/-- The PIN authority after a session is closed. -/
theorem closeSession_pin (s : State) :
    (closeSession s).pin = if s.pin.sessionOpen then
      { s.pin with sessionOpen := false, sessionRemaining := 0 } else s.pin := by
  unfold closeSession; split
  · rw [recomputeLamp_pin, raise_pin]; rfl
  · rfl

theorem openSession_frame (s : State) : Frame sessionParts s (openSession s) := by
  have h : Frame sessionParts s
      (s.putPin { s.pin with sessionOpen := true, sessionRemaining := s.pin.sessionLength }) := by
    intro p hp
    cases p
    case session => exact absurd (by simp) hp
    case sessionRemaining => exact absurd (by simp) hp
    all_goals first | exact rfl | exact ⟨rfl, rfl⟩ | exact ⟨rfl, rfl, rfl⟩ | exact ⟨rfl, rfl, rfl, rfl⟩
  unfold openSession
  simp only
  split
  · exact h
  · exact h.trans ((recomputeLamp_within _).frame.mono (by simp))

/-- A law of a block other than the PIN authority is kept by a write of the PIN authority. -/
theorem putPin_keeps {s : State} {p : PinAuthority} (l : LocalLaw) (hl : l ≠ .pin) (h : l.holds s) :
    l.holds (s.putPin p) := by
  cases l
  case pin => exact absurd rfl hl
  all_goals exact h

theorem pinLaw_of_eq {s t : State} (h : t.pin = s.pin) (k : PinLaw s) : PinLaw t := by
  unfold PinLaw at *; rw [h]; exact k

theorem openSession_keeps {s : State} (l : LocalLaw) (hl : l ≠ .pin) (h : l.holds s) :
    l.holds (openSession s) := by
  unfold openSession
  simp only
  split
  · exact putPin_keeps l hl h
  · exact (recomputeLamp_within _).keeps l (putPin_keeps l hl h)

/-- A session may be opened where no lockout stands or can follow. -/
theorem openSession_within (s : State)
    (h : PinLaw s → s.pin.matcher ≠ .lockout
      ∧ (s.pin.matcher.entering = true → s.pin.entry.purpose = .pinChange)
      ∧ (s.pin.matcher = .releasing → s.pin.entry.outcome ≠ .lockedOut)) :
    Within sessionParts s (openSession s) := by
  refine ⟨openSession_frame s, fun l hl => ?_⟩
  by_cases e : l = .pin
  · subst e
    obtain ⟨a, b, c⟩ := h hl
    obtain ⟨h1, h2, h3, h4, h5, h6, h7, h8, h9, h10, h11, h12⟩ := hl
    show PinLaw (openSession s)
    unfold PinLaw
    rw [openSession_pin]
    exact ⟨h1, h2, h3, h4, h5, h6, h7, h8, Nat.le_refl _, fun e => absurd e a,
      fun e p => absurd (b e) p, fun e o => absurd o (c e)⟩
  · exact openSession_keeps l e hl

theorem closeSession_law {s : State} (h : PinLaw s) : PinLaw (closeSession s) := by
  unfold PinLaw
  rw [closeSession_pin]
  obtain ⟨h1, h2, h3, h4, h5, h6, h7, h8, h9, h10, h11, h12⟩ := h
  by_cases ho : s.pin.sessionOpen = true
  · rw [if_pos ho]
    exact ⟨h1, h2, h3, h4, h5, h6, h7, h8, Nat.zero_le _, fun _ => rfl, fun _ _ => rfl, fun _ _ => rfl⟩
  · rw [if_neg ho]
    exact ⟨h1, h2, h3, h4, h5, h6, h7, h8, h9, h10, h11, h12⟩

/-- R174: a close touches the session, its notice and the lamp. -/
theorem closeSession_within (s : State) : Within sessionParts s (closeSession s) := by
  have h : Frame sessionParts s
      (s.putPin { s.pin with sessionOpen := false, sessionRemaining := 0 }) := by
    intro p hp
    cases p
    case session => exact absurd (by simp) hp
    case sessionRemaining => exact absurd (by simp) hp
    all_goals first | exact rfl | exact ⟨rfl, rfl⟩ | exact ⟨rfl, rfl, rfl⟩ | exact ⟨rfl, rfl, rfl, rfl⟩
  refine ⟨?_, fun l hl => ?_⟩
  · unfold closeSession
    split
    · exact (h.trans ((raise_within ..).frame.mono (by simp))).trans
        ((recomputeLamp_within _).frame.mono (by simp))
    · exact .refl _ s
  · by_cases e : l = .pin
    · subst e; exact closeSession_law hl
    · unfold closeSession
      split
      · exact (recomputeLamp_within _).keeps l ((raise_within ..).keeps l (putPin_keeps l e hl))
      · exact hl

/-- R180: the slide touches the remaining seconds. -/
theorem slideSession_within (s : State) : Within [.sessionRemaining] s (slideSession s) := by
  unfold slideSession
  split
  · next ho =>
    exact within_pin (.inr rfl) (.inr rfl) (.inr rfl) (.inr ⟨rfl, rfl⟩) (.inr rfl) (.inr rfl) (.inl (by simp))
      (.inr rfl) (fun ⟨h1, h2, h3, h4, h5, h6, h7, h8, _, h10⟩ =>
        ⟨h1, h2, h3, h4, h5, h6, h7, h8, by simp [ho], h10⟩)
  · exact .refl _ s

/-! ### Entries -/

theorem beginEntry_within (purpose : Purpose) (slot : Fin 16) (staged : Option Staged) (s : State)
    (h : purpose ≠ .pinChange → s.pin.sessionOpen = false) :
    Within beginParts s (beginEntry purpose slot staged s) := by
  refine Within.trans (t := s.putPin
      { s.pin with
        matcher := .routing
        entry := { PinEntry.blank with
          purpose := purpose, slot := slot, takeStamp := s.time.run, staged := staged } }) ?_
    ((offerMessage_within _ rfl _).mono (by simp))
  exact within_pin (.inr rfl) (.inl (by simp)) (.inl (by simp)) (.inr ⟨rfl, rfl⟩) (.inr rfl) (.inr rfl)
    (.inr rfl) (.inr rfl) (fun ⟨h1, _, _, h4, h5, h6, h7, h8, h9, _, _, _⟩ =>
      ⟨h1, by simp [PinEntry.blank], by simp [PinEntry.blank], h4, h5, h6, h7, h8, h9, by simp,
        fun _ p => h p, by simp⟩)

/-- R168: an ending; with LOCKED_OUT only while no session is open. -/
theorem endEntry_within (oc : CommandOutcome) (d : List Byte) (s : State)
    (h : oc = .lockedOut → s.pin.sessionOpen = false) : Within endingParts s (endEntry oc d s) := by
  have h1 : Within endingParts s (s.putPin
      { s.pin with
        matcher := .releasing
        entry := { s.pin.entry.cleared with
          firstCollection := none, staged := none, outcome := oc, outcomeData := d } }) :=
    within_pin (.inr rfl) (.inl (by simp)) (.inl (by simp)) (.inr ⟨rfl, rfl⟩) (.inr rfl) (.inr rfl)
      (.inr rfl) (.inr rfl) (fun ⟨h1, _, _, h4, h5, h6, h7, h8, h9, _, _, _⟩ =>
        ⟨h1, by simp [PinEntry.cleared], by simp, h4, h5, h6, h7, h8, h9, by simp,
          by simp [Matcher.entering], fun _ e => h e⟩)
  refine (h1.trans ?_).trans ((offerMessage_within _ rfl _).mono (by simp))
  exact within_panel (.inr ⟨rfl, rfl⟩) (.inr ⟨rfl, rfl⟩) (.inl (by simp)) (.inr rfl)
    (.inr ⟨rfl, rfl, rfl, rfl⟩) (.inr rfl) (.inr rfl) (fun k => ⟨by simp, k.2⟩)

theorem cancelEntry_within (s : State) : Within endingParts s (cancelEntry s) := by
  unfold cancelEntry
  split
  · exact endEntry_within _ _ s (by simp)
  · exact .refl _ s

/-- R168: the completion of RELEASING. -/
theorem releasingCompleted_within (s : State) (h : s.pin.matcher = .releasing) :
    Within ([.matcher, .pinEntry, .slot s.pin.entry.slot] ++ raised) s (releasingCompleted s) := by
  have h1 : Within ([.matcher, .pinEntry, .slot s.pin.entry.slot] ++ raised) s
      (leaveEntry (if s.pin.entry.outcome = .lockedOut then .lockout else .idle) s) :=
    within_pin (.inr rfl) (.inl (by simp)) (.inl (by simp)) (.inr ⟨rfl, rfl⟩) (.inr rfl) (.inr rfl)
      (.inr rfl) (.inr rfl) (fun ⟨h1, _, _, h4, h5, h6, h7, h8, h9, _, _, h12⟩ => by
        refine ⟨h1, by simp [PinEntry.blank], by simp [PinEntry.blank], h4, h5, h6, h7, h8, h9, ?_, ?_, ?_⟩
        · intro e
          simp only [putPin_pin] at e
          split at e
          · next k => exact h12 h k
          · simp at e
        · intro e
          simp only [putPin_pin] at e
          split at e <;> simp [Matcher.entering] at e
        · intro e
          simp only [putPin_pin] at e
          split at e <;> simp at e)
  exact (h1.trans ((finishResult_within _ _ _ _).mono (by simp))).trans ((raise_within ..).mono (by simp))

theorem keysRouted_within (s : State) : Within [.matcher, .pinEntry] s (keysRouted s) := by
  unfold keysRouted
  split
  · next h =>
    refine within_pin (.inr rfl) (.inl (by simp)) (.inl (by simp)) (.inr ⟨rfl, rfl⟩) (.inr rfl) (.inr rfl)
      (.inr rfl) (.inr rfl) (fun ⟨h1, h2, h3, h4, h5, h6, h7, h8, h9, _, h11, _⟩ =>
        ⟨h1, h2, h3, h4, h5, h6, h7, h8, h9, by simp, fun _ p => h11 (by rw [h]; rfl) p, by simp⟩)
  · exact .refl _ s

theorem routingFailed_within (oc : CommandOutcome) (s : State) (h : oc ≠ .lockedOut) :
    Within endingParts s (routingFailed oc s) := by
  unfold routingFailed
  split
  · exact endEntry_within _ _ s (fun e => absurd e h)
  · exact .refl _ s

theorem keysReleased_within (s : State) :
    Within ([.matcher, .pinEntry, .slot s.pin.entry.slot] ++ raised) s (keysReleased s) := by
  unfold keysReleased
  split
  · next h => exact releasingCompleted_within s h
  · exact .refl _ s

/-! ### Staged actions and keys -/

theorem executeStaged_within (a : Staged) (s : State) : Within stagedParts s (executeStaged a s).1 := by
  cases a with
  | grant n m c =>
    refine (executeGrant_within n m c s).mono ?_
    intro p hp
    rcases List.mem_cons.1 hp with rfl | hp
    · exact List.mem_append_left _ (List.mem_append_left _ (profile_mem_everyProfile n))
    · exact List.mem_append_right _ hp
  | push q =>
    refine (executePush_within q s).mono ?_
    intro p hp
    rcases List.mem_cons.1 hp with rfl | hp
    · exact List.mem_append_left _ (List.mem_append_right _ (stack_mem_everyStack _))
    · refine List.mem_append_right _ ?_
      revert hp
      cases q.output <;> simp only [judgedParts, allJudged, List.mem_cons, List.mem_append] <;> tauto

/-- A staged action leaves the PIN authority. -/
theorem executeStaged_pin (a : Staged) (s : State) : (executeStaged a s).1.pin = s.pin := by
  have f := (executeStaged_within a s).frame
  have h1 := f .storedPin (by simp [everyProfile])
  have h2 := f .matcher (by simp [everyProfile])
  have h3 := f .pinEntry (by simp [everyProfile])
  have h4 := f .failures (by simp [everyProfile])
  have h5 := f .lockoutTimer (by simp [everyProfile])
  have h6 := f .session (by simp [everyProfile])
  have h7 := f .sessionRemaining (by simp [everyProfile])
  have h8 := f .sessionLength (by simp [everyProfile])
  simp only [Part.same] at h1 h2 h3 h4 h5 h6 h7 h8
  clear f
  generalize (executeStaged a s).1.pin = x at *
  generalize s.pin = y at *
  cases x; cases y; simp_all

theorem key_ending : ∀ p, p ∈ endingParts → p ∈ keyParts := fun _ hp =>
  List.mem_append_left _ (List.mem_append_left _ (List.mem_append_left _ hp))

theorem key_session : ∀ p, p ∈ sessionParts → p ∈ keyParts := fun _ hp =>
  List.mem_append_left _ (List.mem_append_right _ hp)

theorem key_staged : ∀ p, p ∈ stagedParts → p ∈ keyParts := fun _ hp => List.mem_append_right _ hp

theorem key_raised : ∀ p, p ∈ raised → p ∈ keyParts := fun p hp =>
  key_session p (List.mem_append_left _ (List.mem_append_right _ hp))

theorem key_entry : Part.pinEntry ∈ keyParts := key_ending _ (by simp)

/-- A change of the entry in progress that keeps its purpose, its outcome and the sizes of its digits. -/
theorem changePinEntry_within (f : PinEntry → PinEntry) (s : State)
    (hb : s.pin.entry.buffer.length ≤ 8 → (f s.pin.entry).buffer.length ≤ 8)
    (hf : (∀ d, s.pin.entry.firstCollection = some d → 4 ≤ d.length ∧ d.length ≤ 8) →
      s.pin.entry.buffer.length ≤ 8 →
      ∀ d, (f s.pin.entry).firstCollection = some d → 4 ≤ d.length ∧ d.length ≤ 8)
    (hp : (f s.pin.entry).purpose = s.pin.entry.purpose)
    (ho : (f s.pin.entry).outcome = s.pin.entry.outcome) :
    Within [.pinEntry] s (changePinEntry f s) :=
  within_pin (.inr rfl) (.inr rfl) (.inl (by simp)) (.inr ⟨rfl, rfl⟩) (.inr rfl) (.inr rfl) (.inr rfl)
    (.inr rfl) (fun ⟨h1, h2, h3, h4, h5, h6, h7, h8, h9, h10, h11, h12⟩ =>
      ⟨h1, hb h2, hf h3 h2, h4, h5, h6, h7, h8, h9, h10,
        fun e p => h11 e (by simpa only [putPin_pin, hp] using p),
        fun e o => h12 e (by simpa only [putPin_pin, ho] using o)⟩)

theorem cleared_within (s : State) : Within [.pinEntry] s (changePinEntry PinEntry.cleared s) :=
  changePinEntry_within _ s (fun _ => by simp [PinEntry.cleared]) (fun h _ => h) rfl rfl

/-- R170: a match, of an entry that collects. -/
theorem pinMatched_within (s : State) :
    Within keyParts s (pinMatched s) := by
  have h0 : Within keyParts s (s.putPin { s.pin with failures := 0 }) :=
    within_pin (.inr rfl) (.inr rfl) (.inr rfl)
      (.inl (List.mem_append_left _ (List.mem_append_left _ (List.mem_append_right _ (by simp)))))
      (.inr rfl) (.inr rfl) (.inr rfl) (.inr rfl)
      (fun ⟨h1, h2, h3, _, h5⟩ => ⟨h1, h2, h3, by simp, h5⟩)
  unfold pinMatched
  simp only
  split
  · -- the session is opened and the entry ends at once
    refine ⟨(h0.frame.trans ((openSession_frame _).mono key_session)).trans
      ((endEntry_within _ _ _ (by simp)).frame.mono key_ending), fun l hl => ?_⟩
    by_cases e : l = .pin
    · subst e
      obtain ⟨h1, h2, h3, h4, h5, h6, h7, h8, h9, h10, h11, h12⟩ := h0.keeps .pin hl
      have hp : (endEntry .doneOk [] (openSession (s.putPin { s.pin with failures := 0 }))).pin
          = { (openSession (s.putPin { s.pin with failures := 0 })).pin with
              matcher := .releasing
              entry := { (openSession (s.putPin { s.pin with failures := 0 })).pin.entry.cleared with
                firstCollection := none, staged := none, outcome := .doneOk, outcomeData := [] } } := by
        unfold endEntry offerMessage; simp only; split <;> rfl
      show PinLaw _
      unfold PinLaw
      rw [hp, openSession_pin]
      exact ⟨h1, by simp [PinEntry.cleared], by simp, h4, h5, h6, h7, h8, Nat.le_refl _, by simp,
        by simp [Matcher.entering], by simp⟩
    · exact (endEntry_within _ _ _ (by simp)).keeps l (openSession_keeps l e (h0.keeps l hl))
  · next a _ _ =>
    refine (h0.trans ((executeStaged_within a _).mono key_staged)).trans
      ((endEntry_within _ _ _ (fun e => ?_)).mono key_ending)
    have : ∀ u, (executeStaged a u).2.1 ≠ .lockedOut := by
      intro u
      cases a with
      | grant n m c =>
        simp only [executeStaged, executeGrant]
        split_ifs <;> simp [doneOr]
        cases c <;> simp
      | push q =>
        simp only [executeStaged, executePush]
        split_ifs
        · simp
        · simp
        · split
          · simp
          · simp only [doneOr]; split <;> simp
    exact absurd e (this _)
  · exact h0.trans ((endEntry_within _ _ _ (by simp)).mono key_ending)

/-- R170: a mismatch, of an entry that could lead to a lockout. -/
theorem pinMismatched_within (s : State) (hc : s.pin.matcher = .collecting)
    (hp : s.pin.entry.purpose ≠ .pinChange) : Within keyParts s (pinMismatched s) := by
  have mf : Part.failures ∈ keyParts :=
    List.mem_append_left _ (List.mem_append_left _ (List.mem_append_right _ (by simp)))
  have mt : Part.lockoutTimer ∈ keyParts :=
    List.mem_append_left _ (List.mem_append_left _ (List.mem_append_right _ (by simp)))
  unfold pinMismatched
  simp only
  split
  · next hlt =>
    refine Within.trans ?_ ((raise_within ..).mono key_raised)
    exact within_pin (.inr rfl) (.inr rfl) (.inl key_entry) (.inl mf) (.inr rfl) (.inr rfl) (.inr rfl)
      (.inr rfl) (fun ⟨h1, _, h3, _, h5⟩ => ⟨h1, by simp [PinEntry.cleared], h3, hlt, h5⟩)
  · -- the lockout begins while no session is open
    have h1 : Within keyParts s (s.putPin
        { s.pin with failures := 0, step := min 4 (s.pin.step + 1), timer := 60 * 2 ^ s.pin.step }) :=
      within_pin (.inr rfl) (.inr rfl) (.inr rfl) (.inl mf) (.inl mt) (.inr rfl) (.inr rfl) (.inr rfl)
        (fun ⟨h1, h2, h3, _, h5, _, h7⟩ => by
          refine ⟨h1, h2, h3, by simp, by simp, ?_, h7⟩
          have : 2 ^ s.pin.step ≤ 2 ^ 4 := Nat.pow_le_pow_right (by decide) h5
          simp only [putPin_pin]
          omega)
    have h2 := h1.trans ((raise_within .pinLockout 0
      (nat16 (60 * 2 ^ s.pin.step) ++ nat8 s.pin.step) _).mono key_raised)
    by_cases law : PinLaw s
    · refine h2.trans ((endEntry_within _ _ _ (fun _ => ?_)).mono key_ending)
      rw [raise_pin]
      exact law.2.2.2.2.2.2.2.2.2.2.1 (by rw [hc]; rfl) hp
    · refine ⟨h2.frame.trans ?_, fun l hl => ?_⟩
      · -- the frame does not need the law
        refine Frame.trans (t := State.putPanel _ _) ?_ ((offerMessage_within .releaseKeys rfl _).frame.mono
          (by simp))
        intro p hp
        cases p
        case matcher => exact absurd (key_ending _ (by simp)) hp
        case pinEntry => exact absurd key_entry hp
        case keyFifo => exact absurd (key_ending _ (by simp)) hp
        all_goals first | exact rfl | exact ⟨rfl, rfl⟩ | exact ⟨rfl, rfl, rfl⟩ | exact ⟨rfl, rfl, rfl, rfl⟩
      · by_cases e : l = .pin
        · subst e; exact absurd hl law
        · have h3 := h2.keeps l hl
          refine (offerMessage_within .releaseKeys rfl _).keeps l ?_
          cases l
          case pin => exact absurd rfl e
          case panel => exact ⟨by simp, h3.2⟩
          all_goals exact h3

/-- R171: an OK of a PIN_CHANGE entry. -/
theorem judgePinChange_within (s : State) : Within keyParts s (judgePinChange s) := by
  have entry : ∀ p, p ∈ [Part.pinEntry] → p ∈ keyParts := by
    intro p hp; simp only [List.mem_singleton] at hp; subst hp; exact key_entry
  unfold judgePinChange
  simp only
  split
  · split
    · exact ((cleared_within s).mono entry).trans ((raise_within ..).mono key_raised)
    · next hn =>
      refine (changePinEntry_within _ s (fun _ => by simp) (fun _ hb d hd => ?_) rfl rfl).mono entry
      simp only [Option.some.injEq] at hd
      subst hd
      simp only [Bool.or_eq_true, decide_eq_true_eq, not_or] at hn
      exact ⟨Nat.le_of_not_lt hn.2, hb⟩
  · next first hfirst =>
    split
    · exact ((changePinEntry_within _ s (fun _ => by simp [PinEntry.cleared]) (fun _ _ d hd => by simp at hd)
        rfl rfl).mono entry).trans ((raise_within ..).mono key_raised)
    · next hn =>
      simp only [Bool.or_eq_true, decide_eq_true_eq, not_or, ne_eq, not_not] at hn
      split
      · refine Within.trans ?_ ((endEntry_within _ _ _ (by simp)).mono key_ending)
        refine within_pin
          (.inl (List.mem_append_left _ (List.mem_append_left _ (List.mem_append_right _ (by simp)))))
          (.inr rfl) (.inr rfl) (.inr ⟨rfl, rfl⟩) (.inr rfl) (.inr rfl) (.inr rfl) (.inr rfl)
          (fun ⟨_, h2, h3, h4⟩ => ⟨fun d hd => ?_, h2, h3, h4⟩)
        simp only [putPin_pin, Option.some.injEq] at hd
        rw [← hd, hn.2]
        exact h3 first hfirst
      · exact (endEntry_within _ _ s (by simp)).mono key_ending

theorem okKey_within (s : State) (hc : s.pin.matcher = .collecting) : Within keyParts s (okKey s) := by
  have entry : ∀ p, p ∈ [Part.pinEntry] → p ∈ keyParts := by
    intro p hp; simp only [List.mem_singleton] at hp; subst hp; exact key_entry
  unfold okKey
  split
  · exact ((cleared_within s).mono entry).trans ((raise_within ..).mono key_raised)
  split
  · exact .refl _ s
  · split
    · exact judgePinChange_within s
    · next hp =>
      split
      · exact pinMatched_within s
      · exact pinMismatched_within s hc (by rw [hp]; simp)
    · next hp =>
      split
      · exact pinMatched_within s
      · exact pinMismatched_within s hc (by rw [hp]; simp)

theorem actOnKey_within (k : Key) (s : State) (hc : s.pin.matcher = .collecting) :
    Within keyParts s (actOnKey k s) := by
  have entry : ∀ p, p ∈ [Part.pinEntry] → p ∈ keyParts := by
    intro p hp; simp only [List.mem_singleton] at hp; subst hp; exact key_entry
  unfold actOnKey
  split
  · exact (changePinEntry_within _ s (fun h => h) (fun h _ => h) rfl rfl).mono entry
  · split
    · refine (changePinEntry_within _ s (fun h => ?_) (fun h _ => ?_) ?_ ?_).mono entry
      · unfold PinEntry.withDigit; split
        · simp only [List.length_append, List.length_singleton]; omega
        · exact h
      · unfold PinEntry.withDigit; split <;> exact h
      · unfold PinEntry.withDigit; split <;> rfl
      · unfold PinEntry.withDigit; split <;> rfl
    · exact (changePinEntry_within _ s (fun h => by simp only [List.length_dropLast]; omega)
        (fun h _ => h) rfl rfl).mono entry
    · exact (endEntry_within _ _ s (by simp)).mono key_ending
    · exact okKey_within s hc
    · exact .refl _ s

/-- R169: a key taken touches only what keys may. -/
theorem takeKey_within (s : State) : Within keyParts s (takeKey s) := by
  unfold takeKey
  split
  · next hm hf =>
    have h1 : Within keyParts s (s.putPanel { s.panel with fifo := s.panel.fifo.tail }) := by
      refine within_panel (.inr ⟨rfl, rfl⟩) (.inr ⟨rfl, rfl⟩) (.inl (key_ending _ (by simp))) (.inr rfl)
        (.inr ⟨rfl, rfl, rfl, rfl⟩) (.inr rfl) (.inr rfl) (fun h => ⟨?_, h.2⟩)
      have := h.1
      simp only [putPanel_panel, List.length_tail]
      omega
    rw [hf] at h1
    have h2 := h1.trans ((changePinEntry_within (fun e => { e with lastKeyStamp := s.time.run }) _
      (fun h => h) (fun h _ => h) rfl rfl).mono (qs := keyParts) (by
        intro p hp; simp only [List.mem_singleton] at hp; subst hp; exact key_entry))
    exact h2.trans (actOnKey_within _ _ hm)
  · exact .refl _ s

/-! ### Limits and LOCK -/

theorem wholeEntryLimit_within (s : State) : Within endingParts s (wholeEntryLimit s) := by
  unfold wholeEntryLimit
  split
  · exact endEntry_within _ _ s (by simp)
  · exact .refl _ s

theorem interKeyLimit_within (s : State) : Within endingParts s (interKeyLimit s) := by
  unfold interKeyLimit
  split
  · exact endEntry_within _ _ s (by simp)
  · exact .refl _ s

theorem expireLockout_within (s : State) : Within [.matcher] s (expireLockout s) := by
  unfold expireLockout
  split
  · exact within_pin (.inr rfl) (.inl (by simp)) (.inr rfl) (.inr ⟨rfl, rfl⟩) (.inr rfl) (.inr rfl) (.inr rfl)
      (.inr rfl) (fun ⟨h1, h2, h3, h4, h5, h6, h7, h8, h9, _, _, _⟩ =>
        ⟨h1, h2, h3, h4, h5, h6, h7, h8, h9, by simp, by simp [Matcher.entering], by simp⟩)
  · exact .refl _ s

theorem expireSession_within (s : State) : Within sessionParts s (expireSession s) := by
  unfold expireSession
  split
  · exact closeSession_within s
  · exact .refl _ s

/-- R173, R174: the timers fall. -/
theorem pinTicked_within (s : State) :
    Within [.lockoutTimer, .sessionRemaining] s (s.putPin s.pin.ticked) :=
  within_pin (.inr rfl) (.inr rfl) (.inr rfl) (.inr ⟨rfl, rfl⟩) (.inl (by simp)) (.inr rfl) (.inl (by simp))
    (.inr rfl) (fun ⟨h1, h2, h3, h4, h5, h6, h7, h8, h9, h10⟩ => by
      refine ⟨h1, h2, h3, h4, h5, ?_, h7, h8, ?_, h10⟩
      · simp only [putPin_pin, PinAuthority.ticked]; split <;> omega
      · simp only [putPin_pin, PinAuthority.ticked]; split at h9 <;> simp_all; omega)

theorem takeLock_within (s : State) : Within lockParts s (takeLock s) :=
  (((raise_within ..).mono (fun _ hp =>
    List.mem_append_left _ (List.mem_append_left _ (List.mem_append_right _ hp)))).trans
    ((closeSession_within _).mono (fun _ hp => List.mem_append_left _ hp))).trans
    ((cancelEntry_within _).mono (fun _ hp => List.mem_append_right _ hp))

/-! ### The transmitter -/

theorem lampFailed_within (s : State) : Within [.lampRecord] s (lampFailed s) := by
  unfold lampFailed
  split
  · exact .refl _ s
  · exact within_panel (.inr ⟨rfl, rfl⟩) (.inr ⟨rfl, rfl⟩) (.inr rfl) (.inr rfl) (.inr ⟨rfl, rfl, rfl, rfl⟩)
      (.inl (by simp)) (.inr rfl) id

theorem notePanelSilent_within (m : Message) (c : Nat) (s : State) :
    Within raised s (notePanelSilent m c s) := raise_within ..

theorem notePanelSilent_pin (m : Message) (c : Nat) (s : State) : (notePanelSilent m c s).pin = s.pin :=
  raise_pin ..

theorem handOutcome_within (m : Message) (e : MessageEnd) (s : State) :
    Within (messageEndParts s) s (handOutcome m e s) := by
  have kr : Within (messageEndParts s) s (keysReleased s) :=
    (keysReleased_within s).mono (by simp)
  have kn : ∀ c, Within (messageEndParts s) s (keysReleased (notePanelSilent m c s)) := by
    intro c
    have h := keysReleased_within (notePanelSilent m c s)
    rw [notePanelSilent_pin] at h
    exact (notePanelSilent_within m c s).andThen h (by simp) (by simp)
  have ln : ∀ c, Within (messageEndParts s) s (lampFailed (notePanelSilent m c s)) := fun c =>
    (notePanelSilent_within m c s).andThen (lampFailed_within _) (by simp) (by simp)
  unfold handOutcome
  split
  · exact (keysRouted_within s).mono (by simp)
  · exact (routingFailed_within _ s (by simp)).mono (by simp)
  · exact (routingFailed_within _ s (by simp)).mono (by simp)
  · exact kr
  · exact kn 1
  · exact kn 0
  · exact .refl _ s
  · exact ln 1
  · exact ln 0

theorem endMessage_within (m : Message) (e : MessageEnd) (s : State) :
    Within (messageEndParts s) s (endMessage m e s) := by
  refine Within.trans (t := s.putPanel { s.panel with transmitter := .idle, outstanding := none }) ?_
    (show Within (messageEndParts s) _ _ from handOutcome_within m e
      (s.putPanel { s.panel with transmitter := .idle, outstanding := none }))
  exact within_panel (.inr ⟨rfl, rfl⟩) (.inr ⟨rfl, rfl⟩) (.inr rfl) (.inr rfl) (.inl (by simp)) (.inr rfl)
    (.inr rfl) id

theorem startMessage_within (s : State) : Within [.transmitQueue, .transmitter] s (startMessage s) := by
  unfold startMessage
  split
  · next m rest h hq =>
    refine within_panel (.inr ⟨rfl, rfl⟩) (.inr ⟨rfl, rfl⟩) (.inr rfl) (.inl (by simp)) (.inl (by simp))
      (.inr rfl) (.inr rfl) (fun k => ⟨k.1, ?_, ?_, k.2.2.2⟩)
    · have := k.2.1; rw [hq] at this; simp only [List.length_cons] at this; simp only [putPanel_panel]; omega
    · have := k.2.2.1
      rw [hq, List.filter_cons] at this
      simp only [putPanel_panel]
      split at this
      · simp only [List.length_cons] at this; omega
      · exact this
  · exact .refl _ s

theorem messageSent_within (s : State) : Within [.transmitter, .sentFrames] s (messageSent s) := by
  unfold messageSent
  split
  · exact within_panel (.inr ⟨rfl, rfl⟩) (.inr ⟨rfl, rfl⟩) (.inr rfl) (.inr rfl) (.inl (by simp)) (.inr rfl)
      (.inl (by simp)) id
  · exact .refl _ s

theorem waitRunsOut_within (s : State) : Within (messageEndParts s) s (waitRunsOut s) := by
  unfold waitRunsOut
  split
  · exact endMessage_within ..
  · exact .refl _ s

theorem takeAnswer_within (a : Answer) (b : Byte) (s : State) :
    Within (messageEndParts s) s (takeAnswer a b s) := by
  unfold takeAnswer
  split
  · split
    · split <;> exact endMessage_within ..
    · exact .refl _ s
  · exact .refl _ s

/-! ### The receiver -/

theorem markNewest_length (q : List Key) : (markNewest q).length = q.length := by
  unfold markNewest
  split
  · next k h =>
    have : q ≠ [] := by rintro rfl; simp at h
    have := List.length_pos_iff.2 this
    simp only [List.length_append, List.length_dropLast, List.length_singleton]
    omega
  · rfl

theorem offerKey_within (c : Byte) (f : FrameFlags) (s : State) : Within [.keyFifo] s (offerKey c f s) := by
  unfold offerKey
  split_ifs with h1 h2
  · exact .refl _ s
  · refine within_panel (.inr ⟨rfl, rfl⟩) (.inr ⟨rfl, rfl⟩) (.inl (by simp)) (.inr rfl)
      (.inr ⟨rfl, rfl, rfl, rfl⟩) (.inr rfl) (.inr rfl) (fun k => ⟨?_, k.2⟩)
    simp only [putPanel_panel, List.length_append, List.length_singleton]
    omega
  · refine within_panel (.inr ⟨rfl, rfl⟩) (.inr ⟨rfl, rfl⟩) (.inl (by simp)) (.inr rfl)
      (.inr ⟨rfl, rfl, rfl, rfl⟩) (.inr rfl) (.inr rfl) (fun k => ⟨?_, k.2⟩)
    simp only [putPanel_panel, markNewest_length]
    exact k.1

theorem noteNoise_within (f : ReceivedFrame) (s : State) : Within raised s (noteNoise f s) := by
  unfold noteNoise
  split
  · exact raise_within ..
  · exact .refl _ s

theorem listener_within {l : ListenerState} {a : Option Answer} (s : State) :
    Within [.listener] s (s.putPanel { s.panel with listener := l, awaited := a }) :=
  within_panel (.inl (by simp)) (.inr ⟨rfl, rfl⟩) (.inr rfl) (.inr rfl) (.inr ⟨rfl, rfl, rfl, rfl⟩) (.inr rfl)
    (.inr rfl) id

theorem frame_raised (s : State) : ∀ p, p ∈ raised → p ∈ frameParts s := fun _ hp =>
  List.mem_cons_of_mem _ (List.mem_append_left _ (List.mem_append_right _ hp))

theorem frame_ending (s : State) : ∀ p, p ∈ messageEndParts s → p ∈ frameParts s := fun _ hp =>
  List.mem_cons_of_mem _ (List.mem_append_left _ hp)

theorem frame_lock (s : State) : ∀ p, p ∈ lockParts → p ∈ frameParts s := by
  intro p hp
  rcases List.mem_append.1 hp with hp | hp
  · exact List.mem_cons_of_mem _ (List.mem_append_right _ hp)
  · exact frame_ending s p (List.mem_append_left _ (List.mem_append_right _ hp))

theorem takeAddressFrame_within (f : ReceivedFrame) (s : State) :
    Within (frameParts s) s (takeAddressFrame f s) :=
  (listener_within s).andThen (noteNoise_within f _) (by simp) (frame_raised s)

theorem takeOwnByte_within (b : Byte) (s : State) : Within (frameParts s) s (takeOwnByte b s) := by
  unfold takeOwnByte
  split_ifs
  · exact (takeLock_within s).mono (frame_lock s)
  · exact (listener_within s).mono (by simp)
  · exact (listener_within s).mono (by simp)
  · exact (offerKey_within _ _ s).mono (by simp)
  · exact .refl _ s

theorem takeOwnFrame_within (f : ReceivedFrame) (s : State) : Within (frameParts s) s (takeOwnFrame f s) := by
  unfold takeOwnFrame
  split
  · have h1 : Within (frameParts s) s (s.putPanel { s.panel with awaited := none }) :=
      (listener_within s).mono (by simp)
    simp only
    split
    · exact h1.trans ((noteNoise_within f _).mono (frame_raised s))
    · exact h1.trans ((takeAnswer_within _ _ _).mono (frame_ending s))
  · split
    · exact (noteNoise_within f s).andThen (offerKey_within _ _ _) (frame_raised s) (by simp)
    · exact takeOwnByte_within ..

theorem takeDataFrame_within (f : ReceivedFrame) (s : State) : Within (frameParts s) s (takeDataFrame f s) := by
  unfold takeDataFrame
  split
  · exact .refl _ s
  · exact .refl _ s
  · exact takeOwnFrame_within f s
  · unfold takeAllFrame
    split_ifs
    · exact (noteNoise_within f s).mono (frame_raised s)
    · exact (takeLock_within s).mono (frame_lock s)
    · exact .refl _ s

/-- R154 to R158: a frame candidate. -/
theorem receiveFrame_within (w : WireFrame) (s : State) : Within (frameParts s) s (receiveFrame w s) := by
  unfold receiveFrame
  split
  · exact .refl _ s
  · split_ifs
    · exact .refl _ s
    · exact takeAddressFrame_within _ s
    · exact takeDataFrame_within _ s

theorem takeBreak_within (s : State) : Within (.listener :: raised) s (takeBreak s) := by
  unfold takeBreak
  split
  · exact .refl _ s
  · exact (listener_within s).andThen (raise_within ..) (by simp) (by simp)

theorem recoverFault_within (s : State) : Within [.listener] s (recoverFault s) := by
  unfold recoverFault
  split
  · exact listener_within s
  · exact .refl _ s

end Sys2Proof.Machine
end

