-- ==== Sys2Proof/Laws/Owners.lean ====
section
/-! SUPPORT. What the owner of each host command does (R180): it touches the parts that the command is about,
and keeps the laws that one block holds. -/

namespace Sys2Proof.Machine

open Sys2Proof

/-! ### Operands -/

theorem outputOf_elim {b : Byte} {o : Output} (h : outputOf b = some o) (f : Output → List Part) :
    (outputOf b).elim [] f = f o := by rw [h]; rfl

theorem profileSlotOf_elim {b : Byte} {n : Fin 8} (h : profileSlotOf b = some n) (f : Fin 8 → List Part) :
    (profileSlotOf b).elim [] f = f n := by rw [h]; rfl

theorem clampIn_bounds {lo hi : Nat} (h : lo ≤ hi) (n : Nat) : lo ≤ (clampIn lo hi n).1 ∧ (clampIn lo hi n).1 ≤ hi := by
  unfold clampIn; split_ifs <;> constructor <;> simp only <;> omega

theorem offsetOf_bounds (w : Word) : -780 ≤ (offsetOf w).1 ∧ (offsetOf w).1 ≤ 840 := by
  unfold offsetOf; split_ifs <;> constructor <;> simp only <;> omega

/-! ### The Gated Path -/

theorem unset_law (k : WindowKind) : Window.unset.law k := by simp [Window.law, Window.unset]

theorem windowFits_spec {base size : Nat} (h : windowFits base size = true) :
    base % 256 = 0 ∧ size % 256 = 0 ∧ size ≤ Config.windowSizeMax ∧ base + size ≤ Config.addressSpace := by
  simpa [windowFits] using h

theorem mem_allWindows (o : Output) (k : WindowKind) : (o, k) ∈ allWindows := by
  cases o <;> cases k <;> decide

/-- R8 step 4: with no overlap reported, the range is apart from every other window. -/
theorem apart_of_not_overlaps {o : Output} {k : WindowKind} {base size : Nat} {fill : Word} {s : State}
    (h : overlapsWindow o k base size s = false) (o' : Output) (k' : WindowKind) (ne : (o', k') ≠ (o, k)) :
    (s.window o' k').apartFrom ⟨true, base, size, fill⟩ := by
  intro hs _
  simp only [overlapsWindow, List.any_eq_false] at h
  have := h (o', k') (mem_allWindows o' k')
  simp only [ne_eq, ne, not_false_eq_true, decide_true, Bool.true_and, hs, rangesMeet, decide_eq_true_eq,
    not_and] at this
  show _ ≤ base ∨ base + size ≤ _
  by_cases hb : base < (s.window o' k').base + (s.window o' k').size
  · exact .inr (Nat.le_of_not_lt (this hb))
  · exact .inl (Nat.le_of_not_lt hb)

theorem Window.apartFrom_symm {v w : Window} (h : v.apartFrom w) : w.apartFrom v := fun a b => (h b a).symm

/-- A window is written: the others stand, and the laws of the lanes are kept. -/
theorem putWindow_within {o : Output} {k : WindowKind} {w : Window} {s : State} (hw : w.law k)
    (ha : ∀ o' k', (o', k') ≠ (o, k) → (s.window o' k').apartFrom w) :
    Within [.window o k] s (s.putWindow o k w) := by
  refine within_lanes (fun o' k' => ?_) (.inr rfl) (.inr rfl) (.inr rfl) (.inr rfl) (.inr rfl) (.inr rfl)
    (fun _ => .inr rfl) (.inr rfl) (fun ⟨h1, h2, h3, h4⟩ => ⟨fun o' k' => ?_, fun o' k' o'' k'' ne => ?_, h3, h4⟩)
  · by_cases e : (o', k') = (o, k)
    · exact .inl (by simp only [Prod.mk.injEq] at e; simp [e.1, e.2])
    · refine .inr ?_
      have := window_putWindow s o o' k k' w
      rw [if_neg e] at this
      exact this
  · show ((s.putWindow o k w).window o' k').law k'
    rw [window_putWindow]
    split
    · next e => simp only [Prod.mk.injEq] at e; rw [e.2]; exact hw
    · exact h1 o' k'
  · show ((s.putWindow o k w).window o' k').apartFrom ((s.putWindow o k w).window o'' k'')
    rw [window_putWindow, window_putWindow]
    split_ifs with e1 e2 e2
    · exact absurd (e1.trans e2.symm) ne
    · exact Window.apartFrom_symm (ha o'' k'' e2)
    · exact ha o' k' e1
    · exact h2 o' k' o'' k'' ne

theorem obeySetWindow_within (output kind : Byte) (base size fill : Word) (s : State) :
    Within (commandParts (.setWindow output kind base size fill)) s
      (obeySetWindow output kind base size fill s).1 := by
  unfold obeySetWindow
  split
  · next o k ho hk =>
    have e : commandParts (.setWindow output kind base size fill) = [.window o k] := by
      simp [commandParts, ho, hk]
    rw [e]
    split_ifs with h0 h1 h2
    · exact putWindow_within (unset_law k) (fun _ _ _ _ h => by simp [Window.unset] at h)
    · exact .refl _ s
    · exact .refl _ s
    · obtain ⟨a, b, c, d⟩ := windowFits_spec (by simpa using h1)
      refine putWindow_within ?_ (fun o' k' ne => apart_of_not_overlaps (by simpa using h2) o' k' ne)
      simp only [Window.law, if_true]
      exact ⟨a, b, Nat.pos_of_ne_zero h0, c, d, fun e => by rw [e]; rfl⟩
  · exact .refl _ s

theorem obeyCommitLayout_within (s : State) : Within [.layout] s (obeyCommitLayout s).1 :=
  within_lanes (fun _ _ => .inr rfl) (.inl (by simp)) (.inr rfl) (.inr rfl) (.inr rfl) (.inr rfl) (.inr rfl)
    (fun _ => .inr rfl) (.inr rfl) id

/-! ### Bindings -/

theorem obeyBindService_within (output : Byte) (k : ServiceKey) (s : State) :
    Within ((outputOf output).elim [] bindingParts) s (obeyBindService output k s).1 := by
  unfold obeyBindService
  split
  · exact .refl _ s
  · next o h => rw [outputOf_elim h]; exact bindService_within o k s

theorem obeyUnbindService_within (output : Byte) (s : State) :
    Within ((outputOf output).elim [] bindingParts) s (obeyUnbindService output s).1 := by
  unfold obeyUnbindService
  split
  · exact .refl _ s
  · next o h => rw [outputOf_elim h]; exact unbindService_within o s

theorem setBinding_within (o : Output) (b : Option (Fin 8)) (s : State) :
    Within (.profileBinding o :: judgedParts o) s (setBinding o b s) :=
  Within.trans (t := s.putContext o { s.context o with profile := b })
    (within_context (.inl List.mem_cons_self) (.inr rfl) (.inr ⟨rfl, rfl⟩) (.inr rfl) (.inr rfl) id)
    ((evaluate_within o _).mono (fun _ h => List.mem_cons_of_mem _ h))

theorem obeyBindProfile_within (output profile : Byte) (s : State) :
    Within ((outputOf output).elim [] (fun o => .profileBinding o :: judgedParts o)) s
      (obeyBindProfile output profile s).1 := by
  unfold obeyBindProfile
  split
  · next o h _ => rw [outputOf_elim h]; exact setBinding_within o none s
  · next o n h _ =>
    rw [outputOf_elim h]
    split
    · exact .refl _ s
    · exact setBinding_within o (some n) s
  · exact .refl _ s

/-! ### Viewing time and profiles -/

theorem obeyGrantTime_within (profile : Byte) (minutes : Half) (s : State) :
    Within ((profileSlotOf profile).elim [] (fun n => .profile n :: allJudged)) s
      (obeyGrantTime profile minutes s).1 := by
  unfold obeyGrantTime
  split
  · exact .refl _ s
  · next n m c h =>
    have hn : profileSlotOf profile = some n := by
      unfold checkGrant at h
      split at h
      · simp at h
      · next n' hn => split_ifs at h; simp only [Except.ok.injEq, Prod.mk.injEq] at h; rw [hn, h.1]
    rw [profileSlotOf_elim hn]
    exact grant_within n m s (checkGrant_state h)

/-- R73: a profile command acts on the slot it names, or not at all. -/
theorem onProfile_within {profile : Byte} {act : Fin 8 → State → State × Response} {s : State}
    {f : Fin 8 → List Part} (h : ∀ n, Within (f n) s (act n s).1) :
    Within ((profileSlotOf profile).elim [] f) s (onProfile profile act s).1 := by
  unfold onProfile
  split
  · exact .refl _ s
  · next n hn =>
    rw [profileSlotOf_elim hn]
    split
    · exact .refl _ s
    · exact h n

theorem ceilingOf_le {k a : Byte} {c : Ceiling × Bool} (h : ceilingOf k a = some c) :
    ∀ n, c.1 = .age n → n ≤ 21 := by
  intro n hn
  unfold ceilingOf at h
  split at h
  · split_ifs at h
    · simp only [Option.some.injEq] at h; subst h; simp only [Ceiling.age.injEq] at hn; omega
    · simp only [Option.some.injEq] at h; subst h; simp only [Ceiling.age.injEq] at hn; omega
  · simp only [Option.some.injEq] at h; subst h; simp at hn
  · simp only [Option.some.injEq] at h; subst h; simp at hn
  · simp at h

theorem obeySetProfileLimits_within (p kind age mask u sc ab limit : Byte) (s : State) :
    Within ((profileSlotOf p).elim [] (fun n => .profile n :: allJudged)) s
      (obeySetProfileLimits p kind age mask u sc ab limit s).1 := by
  refine onProfile_within fun n => ?_
  split
  · next c _ _ _ hc _ _ _ =>
    refine writeProfile_within n _ _ s fun h => ⟨?_, h.2⟩
    obtain ⟨⟨_, _, h3, h4, h5, h6, h7, h8, h9, h10⟩, _⟩ := h
    exact ⟨ceilingOf_le hc, clampTo_le 60 _, h3, h4, h5, h6, h7, h8, h9, h10⟩
  · exact .refl _ s

theorem clampedAllowance_le (a : Half) : ∀ n, (clampedAllowance a).1 = some n → n ≤ 1440 := by
  intro n h
  unfold clampedAllowance at h
  split at h
  · simp at h
  · simp only [Option.some.injEq] at h; rw [← h]; exact clampTo_le 1440 _

theorem obeySetProfileTime_within (p : Byte) (a k lead : Half) (r0 r1 r2 r3 : Byte) (s : State) :
    Within ((profileSlotOf p).elim [] (fun n => .profile n :: allJudged)) s
      (obeySetProfileTime p a k lead r0 r1 r2 r3 s).1 := by
  refine onProfile_within fun n => writeProfile_within n _ _ s fun h => ?_
  refine withTime_ok h (clampedAllowance_le a) (clampTo_le 720 _) (clampTo_le 900 _) fun i => ?_
  fin_cases i <;> exact clampTo_le 8 _

theorem obeySetCurfew_within (p slot days : Byte) (a b : Half) (s : State) :
    Within ((profileSlotOf p).elim [] (fun n => .profile n :: allJudged)) s
      (obeySetCurfew p slot days a b s).1 := by
  refine onProfile_within fun n => ?_
  split
  · exact .refl _ s
  · next c _ =>
    split
    · next hw =>
      refine writeProfile_within n _ _ s fun h => withCurfew_ok h c _ fun x hx => ?_
      simp only [Option.some.injEq] at hx
      subst hx
      exact legalWindow_legal hw
    · exact .refl _ s

theorem obeyClearCurfew_within (p slot : Byte) (s : State) :
    Within ((profileSlotOf p).elim [] (fun n => .profile n :: allJudged)) s (obeyClearCurfew p slot s).1 := by
  refine onProfile_within fun n => ?_
  split
  · exact .refl _ s
  · next c _ => exact writeProfile_within n _ _ s fun h => withCurfew_ok h c _ (by simp)

theorem obeySetProfileState_within (p state : Byte) (s : State) :
    Within ((profileSlotOf p).elim [] (fun n => .profile n :: everyProfileBinding ++ allJudged)) s
      (obeySetProfileState p state s).1 := by
  refine onProfile_within fun n => ?_
  split
  · exact .refl _ s
  · next st _ =>
    refine (changeProfileState_within n st s).trans ((evaluateProfile_within n _).mono fun q hq => ?_)
    exact List.mem_append_right _ hq

theorem obeyExportProfile_within (p : Byte) (slot : Fin 16) (s : State) :
    Within [.imageOperation] s (obeyExportProfile p slot s).1 := by
  unfold obeyExportProfile
  split
  · exact .refl _ s
  · split_ifs
    · exact .refl _ s
    · exact .refl _ s
    · refine within_image (.inl (by simp)) (.inr rfl) fun h n' _ q e => ?_
      simp only [ImageOperation.exporting.injEq] at e
      rw [← e.2.2]
      exact (h.1 _).1

theorem obeyImportProfile_within (p : Byte) (slot : Fin 16) (s : State) :
    Within [.imageOperation] s (obeyImportProfile p slot s).1 := by
  unfold obeyImportProfile
  split
  · exact .refl _ s
  · split_ifs
    · exact .refl _ s
    · exact within_image (.inl (by simp)) (.inr rfl) fun _ _ _ _ e => by simp at e

/-! ### Override stacks -/

theorem checkPush_output {output kind scope : Byte} {d : Half} {sec : Word} {s : State} {p : StagedPush}
    (h : checkPush output kind scope d sec s = .ok p) : outputOf output = some p.output := by
  unfold checkPush at h
  split at h
  · simp at h
  · next o ho =>
    split at h
    · simp at h
    · split at h
      · simp at h
      · split_ifs at h
        split at h
        · simp at h
        · simp only [Except.ok.injEq] at h; rw [ho, ← h]

theorem obeyPushOverride_within (output kind scope : Byte) (d : Half) (sec : Word) (s : State) :
    Within ((outputOf output).elim [] (fun o => .stack o :: judgedParts o)) s
      (obeyPushOverride output kind scope d sec s).1 := by
  unfold obeyPushOverride
  split
  · exact .refl _ s
  · next p h =>
    rw [outputOf_elim (checkPush_output h)]
    exact pushEntry_within p.output _ s (checkPush_room h) rfl

theorem obeyPopOverride_within (output : Byte) (s : State) :
    Within ((outputOf output).elim [] (fun o => .stack o :: judgedParts o)) s (obeyPopOverride output s).1 := by
  unfold obeyPopOverride
  split
  · exact .refl _ s
  · next o h =>
    rw [outputOf_elim h]
    split
    · exact .refl _ s
    · exact popStack_within o s

theorem obeyClearOverrides_within (output : Byte) (s : State) :
    Within ((outputOf output).elim [] (fun o => .stack o :: judgedParts o)) s
      (obeyClearOverrides output s).1 := by
  unfold obeyClearOverrides
  split
  · exact .refl _ s
  · next o h => rw [outputOf_elim h]; exact clearStack_within o s

/-! ### The section intake -/

/-- A section window is written whole, with a context that suits the flow state. -/
theorem putSectionWindow_within {w : Fin 4} {x : SectionWindow} {s : State}
    (h1 : x.context = .unset ↔ x.set = false) (h2 : s.intake.flow = .flowing → x.context ≠ .shed)
    (h3 : s.intake.flow = .halted → x.context = .unset ∨ x.context = .shed) :
    Within [.sectionWindow w] s (s.putSectionWindow w x) := by
  refine within_intake (fun v => ?_) (.inr ⟨rfl, rfl⟩) (.inr rfl) (.inr ⟨rfl, rfl⟩)
    (fun ⟨a, b, c, d, e, f, g, i, j⟩ => ⟨a, b, c, d, e, f, fun v => ?_, fun hf v => ?_, fun hf v => ?_⟩)
  · by_cases e : v = w
    · exact .inl (by simp [e])
    · refine .inr ?_
      have := sectionWindow_putSectionWindow s w v x
      rw [if_neg e] at this
      exact this
  all_goals
    have hv := sectionWindow_putSectionWindow s w v x
    simp only [State.putSectionWindow] at hv
    rw [hv]
    split
  · exact h1
  · exact g v
  · exact h2 hf
  · exact i hf v
  · exact h3 hf
  · exact j hf v

theorem obeySetSectionWindow_within (number : Byte) (base size : Word) (s : State) :
    Within (commandParts (.setSectionWindow number base size)) s
      (obeySetSectionWindow number base size s).1 := by
  unfold obeySetSectionWindow
  split
  · next h =>
    have e : commandParts (.setSectionWindow number base size) = [.sectionWindow ⟨number.toNat, h⟩] := by
      simp [commandParts, h]
    rw [e]
    simp only
    split_ifs
    · exact putSectionWindow_within (by simp [SectionWindow.unset]) (fun _ => by simp [SectionWindow.unset])
        (fun _ => .inl rfl)
    · exact .refl _ s
    · exact .refl _ s
    · refine putSectionWindow_within ?_ (fun hf => ?_) (fun hf => ?_)
      · cases s.intake.flow <;> simp [freshContext]
      · rw [hf]; simp [freshContext]
      · rw [hf]; exact .inr rfl
  · exact .refl _ s

theorem raise_intake (k : NoticeKind) (subj : Nat) (d : List Byte) (s : State) :
    (raise k subj d s).intake = s.intake := by unfold raise; split <;> rfl

theorem applyLevels_queue (s : State) : (applyLevels s).intake.queue = s.intake.queue
    ∧ (applyLevels s).intake.parsing = s.intake.parsing := by
  unfold applyLevels haltIntake resumeIntake
  split
  · split
    · simp only [raise_intake]; exact ⟨rfl, rfl⟩
    · exact ⟨rfl, rfl⟩
  · split <;> exact ⟨rfl, rfl⟩

/-- R115: a halt leaves the queue and the parse as they stand. -/
theorem haltIntake_levels (s : State) : Frame levelParts s (haltIntake s) := by
  intro p hp
  by_cases e : p = .intakeQueue
  · subst e; simp only [Part.same, haltIntake_eq, raise_intake]; exact ⟨trivial, trivial⟩
  · refine haltIntake_frame s p fun h => ?_
    simp only [List.mem_append, List.mem_cons, List.not_mem_nil, or_false, not_or, intakeParts, levelParts] at h hp
    tauto

/-- R117: the application of the levels touches the contexts and the flow state. -/
theorem applyLevels_levels (s : State) : Frame levelParts s (applyLevels s) := by
  intro p hp
  by_cases e : p = .intakeQueue
  · subst e; exact applyLevels_queue s
  · refine applyLevels_frame s p fun h => ?_
    simp only [List.mem_append, List.mem_cons, List.not_mem_nil, or_false, not_or, intakeParts, levelParts] at h hp
    tauto

theorem levels_ready {s : State} (h : IntakeLaw s) {a b : Nat} (ha : 1 ≤ a ∧ a ≤ 8) (hb : b < a) :
    HaltReady { s.intake with haltLevel := a, resumeLevel := b } := by
  obtain ⟨h1, h2, h3, h4, h5, h6, h7, h8, h9⟩ := h
  exact ⟨h1, h2, ha.1, ha.2, hb, h7⟩

theorem obeySetIntakeLevels_within (halt resume : Byte) (s : State) :
    Within levelParts s (obeySetIntakeLevels halt resume s).1 := by
  have hb := clampIn_bounds (show 1 ≤ 8 by omega) halt.toNat
  have hl := clampTo_le ((clampIn 1 8 halt.toNat).1 - 1) resume.toNat
  let t : State := { s with intake := { s.intake with
    haltLevel := (clampIn 1 8 halt.toNat).1
    resumeLevel := (clampTo ((clampIn 1 8 halt.toNat).1 - 1) resume.toNat).1 } }
  have f1 : Frame levelParts s t := by
    intro p hp
    cases p
    case intakeLevels => exact absurd (by simp) hp
    all_goals first | exact rfl | exact ⟨rfl, rfl⟩ | exact ⟨rfl, rfl, rfl⟩ | exact ⟨rfl, rfl, rfl, rfl⟩
  refine ⟨f1.trans (applyLevels_levels t), fun l hl' => ?_⟩
  show l.holds (applyLevels t)
  by_cases e : l = .intake
  · subst e
    exact applyLevels_law (levels_ready hl' hb (by omega)) hl'.2.2.2.2.2.2.2.1 hl'.2.2.2.2.2.2.2.2
  · refine applyLevels_keeps l e ?_
    cases l
    case intake => exact absurd rfl e
    all_goals exact hl'

/-! ### The rating table and the time base -/

theorem obeyDeclarePlayback_within (stream service id : Half) (cls age flags genre : Byte) (s : State) :
    Within (everyEntry ++ consequenceParts) s (obeyDeclarePlayback stream service id cls age flags genre s).1 := by
  unfold obeyDeclarePlayback
  split
  · exact (declareEvent_within ..).mono (entry_cons_sub _ _)
  · exact .refl _ s

theorem obeySetScheme_within (scheme : Byte) (ages : Vector Byte 16) (s : State) :
    Within (.schemes :: everyEntry) s (obeySetScheme scheme ages s).1 := by
  unfold obeySetScheme
  split
  · exact writeScheme_within ..
  · exact .refl _ s

theorem obeySetTime_within (day : Half) (second offset : Word) (s : State) :
    Within settingParts s (obeySetTime day second offset s).1 := by
  unfold obeySetTime
  split
  · exact .refl _ s
  · next h =>
    refine setWall_within s ⟨by simp, fun _ => ⟨?_, Nat.le_of_not_lt h, by simp, (offsetOf_bounds offset).1,
      (offsetOf_bounds offset).2⟩⟩
    have := day.isLt
    omega

theorem obeySetDayStart_within (minute : Half) (s : State) :
    Within (.dayStart :: dayParts) s (obeySetDayStart minute s).1 :=
  takeDayStart_within _ s (clampTo_le 1439 _)

/-! ### The panel link and the report unit -/

theorem obeySetPanelAddresses_within (l p : Byte) (s : State) :
    Within [.panelAddresses] s (obeySetPanelAddresses l p s).1 := by
  unfold obeySetPanelAddresses
  split
  · exact .refl _ s
  · next h =>
    rw [not_or] at h
    exact within_panel (.inr ⟨rfl, rfl⟩) (.inl (by simp)) (.inr rfl) (.inr rfl) (.inr ⟨rfl, rfl, rfl, rfl⟩)
      (.inr rfl) (.inr rfl) (fun k => ⟨k.1, k.2.1, k.2.2.1, h.1, h.2⟩)

theorem obeySelectView_within (kind number : Byte) (k : ServiceKey) (s : State) :
    Within [.view] s (obeySelectView kind number k s).1 := by
  unfold obeySelectView
  split
  · exact .refl _ s
  · exact within_report (.inr ⟨rfl, rfl⟩) (.inr ⟨rfl, rfl⟩) (.inr rfl) (.inr ⟨rfl, rfl⟩) (.inl (by simp)) id

theorem obeySetNoticeMask_within (mask : Word) (s : State) : Within [.masks] s (obeySetNoticeMask mask s).1 := by
  unfold obeySetNoticeMask
  split
  · exact .refl _ s
  · exact within_report (.inr ⟨rfl, rfl⟩) (.inr ⟨rfl, rfl⟩) (.inl (by simp)) (.inr ⟨rfl, rfl⟩) (.inr rfl) id

theorem obeySetAttention_within (level urgent : Byte) (s : State) :
    Within [.attentionLevels, .notices] s (obeySetAttention level urgent s).1 := by
  have hl := clampIn_bounds (show 1 ≤ 32 by omega) level.toNat
  have hu := clampTo_le 6 urgent.toNat
  exact within_report (.inl (by simp)) (.inr ⟨rfl, rfl⟩) (.inr rfl) (.inl (by simp)) (.inr rfl)
    (fun ⟨h1, h2, h3, _, _, _, _⟩ => ⟨h1, h2, h3, hl.1, hl.2, hu, rfl⟩)

/-! ### The PIN authority -/

theorem entryRefusal_idle {m : Matcher} (h : entryRefusal m = none) : m = .idle := by
  cases m <;> simp [entryRefusal] at h ⊢

theorem not_authority {s : State} (h : ¬ authority s = true) : s.pin.sessionOpen = false := by
  simp only [authority, Bool.or_eq_true, not_or, Bool.not_eq_true] at h
  exact h.1

theorem obeyOpenSession_within (slot : Fin 16) (s : State) :
    Within (sessionParts ++ beginParts) s (obeyOpenSession slot s).1 := by
  unfold obeyOpenSession
  split
  · exact .refl _ s
  · next h =>
    have hm := entryRefusal_idle h
    split
    · refine (openSession_within s fun _ => ?_).mono (fun _ hp => List.mem_append_left _ hp)
      rw [hm]
      exact ⟨by simp, by simp [Matcher.entering], by simp⟩
    · next ha =>
      exact (beginEntry_within _ slot none s (fun _ => not_authority ha)).mono
        (fun _ hp => List.mem_append_right _ hp)

theorem obeyOpenGrant_within (output profile staged : Byte) (minutes : Half) (kind scope : Byte) (d : Half)
    (sec : Word) (slot : Fin 16) (s : State) :
    Within (stagedParts ++ beginParts) s
      (obeyOpenGrant output profile staged minutes kind scope d sec slot s).1 := by
  unfold obeyOpenGrant
  split
  · exact .refl _ s
  · split
    · exact .refl _ s
    · next a _ =>
      split
      · exact (executeStaged_within a s).mono (fun _ hp => List.mem_append_left _ hp)
      · next ha =>
        exact (beginEntry_within _ slot (some a) s (fun _ => not_authority ha)).mono
          (fun _ hp => List.mem_append_right _ hp)

theorem obeyOpenPinChange_within (slot : Fin 16) (s : State) :
    Within beginParts s (obeyOpenPinChange slot s).1 := by
  unfold obeyOpenPinChange
  split
  · exact .refl _ s
  · split
    · exact beginEntry_within _ slot none s (fun h => absurd rfl h)
    · exact .refl _ s

theorem obeyOpenPinEntry_within (output profile purpose staged : Byte) (minutes : Half) (kind scope : Byte)
    (d : Half) (sec : Word) (slot : Fin 16) (s : State) :
    Within (commandParts (.openPinEntry output profile purpose staged minutes kind scope d sec)) s
      (obeyOpenPinEntry output profile purpose staged minutes kind scope d sec slot s).1 := by
  unfold obeyOpenPinEntry
  simp only [commandParts]
  cases purposeOf purpose with
  | none => exact .refl _ s
  | some q =>
    cases q
    · exact obeyOpenSession_within slot s
    · exact obeyOpenGrant_within ..
    · exact obeyOpenPinChange_within slot s

theorem obeySetSessionLength_within (seconds : Half) (s : State) :
    Within [.sessionLength, .sessionRemaining] s (obeySetSessionLength seconds s).1 := by
  have hb := clampIn_bounds (show 60 ≤ 1800 by omega) seconds.toNat
  -- the length and the slide are one write of the authority
  have e : (obeySetSessionLength seconds s).1 = s.putPin
      { s.pin with
        sessionLength := (clampIn 60 1800 seconds.toNat).1
        sessionRemaining :=
          if s.pin.sessionOpen then (clampIn 60 1800 seconds.toNat).1 else s.pin.sessionRemaining } := by
    by_cases ho : s.pin.sessionOpen = true <;> simp [obeySetSessionLength, complete, slideSession, ho, State.putPin]
  rw [e]
  refine within_pin (.inr rfl) (.inr rfl) (.inr rfl) (.inr ⟨rfl, rfl⟩) (.inr rfl) (.inr rfl) (.inl (by simp))
    (.inl (by simp)) (fun ⟨h1, h2, h3, h4, h5, h6, h7, h8, h9, h10⟩ =>
      ⟨h1, h2, h3, h4, h5, h6, hb.1, hb.2, ?_, h10⟩)
  simp only [putPin_pin]
  by_cases ho : s.pin.sessionOpen = true
  · simp [ho]
  · simpa [ho] using h9

/-! ### FACTORY_CLEAR (R176) -/

theorem cancelImage_within (s : State) :
    Within ([.imageOperation, .imageBuffer] ++ everySlot) s (cancelImage s) := by
  have h : Within ([.imageOperation, .imageBuffer] ++ everySlot) s { s with image := ⟨.idle, none⟩ } :=
    within_image (.inl (by simp)) (.inl (by simp)) (fun _ _ _ _ e => by simp at e)
  unfold cancelImage
  split
  · exact h
  all_goals exact h.trans ((finishResult_within ..).mono (by simp))

/-- What the clearing of the retained items may change. -/
abbrev retainedParts : List Part :=
  [.layout, .schemes, .wall, .offset, .dayStart, .profileDay, .panelAddresses] ++ everyWindow ++ everyProfile
    ++ everyProfileBinding ++ everyPendingSince ++ everyStack

theorem clearRetained_context (s : State) (o : Output) :
    (clearRetained s).context o = (s.context o).cleared := by cases o <;> rfl

theorem clearRetained_within (s : State) : Within retainedParts s (clearRetained s) := by
  refine ⟨fun p hp => ?_, fun l hl => ?_⟩
  · cases p
    case window o k => exact absurd (by cases o <;> cases k <;> simp [allWindows, allOutputs]) hp
    case profile n => exact absurd (by simp [profile_mem_everyProfile n]) hp
    case profileBinding o => exact absurd (by cases o <;> simp) hp
    case stack o => exact absurd (by cases o <;> simp) hp
    case pendingSince o => exact absurd (by cases o <;> simp) hp
    case serviceBinding o => simp only [Part.same, clearRetained_context, OutputContext.cleared]
    case verdict o => simp only [Part.same, clearRetained_context, OutputContext.cleared]; trivial
    case layout => exact absurd (by simp) hp
    case schemes => exact absurd (by simp) hp
    case wall => exact absurd (by simp) hp
    case offset => exact absurd (by simp) hp
    case dayStart => exact absurd (by simp) hp
    case profileDay => exact absurd (by simp) hp
    case panelAddresses => exact absurd (by simp) hp
    all_goals first | exact rfl | exact ⟨rfl, rfl⟩ | exact ⟨rfl, rfl, rfl⟩ | exact ⟨rfl, rfl, rfl, rfl⟩
  · cases l
    case lanes =>
      have hw : ∀ o k, (clearRetained s).window o k = .unset := fun o k => by cases o <;> cases k <;> rfl
      refine ⟨fun o k => ?_, fun o k o' k' _ h => ?_, hl.2.2.1, hl.2.2.2⟩
      · rw [hw]; exact unset_law k
      · rw [hw] at h; simp [Window.unset] at h
    case stackTops => intro o; rw [clearRetained_context]; exact nil_law
    case profiles =>
      refine ⟨fun n => ?_, hl.2⟩
      have : (clearRetained s).profile n = .default := by simp [clearRetained, State.profile]
      rw [this]; exact default_ok
    case time =>
      exact ⟨hl.1, by simp [clearRetained, TimeBase.cold], by simp [clearRetained, TimeBase.cold],
        by simp [clearRetained, TimeBase.cold], by simp [clearRetained, TimeBase.cold],
        by simp [clearRetained, TimeBase.cold], fun _ => ⟨rfl, rfl, rfl⟩⟩
    case panel =>
      exact ⟨hl.1, hl.2.1, hl.2.2.1, by simp [clearRetained, PanelLink.cold],
        by simp [clearRetained, PanelLink.cold]⟩
    all_goals exact hl

/-- What is applied to the intake before its levels. -/
theorem clearedIntake_frame (s : State) : Frame (levelParts) s
    { s with intake := { s.intake with
        windows := Vector.replicate 4 .unset, haltLevel := 6, resumeLevel := 2 } } := by
  intro p hp
  cases p
  case sectionWindow w => exact absurd (by simp [section_mem w]) hp
  case intakeLevels => exact absurd (by simp) hp
  all_goals first | exact rfl | exact ⟨rfl, rfl⟩ | exact ⟨rfl, rfl, rfl⟩ | exact ⟨rfl, rfl, rfl, rfl⟩

theorem clearIntake_within (s : State) :
    Within (levelParts) s (clearIntake s) := by
  have f := clearedIntake_frame s
  have hr : IntakeLaw s → HaltReady { s.intake with
      windows := Vector.replicate 4 .unset, haltLevel := 6, resumeLevel := 2 } := fun h =>
    ⟨h.1, h.2.1, by simp, by simp, by simp, fun w => by simp [SectionWindow.unset]⟩
  unfold clearIntake
  simp only
  split
  · next hq =>
    refine ⟨fun p hp => ?_, fun l hl => ?_⟩
    · have := f p hp
      cases p
      case flow => exact absurd (by simp) hp
      all_goals exact this
    · cases l
      case intake =>
        obtain ⟨h1, h2, h3, h4, h5, h6⟩ := hr hl
        exact ⟨h1, h2, h3, h4, h5, fun _ => hq, h6, fun _ w => by simp [State.sectionWindow, SectionWindow.unset],
          fun e => by simp at e⟩
      all_goals exact hl
  · refine ⟨f.trans (haltIntake_levels _), fun l hl => ?_⟩
    by_cases e : l = .intake
    · subst e; exact haltIntake_law (hr hl)
    · refine haltIntake_keeps l e ?_
      cases l
      case intake => exact absurd rfl e
      all_goals exact hl

/-- The parts that the clearing of the PIN authority may change. -/
abbrev pinClearParts : List Part := [.storedPin, .failures, .lockoutTimer, .matcher, .sessionLength]

theorem clearPin_frame (s : State) : Frame pinClearParts s (clearPin s) := by
  intro p hp
  cases p
  case storedPin => exact absurd (by simp) hp
  case failures => exact absurd (by simp) hp
  case lockoutTimer => exact absurd (by simp) hp
  case matcher => exact absurd (by simp) hp
  case sessionLength => exact absurd (by simp) hp
  all_goals first | exact rfl | exact ⟨rfl, rfl⟩ | exact ⟨rfl, rfl, rfl⟩ | exact ⟨rfl, rfl, rfl, rfl⟩

/-- With no session open the cleared authority keeps its law. -/
theorem clearPin_law {s : State} (h : PinLaw s) (hs : s.pin.sessionOpen = false) : PinLaw (clearPin s) := by
  obtain ⟨h1, h2, h3, h4, h5, h6, h7, h8, h9, h10, h11, h12⟩ := h
  refine ⟨by simp [clearPin], h2, h3, by simp [clearPin], by simp [clearPin], ?_, by simp [clearPin],
    by simp [clearPin], ?_, fun _ => hs, fun _ _ => hs, fun _ _ => hs⟩
  · simp only [clearPin, putPin_pin]
    split
    · exact h6
    · exact Nat.zero_le _
  · simpa [clearPin, hs] using h9

theorem endEntry_session (oc : CommandOutcome) (d : List Byte) (s : State) :
    (endEntry oc d s).pin.sessionOpen = s.pin.sessionOpen := by
  unfold endEntry offerMessage; simp only; split <;> rfl

theorem cancelEntry_session (s : State) : (cancelEntry s).pin.sessionOpen = s.pin.sessionOpen := by
  unfold cancelEntry
  split
  · exact endEntry_session ..
  · rfl

theorem closeSession_closed (s : State) : (closeSession s).pin.sessionOpen = false := by
  rw [closeSession_pin]
  by_cases h : s.pin.sessionOpen = true
  · rw [if_pos h]
  · rw [if_neg h]; simpa using h

/-- The clearing of the PIN authority, after what goes before it. -/
theorem clearPin_after {s t : State} (h : Within clearingParts s t) (hs : t.pin.sessionOpen = false) :
    Within clearingParts s (clearPin t) := by
  refine ⟨h.frame.trans ((clearPin_frame t).mono fun p hp => ?_), fun l hl => ?_⟩
  · simp only [clearingParts, lockParts, endingParts, List.mem_append, List.mem_cons, List.not_mem_nil,
      or_false] at hp ⊢
    tauto
  · have k := h.keeps l hl
    by_cases e : l = .pin
    · subst e; exact clearPin_law k hs
    · exact putPin_keeps l e k

/-- R176: FACTORY_CLEAR touches what it clears, and keeps the laws. -/
theorem obeyFactoryClear_within (s : State) : Within clearingParts s (obeyFactoryClear s).1 := by
  have h1 : Within clearingParts s (cancelImage s) :=
    (cancelImage_within s).mono fun p hp => by
      simp only [clearingParts, List.mem_append, List.mem_cons, List.not_mem_nil, or_false] at hp ⊢; tauto
  have h2 := h1.trans ((clearRetained_within _).mono fun p hp => by
      simp only [clearingParts, retainedParts, List.mem_append, List.mem_cons, List.not_mem_nil, or_false] at hp ⊢
      tauto)
  have h3 := h2.trans ((evaluateAll_within _).mono fun p hp => by
      simp only [clearingParts, List.mem_append] at hp ⊢; tauto)
  have h4 := h3.trans ((clearIntake_within _).mono fun p hp => by
      simp only [clearingParts, allJudged, raised, List.mem_append, List.mem_cons, List.not_mem_nil,
        or_false] at hp ⊢
      tauto)
  have h5 := h4.trans ((cancelEntry_within _).mono fun p hp => by
      simp only [clearingParts, lockParts, List.mem_append] at hp ⊢; tauto)
  have h6 := h5.trans ((closeSession_within _).mono fun p hp => by
      simp only [clearingParts, lockParts, List.mem_append] at hp ⊢; tauto)
  exact clearPin_after h6 (closeSession_closed _)

/-! ### Every command (R180) -/

/-- R180: the owner of a command touches the parts the command is about, and keeps the laws. -/
theorem obey_within (slot : Fin 16) (c : Command) (s : State) : Within (commandParts c) s (obey slot c s).1 := by
  cases c
  case null => exact .refl _ s
  case bindService o unbind n st sv =>
    cases unbind
    · exact obeyBindService_within o _ s
    · exact obeyUnbindService_within o s
  case bindProfile => exact obeyBindProfile_within ..
  case declarePlayback => exact obeyDeclarePlayback_within ..
  case setProfileLimits => exact obeySetProfileLimits_within ..
  case setProfileTime => exact obeySetProfileTime_within ..
  case setCurfew p c clear d a b =>
    cases clear
    · exact obeySetCurfew_within ..
    · exact obeyClearCurfew_within ..
  case setProfileState => exact obeySetProfileState_within ..
  case exportProfile => exact obeyExportProfile_within ..
  case importProfile => exact obeyImportProfile_within ..
  case grantTime => exact obeyGrantTime_within ..
  case pushOverride => exact obeyPushOverride_within ..
  case popOverride => exact obeyPopOverride_within ..
  case clearOverrides => exact obeyClearOverrides_within ..
  case setTime => exact obeySetTime_within ..
  case setDayStart => exact obeySetDayStart_within ..
  case setWindow => exact obeySetWindow_within ..
  case setSectionWindow => exact obeySetSectionWindow_within ..
  case setIntakeLevels => exact obeySetIntakeLevels_within ..
  case commitLayout => exact obeyCommitLayout_within s
  case setScheme => exact obeySetScheme_within ..
  case openPinEntry => exact obeyOpenPinEntry_within ..
  case closeSession => exact closeSession_within s
  case setSessionLength => exact obeySetSessionLength_within ..
  case setPanelAddresses => exact obeySetPanelAddresses_within ..
  case factoryClear => exact obeyFactoryClear_within s
  case selectView => exact obeySelectView_within ..
  case setNoticeMask => exact obeySetNoticeMask_within ..
  case setAttention => exact obeySetAttention_within ..

end Sys2Proof.Machine
end

