-- ==== Sys2Proof/Laws/Ring.lean ====
section
/-! SUPPORT. What the command unit does (R178 to R181): a post is captured, slots are taken in ring order, and
a host command of the table is one post and, where the ring is ready, one take. -/

namespace Sys2Proof.Machine

open Sys2Proof

/-! ### What no command touches -/

/-- The parts that no owner of a command touches. -/
def Part.outsideCommands : Part → Bool
  | .inputs | .systemReset | .pending | .presentationTable | .controlTable | .heldPresentation | .heldControl
  | .nextMark | .activity _ | .transfers | .run | .intakeQueue | .listener | .transmitter | .sentFrames
  | .shadow | .pointer => true
  | _ => false

/-- A list holds no part outside commands. -/
def Inside (ps : List Part) : Prop := ∀ p ∈ ps, p.outsideCommands = false

theorem inside_append {a b : List Part} (ha : Inside a) (hb : Inside b) : Inside (a ++ b) := fun p hp =>
  (List.mem_append.1 hp).elim (ha p) (hb p)

theorem inside_cons {q : Part} {b : List Part} (hq : q.outsideCommands = false) (hb : Inside b) :
    Inside (q :: b) := fun p hp => (List.mem_cons.1 hp).elim (fun e => e ▸ hq) (hb p)

theorem inside_nil : Inside [] := fun _ h => absurd h List.not_mem_nil

theorem inside_map {α : Type} {l : List α} {f : α → Part} (h : ∀ a, (f a).outsideCommands = false) :
    Inside (l.map f) := by
  intro p hp
  obtain ⟨a, _, rfl⟩ := List.mem_map.1 hp
  exact h a

theorem inside_elim {α : Type} {x : Option α} {f : α → List Part} (h : ∀ a, Inside (f a)) :
    Inside (x.elim [] f) := by
  cases x
  · exact inside_nil
  · exact h _

theorem inside_allJudged : Inside allJudged := by intro p hp; revert p; decide
theorem inside_judgedParts (o : Output) : Inside (judgedParts o) := by cases o <;> (intro p hp; revert p; decide)
theorem inside_everyStack : Inside everyStack := by intro p hp; revert p; decide
theorem inside_everyPendingSince : Inside everyPendingSince := by intro p hp; revert p; decide
theorem inside_everyProfileBinding : Inside everyProfileBinding := by intro p hp; revert p; decide
theorem inside_everyProfile : Inside everyProfile := inside_map fun _ => rfl
theorem inside_everyEntry : Inside everyEntry := inside_map fun _ => rfl
theorem inside_everySection : Inside everySection := inside_map fun _ => rfl
theorem inside_everyWindow : Inside everyWindow := inside_map fun _ => rfl
theorem inside_everySlot : Inside everySlot := inside_map fun _ => rfl
theorem inside_sessionParts : Inside sessionParts := by intro p hp; revert p; decide
theorem inside_beginParts : Inside beginParts := by intro p hp; revert p; decide
theorem inside_endingParts : Inside endingParts := by intro p hp; revert p; decide
theorem inside_raised : Inside raised := by intro p hp; revert p; decide

theorem inside_consequence : Inside consequenceParts :=
  inside_append (inside_append inside_everyStack inside_everyPendingSince) inside_allJudged

theorem inside_binding (o : Output) : Inside (bindingParts o) :=
  inside_append (inside_append (inside_cons rfl (inside_cons rfl (inside_cons rfl inside_nil)))
    (inside_judgedParts o)) inside_everyEntry

theorem inside_day : Inside dayParts :=
  inside_append (inside_append (inside_cons rfl (inside_cons rfl inside_nil)) inside_everyProfile) inside_allJudged

theorem inside_setting : Inside settingParts :=
  inside_append (inside_append (inside_cons rfl (inside_cons rfl inside_nil)) inside_everyStack) inside_day

theorem inside_staged : Inside stagedParts :=
  inside_append (inside_append inside_everyProfile inside_everyStack) inside_allJudged

theorem inside_levels : Inside levelParts :=
  inside_append (inside_append inside_everySection (inside_cons rfl (inside_cons rfl inside_nil))) inside_raised

theorem inside_clearing : Inside clearingParts :=
  inside_append (inside_append (inside_append (inside_append (inside_append (inside_append (inside_append
    (inside_append (inside_append (by intro p hp; revert p; decide) inside_everyWindow) inside_everyProfile)
    inside_everyProfileBinding) inside_everyPendingSince) inside_everyStack) inside_everySection)
    inside_allJudged) (inside_append inside_sessionParts inside_endingParts)) inside_everySlot

/-- No owner touches a part outside commands. -/
theorem inside_commandParts (c : Command) : Inside (commandParts c) := by
  cases c <;> simp only [commandParts]
  case null => exact inside_nil
  case bindService => exact inside_elim inside_binding
  case bindProfile => exact inside_elim fun o => inside_cons rfl (inside_judgedParts o)
  case declarePlayback => exact inside_append inside_everyEntry inside_consequence
  case setProfileLimits => exact inside_elim fun n => inside_cons rfl inside_allJudged
  case setProfileTime => exact inside_elim fun n => inside_cons rfl inside_allJudged
  case setCurfew => exact inside_elim fun n => inside_cons rfl inside_allJudged
  case grantTime => exact inside_elim fun n => inside_cons rfl inside_allJudged
  case setProfileState =>
    exact inside_elim fun n => inside_append (inside_cons rfl inside_everyProfileBinding) inside_allJudged
  case exportProfile => exact inside_cons rfl inside_nil
  case importProfile => exact inside_cons rfl inside_nil
  case pushOverride => exact inside_elim fun o => inside_cons rfl (inside_judgedParts o)
  case popOverride => exact inside_elim fun o => inside_cons rfl (inside_judgedParts o)
  case clearOverrides => exact inside_elim fun o => inside_cons rfl (inside_judgedParts o)
  case setTime => exact inside_setting
  case setDayStart => exact inside_cons rfl inside_day
  case setWindow => exact inside_elim fun o => inside_elim fun k => inside_cons rfl inside_nil
  case setSectionWindow =>
    split
    · exact inside_cons rfl inside_nil
    · exact inside_nil
  case setIntakeLevels => exact inside_levels
  case commitLayout => exact inside_cons rfl inside_nil
  case setScheme => exact inside_cons rfl inside_everyEntry
  case openPinEntry =>
    split
    · exact inside_nil
    · exact inside_append inside_sessionParts inside_beginParts
    · exact inside_append inside_staged inside_beginParts
    · exact inside_beginParts
  case closeSession => exact inside_sessionParts
  case setSessionLength => exact inside_cons rfl (inside_cons rfl inside_nil)
  case setPanelAddresses => exact inside_cons rfl inside_nil
  case factoryClear => exact inside_clearing
  case selectView => exact inside_cons rfl inside_nil
  case setNoticeMask => exact inside_cons rfl inside_nil
  case setAttention => exact inside_cons rfl (inside_cons rfl inside_nil)

/-- No command but FACTORY_CLEAR touches a command slot other than its own. -/
theorem slot_notMem_commandParts (c : Command) (h : c ≠ .factoryClear) (n : Fin 16) :
    Part.slot n ∉ commandParts c := by
  have hp : Part.slot n ∉ everyProfile := by simp [everyProfile]
  have he : Part.slot n ∉ everyEntry := by simp [everyEntry]
  have hs : Part.slot n ∉ everySection := by simp [everySection]
  cases c <;> simp only [commandParts]
  case factoryClear => exact absurd rfl h
  case bindService o _ _ _ _ => cases outputOf o <;> simp [he]
  case bindProfile o _ => cases outputOf o <;> simp
  case declarePlayback => simp [he]
  case setProfileLimits p _ _ _ _ _ _ _ => cases profileSlotOf p <;> simp
  case setProfileTime p _ _ _ _ _ _ _ => cases profileSlotOf p <;> simp
  case setCurfew p _ _ _ _ _ => cases profileSlotOf p <;> simp
  case grantTime p _ => cases profileSlotOf p <;> simp
  case setProfileState p _ => cases profileSlotOf p <;> simp
  case pushOverride o _ _ _ _ => cases outputOf o <;> simp
  case popOverride o => cases outputOf o <;> simp
  case clearOverrides o => cases outputOf o <;> simp
  case setTime => simp [hp]
  case setDayStart => simp [hp]
  case setWindow o k _ _ _ => cases outputOf o <;> cases windowKindOf k <;> simp
  case setSectionWindow => split <;> simp
  case setIntakeLevels => simp [hs]
  case setScheme => simp [he]
  case openPinEntry => split <;> simp [hp]
  all_goals simp

/-- Sessions and what remains of them are touched by four commands only. -/
theorem remaining_notMem_commandParts (c : Command) (h : c ≠ .factoryClear) (h1 : c ≠ .closeSession)
    (h2 : ∀ n, c ≠ .setSessionLength n) (h3 : ∀ a b d e f g i j, c ≠ .openPinEntry a b 0 d e f g i j) :
    Part.sessionRemaining ∉ commandParts c := by
  have hp : Part.sessionRemaining ∉ everyProfile := by simp [everyProfile]
  have he : Part.sessionRemaining ∉ everyEntry := by simp [everyEntry]
  have hs : Part.sessionRemaining ∉ everySection := by simp [everySection]
  cases c <;> simp only [commandParts]
  case factoryClear => exact absurd rfl h
  case closeSession => exact absurd rfl h1
  case setSessionLength => exact absurd rfl (h2 _)
  case bindService o _ _ _ _ => cases outputOf o <;> simp [he]
  case bindProfile o _ => cases outputOf o <;> simp
  case declarePlayback => simp [he]
  case setProfileLimits p _ _ _ _ _ _ _ => cases profileSlotOf p <;> simp
  case setProfileTime p _ _ _ _ _ _ _ => cases profileSlotOf p <;> simp
  case setCurfew p _ _ _ _ _ => cases profileSlotOf p <;> simp
  case grantTime p _ => cases profileSlotOf p <;> simp
  case setProfileState p _ => cases profileSlotOf p <;> simp
  case pushOverride o _ _ _ _ => cases outputOf o <;> simp
  case popOverride o => cases outputOf o <;> simp
  case clearOverrides o => cases outputOf o <;> simp
  case setTime => simp [hp]
  case setDayStart => simp [hp]
  case setWindow o k _ _ _ => cases outputOf o <;> cases windowKindOf k <;> simp
  case setSectionWindow => split <;> simp
  case setIntakeLevels => simp [hs]
  case setScheme => simp [he]
  case openPinEntry o p purpose st m k sc d sec =>
    have hne : purpose ≠ 0 := fun e => h3 o p st m k sc d sec (by rw [e])
    split
    · simp
    · next e =>
      refine absurd e ?_
      unfold purposeOf
      have : purpose.toNat ≠ 0 := fun z => hne (BitVec.eq_of_toNat_eq z)
      split <;> simp_all
    · simp [hp]
    · simp
  all_goals simp

/-! ### The state of the slots -/

theorem slot_finishResult_state (i n : Fin 16) (oc : CommandOutcome) (d : List Byte) (s : State) :
    ((s.finishResult i oc d).slot n).state = (s.slot n).state := by
  simp only [State.finishResult, slot_putResult]
  split
  · next h => rw [h]
  · rfl

theorem cancelImage_slot_state (n : Fin 16) (s : State) : ((cancelImage s).slot n).state = (s.slot n).state := by
  unfold cancelImage
  simp only
  split
  · rfl
  all_goals exact slot_finishResult_state ..

/-- A slot's state after FACTORY_CLEAR. -/
theorem obeyFactoryClear_slot_state (n : Fin 16) (s : State) :
    ((obeyFactoryClear s).1.slot n).state = (s.slot n).state := by
  have hp : Part.slot n ∉ everyProfile := by simp [everyProfile]
  have hw : Part.slot n ∉ everyWindow := by simp [everyWindow]
  have hs : Part.slot n ∉ everySection := by simp [everySection]
  have h1 := (clearRetained_within (cancelImage s)).frame (.slot n) (by simp [hp, hw])
  have h2 := (evaluateAll_within (clearRetained (cancelImage s))).frame (.slot n) (by simp)
  have h3 := (clearIntake_within (evaluateAll (clearRetained (cancelImage s)))).frame (.slot n) (by simp [hs])
  have h4 := (cancelEntry_within (clearIntake (evaluateAll (clearRetained (cancelImage s))))).frame (.slot n)
    (by simp)
  have h5 := (closeSession_within (cancelEntry (clearIntake (evaluateAll (clearRetained (cancelImage s)))))).frame
    (.slot n) (by simp)
  have h6 := clearPin_frame (closeSession (cancelEntry (clearIntake (evaluateAll (clearRetained (cancelImage s))))))
    (.slot n) (by simp)
  simp only [Part.same] at h1 h2 h3 h4 h5 h6
  simp only [obeyFactoryClear, complete]
  rw [h6, h5, h4, h3, h2, h1, cancelImage_slot_state]

/-- No owner posts or takes a slot. -/
theorem obey_slot_state (slot : Fin 16) (c : Command) (n : Fin 16) (s : State) :
    ((obey slot c s).1.slot n).state = (s.slot n).state := by
  by_cases h : c = .factoryClear
  · subst h; exact obeyFactoryClear_slot_state n s
  · rw [(obey_within slot c s).frame (.slot n) (slot_notMem_commandParts c h n)]

/-! ### Judging a command (R180) -/

/-- R180: a command changes only what it is about, and the seconds that remain of a session. -/
theorem judgeCommand_within (slot : Fin 16) (c : Command) (s : State) :
    Within (.sessionRemaining :: commandParts c) s (judgeCommand slot c s).1 := by
  have h := fun t => (obey_within slot c t).mono (qs := .sessionRemaining :: commandParts c)
    (fun p hp => List.mem_cons_of_mem _ hp)
  unfold judgeCommand
  split
  · split
    · exact ((slideSession_within s).mono (by simp)).trans (h _)
    · exact .refl _ s
  · exact h s

theorem judgeCommand_slot_state (slot : Fin 16) (c : Command) (n : Fin 16) (s : State) :
    ((judgeCommand slot c s).1.slot n).state = (s.slot n).state := by
  unfold judgeCommand
  split
  · split
    · rw [obey_slot_state]; unfold slideSession; split <;> rfl
    · rfl
  · exact obey_slot_state ..

/-- R180: a privileged command without authority is refused, and nothing changes. -/
theorem judgeCommand_refused (slot : Fin 16) (c : Command) (s : State) (h : privileged c s = true)
    (ha : authority s = false) : judgeCommand slot c s = refuse .notAuthorised s := by
  simp [judgeCommand, h, ha]

/-- R180: the seconds that remain of a session after a command that is not about sessions. -/
theorem judgeCommand_remaining (slot : Fin 16) (c : Command) (s : State)
    (hm : Part.sessionRemaining ∉ commandParts c) :
    (judgeCommand slot c s).1.pin.sessionRemaining = slidRemaining c s := by
  have h := fun t => (obey_within slot c t).frame .sessionRemaining hm
  simp only [Part.same] at h
  unfold judgeCommand slidRemaining
  by_cases hp : privileged c s = true
  · by_cases ha : authority s = true
    · rw [if_pos hp, if_pos ha, h]
      unfold slideSession
      by_cases ho : s.pin.sessionOpen = true <;> simp [hp, ho]
    · rw [if_pos hp, if_neg ha]
      have : s.pin.sessionOpen = false := not_authority ha
      simp [refuse, this]
  · rw [if_neg hp, h]
    simp [hp]

/-! ### A host command of the table -/

/-- The state in which the command of a row is judged: its record is in the shadow and in its slot, which is
TAKEN. -/
def markTaken (c : Command) (s : State) : State :=
  { s with command :=
    { shadow := s.command.shadow.writeRun (32 * s.command.pointer.val)
        ((hostRecord c s).map (fun b => (b, true)))
      pointer := s.command.pointer
      slots := s.command.slots.set s.command.pointer
        { expected := !(s.slot s.command.pointer).expected, state := .taken, captured := none
          result := (s.slot s.command.pointer).result } } }

theorem hostRecord_toggle (c : Command) (s : State) :
    recordToggle (hostRecord c s) = (s.slot s.command.pointer).expected := Command.encode_toggle c _

theorem hostRecord_code (c : Command) (s : State) : Command.decode (hostRecord c s) = some c :=
  Command.decode_encode c _

theorem postCommand_eq (c : Command) (s : State) :
    postCommand c s = (copyToShadow (32 * s.command.pointer.val) ((hostRecord c s).map (fun b => (b, true)))
      s).putSlot s.command.pointer
        { s.slot s.command.pointer with state := .posted, captured := some (hostRecord c s) } := by
  unfold postCommand capture
  simp only
  rw [if_pos (by rw [hostRecord_toggle]; rfl)]
  rfl

theorem takeable_at {t : State} {p : Fin 16} {c : CommandSlot} (hp : t.command.pointer = p)
    (hc : t.slot p = c) :
    takeable t = if c.state = .posted ∧ c.result.state ≠ .pending then c.captured else none := by
  subst hp; subst hc; rfl

theorem takeable_postCommand (c : Command) (s : State) (h : RingReady s) :
    takeable (postCommand c s) = some (hostRecord c s) := by
  have hp : (postCommand c s).command.pointer = s.command.pointer := by rw [postCommand_eq]; rfl
  have hs : (postCommand c s).slot s.command.pointer
      = { s.slot s.command.pointer with state := .posted, captured := some (hostRecord c s) } := by
    rw [postCommand_eq, slot_putSlot_self]
  rw [takeable_at hp hs]
  simp [h.2.1]

/-- A host command is taken at once from the slot at the pointer, and the chain ends there. -/
theorem hostPosts_eq (c : Command) (s : State) (h : RingReady s) :
    hostPosts c s = advancePointer
      ((judgeCommand s.command.pointer c (markTaken c s)).1.putResult s.command.pointer
        (resultAt (hostRecord c s) (judgeCommand s.command.pointer c (markTaken c s)).2)) := by
  have hm : (postCommand c s).putSlot s.command.pointer
      { (postCommand c s).slot s.command.pointer with
        expected := !((postCommand c s).slot s.command.pointer).expected, state := .taken, captured := none }
      = markTaken c s := by
    rw [postCommand_eq, slot_putSlot_self]
    simp only [State.putSlot, copyToShadow, markTaken, Vector.set_set]
  have hp : (postCommand c s).command.pointer = s.command.pointer := by rw [postCommand_eq]; rfl
  have hstep : takeRecord (hostRecord c s) (postCommand c s) = advancePointer
      ((judgeCommand s.command.pointer c (markTaken c s)).1.putResult s.command.pointer
        (resultAt (hostRecord c s) (judgeCommand s.command.pointer c (markTaken c s)).2)) := by
    simp only [takeRecord, hp, hm, judgeRecord32, hostRecord_code]
  unfold hostPosts runRing
  rw [takeChain, takeable_postCommand c s h]
  simp only
  rw [hstep]
  -- the next slot is not POSTED
  set t := advancePointer ((judgeCommand s.command.pointer c (markTaken c s)).1.putResult s.command.pointer
    (resultAt (hostRecord c s) (judgeCommand s.command.pointer c (markTaken c s)).2)) with ht
  have hq : (judgeCommand s.command.pointer c (markTaken c s)).1.command.pointer = s.command.pointer :=
    (judgeCommand_within s.command.pointer c (markTaken c s)).frame .pointer (by
      simp only [List.mem_cons, not_or]
      refine ⟨by simp, fun hx => ?_⟩
      have := inside_commandParts c _ hx
      simp [Part.outsideCommands] at this)
  have hn : (t.slot (s.command.pointer + 1)).state ≠ .posted := by
    have e1 : (t.slot (s.command.pointer + 1)).state
        = ((judgeCommand s.command.pointer c (markTaken c s)).1.slot (s.command.pointer + 1)).state := by
      have : t.slot (s.command.pointer + 1)
          = ((judgeCommand s.command.pointer c (markTaken c s)).1.putResult s.command.pointer
            (resultAt (hostRecord c s) (judgeCommand s.command.pointer c (markTaken c s)).2)).slot
              (s.command.pointer + 1) := rfl
      rw [this, slot_putResult]
      split
      · next e => rw [e]
      · rfl
    rw [e1, judgeCommand_slot_state]
    have ne : s.command.pointer + 1 ≠ s.command.pointer := by
      intro e
      have := congrArg Fin.val e
      simp only [Fin.val_add, Fin.val_one] at this
      omega
    have : (markTaken c s).slot (s.command.pointer + 1) = s.slot (s.command.pointer + 1) := by
      simp only [markTaken, State.slot, Fin.getElem_fin, Vector.getElem_set]
      rw [if_neg (fun e => ne (Fin.ext e.symm))]
    rw [this]
    exact h.2.2
  have ht' : takeable t = none := by
    have : t.command.pointer = s.command.pointer + 1 := by
      show (judgeCommand s.command.pointer c (markTaken c s)).1.command.pointer + 1 = _
      rw [hq]
    rw [takeable_at this rfl, if_neg (fun e => hn e.1)]
  rw [takeChain, ht']

/-- A host command taken from a ring that is ready: the command unit, and the parts that the command is
about. -/
theorem hostPosts_took (c : Command) (s : State) (h : RingReady s) (hc : c ≠ .factoryClear) :
    Took c (judgeCommand s.command.pointer c (markTaken c s)).2 (.sessionRemaining :: commandParts c) s
      (hostPosts c s) := by
  rw [hostPosts_eq c s h]
  have w := (judgeCommand_within s.command.pointer c (markTaken c s)).frame
  have inside : Inside (.sessionRemaining :: commandParts c) := inside_cons rfl (inside_commandParts c)
  have out : ∀ p : Part, p.outsideCommands = true → p ∉ Part.sessionRemaining :: commandParts c :=
    fun p hp hx => by have := inside p hx; rw [hp] at this; simp at this
  have hslot : ∀ n, Part.slot n ∉ Part.sessionRemaining :: commandParts c := fun n hx => by
    rcases List.mem_cons.1 hx with e | e
    · simp at e
    · exact slot_notMem_commandParts c hc n e
  have hcmd : (judgeCommand s.command.pointer c (markTaken c s)).1.command = (markTaken c s).command := by
    have e1 := w .shadow (out _ rfl)
    have e2 := w .pointer (out _ rfl)
    have e3 := fun n => w (.slot n) (hslot n)
    simp only [Part.same] at e1 e2 e3
    clear w
    generalize (judgeCommand s.command.pointer c (markTaken c s)).1 = x at *
    have e4 : x.command.slots = (markTaken c s).command.slots := Vector.ext fun i hi => e3 ⟨i, hi⟩
    have : ∀ a b : CommandUnit, a.shadow = b.shadow → a.pointer = b.pointer → a.slots = b.slots → a = b := by
      rintro ⟨⟩ ⟨⟩ h1 h2 h3
      simp only at h1 h2 h3
      simp [h1, h2, h3]
    exact this _ _ e1 e2 e4
  refine ⟨?_, fun p hp => ?_⟩
  · have e0 : (judgeCommand s.command.pointer c (markTaken c s)).1.slot s.command.pointer
        = (markTaken c s).slot s.command.pointer := w (.slot _) (hslot _)
    generalize (judgeCommand s.command.pointer c (markTaken c s)).1 = x at *
    simp only [advancePointer, State.putResult, State.putSlot, e0, hcmd, takenUnit]
    simp only [markTaken, State.slot, Fin.getElem_fin, Vector.getElem_set_self, Vector.set_set]
  · have h1 : ∀ q, q ∉ ringParts s → q.same s (markTaken c s) := by
      intro q hq
      cases q
      case slot n =>
        have hn : n ≠ s.command.pointer := fun e => hq (by simp [e])
        simp only [Part.same, markTaken, State.slot, Fin.getElem_fin, Vector.getElem_set]
        rw [if_neg (fun e => hn (Fin.ext e.symm))]
      case shadow => exact absurd (by simp) hq
      case pointer => exact absurd (by simp) hq
      all_goals first | exact rfl | exact ⟨rfl, rfl⟩ | exact ⟨rfl, rfl, rfl⟩ | exact ⟨rfl, rfl, rfl, rfl⟩
    have h3 : ∀ (x : State) (r : ResultRecord) q, q ∉ ringParts s →
        q.same x (advancePointer (x.putResult s.command.pointer r)) := by
      intro x r q hq
      cases q
      case slot n =>
        have hn : n ≠ s.command.pointer := fun e => hq (by simp [e])
        have := slot_putResult x s.command.pointer n r
        rw [if_neg hn] at this
        exact this
      case shadow => exact absurd (by simp) hq
      case pointer => exact absurd (by simp) hq
      all_goals first | exact rfl | exact ⟨rfl, rfl⟩ | exact ⟨rfl, rfl, rfl⟩ | exact ⟨rfl, rfl, rfl, rfl⟩
    have hp1 : p ∉ ringParts s := fun hx => hp (List.mem_append_left _ hx)
    exact Part.same_trans (h1 p hp1) (Part.same_trans (w p fun hx => hp (List.mem_append_right _ hx))
      (h3 _ _ p hp1))

/-! ### Any post and any chain -/

theorem advancePointer_keeps {s : State} (l : LocalLaw) (h : l.holds s) : l.holds (advancePointer s) := by
  cases l <;> exact h

theorem putSlot_keeps {s : State} {i : Fin 16} {c : CommandSlot} (l : LocalLaw) (h : l.holds s) :
    l.holds (s.putSlot i c) := by cases l <;> exact h

/-- R180: a record is judged, whatever it holds. -/
theorem judgeRecord32_keeps {s : State} (slot : Fin 16) (r : List Byte) (l : LocalLaw) (h : l.holds s) :
    l.holds (judgeRecord32 slot r s).1 := by
  unfold judgeRecord32
  split
  · exact h
  · exact (judgeCommand_within ..).keeps l h

theorem takeRecord_keeps {s : State} (r : List Byte) (l : LocalLaw) (h : l.holds s) :
    l.holds (takeRecord r s) := by
  unfold takeRecord
  simp only
  exact advancePointer_keeps l (putSlot_keeps l (judgeRecord32_keeps _ r l (putSlot_keeps l h)))

theorem takeChain_keeps (n : Nat) {s : State} (l : LocalLaw) (h : l.holds s) : l.holds (takeChain n s) := by
  induction n generalizing s with
  | zero => exact h
  | succ n ih =>
    unfold takeChain
    split
    · exact ih (takeRecord_keeps _ l h)
    · exact h

/-- R179: the chain keeps every law that one block holds. -/
theorem runRing_keeps {s : State} (l : LocalLaw) (h : l.holds s) : l.holds (runRing s) := takeChain_keeps 16 l h

theorem capture_keeps {s : State} (p : Fin 16) (r : List Byte) (l : LocalLaw) (h : l.holds s) :
    l.holds (capture p r s) := by
  unfold capture
  split
  · exact putSlot_keeps l h
  · exact h

/-- Bytes that lie in the window keep the shadow's form. -/
theorem copyToShadow_keeps {s : State} {offset : Nat} {bytes : List (Byte × Bool)}
    (hb : offset + bytes.length ≤ Config.commandWindowSize) (l : LocalLaw) (h : l.holds s) :
    l.holds (copyToShadow offset bytes s) := by
  cases l
  case shadow =>
    refine ⟨Memory.writeRun_wf h.1 _ _, fun c hc => ?_⟩
    rcases Memory.writeRun_mem hc with k | k
    · omega
    · exact h.2 c k
  all_goals exact h

theorem postCommand_keeps {s : State} (c : Command) (l : LocalLaw) (h : l.holds s) : l.holds (postCommand c s) := by
  unfold postCommand
  refine capture_keeps _ _ l (copyToShadow_keeps ?_ l h)
  have := s.command.pointer.isLt
  simp only [List.length_map, hostRecord, Command.encode_length, Config.commandWindowSize]
  omega

theorem hostPosts_keeps {s : State} (c : Command) (l : LocalLaw) (h : l.holds s) : l.holds (hostPosts c s) :=
  runRing_keeps l (postCommand_keeps c l h)

theorem postSlot_keeps {s : State} (p : Fin 16) (l : LocalLaw) (h : l.holds s) : l.holds (postSlot p s) :=
  runRing_keeps l (capture_keeps p _ l h)

theorem foldl_keeps {α : Type} {f : State → α → State} (l : LocalLaw) (h : ∀ s a, l.holds s → l.holds (f s a))
    (xs : List α) {s : State} (hs : l.holds s) : l.holds (xs.foldl f s) := by
  induction xs generalizing s with
  | nil => exact hs
  | cons x xs ih => exact ih (h s x hs)

theorem snoopWindow_keeps {s : State} {offset : Nat} {bytes : List (Byte × Bool)}
    (hb : offset + bytes.length ≤ Config.commandWindowSize) (l : LocalLaw) (h : l.holds s) :
    l.holds (snoopWindow offset bytes s) :=
  foldl_keeps l (fun _ p k => postSlot_keeps p l k) _ (copyToShadow_keeps hb l h)

/-! ### The chain of takes (R179) -/

theorem judgeRecord32_slot_state (slot : Fin 16) (r : List Byte) (n : Fin 16) (s : State) :
    ((judgeRecord32 slot r s).1.slot n).state = (s.slot n).state := by
  unfold judgeRecord32
  split
  · rfl
  · exact judgeCommand_slot_state ..

/-- R179: a take makes the slot at the pointer TAKEN and posts none. -/
theorem takeRecord_slot_state (r : List Byte) (n : Fin 16) (s : State) :
    ((takeRecord r s).slot n).state = if n = s.command.pointer then .taken else (s.slot n).state := by
  have h : ∀ m t, ((advancePointer t).slot m) = t.slot m := fun _ _ => rfl
  simp only [takeRecord, h, slot_putResult]
  by_cases e : n = s.command.pointer
  · subst e
    simp [judgeRecord32_slot_state]
  · simp [e, judgeRecord32_slot_state, slot_putSlot_ne _ _ e]

/-- The slots that wait. -/
def postedSlots (s : State) : Finset (Fin 16) := Finset.univ.filter (fun n => (s.slot n).state = .posted)

theorem takeable_posted {s : State} {r : List Byte} (h : takeable s = some r) :
    (s.slot s.command.pointer).state = .posted := by
  simp only [takeable] at h
  split at h
  · next k => exact k.1
  · simp at h

theorem postedSlots_take {s : State} {r : List Byte} (h : takeable s = some r) :
    (postedSlots (takeRecord r s)).card < (postedSlots s).card := by
  refine Finset.card_lt_card ⟨fun n hn => ?_, fun k => ?_⟩
  · simp only [postedSlots, Finset.mem_filter, Finset.mem_univ, true_and, takeRecord_slot_state] at hn ⊢
    split at hn
    · simp at hn
    · exact hn
  · have m : s.command.pointer ∈ postedSlots s := by simp [postedSlots, takeable_posted h]
    have := k m
    simp [postedSlots, takeRecord_slot_state] at this

/-- A chain of as many takes as there are slots that wait goes on no further. -/
theorem takeChain_stable (n : Nat) (s : State) (h : (postedSlots s).card ≤ n) :
    takeChain (n + 1) s = takeChain n s := by
  induction n generalizing s with
  | zero =>
    have e : takeable s = none := by
      cases k : takeable s with
      | none => rfl
      | some r => have := postedSlots_take k; omega
    simp [takeChain, e]
  | succ n ih =>
    rw [takeChain, takeChain]
    split
    · next r k => exact ih _ (by have := postedSlots_take k; omega)
    · rfl

/-- R179: where the slot at the pointer can be taken, it is, and the ring goes on from there. -/
theorem runRing_take {s : State} {r : List Byte} (h : takeable s = some r) :
    runRing s = runRing (takeRecord r s) := by
  have c : (postedSlots (takeRecord r s)).card ≤ 15 := by
    have := postedSlots_take h
    have := Finset.card_le_univ (postedSlots s)
    simp at this
    omega
  unfold runRing
  rw [takeChain_stable 15 _ c]
  simp [takeChain, h]

/-- R179: where the slot at the pointer cannot be taken, the ring does nothing. -/
theorem runRing_stop {s : State} (h : takeable s = none) : runRing s = s := by
  simp [runRing, takeChain, h]

end Sys2Proof.Machine
end

