-- ==== Sys2Proof/Laws/Steps.lean ====
section
/-! SUPPORT. What the events do: the lane transfers, the work of a second event, the resets, the completions
and the frames of the panel line. -/

namespace Sys2Proof.Machine

open Sys2Proof

/-! ### The lanes (chapter 1) -/

/-- A part of a run lies where it is said to. -/
theorem partWithin_spec {α : Type} {base size start : Nat} {bytes : List α} {p : Nat × List α}
    (h : partWithin base size start bytes = some p) :
    base ≤ p.1 ∧ start ≤ p.1 ∧ p.1 + p.2.length ≤ base + size ∧ p.1 + p.2.length ≤ start + bytes.length := by
  unfold partWithin at h
  simp only at h
  split_ifs at h with hlt
  simp only [Option.some.injEq] at h
  subst h
  simp only [List.length_take, List.length_drop]
  omega

theorem putOut_within (t : LaneOut) (s : State) : Within [.transfers] s (s.putOut t) :=
  within_lanes (fun _ _ => .inr rfl) (.inr rfl) (.inr rfl) (.inr rfl) (.inr rfl) (.inr rfl) (.inr rfl)
    (fun _ => .inr rfl) (.inl (by simp)) id

/-- R12: an arrival is entered and forwarded; a free entry keeps the table in its capacity. -/
theorem acceptPresentation_within (r : ReadRequest) (s : State) (h : presentationFull s = false) :
    Within [.presentationTable, .transfers] s (acceptPresentation r s) :=
  within_lanes (fun _ _ => .inr rfl) (.inr rfl) (.inl (by simp)) (.inr rfl) (.inr rfl) (.inr rfl) (.inr rfl)
    (fun _ => .inr rfl) (.inl (by simp)) (fun ⟨h1, h2, _, h4⟩ => ⟨h1, h2, by
      simp only [presentationFull, decide_eq_false_iff_not] at h
      simp only [List.length_append, List.length_singleton]
      omega, h4⟩)

theorem presentPresentation_within (r : ReadRequest) (s : State) :
    Within [.presentationTable, .heldPresentation, .transfers] s (presentPresentation r s) := by
  unfold presentPresentation
  split
  · exact within_lanes (fun _ _ => .inr rfl) (.inr rfl) (.inr rfl) (.inr rfl) (.inl (by simp)) (.inr rfl)
      (.inr rfl) (fun _ => .inr rfl) (.inr rfl) id
  · next h =>
    simp only [Bool.or_eq_true, not_or, Bool.not_eq_true] at h
    exact (acceptPresentation_within r s h.1).mono (by simp)

theorem acceptControl_within (r : ReadRequest) (s : State) (h : controlBlocked r s = false) :
    Within [.controlTable, .nextMark, .transfers] s (acceptControl r s) := by
  unfold acceptControl
  split
  · next ht =>
    refine within_lanes (fun _ _ => .inr rfl) (.inr rfl) (.inr rfl) (.inl (by simp)) (.inr rfl) (.inr rfl)
      (.inl (by simp)) (fun _ => .inr rfl) (.inl (by simp)) (fun ⟨h1, h2, h3, _⟩ => ⟨h1, h2, h3, ?_⟩)
    simp only [controlBlocked, ht, Bool.true_and, decide_eq_false_iff_not] at h
    simp only [List.length_append, List.length_singleton]
    omega
  · exact (putOut_within _ s).mono (by simp)

theorem presentControl_within (r : ReadRequest) (s : State) :
    Within [.controlTable, .heldControl, .nextMark, .transfers] s (presentControl r s) := by
  unfold presentControl
  split
  · exact within_lanes (fun _ _ => .inr rfl) (.inr rfl) (.inr rfl) (.inr rfl) (.inr rfl) (.inl (by simp))
      (.inr rfl) (fun _ => .inr rfl) (.inr rfl) id
  · next h =>
    simp only [Bool.or_eq_true, not_or, Bool.not_eq_true] at h
    exact (acceptControl_within r s h.1).mono (by simp)

theorem arrivePresentation_within (s : State) :
    Within [.presentationTable, .heldPresentation, .transfers] s (arrivePresentation s) := by
  unfold arrivePresentation
  split
  · next r rest _ =>
    split
    · exact .refl _ s
    · next h =>
      refine Within.trans (t := { s with lanes := { s.lanes with heldPresentation := rest } }) ?_
        (Within.mono (ps := [.presentationTable, .transfers])
          (acceptPresentation_within r _ ((Bool.not_eq_true _).mp h)) (by simp))
      exact within_lanes (fun _ _ => .inr rfl) (.inr rfl) (.inr rfl) (.inr rfl) (.inl (by simp)) (.inr rfl)
        (.inr rfl) (fun _ => .inr rfl) (.inr rfl) id
  · exact .refl _ s

theorem arriveControl_within (s : State) :
    Within [.controlTable, .heldControl, .nextMark, .transfers] s (arriveControl s) := by
  unfold arriveControl
  split
  · next r rest _ =>
    split
    · exact .refl _ s
    · next h =>
      refine Within.trans (t := { s with lanes := { s.lanes with heldControl := rest } }) ?_
        (Within.mono (ps := [.controlTable, .nextMark, .transfers])
          (acceptControl_within r _ ((Bool.not_eq_true _).mp h)) (by simp))
      exact within_lanes (fun _ _ => .inr rfl) (.inr rfl) (.inr rfl) (.inr rfl) (.inr rfl) (.inl (by simp))
        (.inr rfl) (fun _ => .inr rfl) (.inr rfl) id
  · exact .refl _ s

/-- R14: a presentation response frees its entry and may set activity flags. -/
theorem takePresentationResponse_within (tag : Nat) (st : Status) (d : List Byte) (s : State) :
    Within (everyActivity ++ [.presentationTable, .transfers]) s (takePresentationResponse tag st d s) := by
  unfold takePresentationResponse
  split
  · exact .refl _ s
  · next e _ =>
    refine within_lanes (fun _ _ => .inr rfl) (.inr rfl) (.inl (by simp)) (.inr rfl) (.inr rfl) (.inr rfl)
      (.inr rfl) (fun o => .inl (by cases o <;> simp)) (.inl (by simp)) (fun ⟨h1, h2, h3, h4⟩ => ⟨h1, h2, ?_, h4⟩)
    exact (List.length_erase_le ..).trans h3

/-! ### Reads of the report window (R182, R185) -/

theorem popNotice_within (s : State) : Within [.notices] s (popNotice s) := by
  unfold popNotice
  split
  · refine within_report (.inl (by simp)) (.inr ⟨rfl, rfl⟩) (.inr rfl) (.inr ⟨rfl, rfl⟩) (.inr rfl)
      (fun ⟨h1, h2, h3, h4, h5, h6, _⟩ => ⟨(List.length_erase_le ..).trans h1, ?_, fun n hn => ?_, h4, h5, h6, rfl⟩)
    · exact h2.sublist (List.Sublist.map _ List.erase_sublist)
    · exact h3 n (List.mem_of_mem_erase hn)
  · exact .refl _ s

theorem clearSticky_within (s : State) : Within [.flags] s (clearSticky s) :=
  within_report (.inr ⟨rfl, rfl⟩) (.inl (by simp)) (.inr rfl) (.inr ⟨rfl, rfl⟩) (.inr rfl) id

/-- R182, R185: what a read of the report window does. -/
theorem readEffects_within (start count : Nat) (s : State) : Within raised s (readEffects start count s) := by
  have h : Within raised s (if beginsAtPort s.inputs start then popNotice s else s) := by
    split
    · exact (popNotice_within s).mono (by simp)
    · exact .refl _ s
  unfold readEffects
  simp only
  split
  · exact h.trans ((clearSticky_within _).mono (by simp))
  · exact h

/-- R4: a marked control response frees its entry; an OKAY one reads the report window. -/
theorem takeMarkedResponse_within (mark : Nat) (st : Status) (d : List Byte) (s : State) :
    Within ([.controlTable, .transfers] ++ raised) s (takeMarkedResponse mark st d s) := by
  unfold takeMarkedResponse
  split
  · exact .refl _ s
  · next e _ =>
    have h : Within ([.controlTable, .transfers] ++ raised) s { s with lanes := { s.lanes with
        control := s.lanes.control.erase e
        out := s.lanes.out ++ [.response .control e.tag st
          (answerData (reportBytes s (beginsAtPort s.inputs e.start)) s.inputs.reportBase e.segments d)] } } :=
      within_lanes (fun _ _ => .inr rfl) (.inr rfl) (.inr rfl) (.inl (by simp)) (.inr rfl) (.inr rfl)
        (.inr rfl) (fun _ => .inr rfl) (.inl (by simp)) (fun ⟨h1, h2, h3, h4⟩ => ⟨h1, h2, h3,
          (List.length_erase_le ..).trans h4⟩)
    simp only
    split
    · exact h.trans ((readEffects_within ..).mono (by simp))
    · exact h

theorem takeControlResponse_within (mark : Option Nat) (tag : Nat) (st : Status) (d : List Byte) (s : State) :
    Within ([.controlTable, .transfers] ++ raised) s (takeControlResponse mark tag st d s) := by
  unfold takeControlResponse
  split
  · exact takeMarkedResponse_within ..
  · exact (putOut_within _ s).mono (by simp)

/-! ### The second event (R139) -/

theorem evaluateIfSupervised_within (o : Output) (s : State) :
    Within (judgedParts o) s (evaluateIfSupervised o s) := by
  unfold evaluateIfSupervised
  split
  · exact evaluate_within o s
  · exact .refl _ s

theorem expirePending_within (o : Output) (s : State) : Within (judgedParts o) s (expirePending o s) := by
  unfold expirePending
  split
  · split
    · exact evaluate_within o s
    · exact .refl _ s
  · exact .refl _ s

theorem doWork_keeps (w : SecondWork) {s : State} (l : LocalLaw) (h : l.holds s) : l.holds (doWork w s) := by
  cases w
  · exact (compareDay_within s).keeps l h
  · exact (sample_within s).keeps l h
  · exact (evaluateIfSupervised_within _ s).keeps l h
  · exact (promoteOnce_within _ s).keeps l h
  · exact (expireUntilTime_within _ s).keeps l h
  · exact (expirePending_within _ s).keeps l h
  · exact (expireSession_within s).keeps l h
  · exact (expireLockout_within s).keeps l h
  · exact (wholeEntryLimit_within s).keeps l h
  · exact (interKeyLimit_within s).keeps l h

theorem doAll_keeps (work : List SecondWork) {s : State} (l : LocalLaw) (h : l.holds s) :
    l.holds (doAll work s) := foldl_keeps l (fun _ w k => doWork_keeps w l k) work h

theorem finishSecond_keeps {s : State} (l : LocalLaw) (h : l.holds s) : l.holds (finishSecond s) :=
  doAll_keeps _ l (foldl_keeps l (fun _ n k => (promoteOnce_within n _).keeps l k) _ h)

/-- R139, R141: the advance of a second event touches the counts and the timers. -/
theorem tick_within (s : State) :
    Within [.run, .wall, .lockoutTimer, .sessionRemaining, .promotions] s (tick s) := by
  have h1 := (pinTicked_within s).mono
    (qs := [.run, .wall, .lockoutTimer, .sessionRemaining, .promotions]) (by simp)
  have h2 : Within [.run, .wall, .lockoutTimer, .sessionRemaining, .promotions] (s.putPin s.pin.ticked)
      { s.putPin s.pin.ticked with time := s.time.ticked } :=
    within_time (.inl (by simp)) (.inl (by simp)) (.inr rfl) (.inr rfl) (.inr rfl)
      (fun k => ticked_law (s := s.putPin s.pin.ticked) k)
  exact (h1.trans h2).trans (within_rating (fun _ => .inr rfl) (.inr rfl) (.inl (by simp)))

theorem secondEvent_keeps (order : List SecondWork) {s : State} (l : LocalLaw) (h : l.holds s) :
    l.holds (secondEvent order s) :=
  doAll_keeps _ l ((tick_within _).keeps l (finishSecond_keeps l h))

/-! ### The resets (R23) -/

theorem warmReset_keeps {s : State} (l : LocalLaw) (h : l.holds s) : l.holds (warmReset s) := by
  cases l
  case lanes =>
    exact ⟨h.1, h.2.1, by simp [warmReset, Lanes.warm], by simp [warmReset, Lanes.warm]⟩
  case stackTops => intro o; cases o <;> exact nil_law
  case profiles => exact ⟨h.1, fun _ _ _ e => by simp [warmReset] at e⟩
  case time => exact h
  case intake =>
    obtain ⟨h1, h2, h3, h4, h5, h6, h7, h8, h9⟩ := h
    have hw : ∀ w, (warmReset s).sectionWindow w = (s.sectionWindow w).warm := by
      intro w; simp [warmReset, Intake.warm, State.sectionWindow]
    refine ⟨by simp [warmReset, Intake.warm, Intake.cold], by simp [warmReset, Intake.warm, Intake.cold, poolUsed],
      h3, h4, h5, fun _ => by simp [warmReset, Intake.warm, Intake.cold]; omega, fun w => ?_, fun _ w => ?_,
      fun e => by simp [warmReset, Intake.warm, Intake.cold] at e⟩
    · rw [hw]; unfold SectionWindow.warm; simp
    · rw [hw]; unfold SectionWindow.warm; simp only; split <;> simp
  case panel =>
    exact ⟨by simp [warmReset, PanelLink.warm, PanelLink.cold], by simp [warmReset, PanelLink.warm],
      Nat.le_refl 1, h.2.2.2⟩
  case pin =>
    obtain ⟨h1, h2, h3, h4, h5, h6, h7, h8, h9, h10, h11, h12⟩ := h
    refine ⟨h1, by simp [warmReset, PinAuthority.warm, PinAuthority.cold, PinEntry.blank],
      by simp [warmReset, PinAuthority.warm, PinAuthority.cold, PinEntry.blank], h4, h5, ?_, h7, h8,
      by simp [warmReset, PinAuthority.warm, PinAuthority.cold], fun _ => rfl, fun _ _ => rfl, fun _ _ => rfl⟩
    simp only [warmReset, PinAuthority.warm]
    split <;> omega
  case report =>
    exact ⟨by simp [warmReset, ReportUnit.cold], by simp [warmReset, ReportUnit.cold],
      by simp [warmReset, ReportUnit.cold], by simp [warmReset, ReportUnit.cold],
      by simp [warmReset, ReportUnit.cold], by simp [warmReset, ReportUnit.cold], rfl⟩
  case shadow => exact ⟨Memory.wf_nil, by simp [warmReset, CommandUnit.cold]⟩

theorem cold_holds (i : Inputs) (l : LocalLaw) : l.holds (State.cold i) := by
  cases l
  case lanes =>
    have hw : ∀ o k, (State.cold i).window o k = .unset := fun o k => by cases o <;> cases k <;> rfl
    refine ⟨fun o k => ?_, fun o k o' k' _ h => ?_, by simp [State.cold, Lanes.cold],
      by simp [State.cold, Lanes.cold]⟩
    · rw [hw]; exact unset_law k
    · rw [hw] at h; simp [Window.unset] at h
  case stackTops => intro o; cases o <;> exact nil_law
  case profiles =>
    have : ∀ n, (State.cold i).profile n = .default := fun n => by simp [State.cold, State.profile]
    exact ⟨fun n => by rw [this]; exact default_ok, fun _ _ _ e => by simp [State.cold] at e⟩
  case time => exact ⟨by simp [State.cold, TimeBase.cold], by simp [State.cold, TimeBase.cold],
    by simp [State.cold, TimeBase.cold], by simp [State.cold, TimeBase.cold], by simp [State.cold, TimeBase.cold],
    by simp [State.cold, TimeBase.cold], fun _ => ⟨rfl, rfl, rfl⟩⟩
  case intake =>
    have hw : ∀ w, (State.cold i).sectionWindow w = .unset := fun w => by
      simp [State.cold, Intake.cold, State.sectionWindow]
    refine ⟨by simp [State.cold, Intake.cold], by simp [State.cold, Intake.cold, poolUsed],
      by simp [State.cold, Intake.cold], by simp [State.cold, Intake.cold], by simp [State.cold, Intake.cold],
      fun _ => by simp [State.cold, Intake.cold], fun w => ?_, fun _ w => ?_, fun _ w => ?_⟩
    all_goals rw [hw]; simp [SectionWindow.unset]
  case panel => exact ⟨by simp [State.cold, PanelLink.cold], by simp [State.cold, PanelLink.cold],
    by simp [State.cold, PanelLink.cold], by simp [State.cold, PanelLink.cold], by simp [State.cold, PanelLink.cold]⟩
  case pin =>
    exact ⟨by simp [State.cold, PinAuthority.cold], by simp [State.cold, PinAuthority.cold, PinEntry.blank],
      by simp [State.cold, PinAuthority.cold, PinEntry.blank], by simp [State.cold, PinAuthority.cold],
      by simp [State.cold, PinAuthority.cold], by simp [State.cold, PinAuthority.cold],
      by simp [State.cold, PinAuthority.cold], by simp [State.cold, PinAuthority.cold],
      by simp [State.cold, PinAuthority.cold], fun _ => rfl, fun _ _ => rfl, fun _ _ => rfl⟩
  case report =>
    exact ⟨by simp [State.cold, ReportUnit.cold], by simp [State.cold, ReportUnit.cold],
      by simp [State.cold, ReportUnit.cold], by simp [State.cold, ReportUnit.cold],
      by simp [State.cold, ReportUnit.cold], by simp [State.cold, ReportUnit.cold], rfl⟩
  case shadow => exact ⟨Memory.wf_nil, by simp [State.cold, CommandUnit.cold]⟩

theorem coldReset_holds (s : State) (l : LocalLaw) : l.holds (coldReset s) := by
  have := cold_holds s.inputs l
  cases l <;> exact this

theorem releaseReset_keeps {s : State} (l : LocalLaw) (h : l.holds s) : l.holds (releaseReset s) := by
  unfold releaseReset
  split
  · refine (evaluateAll_within _).keeps l ?_
    cases l <;> exact h
  · exact h

/-! ### Completions and frames -/

theorem exportCompletes_keeps {s : State} (l : LocalLaw) (h : l.holds s) : l.holds (exportCompletes s) := by
  unfold exportCompletes
  split
  · exact runRing_keeps l ((completeExport_within ..).keeps l h)
  · exact h

theorem importCompletes_keeps {s : State} (l : LocalLaw) (h : l.holds s) : l.holds (importCompletes s) := by
  unfold importCompletes
  split
  · exact runRing_keeps l ((completeImport_within ..).keeps l h)
  · exact h

theorem frameArrives_keeps (w : WireFrame) {s : State} (l : LocalLaw) (h : l.holds s) :
    l.holds (frameArrives w s) := runRing_keeps l ((receiveFrame_within w s).keeps l h)

theorem waitEnds_keeps {s : State} (l : LocalLaw) (h : l.holds s) : l.holds (waitEnds s) :=
  runRing_keeps l ((waitRunsOut_within s).keeps l h)

/-- R3: a control write burst as the command unit sees it. -/
theorem snoopControl_keeps {s : State} (start : Nat) (bytes : List (Byte × Bool)) (l : LocalLaw) (h : l.holds s) :
    l.holds (snoopControl start bytes s) := by
  unfold snoopControl
  split
  · next p hp =>
    have := partWithin_spec hp
    exact snoopWindow_keeps (by omega) l h
  · exact h

end Sys2Proof.Machine
end

