-- ==== Sys2Proof/Tests/Slice0.lean ====
section
/-! SUPPORT. The model's own tests: the checks of well-formedness, the check words, one small step for
commands of every family, and for every statement that has hypotheses a state and operands that meet them
together, clause by clause, at the boundaries of their ranges. -/

namespace Sys2Proof.Tests

open Sys2Proof Sys2Proof.Machine Host

-- One theorem at a time: side by side they take more threads than the check's memory limit holds.
set_option Elab.async false

/-! ### Ill-formed commands, which the check refuses -/

theorem test_burst_without_bytes_is_ill_formed : Instr.wellFormed (.streamWriteBurst 0 []) = false := by decide
theorem test_burst_of_513_bytes_is_ill_formed :
    Instr.wellFormed (.presentationReadRequest 0 0 513) = false := by decide
theorem test_burst_beyond_the_space_is_ill_formed :
    Instr.wellFormed (.controlReadRequest 0 0xFFFFFFFF 2) = false := by decide
theorem test_largest_burst_is_well_formed :
    Instr.wellFormed (.presentationReadRequest 0 0xFFFFFE00 512) = true := by decide
theorem test_control_write_without_bytes_is_ill_formed :
    Instr.wellFormed (.controlWriteBurst 0 []) = false := by decide
theorem test_stream_read_without_bytes_is_ill_formed :
    Instr.wellFormed (.streamReadBurst 0 0 .okay []) = false := by decide
theorem test_presentation_write_without_bytes_is_ill_formed :
    Instr.wellFormed (.presentationWriteBurst 0 []) = false := by decide
theorem test_responses_without_data_are_ill_formed :
    Instr.wellFormed (.presentationResponse 0 .okay []) = false
      ∧ Instr.wellFormed (.controlReadResponse none 0 .okay []) = false
      ∧ Instr.wellFormed (.noticePortRead 0 []) = false ∧ Instr.wellFormed (.summaryRead 0 []) = false := by
  decide
theorem test_response_of_513_bytes_is_ill_formed : responseOk (List.replicate 513 0) = false := by decide +kernel
theorem test_second_event_names_no_work_twice :
    Instr.wellFormed (.secondEvent [.sample, .sample]) = false
      ∧ Instr.wellFormed (.secondEvent [.sample, .dayComparison]) = true := by decide
theorem test_data_frame_is_no_address_frame :
    Instr.wellFormed (.addressFrame (.clean 0x5A false)) = false
      ∧ Instr.wellFormed (.addressFrame (.clean 0x5A true)) = true := by decide
theorem test_address_frame_is_no_data_frame :
    Instr.wellFormed (.keyFrame (.clean 0x31 true)) = false
      ∧ Instr.wellFormed (.panelAnswer (.clean 0x31 true)) = false
      ∧ Instr.wellFormed (.dataFrameDropped (.clean 0x31 true)) = false
      ∧ Instr.wellFormed (.keyFrame (.clean 0x31 false)) = true := by decide
theorem test_false_start_is_no_frame :
    Instr.wellFormed (.keyFrame { WireFrame.clean 0x31 false with start := .clean true }) = false := by decide
theorem test_other_value_is_no_lock :
    Instr.wellFormed (.lock (.clean 0x31 false)) = false ∧ Instr.wellFormed (.lock (.clean 0x4C false)) = true := by
  decide
theorem test_other_value_begins_no_answer :
    Instr.wellFormed (.answerAwaitingEcho (.clean 0x31 false)) = false
      ∧ Instr.wellFormed (.answerAwaitingEcho (.clean 0xF2 false)) = true := by decide

/-! ### Check words and records -/

/-- The digits 1 to 9 in ASCII. -/
def digitBytes : List Byte := [0x31, 0x32, 0x33, 0x34, 0x35, 0x36, 0x37, 0x38, 0x39]

theorem test_crc16_of_the_digits : crc16 digitBytes = 0x29B1 := by decide +kernel
theorem test_crc32_of_the_digits : crc32 digitBytes = 0xFC891918 := by decide +kernel
theorem test_host_record_is_laid_out_as_the_table_says :
    Command.encode (.setWindow 1 0 0x100 0x200 0x11223344) true
      = [0x30, 1, 1, 0, 0, 0, 0, 0, 0x00, 0x01, 0, 0, 0x00, 0x02, 0, 0, 0x44, 0x33, 0x22, 0x11]
        ++ List.replicate 12 0 := by decide +kernel
theorem test_a_bit_is_decided_by_two_samples :
    ({ WireFrame.clean 0x31 false with d0 := ⟨true, false, true⟩ }).received
      = some ⟨0x31, false, ⟨false, false, true⟩⟩ := by decide

/-! ### Small states -/

/-- The machine after reset with a PIN stored: no authority while no session is open. -/
def pinned : State :=
  { State.reset with pin := { State.reset.pin with stored := some [1, 2, 3, 4] } }

/-- An ACTIVE record with 100 minutes left. -/
def viewer : Profile := { Profile.default with state := .active, ceiling := .age 18, remaining := 24000 }

/-- After reset, with PRIMARY bound to the ACTIVE profile slot 0. -/
def home : State :=
  (State.reset.putProfile 0 viewer).putContext .primary ⟨some 0, none, .blocked, .noService, 0, []⟩

/-- The entry of a broadcast service with a present and a following event. -/
def channel : Entry :=
  { key := ⟨1, 2, 3⟩, source := .broadcast, version := some 4,
    present := .current ⟨7, 0, 0, 60, ⟨.aged 12, 0, 1⟩⟩,
    following := some ⟨8, 0, 60, 60, ⟨.aged 15, 1, 2⟩⟩, lastId := some 7, bindCount := 1, lastTouch := 0 }

/-- `home` with PRIMARY bound to the channel in rating slot 5. -/
def watching : State :=
  (home.putEntry 5 (some channel)).putContext .primary ⟨some 0, some 5, .opened, .none, 0, []⟩

/-- An override entry that waits for its removal. -/
def blockEntry : Override := ⟨.forceBlock, .pop, none, none, none, .live, .session⟩

/-- The machine after reset with the matcher collecting for a purpose and keys waiting. -/
def collecting (purpose : Purpose) (buffer : List Digit) (first : Option (List Digit)) (key : Byte) : State :=
  { pinned with
    panel := { pinned.panel with fifo := [⟨key, ⟨false, false, false⟩, false⟩], listener := .attendingOwn }
    pin := { pinned.pin with
      matcher := .collecting
      entry := { PinEntry.blank with purpose := purpose, buffer := buffer, firstCollection := first } } }

/-- The machine after reset with time declared at day 1, second 0. -/
def timed : State :=
  { State.reset with time := { State.reset.time with source := .declared, day := 1, profileDay := some 0 } }

theorem reset_ringReady : RingReady State.reset := ⟨rfl, by decide +kernel, by decide +kernel⟩
theorem reset_shadow : ShadowLaw State.reset := ⟨by decide +kernel, by decide +kernel⟩
theorem reset_quiet : Quiet State.reset := ⟨rfl, by decide +kernel⟩
theorem reset_ready (i : Instr) : Ready i State.reset := ⟨reset_ringReady, fun _ _ _ => rfl⟩
theorem home_ready (i : Instr) : Ready i home := ⟨reset_ringReady, fun _ _ _ => rfl⟩
theorem watching_ready (i : Instr) : Ready i watching := ⟨reset_ringReady, fun _ _ _ => rfl⟩
theorem timed_ready (i : Instr) : Ready i timed := ⟨reset_ringReady, fun _ _ _ => rfl⟩

/-! ### One small step for commands of every family -/

theorem test_null_command_steps_to_done :
    (match step { State.reset with pending := [.nullCommand] } with
      | .next t => decide ((t.slot 0).result.state = .done ∧ t.command.pointer = 1 ∧ t.pending = [])
      | _ => false) = true := by decide +kernel
theorem test_empty_queue_idles : step State.reset = .next State.reset := rfl
theorem test_bad_burst_is_refused :
    exec (.streamWriteBurst 0 []) State.reset = .refused .notABurst := rfl
theorem test_set_window_sets :
    (match exec (.setWindow 0 0 0x100 0x200 0x11223344) State.reset with
      | .next t => decide (t.window .primary .picture = ⟨true, 0x100, 0x200, 0x11223344⟩)
      | _ => false) = true := by decide +kernel
theorem test_blocked_picture_bytes_are_the_fill_word :
    (match exec (.presentationResponse 9 .okay [1, 2, 3, 4, 5])
        { home with lanes := { home.lanes with
            presentation := [⟨9, 0, 0x101, 5, [⟨0x101, 5, .window .primary .picture 0x11223344⟩]⟩] } } with
      | .next t => decide (t.lanes.out = [.response .presentation 9 .okay [0x33, 0x22, 0x11, 0x44, 0x33]])
      | _ => false) = true := by decide +kernel
theorem test_grant_without_authority_is_refused :
    (match exec (.grantTime 0 30) pinned with
      | .next t => decide ((t.slot 0).result.outcome = .notAuthorised)
      | _ => false) = true := by decide +kernel
theorem test_grant_adds_minutes :
    (match exec (.grantTime 0 721) home with
      | .next t => decide ((t.profile 0).remaining = 24000 + 720 * 240 ∧ (t.profile 0).granted = 720
          ∧ (t.slot 0).result.outcome = .clamped)
      | _ => false) = true := by decide +kernel
theorem test_export_then_completion_fills_the_buffer :
    (match exec (.exportProfile 0) home with
      | .next s =>
        match exec .exportCompletion s with
        | .next t => decide ((t.image.buffer.map List.length) = some 64 ∧ (t.slot 0).result.state = .done)
        | _ => false
      | _ => false) = true := by decide +kernel
theorem test_push_puts_an_entry_on_top :
    (match exec (.pushOverride 0 3 3 0 0) home with
      | .next t => decide ((t.context .primary).stack = [blockEntry]
          ∧ (t.context .primary).reason = .manual)
      | _ => false) = true := by decide +kernel
theorem test_section_window_seeks :
    (match exec (.setSectionWindow 3 0xFC00 0x400) State.reset with
      | .next t => decide (t.sectionWindow 3 = ⟨true, 0xFC00, 0x400, .seeking none⟩)
      | _ => false) = true := by decide +kernel
theorem test_playback_is_held_in_the_first_free_slot :
    (match exec (.declarePlayback 5 6 7 0 22 3 2) State.reset with
      | .next t => decide ((t.entry 0).map (·.present)
          = some (.current ⟨7, 0, 0, 0, ⟨.aged 21, 3, 2⟩⟩) ∧ (t.slot 0).result.outcome = .clamped)
      | _ => false) = true := by decide +kernel
theorem test_second_event_rolls_the_day :
    (match exec (.secondEvent [])
        { timed with time := { timed.time with second := 86399 } } with
      | .next t => decide (t.time.day = 2 ∧ t.time.second = 0 ∧ t.time.run = 1)
      | _ => false) = true := by decide +kernel
theorem test_routed_entry_collects :
    (match exec (.panelAnswer (.clean 0x31 false))
        { pinned with
          panel := { pinned.panel with
            listener := .attendingOwn, awaited := some .acknowledgement, transmitter := .awaiting,
            outstanding := some (.routeKeys 90) }
          pin := { pinned.pin with matcher := .routing } } with
      | .next t => decide (t.pin.matcher = .collecting ∧ t.panel.transmitter = .idle)
      | _ => false) = true := by decide +kernel
theorem test_matching_pin_opens_a_session :
    (match exec .keyTaken (collecting .session [1, 2, 3, 4] none 0x0D) with
      | .next t => decide (t.pin.sessionOpen = true ∧ t.pin.matcher = .releasing
          ∧ t.pin.sessionRemaining = 300)
      | _ => false) = true := by decide +kernel
theorem test_attention_follows_the_queue :
    (match exec .lineBreak State.reset with
      | .next t => decide (t.report.attention = true ∧ t.panel.listener = .fault)
      | _ => false) = true := by decide +kernel

/-! ### Hypotheses of the statements, met together: the whole gate -/

theorem test_hyp_StepTakesTheFrontCommand :
    ({ State.reset with pending := [.nullCommand, .keyTaken] } : State).pending = .nullCommand :: [.keyTaken]
      ∧ State.reset.pending = [] := ⟨rfl, rfl⟩
theorem test_hyp_CommandsKeepQueueAndInputs : ∃ t, exec .keyTaken State.reset = .next t := ⟨_, rfl⟩
theorem test_hyp_OnlyABadBurstStops :
    (laneTransfer (.streamWriteBurst 0 []) = true ∧ Instr.wellFormed (.streamWriteBurst 0 []) = false)
      ∧ (laneTransfer (.controlReadRequest 0 0xFFFFFFFF 2) = true
        ∧ Instr.wellFormed (.controlReadRequest 0 0xFFFFFFFF 2) = false)
      ∧ ¬ (laneTransfer (.controlReadRequest 0 0xFFFFFFFF 1) = true
        ∧ Instr.wellFormed (.controlReadRequest 0 0xFFFFFFFF 1) = false)
      ∧ ¬ (laneTransfer .keyTaken = true ∧ Instr.wellFormed .keyTaken = false) := by decide
theorem test_hyp_WarmResetAndItsRelease :
    State.reset.pin.matcher ≠ .lockout
      ∧ ({ pinned with pin := { pinned.pin with matcher := .lockout, timer := 60 } } : State).pin.matcher
        = .lockout := by decide
theorem test_hyp_WarmResetAndItsRelease_release :
    ({ home with systemReset := true } : State).systemReset = true ∧ home.systemReset = false
      ∧ (home.context .secondary).profile = none := by decide +kernel

/-- The machine after reset with a command in the queue: it meets every law, and a step goes on. -/
def posting : State := { State.reset with pending := [.commitLayout] }

theorem test_hyp_StepKeeps_step : ∃ t, step posting = .next t := ⟨_, rfl⟩
theorem test_hyp_StepKeeps_lanes : LanesLaw posting ∧ ShadowLaw posting := by
  refine ⟨⟨fun o k => ?_, fun o k o' k' _ h => ?_, by decide +kernel, by decide +kernel⟩, by decide +kernel,
    by decide +kernel⟩
  · cases o <;> cases k <;> (unfold Window.law; rw [if_neg (by decide +kernel)]; decide +kernel)
  · cases o <;> cases k <;> exact absurd h (by decide +kernel)
theorem test_hyp_StepKeeps_verdicts :
    StackLaw posting ∧ SupervisionLaw posting ∧ ReasonLaw posting ∧ BlockedLaw posting := by
  refine ⟨fun o => ?_, fun o => ?_, fun o => ?_, fun o n h => ?_⟩
  · cases o <;> exact ⟨by decide +kernel, fun e h => by cases h⟩
  · cases o <;> decide +kernel
  · cases o <;> decide +kernel
  · cases o <;> cases h
theorem test_hyp_StepKeeps_profiles : ProfileLaw posting ∧ BindingLaw posting := by
  refine ⟨⟨fun n => ?_, fun n q p h => by cases h⟩, fun o n h => by cases o <;> cases h⟩
  have e : posting.profile n = Profile.default := by revert n; decide +kernel
  rw [e]
  refine ⟨⟨fun a h => (by cases h), by decide, fun a h => (by cases h; decide), by decide, by decide, by decide,
    fun i w h => ?_, by decide, by decide, by decide⟩, fun _ => ⟨rfl, rfl, rfl, rfl⟩⟩
  have c : ∀ i : Fin 3, Profile.default.curfews[i] = none := by decide +kernel
  rw [c i] at h
  cases h
theorem test_hyp_StepKeeps_ratings : RatingLaw posting := by
  have e : ∀ n, posting.entry n = none := by decide +kernel
  refine ⟨fun m n e' f h => ?_, fun n e' h => ?_, by decide +kernel⟩
  · rw [e m] at h; cases h
  · rw [e n] at h; cases h
theorem test_hyp_StepKeeps_intake_and_time : IntakeLaw posting ∧ TimeLaw posting := by
  constructor
  · refine ⟨by decide +kernel, by decide +kernel, by decide +kernel, by decide +kernel, by decide +kernel,
      by decide +kernel, ?_, ?_, ?_⟩ <;> decide +kernel
  · unfold TimeLaw; decide +kernel
theorem test_hyp_StepKeeps_panel_pin_report : PanelLaw posting ∧ PinLaw posting ∧ ReportLaw posting := by
  refine ⟨by unfold PanelLaw; decide +kernel, ⟨?_, ?_⟩, by unfold ReportLaw; decide +kernel⟩
  · intro d h; cases h
  · refine ⟨by decide +kernel, fun d h => (by cases h), ?_⟩; decide +kernel
theorem test_hyp_ProfileDayDoesNotFall :
    (∃ t, exec (.secondEvent []) timed = .next t) ∧ (∃ t, exec (.setDayStart 0) timed = .next t)
      ∧ (∃ t, exec (.controlWriteBurst 0x40000000 ([0, 0, 0, 0].map (fun b => (b, true)))) timed = .next t)
      ∧ timed.time.profileDay = some 0 ∧ ShadowLaw timed
      ∧ (∀ n record, (timed.slot n).captured = some record → byteAt record 0 ≠ 0x48)
      ∧ PostsSlot timed.inputs 0x40000000 ([0, 0, 0, 0].map (fun b => (b, true))) 0
      ∧ ([0, 0, 0, 0].map (fun b => (b, true)) : List (Byte × Bool))[timed.inputs.commandBase + 32 * 0 - 0x40000000]?
        ≠ some (0x48, true) := by
  refine ⟨⟨_, rfl⟩, ⟨_, rfl⟩, ⟨_, rfl⟩, rfl, reset_shadow, fun n record h => ?_, ⟨by decide, ?_⟩, by decide⟩
  · have e : ∀ n, (timed.slot n).captured = none := by decide +kernel
    rw [e n] at h
    cases h
  · have e : ∀ k, k < 4 → ([0, 0, 0, 0].map (fun b => (b, true)) : List (Byte × Bool))[
        timed.inputs.commandBase + 32 * 0 + k - 0x40000000]? = some (0, true) := by decide
    exact fun k h => ⟨0, e k h⟩

/-! ### Hypotheses of the statements about the lanes -/

theorem test_hyp_StreamAndPresentationTransfersPass :
    Running State.reset ∧ burstOk 0 1 = true ∧ burstOk 0xFFFFFE00 512 = true := ⟨rfl, by decide, by decide⟩

/-- The machine after reset with section window 0 SET and SHED. -/
def shedding : State :=
  { State.reset.putSectionWindow 0 ⟨true, 0x1000, 0x400, .shed⟩ with
    intake := { (State.reset.putSectionWindow 0 ⟨true, 0x1000, 0x400, .shed⟩).intake with flow := .halted } }

theorem test_hyp_StreamAndPresentationTransfersPass_writes :
    Running shedding ∧ burstOk 0x13FF 1 = true
      ∧ rangesMeet 0x13FF 1 (shedding.sectionWindow 0).base (shedding.sectionWindow 0).size = true
      ∧ ∀ w, (shedding.sectionWindow w).set = true →
          rangesMeet 0x13FF 1 (shedding.sectionWindow w).base (shedding.sectionWindow w).size = true →
          (shedding.sectionWindow w).context = .shed := ⟨rfl, by decide, by decide +kernel, by decide +kernel⟩

/-- The machine after reset with section window 2 SET and seeking. -/
def seeking : State := State.reset.putSectionWindow 2 ⟨true, 0x9000, 0x400, .seeking none⟩

/-- A record that waits in the intake queue. -/
def waitingRecord : QueuedRecord := ⟨0, 0x1000, 0xC3, [0, 0, 0, 0], 10⟩

/-- A ring record of a code and a body (R108). -/
def ringRecord (code : Byte) (body : List Byte) : List Byte :=
  [0xA6, code] ++ nat16 body.length ++ body ++ bytes16 (crc16 ([code] ++ nat16 body.length ++ body))

theorem test_hyp_WholeRecordIsQueued (start : Word) (n : Nat)
    (h : (start, n) = (0x93F4, 4) ∨ (start, n) = (0x9000, 4) ∨ (start, n) = (0x9200, 506)) :
    Running seeking ∧ (seeking.sectionWindow 2).set = true
      ∧ (seeking.sectionWindow 2).context = .seeking none
      ∧ (seeking.sectionWindow 2).base ≤ start.toNat
      ∧ start.toNat + (ringRecord 0xC2 (List.replicate n 0)).length
        ≤ (seeking.sectionWindow 2).base + (seeking.sectionWindow 2).size
      ∧ (seeking.sectionWindow 2).base % 4 = 0 ∧ (seeking.sectionWindow 2).size % 4 = 0
      ∧ start.toNat % 4 = 0 ∧ burstOk start (ringRecord 0xC2 (List.replicate n 0)).length = true
      ∧ (∀ v, v ≠ 2 → (seeking.sectionWindow v).set = true →
          rangesMeet start.toNat (ringRecord 0xC2 (List.replicate n 0)).length (seeking.sectionWindow v).base
            (seeking.sectionWindow v).size = false)
      ∧ 4 ≤ (List.replicate n (0 : Byte)).length ∧ (List.replicate n (0 : Byte)).length ≤ 1020
      ∧ (ringRecord 0xC2 (List.replicate n 0)).length ≤ poolFree seeking.intake
      ∧ seeking.intake.queue.length + 1 < seeking.intake.haltLevel := by
  rcases h with h | h | h <;> cases h <;> exact ⟨rfl, by decide +kernel⟩
/-- The machine after reset with section window 2 assembling a record from 0x93F4, of which `k` bytes are
held. -/
def assembling (record : List Byte) (k : Nat) : State :=
  State.reset.putSectionWindow 2 ⟨true, 0x9000, 0x400, .assembling
    ⟨0x93F4, 0x93F4 + k, record.take k, if k < 4 then none else some (recordLength record)⟩⟩

theorem test_hyp_WindowWritesAreAssembled (k : Nat) (h : k = 0 ∨ k = 3 ∨ k = 4 ∨ k = 11) :
    let record := ringRecord 0xC2 (List.replicate 6 0)
    let s := assembling record k
    let bytes : List (Byte × Bool) := (record.drop k).map (fun b => (b, true))
    Running s ∧ burstOk (BitVec.ofNat 32 (0x93F4 + k)) bytes.length = true
      ∧ LiesInWindow s 2 (0x93F4 + k) bytes.length
      ∧ (s.sectionWindow 2).base % 4 = 0 ∧ (s.sectionWindow 2).size % 4 = 0
      ∧ (s.sectionWindow 2).context = .assembling ⟨0x93F4, 0x93F4 + k, record.take k,
          if (record.take k).length < 4 then none else some (recordLength record)⟩
      ∧ record.take k ++ bytes.map (·.1) = record ∧ LegalLength (s.sectionWindow 2).size (recordLength record)
      ∧ k < recordLength record ∧ record.length = recordLength record
      ∧ crc16 ((record.drop 1).take (recordLength record - 3)) = halfAt record (recordLength record - 2)
      ∧ recordLength record ≤ poolFree s.intake ∧ s.intake.queue.length + 1 < s.intake.haltLevel
      ∧ ringAddress (s.sectionWindow 2) (0x93F4 + k + bytes.length) = 0x9000 := by
  unfold LiesInWindow LegalLength
  rcases h with h | h | h | h <;> subst h <;> exact ⟨rfl, by decide +kernel⟩
theorem test_hyp_WindowWritesAreAssembled_clauses :
    ((0x93F5 : Nat) ≠ 0x93F4 ∧ ∃ b ∈ ([(0xA6, true), (0, false)] : List (Byte × Bool)), b.2 = false)
      ∧ (([0xA6, 0xC2, 4] : List Byte).length < 4 ∧ LegalLength 0x400 10 ∧ LegalLength 0x404 1026)
      ∧ (¬ LegalLength 0x400 (recordLength [0xA6, 0xC2, 3, 0])
        ∧ ¬ LegalLength 0x400 (recordLength [0xA6, 0xC2, 0xFB, 3])
        ∧ ¬ LegalLength 0x10000 (recordLength [0xA6, 0xC2, 0xFD, 3]))
      ∧ crc16 (([0xA6, 0xC2, 4, 0, 0, 0, 0, 0, 0, 0].drop 1).take 7) ≠ halfAt [0xA6, 0xC2, 4, 0, 0, 0, 0, 0, 0, 0] 8
      ∧ (let i : Intake := { State.reset.intake with queue := [{ waitingRecord with total := 4087 }] }
         poolFree i < 10 ∧ 9 ≤ poolFree i)
      ∧ (let i : Intake := { State.reset.intake with haltLevel := 1 }
         i.haltLevel ≤ i.queue.length + 1) := by
  unfold LegalLength; decide +kernel
/-- The machine after reset with two section windows that meet at 0x9000. -/
def twoWindows (low high : Fin 4) : State :=
  (State.reset.putSectionWindow low ⟨true, 0x8C00, 0x400, .seeking none⟩).putSectionWindow high
    ⟨true, 0x9000, 0x400, .seeking none⟩

theorem test_hyp_WindowWritesAreAssembled_cut :
    let bytes : List (Byte × Bool) := [(0xA6, true), (0xC2, true)]
    Running (twoWindows 0 1) ∧ Running (twoWindows 1 0) ∧ burstOk 0x8FFE (bytes ++ bytes).length = true
      ∧ bytes ≠ [] ∧ (0x9000 : Word).toNat = (0x8FFE : Word).toNat + bytes.length
      ∧ (∀ v w, Touches (twoWindows 0 1) 0x8FFE bytes v → Touches (twoWindows 0 1) 0x9000 bytes w → v < w)
      ∧ Touches (twoWindows 0 1) 0x8FFE bytes 0 ∧ Touches (twoWindows 0 1) 0x9000 bytes 1
      ∧ (∀ v w, Touches (twoWindows 1 0) 0x8FFE bytes v → Touches (twoWindows 1 0) 0x9000 bytes w → w < v)
      ∧ Touches (twoWindows 1 0) 0x8FFE bytes 1 ∧ Touches (twoWindows 1 0) 0x9000 bytes 0 := by
  unfold Touches
  exact ⟨rfl, rfl, by decide +kernel⟩
theorem test_hyp_SeekingContextsFindRecords :
    (Running seeking ∧ burstOk 0x93FC [((0xA6 : Byte), true)].length = true
        ∧ LiesInWindow seeking 2 0x93FC [((0xA6 : Byte), true)].length
        ∧ (seeking.sectionWindow 2).context = .seeking none ∧ (0x93FC : Word).toNat % 4 = 0
        ∧ BeginsRecord [(0xA6, true)] ∧ ¬ BeginsRecord [(0xA6, false)] ∧ (0x93FD : Word).toNat % 4 ≠ 0)
      ∧ (let s := State.reset.putSectionWindow 2 ⟨true, 0x9000, 0x400, .seeking (some (0x93FC : Word).toNat)⟩
         Running s ∧ (s.sectionWindow 2).context = .seeking (some (0x93FC : Word).toNat)
           ∧ LiesInWindow s 2 0x93FA 6 ∧ (0x93FA : Word).toNat ≤ (0x93FC : Word).toNat
           ∧ BeginsRecord (([0, 0, 0xA6, 1, 2, 3].map (fun b => (b, true)) : List (Byte × Bool)).drop
               ((0x93FC : Word).toNat - (0x93FA : Word).toNat))
           ∧ (0x93FC : Word).toNat < (0x93FD : Word).toNat)
      ∧ (let record := ringRecord 0xC2 (List.replicate 4 0)
         let s := assembling record 0
         let first : List (Byte × Bool) := record.map (fun b => (b, true))
         LiesInWindow s 2 0x93F4 12 ∧ (0x93FE : Word).toNat = (0x93F4 : Word).toNat + first.length
           ∧ ([] : List Byte).length < recordLength ([] ++ first.map (·.1))
           ∧ LegalLength (s.sectionWindow 2).size (recordLength ([] ++ first.map (·.1)))
           ∧ (([] : List Byte) ++ first.map (·.1)).length = recordLength ([] ++ first.map (·.1))
           ∧ ([(0, true), (0, true)] : List (Byte × Bool)).length ≤ paddingFrom (0x93FE : Word).toNat
           ∧ paddingFrom (0x93FE : Word).toNat < ([(0, true), (0, true), (0, true)] : List (Byte × Bool)).length) := by
  unfold LiesInWindow LegalLength BeginsRecord
  exact ⟨⟨rfl, by decide +kernel⟩, ⟨rfl, by decide +kernel⟩, by decide +kernel⟩
theorem test_hyp_ControlWriteReachesTheShadow :
    Running State.reset ∧ ShadowLaw State.reset ∧ burstOk 0x4000027F [((1 : Byte), true)].length = true
      ∧ ∀ p, ¬ PostsSlot State.reset.inputs 0x4000027F [(1, true)] p := by
  refine ⟨rfl, reset_shadow, by decide, fun p h => ?_⟩
  obtain ⟨h1, _⟩ := h
  have : 0x4000027F ≤ 0x40000000 + 32 * p.val := h1
  have := p.isLt
  omega
theorem test_hyp_HostCommandIsItsRecordWritten :
    commandOf .nullCommand = some .null ∧ ShadowLaw State.reset
      ∧ State.reset.inputs.commandBase + Config.commandWindowSize ≤ Config.addressSpace := ⟨rfl, reset_shadow, by decide⟩
theorem test_hyp_RewritesAreIgnoredAndUnknownCodesAnswered :
    (([1, 1] ++ List.replicate 30 0 : List Byte).length = 32
        ∧ recordToggle ([1, 1] ++ List.replicate 30 0) ≠ (State.reset.slot 15).expected ∧ Running State.reset
        ∧ ShadowLaw State.reset)
      ∧ ((0xFF :: List.replicate 31 0 : List Byte).length = 32 ∧ RingReady State.reset
        ∧ (0 : Fin 16) = State.reset.command.pointer
        ∧ recordToggle (0xFF :: List.replicate 31 0) = (State.reset.slot 0).expected
        ∧ Command.decode (0xFF :: List.replicate 31 0) = none) :=
  ⟨⟨rfl, by decide +kernel, rfl, reset_shadow⟩, rfl, reset_ringReady, rfl, by decide +kernel, by decide +kernel⟩
/-- The machine after reset with a record captured in a slot at or beyond the pointer. -/
def posted (n : Fin 16) (record : List Byte) (result : ResultState) : State :=
  State.reset.putSlot n ⟨false, .posted, some record, ⟨result, 0, false, .doneOk, []⟩⟩

theorem test_hyp_PostsWaitAndAreTakenInRingOrder :
    (Running (posted 1 (List.replicate 32 0) .idle) ∧ ShadowLaw (posted 1 (List.replicate 32 0) .idle))
      ∧ ((List.replicate 32 (0 : Byte)).length = 32
        ∧ State.reset.inputs.commandBase + Config.commandWindowSize ≤ Config.addressSpace
        ∧ recordToggle (List.replicate 32 0) = (State.reset.slot 15).expected)
      ∧ ((posted 1 (List.replicate 32 0) .idle).slot 0).state ≠ .posted
      ∧ ((posted 0 (List.replicate 32 0) .pending).slot 0).result.state = .pending
      ∧ (((posted 0 (List.replicate 32 0) .done).slot 0).state = .posted
        ∧ ((posted 0 (List.replicate 32 0) .done).slot 0).result.state ≠ .pending
        ∧ ((posted 0 (List.replicate 32 0) .done).slot 0).captured = some (List.replicate 32 0))
      ∧ (Command.decode (0xFF :: List.replicate 31 0) = none
        ∧ Command.decode (List.replicate 32 0) = some .null
        ∧ (Command.decode (0x18 :: List.replicate 31 0)).map (fun c => (privileged c pinned, authority pinned))
          = some (true, false)) := by
  refine ⟨⟨rfl, reset_shadow⟩, ?_⟩; decide +kernel
theorem test_hyp_PostsWaitAndAreTakenInRingOrder_operations :
    ({ home with image := { home.image with operation := .exporting 7 15 viewer } } : State).image.operation
        = .exporting 7 15 viewer
      ∧ ({ home with image := { home.image with operation := .importing 0 1 [] } } : State).image.operation
        = .importing 0 1 [] := ⟨rfl, rfl⟩

/-- A read in flight of another tag. -/
def otherRead : InFlight := ⟨1, 7, 0, 4, [⟨0, 4, .none⟩]⟩

/-- The machine after reset with reads in flight and held. -/
def lanesWith (presentation control : List InFlight) (heldPresentation heldControl : List ReadRequest) : State :=
  { State.reset with lanes := { State.reset.lanes with
      presentation := presentation, control := control
      heldPresentation := heldPresentation, heldControl := heldControl } }

theorem test_hyp_ReadRequestsAreEnteredOrHeld :
    Running (lanesWith [] [] [] []) ∧ burstOk 0x40000FFF 512 = true
      ∧ ((lanesWith (List.replicate 15 otherRead) [] [] []).lanes.presentation.length < 16
        ∧ (lanesWith (List.replicate 15 otherRead) [] [] []).lanes.heldPresentation = [])
      ∧ 16 ≤ (lanesWith (List.replicate 16 otherRead) [] [] []).lanes.presentation.length
      ∧ (lanesWith [] [] [⟨1, 0, 4⟩] []).lanes.heldPresentation ≠ []
      ∧ (rangesMeet 0x40000FFF 512 State.reset.inputs.reportBase 2048 = true
        ∧ (lanesWith [] (List.replicate 3 otherRead) [] []).lanes.control.length < 4
        ∧ (lanesWith [] (List.replicate 3 otherRead) [] []).lanes.heldControl = [])
      ∧ rangesMeet 0x40001000 512 State.reset.inputs.reportBase 2048 = false
      ∧ 4 ≤ (lanesWith [] (List.replicate 4 otherRead) [] []).lanes.control.length
      ∧ (lanesWith [] [] [] [⟨1, 0x40000800, 4⟩]).lanes.heldControl = ⟨1, 0x40000800, 4⟩ :: []
      ∧ rangesMeet 0x40000800 4 State.reset.inputs.reportBase 2048 = true
      ∧ (lanesWith [] [] [⟨1, 0, 4⟩] []).lanes.heldPresentation = ⟨1, 0, 4⟩ :: []
      ∧ (lanesWith [] [] [] [⟨1, 0x400007FC, 4⟩]).lanes.heldControl = ⟨1, 0x400007FC, 4⟩ :: []
      ∧ rangesMeet 0x400007FC 4 State.reset.inputs.reportBase 2048 = false := by
  refine ⟨rfl, ?_⟩; decide +kernel
theorem test_hyp_SegmentsCoverTheBurst :
    LanesLaw posting ∧ (512 : Nat) ≤ 512 ∧ (256 : Nat) ≤ 256
      ∧ (home.putWindow .remote .sound ⟨true, 0x100, 0x100, 0⟩).window .remote .sound
        = ⟨true, 0x100, 0x100, 0⟩
      ∧ ((⟨true, 0x100, 0x100, 0⟩ : Window).covers 0x1FF = true
        ∧ (⟨true, 0x100, 0x100, 0⟩ : Window).covers 0x200 = false) :=
  ⟨test_hyp_StepKeeps_lanes.1, by decide, by decide, rfl, by decide⟩

/-- A read in flight that begins at the notice port, and one that ends in the summary record. -/
def portRead : InFlight := ⟨3, 0, 0x40000A80, 32, [⟨0x40000A80, 32, .report⟩]⟩
def summaryRead : InFlight := ⟨3, 0, 0x40000A3F, 1, [⟨0x40000A3F, 1, .report⟩]⟩

theorem test_hyp_ControlResponsesAnswerFromTheReport :
    Running (lanesWith [] [portRead] [] []) ∧ responseOk (List.replicate 32 0) = true
      ∧ markedEntry 5 (lanesWith [] [portRead] [] []).lanes.control = none
      ∧ markedEntry 0 (lanesWith [] [portRead] [] []).lanes.control = some portRead
      ∧ (List.replicate 32 (0 : Byte)).length = portRead.count
      ∧ portRead.segments
        = resolve (controlMark (lanesWith [] [portRead] [] [])) portRead.start portRead.count
      ∧ portRead.start = State.reset.inputs.reportBase + 0x280
      ∧ summaryRead.segments
        = resolve (controlMark (lanesWith [] [summaryRead] [] [])) summaryRead.start summaryRead.count
      ∧ rangesMeet summaryRead.start summaryRead.count (State.reset.inputs.reportBase + 0x200) 0x40 = true
      ∧ bestNotice (raise .panelBreak 0 [] State.reset).report.queue = some ⟨.panelBreak, 0, [], 0, 1⟩ := by
  refine ⟨rfl, ?_⟩; decide +kernel
theorem test_hyp_ReportWindowMap :
    State.reset.report.queue = []
      ∧ (let lock : Notice := ⟨.lockKey, 0, [], 0, 1⟩
         let noise : Notice := ⟨.panelNoise, 0, [], 0, 1⟩
         (raise .panelNoise 0 [] (raise .lockKey 0 [] (raise .panelBreak 0 [] State.reset))).report.queue
             = [⟨.panelBreak, 0, [], 0, 1⟩] ++ lock :: [noise]
           ∧ noticeClass .panelBreak < noticeClass lock.kind ∧ noticeClass noise.kind ≤ noticeClass lock.kind
           ∧ noticeClass .pinLockout ≤ noticeClass lock.kind)
      ∧ (0x240 ≤ 0x240 ∧ 0x27F < 0x280) ∧ (0x2A0 ≤ 0x2A0 ∧ 0x2FF < 0x300) ∧ (0x340 ≤ 0x340 ∧ 0x3FF < 0x400) := by
  decide +kernel
theorem test_hyp_ReportRecordsAreLaidOut :
    (⟨.done, 0, true, .clamped, List.replicate 24 1⟩ : ResultRecord).data.length ≤ 24
      ∧ (⟨.panelNoise, 0, List.replicate 20 1, 0, 1⟩ : Notice).detail.length ≤ 20 := by decide

/-- `watching` with a view selected. -/
def viewing (v : ViewSelection) : State := { watching with report := { watching.report with view := v } }

theorem test_hyp_ViewsAreLaidOut :
    ((viewing .none).report.view = .none ∧ (viewing (.profile 7)).report.view = .profile 7
        ∧ (viewer.curfews[(2 : Fin 3)] = none ∧ (1023 : Nat) < 1024))
      ∧ ((viewing (.output .remote)).report.view = .output .remote
        ∧ ((watching.putContext .remote ⟨none, none, .unsupervised, .none, 0, List.replicate 4 blockEntry⟩).context
            .remote).stack.reverse[3]? = some blockEntry
        ∧ (List.replicate 4 blockEntry).length ≤ 4 ∧ (5662310399 : Nat) / 86400 ≤ 65535
        ∧ ¬ (5662310400 : Nat) / 86400 ≤ 65535)
      ∧ ((viewing (.ratingSlot 5)).report.view = .ratingSlot 5 ∧ watching.entry 5 = some channel
        ∧ watching.entry 63 = none ∧ (∃ v, channel.present = .current v) ∧ ∃ v, channel.following = some v)
      ∧ ((viewing (.ratingKey ⟨1, 2, 3⟩)).report.view = .ratingKey ⟨1, 2, 3⟩
        ∧ ∃ f, watching.entry 5 = some f ∧ f.key = ⟨1, 2, 3⟩)
      ∧ ((viewing .windows).report.view = .windows ∧ (viewing .intake).report.view = .intake
        ∧ (∃ a, ((assembling (ringRecord 0xC2 [0, 0, 0, 0]) 4).sectionWindow 2).context = .assembling a))
      ∧ ((viewing .panel).report.view = .panel ∧ (viewing (.scheme 0)).report.view = .scheme 0
        ∧ (8 : Fin 9).val = (7 : Fin 8).val + 1 ∧ (viewing .image).report.view = .image
        ∧ watching.image.buffer = none ∧ (profileImage 0 viewer).length = 64) :=
  ⟨⟨rfl, rfl, by decide +kernel⟩, ⟨rfl, by decide +kernel⟩,
    ⟨rfl, rfl, by decide +kernel, ⟨_, rfl⟩, ⟨_, rfl⟩⟩, ⟨rfl, _, rfl, rfl⟩, ⟨rfl, rfl, ⟨_, rfl⟩⟩,
    ⟨rfl, rfl, rfl, rfl, rfl, by decide +kernel⟩⟩

/-- A read in flight over the last byte of a picture window and the first two beyond it. -/
def straddle : InFlight := ⟨9, 0, 0x1FF, 3, [⟨0x1FF, 1, .window .primary .picture 5⟩, ⟨0x200, 2, .none⟩]⟩

theorem test_hyp_SubstitutionLaw :
    Running (lanesWith [otherRead, straddle, otherRead] [] [] []) ∧ responseOk [1, 2, 3] = true
      ∧ (∀ e ∈ (lanesWith [otherRead, straddle, otherRead] [] [] []).lanes.presentation, e.tag ≠ 2)
      ∧ (lanesWith [otherRead, straddle, otherRead] [] [] []).lanes.presentation
        = [otherRead] ++ straddle :: [otherRead]
      ∧ straddle.tag = 9 ∧ (∀ d ∈ [otherRead], d.tag ≠ 9)
      ∧ coveredBy straddle.segments = ([1, 2, 3] : List Byte).length
      ∧ straddle.segments
        = [⟨0x1FF, 1, .window .primary .picture 5⟩] ++ (⟨0x200, 2, .none⟩ : Segment) :: [] := by
  refine ⟨rfl, ?_⟩; decide +kernel

/-! ### Hypotheses of the statements about the host's commands -/

theorem test_hyp_HostCommandsTouchOnlyTheirParts :
    (commandOf (.grantTime 0 30) = some (.grantTime 0 30) ∧ RingReady State.reset
        ∧ Command.grantTime 0 30 ≠ .factoryClear)
      ∧ (RingReady pinned ∧ privileged (.grantTime 0 30) pinned = true ∧ authority pinned = false)
      ∧ (commandOf .factoryClear = some .factoryClear ∧ privileged .factoryClear pinned = true) :=
  ⟨⟨rfl, reset_ringReady, by decide⟩, ⟨reset_ringReady, rfl, rfl⟩, rfl, rfl⟩
theorem test_hyp_WindowsLayoutAndPanelAddressesAreSet (i : Instr) :
    Ready i State.reset
      ∧ (3 ≤ (3 : Byte).toNat ∧ 2 ≤ (2 : Byte).toNat)
      ∧ (outputCode .remote = (2 : Byte).toNat ∧ windowKindCode .sound = (1 : Byte).toNat)
      ∧ ((0 : Word).toNat = 0 ∧ (0x100 : Word).toNat ≠ 0)
      ∧ ((1 : Word).toNat % 256 ≠ 0 ∧ 268435456 < (0x10000100 : Word).toNat
        ∧ 4294967296 < (0xFFFFFF00 : Word).toNat + (0x200 : Word).toNat)
      ∧ ((0xF0000000 : Word).toNat % 256 = 0 ∧ (0x10000000 : Word).toNat ≤ 268435456
        ∧ (0xF0000000 : Word).toNat + (0x10000000 : Word).toNat ≤ 4294967296)
      ∧ rangesMeet 0x100 0x101 0x200 0x100 = true ∧ rangesMeet 0x100 0x100 0x200 0x100 = false
      ∧ (State.reset.putWindow .primary .sound ⟨true, 0x200, 0x100, 0⟩).window .primary .sound
        = ⟨true, 0x200, 0x100, 0⟩ :=
  ⟨reset_ready i, by decide, by decide, by decide, by decide, by decide, by decide, by decide, rfl⟩
theorem test_hyp_WindowsLayoutAndPanelAddressesAreSet_addresses :
    RingReady State.reset ∧ Ready (.setPanelAddresses 0 1) State.reset
      ∧ Ready (.setPanelAddresses 0xFF 0x01) State.reset ∧ (0xFF : Byte) ≠ 0 ∧ (0x01 : Byte) ≠ 0 :=
  ⟨reset_ringReady, reset_ready _, reset_ready _, by decide, by decide⟩

theorem test_hyp_SectionWindowsAndLevels (i : Instr) :
    Ready i State.reset ∧ 4 ≤ (4 : Byte).toNat ∧ (3 : Fin 4).val = (3 : Byte).toNat
      ∧ ((0x3FF : Word).toNat < 1024 ∧ 1024 ≤ (0x400 : Word).toNat ∧ (0x10000 : Word).toNat ≤ 65536
        ∧ 65536 < (0x10100 : Word).toNat ∧ (0xFFFF0000 : Word).toNat + (0x10000 : Word).toNat ≤ 4294967296)
      ∧ (max 1 (min 8 (0 : Byte).toNat) = 1 ∧ max 1 (min 8 (9 : Byte).toNat) = 8
        ∧ min (1 - 1) (5 : Byte).toNat = 0)
      ∧ (State.reset.intake.flow = .flowing ∧ State.reset.intake.queue.length < 1)
      ∧ (let s : State := { State.reset with intake := { State.reset.intake with queue := [waitingRecord] } }
         Ready i s ∧ s.intake.flow = .flowing ∧ 1 ≤ s.intake.queue.length)
      ∧ (let s : State := { State.reset with
           intake := { State.reset.intake with queue := [waitingRecord], flow := .halted } }
         Ready i s ∧ s.intake.flow = .halted ∧ s.intake.queue.length ≤ 1 ∧ 0 < s.intake.queue.length) :=
  ⟨reset_ready i, by decide, rfl, by decide, by decide, by decide +kernel,
    ⟨⟨reset_ringReady, fun _ _ _ => rfl⟩, rfl, by decide +kernel⟩,
    ⟨⟨reset_ringReady, fun _ _ _ => rfl⟩, rfl, by decide +kernel, by decide +kernel⟩⟩


/-- The rating law of a state that binds one output to one entry. -/
theorem watching_ratings : RatingLaw watching := by
  have e5 : watching.entry 5 = some channel := rfl
  have en : ∀ n, n ≠ 5 → watching.entry n = none := by decide +kernel
  have eb : ∀ n, n ≠ 5 → boundTo watching n = [] := by decide +kernel
  refine ⟨fun m n e f hm hn _ => ?_, fun n e h => ?_, fun n h => ?_⟩
  · have a : m = 5 := by_contra fun c => by rw [en m c] at hm; cases hm
    have b : n = 5 := by_contra fun c => by rw [en n c] at hn; cases hn
    rw [a, b]
  · have b : n = 5 := by_contra fun c => by rw [en n c] at h; cases h
    subst b
    rw [e5] at h
    cases h
    exact ⟨by decide +kernel, by decide⟩
  · exact eb n fun c => by rw [c, e5] at h; cases h
theorem test_hyp_BindServiceBindsTheOutput :
    RingReady watching ∧ RatingLaw watching ∧ 3 ≤ (3 : Byte).toNat ∧ outputCode .remote = (2 : Byte).toNat
      ∧ watching.boundKey .primary = some ⟨1, 2, 3⟩ ∧ watching.boundKey .remote ≠ some ⟨1, 2, 3⟩
      ∧ (watching.entry 5 = some channel ∧ channel.key = ⟨1, 2, 3⟩)
      ∧ ∀ m f, watching.entry m = some f → f.key ≠ ⟨9, 9, 9⟩ := by
  refine ⟨reset_ringReady, watching_ratings, by decide, by decide, by decide +kernel, by decide +kernel,
    ⟨rfl, rfl⟩, ?_⟩
  intro m f h k
  have en : ∀ n, n ≠ 5 → watching.entry n = none := by decide +kernel
  by_cases c : m = 5
  · subst c; cases h; revert k; decide
  · rw [en m c] at h; cases h
theorem test_hyp_UnbindServiceAndBindProfile :
    RingReady watching ∧ 3 ≤ (3 : Byte).toNat ∧ outputCode .remote = (2 : Byte).toNat
      ∧ (watching.context .remote).service = none ∧ (watching.context .primary).service = some 5
      ∧ Ready (.bindProfile 2 0xFF) watching ∧ (8 ≤ (8 : Byte).toNat ∧ (8 : Byte) ≠ 0xFF)
      ∧ (8 ≤ (0xFE : Byte).toNat ∧ (0xFE : Byte) ≠ 0xFF)
      ∧ (7 : Fin 8).val = (7 : Byte).toNat ∧ (watching.profile 7).state = .empty
      ∧ (0 : Fin 8).val = (0 : Byte).toNat ∧ (watching.profile 0).state ≠ .empty := by
  refine ⟨reset_ringReady, by decide, by decide, by decide +kernel, by decide +kernel, watching_ready _, ?_⟩
  decide +kernel

/-- `home` with the image unit importing into slot 0. -/
def importing : State :=
  { home with image := { home.image with operation := .importing 0 1 (profileImage 0 viewer) } }

theorem importing_ready (i : Instr) : Ready i importing := ⟨reset_ringReady, fun _ _ _ => rfl⟩
theorem test_hyp_GrantTimeAddsMinutes :
    RingReady pinned ∧ authority pinned = false ∧ authority home = true ∧ RingReady home
      ∧ 8 ≤ (8 : Byte).toNat ∧ (7 : Fin 8).val = (7 : Byte).toNat
      ∧ importing.image.operation.importsInto 0 = true ∧ home.image.operation.importsInto 0 = false
      ∧ (home.profile 7).state = .empty ∧ (home.profile 0).state ≠ .empty
      ∧ (0 : Half).toNat = 0 ∧ (1 : Half).toNat ≠ 0
      ∧ ((home.putProfile 0 { viewer with remaining := 0 }).profile 0).remaining = 0
      ∧ (home.profile 0).allowance.isSome = true := by
  refine ⟨reset_ringReady, rfl, rfl, reset_ringReady, ?_⟩; decide +kernel
theorem test_hyp_ProfileSettingsAndCurfewsAreWritten (i : Instr) :
    Ready i home ∧ Ready i importing ∧ 8 ≤ (8 : Byte).toNat ∧ (0 : Fin 8).val = (0 : Byte).toNat
      ∧ importing.image.operation.importsInto 0 = true ∧ home.image.operation.importsInto 0 = false
      ∧ (3 ≤ (3 : Byte).toNat ∧ (2 : Byte).toNat < 3 ∧ 2 ≤ (2 : Byte).toNat ∧ (1 : Byte).toNat < 2)
      ∧ ({ viewer with remaining := 0 } : Profile).exhausted = true ∧ viewer.exhausted = false :=
  ⟨home_ready i, importing_ready i, by decide, rfl, by decide +kernel, by decide +kernel, by decide, rfl, rfl⟩
theorem test_hyp_ProfileSettingsAndCurfewsAreWritten_curfews (i : Instr) :
    Ready i home ∧ Ready i importing ∧ 8 ≤ (8 : Byte).toNat ∧ (7 : Fin 8).val = (7 : Byte).toNat
      ∧ importing.image.operation.importsInto 0 = true ∧ home.image.operation.importsInto 7 = false
      ∧ (3 ≤ (3 : Byte).toNat ∧ (2 : Fin 3).val = (2 : Byte).toNat)
      ∧ ((0x80 : Byte) &&& 0x7F = 0 ∧ (0x81 : Byte) &&& 0x7F ≠ 0)
      ∧ (1439 < (1440 : Half).toNat ∧ (1439 : Half).toNat ≤ 1439 ∧ (0 : Half).toNat ≠ (1439 : Half).toNat) :=
  ⟨home_ready i, importing_ready i, by decide, rfl, by decide +kernel, by decide +kernel, by decide, by decide,
    by decide⟩
theorem test_hyp_ProfileStatesChange (i : Instr) :
    Ready i home ∧ 8 ≤ (8 : Byte).toNat ∧ 3 ≤ (3 : Byte).toNat
      ∧ importing.image.operation.importsInto 0 = true ∧ home.image.operation.importsInto 0 = false
      ∧ (profileStateCode .empty = (0 : Byte).toNat ∧ profileStateCode .suspended = (2 : Byte).toNat)
      ∧ (home.profile 1).state = .empty ∧ (home.profile 0).state ≠ .empty
      ∧ (home.context .primary).profile = some 0 ∧ (home.context .remote).profile ≠ some 0
      ∧ ((home.putProfile 1 { Profile.default with allowance := some 0 }).profile 1).allowance = some 0
      ∧ ((home.putProfile 0 { viewer with state := .suspended }).profile 0).state = .suspended
      ∧ timed.time.profileDay.isSome = true := by
  refine ⟨home_ready i, ?_⟩; decide +kernel
theorem test_hyp_ImageOperationsBeginAndComplete :
    RingReady home ∧ 8 ≤ (8 : Byte).toNat ∧ (0 : Fin 8).val = (0 : Byte).toNat ∧ (7 : Fin 8).val = (7 : Byte).toNat
      ∧ importing.image.operation ≠ .idle ∧ home.image.operation = .idle
      ∧ (home.profile 7).state = .empty ∧ (home.profile 0).state ≠ .empty
      ∧ Ready (.importProfile 0) home ∧ Ready (.importProfile 8) home ∧ Ready (.importProfile 0) importing :=
  ⟨reset_ringReady, by decide, rfl, rfl, by decide +kernel, by decide +kernel, by decide +kernel,
    by decide +kernel, home_ready _, home_ready _, importing_ready _⟩

/-- The default record, ACTIVE: a record in its ranges. -/
theorem viewer_inRange : viewer.inRange := by
  refine ⟨fun a h => (by cases h; decide), by decide, fun a h => (by cases h; decide), by decide, by decide,
    by decide, fun i w h => ?_, by decide, by decide, by decide⟩
  have c : ∀ i : Fin 3, viewer.curfews[i] = none := by decide +kernel
  rw [c i] at h
  cases h
theorem test_hyp_ImageOperationsBeginAndComplete_completions :
    Quiet importing
      ∧ ({ home with image := { home.image with operation := .exporting 7 15 viewer } } : State).image.operation
        = .exporting 7 15 viewer
      ∧ importing.image.operation = .importing 0 1 (profileImage 0 viewer)
      ∧ readImage importing.inputs.salt (profileImage 0 viewer) = some viewer
      ∧ readImage importing.inputs.salt (List.replicate 64 0) = none
      ∧ ({ viewer with remaining := 0 } : Profile).exhausted = true
      ∧ (timed.time.profileDay = some 0 ∧ home.time.profileDay = none) ∧ home.image.operation = .idle := by
  refine ⟨reset_quiet, ?_⟩; decide +kernel
theorem test_hyp_ImageRoundTrip :
    viewer.inRange ∧ viewer.state ≠ .empty
      ∧ (∀ b, ({ viewer with budgetDay := some 65535 } : Profile).budgetDay = some b → b ≤ 65535)
      ∧ readImage 5 (profileImage 5 { viewer with budgetDay := some 65535 })
        = some { viewer with budgetDay := some 65535 } :=
  ⟨viewer_inRange, by decide, fun b h => by cases h; decide, by decide +kernel⟩
theorem test_hyp_OverridesArePushedPoppedAndCleared (i : Instr) :
    Ready i watching ∧ Ready i timed ∧ 3 ≤ (3 : Byte).toNat ∧ outputCode .remote = (2 : Byte).toNat
      ∧ (((0 : Byte).toNat, (1 : Byte).toNat) ∉ [(0, 0), (1, 2), (1, 1), (2, 2), (3, 3), (3, 2)]
        ∧ ((3 : Byte).toNat, (2 : Byte).toNat) ∈ [(0, 0), (1, 2), (1, 1), (2, 2), (3, 3), (3, 2)])
      ∧ (scopeAllowed .allowEvent .eventEnd = true ∧ scopeAllowed .curfewWaive .untilTime = true)
      ∧ (watching.boundKey .remote = none ∧ watching.boundKey .primary ≠ none)
      ∧ (watching.currentEvent .primary ≠ none ∧ watching.currentEvent .remote = none)
      ∧ (4 ≤ (List.replicate 4 blockEntry).length ∧ (List.replicate 3 blockEntry).length < 4)
      ∧ (86399 < (86400 : Word).toNat ∧ (86399 : Word).toNat ≤ 86399)
      ∧ (timed.time.source ≠ .unset ∧ 86400 ≤ timed.time.localSeconds ∧ timed.time.localSeconds < 86401)
      ∧ (timed.time.localSeconds + 86400 < 172801 ∧ ¬ timed.time.localSeconds + 86400 < 172800)
      ∧ (watching.context .remote).stack = []
      ∧ ((watching.putContext .remote ⟨none, none, .unsupervised, .none, 0, [blockEntry]⟩).context
          .remote).stack = blockEntry :: [] := by
  refine ⟨watching_ready i, timed_ready i, ?_⟩; decide +kernel
theorem test_hyp_TimeAndDayStartAreSet (i : Instr) :
    Ready i State.reset ∧ Ready i timed ∧ 86399 < (86400 : Word).toNat ∧ (86399 : Word).toNat ≤ 86399
      ∧ State.reset.time.source = .unset ∧ timed.time.source ≠ .unset
      ∧ (2 < apart 86400 86403 ∧ ¬ 2 < apart 86400 86402)
      ∧ (dayAfter { timed.time with dayStart := 0 } ≠ timed.time.profileDay
        ∧ dayAfter { timed.time with dayStart := 240 } = timed.time.profileDay) :=
  ⟨reset_ready i, timed_ready i, by decide, by decide, by decide, by decide, by decide, by decide⟩

/-- `watching` with the declared key of a playback held in slot 6. -/
def declared : Entry :=
  { channel with key := ⟨0xFFFF, 2, 3⟩, source := .declared, version := none, bindCount := 0 }

theorem test_hyp_PlaybackIsDeclaredAndSchemeMapsWritten :
    RingReady watching ∧ RatingLaw watching ∧ 4 ≤ (4 : Byte).toNat ∧ (3 : Byte).toNat < 4
      ∧ (RatingRecord.mk (.aged (min 21 (22 : Byte).toNat)) 0x80 3).genre.val = (3 : Byte).toNat
      ∧ (∀ m f, watching.entry m = some f → f.key ≠ ⟨0xFFFF, 2, 3⟩)
      ∧ ((watching.putEntry 6 (some declared)).entry 6 = some declared ∧ declared.key = ⟨0xFFFF, 2, 3⟩
        ∧ declared.lastId = some 7 ∧ (7 : Half) ≠ 8)
      ∧ (∃ f h, (watching.putEntry 6 (some declared)).entry 6 = some f ∧ f.lastId = some 7
        ∧ f.present = .current h) ∧ 0 < channel.bindCount := by
  refine ⟨reset_ringReady, watching_ratings, by decide, by decide, by decide, ?_, ⟨rfl, rfl, rfl, by decide⟩,
    ⟨_, _, rfl, rfl, rfl⟩, by decide⟩
  intro m f h k
  have en : ∀ n, n ≠ 5 → watching.entry n = none := by decide +kernel
  by_cases c : m = 5
  · subst c; cases h; revert k; decide
  · rw [en m c] at h; cases h
theorem test_hyp_PlaybackIsDeclaredAndSchemeMapsWritten_schemes :
    RingReady pinned ∧ authority pinned = false ∧ RingReady State.reset ∧ authority State.reset = true
      ∧ (0 : Byte).toNat = 0 ∧ 8 < (9 : Byte).toNat ∧ (7 : Fin 8).val + 1 = (8 : Byte).toNat
      ∧ (0 : Fin 8) ≠ 7 ∧ channel.source = .broadcast :=
  ⟨reset_ringReady, rfl, reset_ringReady, rfl, by decide, by decide, rfl, by decide, rfl⟩
theorem test_hyp_StagedActionsAreChecked :
    (2 ≤ (2 : Byte).toNat ∧ 8 ≤ (8 : Byte).toNat ∧ (7 : Fin 8).val = (7 : Byte).toNat)
      ∧ (importing.image.operation.importsInto 0 = true ∧ home.image.operation.importsInto 0 = false
        ∧ (home.profile 7).state = .empty ∧ (home.profile 0).state ≠ .empty)
      ∧ ((0 : Half).toNat = 0 ∧ (1 : Half).toNat ≠ 0)
      ∧ (3 ≤ (3 : Byte).toNat ∧ outputCode .remote = (2 : Byte).toNat
        ∧ ((3 : Byte).toNat, (2 : Byte).toNat) ∈ [(0, 0), (1, 2), (1, 1), (2, 2), (3, 3), (3, 2)]
        ∧ scopeAllowed .forceBlock .untilTime = true)
      ∧ (watching.boundKey .remote = none ∧ watching.boundKey .primary ≠ none
        ∧ watching.currentEvent .primary ≠ none)
      ∧ (4 ≤ (List.replicate 4 blockEntry).length ∧ (List.replicate 3 blockEntry).length < 4)
      ∧ (86399 < (86400 : Word).toNat ∧ (86399 : Word).toNat ≤ 86399)
      ∧ (timed.time.source ≠ .unset ∧ (1 : Half).toNat * 86400 + (0 : Word).toNat ≤ timed.time.localSeconds
        ∧ timed.time.localSeconds < (1 : Half).toNat * 86400 + (1 : Word).toNat) := by
  decide +kernel
theorem test_hyp_PinEntriesAreOpened :
    RingReady pinned ∧ pinned.panel.queue.length < 4
      ∧ (pinned.pin.matcher = .idle ∧ authority pinned = false ∧ authority State.reset = true)
      ∧ (∃ e, checkStaged 0 8 0 30 0 0 0 0 pinned = .error e)
      ∧ (∃ n m clamped, checkStaged 0 0 0 721 0 0 0 0 home = .ok (.grant n m clamped))
      ∧ (∃ q, checkStaged 2 0 1 0 3 3 0 0 home = .ok (.push q))
      ∧ ((collecting .session [] none 0x0D).pin.matcher = .collecting
        ∧ RingReady (collecting .session [] none 0x0D))
      ∧ ({ pinned with pin := { pinned.pin with matcher := .lockout } } : State).pin.matcher = .lockout
      ∧ ({ pinned with panel := { pinned.panel with queue := [.releaseKeys, .releaseKeys, .releaseKeys] } }
          : State).panel.queue.length < 4 :=
  ⟨reset_ringReady, by decide, ⟨rfl, rfl, rfl⟩, ⟨_, rfl⟩, ⟨_, _, _, rfl⟩, ⟨_, rfl⟩, ⟨rfl, reset_ringReady⟩, rfl,
    by decide⟩

/-- The machine after reset with a PIN and an open parent session. -/
def inSession : State :=
  { pinned with pin := { pinned.pin with sessionOpen := true, sessionRemaining := 300 } }

theorem test_hyp_SessionsAreClosedAndMeasured :
    RingReady inSession ∧ inSession.pin.sessionOpen = true ∧ RingReady State.reset
      ∧ State.reset.pin.sessionOpen = false ∧ Ready (.setSessionLength 59) State.reset
      ∧ Ready (.setSessionLength 1801) State.reset
      ∧ ((59 : Half).toNat < 60 ∧ ¬ (60 : Half).toNat < 60 ∧ 1800 < (1801 : Half).toNat
        ∧ ¬ 1800 < (1800 : Half).toNat) :=
  ⟨reset_ringReady, rfl, reset_ringReady, rfl, reset_ready _, reset_ready _, by decide⟩
theorem test_hyp_FactoryClearTakesTheColdValues :
    RingReady inSession ∧ authority inSession = true ∧ inSession.pin.sessionOpen = true
      ∧ inSession.pin.matcher = .idle ∧ RingReady importing ∧ authority importing = true
      ∧ (let s := { collecting .pinChange [] none 0x0D with
            pin := { (collecting .pinChange [] none 0x0D).pin with sessionOpen := true } }
         RingReady s ∧ authority s = true ∧ s.pin.matcher = .collecting)
      ∧ (let s := { State.reset with pin := { State.reset.pin with matcher := .releasing } }
         RingReady s ∧ authority s = true ∧ s.pin.matcher = .releasing)
      ∧ (let s := { State.reset with intake := { State.reset.intake with
            queue := List.replicate 6 waitingRecord, flow := .halted } }
         RingReady s ∧ authority s = true ∧ 6 ≤ s.intake.queue.length) :=
  ⟨reset_ringReady, rfl, rfl, rfl, reset_ringReady, rfl, ⟨reset_ringReady, rfl, rfl⟩, ⟨reset_ringReady, rfl, rfl⟩,
    reset_ringReady, rfl, by decide⟩
theorem test_hyp_ReportCommandsWriteTheirRegisters :
    RingReady State.reset ∧ 9 < (10 : Byte).toNat ∧ 7 < (8 : Byte).toNat ∧ 2 < (3 : Byte).toNat
      ∧ 63 < (64 : Byte).toNat ∧ 8 < (9 : Byte).toNat ∧ (9 : Byte).toNat ≤ 9
      ∧ (1 : Word) &&& 0xFFF80001 ≠ 0 ∧ (0x80000 : Word) &&& 0xFFF80001 ≠ 0
      ∧ (0x7FFFE : Word) &&& 0xFFF80001 = 0 := by
  refine ⟨reset_ringReady, ?_⟩; decide
/-- The machine after reset with notices queued. -/
def noting (queue : List Notice) (masks : Word) : State :=
  { State.reset with report := { State.reset.report with queue := queue, masks := masks } }

theorem test_hyp_NoticesAreRaised :
    ({ State.reset with systemReset := true } : State).systemReset = true ∧ Running (noting [] 0)
      ∧ ((noting [] 0x40000).report.masks.getLsbD (noticeKindCode .panelNoise) = true
        ∧ (noting [] 0).report.masks.getLsbD (noticeKindCode .panelNoise) = false)
      ∧ (let n : Notice := ⟨.panelNoise, 7, [], 0, 255⟩
         let other : Notice := ⟨.panelNoise, 8, [], 0, 1⟩
         (noting [other, n, other] 0).report.queue = [other] ++ n :: [other] ∧ n.subject = BitVec.ofNat 32 7
           ∧ (∀ m ∈ [other] ++ [other], ¬ (m.kind = .panelNoise ∧ m.subject = BitVec.ofNat 32 7))
           ∧ (noting (List.replicate 31 other) 0).report.queue.length < 32
           ∧ 32 ≤ (noting (List.replicate 32 other) 0).report.queue.length
           ∧ ∀ m ∈ (noting (List.replicate 32 other) 0).report.queue,
               ¬ (m.kind = .panelNoise ∧ m.subject = BitVec.ofNat 32 7))
      ∧ State.reset.panel.listener ≠ .fault := by
  refine ⟨rfl, rfl, ?_⟩; decide +kernel

/-! ### Hypotheses of the statements about parses, seconds and the sample -/

/-- The machine after reset parsing one record. -/
def parsing (s : State) (code : Byte) (body : List Byte) : State :=
  { s with intake := { s.intake with queue := [⟨3, 0x1000, code, body, body.length + 6⟩], parsing := true } }

/-- The body of a section for the key 1, 2, 3 with no event. -/
def emptySection (network version : Byte) : List Byte := [network, network, 2, 0, 3, 0, version, 0]

theorem test_hyp_SectionBodiesAreRead :
    SectionLegal 31 0xFF (some ⟨7, 0xFFFF, 86399, 0, [⟨0x51, [0, 0]⟩, ⟨0x53, [3]⟩]⟩) (some ⟨8, 0, 0, 1, []⟩)
      ∧ SectionLegal 0 0xFC none none
      ∧ (readService State.reset.rating.schemes
          (sectionBody ⟨1, 2, 3⟩ 31 0xFF (some ⟨7, 0xFFFF, 86399, 0, [⟨0x51, [0, 0]⟩, ⟨0x53, [3]⟩]⟩) none)).isSome
        = false
      ∧ (readService State.reset.rating.schemes
          (sectionBody ⟨1, 2, 3⟩ 31 0xFD (some ⟨7, 0xFFFF, 86399, 0, [⟨0x51, [0, 0]⟩, ⟨0x53, [3]⟩]⟩) none)).isSome
        = true
      ∧ readTime (bytes16 0xFFFF ++ bytes32 86399) = some (65535, 86399)
      ∧ readTime (bytes16 0xFFFF ++ bytes32 86400) = none
      ∧ readOffset (bytes32 841) = some 840 ∧ readOffset (bytes32 (BitVec.ofInt 32 (-781))) = some (-780) := by
  have empty : SectionLegal 0 0xFC none none :=
    ⟨by decide, by decide, by decide, fun e h => (by cases h), fun e h => (by cases h)⟩
  refine ⟨⟨by decide, by decide, by decide, fun e h => ?_, fun e h => ?_⟩, empty, by decide +kernel⟩
  · cases h
    refine ⟨by decide, by decide, fun d h => ?_⟩
    simp only [List.mem_cons, List.not_mem_nil, or_false] at h
    rcases h with h | h <;> subst h <;> unfold Descriptor.legal <;> decide
  · cases h
    exact ⟨by decide, by decide, fun d h => absurd h List.not_mem_nil⟩
theorem test_hyp_ParseAppliesTheOldestRecord :
    (Running State.reset ∧ State.reset.intake.parsing = false)
      ∧ ((parsing timed 0xC3 [60, 0, 0, 0]).intake.queue = ⟨3, 0x1000, 0xC3, [60, 0, 0, 0], 10⟩ :: []
        ∧ (parsing timed 0xC3 [60, 0, 0, 0]).intake.parsing = true ∧ Running (parsing timed 0xC3 [60, 0, 0, 0]))
      ∧ (readOffset [60, 0, 0, 0] = some 60 ∧ readOffset [60, 0, 0] = none ∧ timed.time.offset ≠ 60
        ∧ timed.time.offset = 0)
      ∧ (readTime [1, 0, 0, 0, 0, 0] = some (1, 0) ∧ readTime [1, 0, 0x80, 0x51, 1, 0] = none)
      ∧ (apart timed.time.wallCount (86400 + 2) ≤ 2 ∧ 2 < apart timed.time.wallCount (86400 + 3))
      ∧ (timed.time.source ≠ .broadcast)
      ∧ (readService State.reset.rating.schemes (emptySection 1 31)
          = some ⟨⟨0x101, 2, 3⟩, 31, none, none⟩
        ∧ readService State.reset.rating.schemes (emptySection 1 32) = none)
      ∧ (readService State.reset.rating.schemes (emptySection 0xFF 0)).map (·.key.network) = some 0xFFFF
      ∧ (0xC4 : Byte) ≠ 0xC1 := by
  refine ⟨⟨rfl, rfl⟩, ⟨rfl, rfl, rfl⟩, ?_⟩; decide +kernel
theorem test_hyp_ParseAppliesTheOldestRecord_entries :
    RatingLaw (parsing watching 0xC1 [1, 0, 2, 0, 3, 0, 4, 0])
      ∧ (readService State.reset.rating.schemes [1, 0, 2, 0, 3, 0, 4, 0]).map (fun d => (d.key, some d.version))
        = some (channel.key, channel.version)
      ∧ (readService State.reset.rating.schemes [1, 0, 2, 0, 3, 0, 5, 0]).map (fun d => some d.version)
        ≠ some channel.version
      ∧ (parsing watching 0xC1 [1, 0, 2, 0, 3, 0, 4, 0]).entry 5 = some channel
      ∧ ({ parsing watching 0xC4 [0, 0, 0, 0] with intake := { (parsing watching 0xC4 [0, 0, 0, 0]).intake with
            flow := .halted } } : State).intake.flow = .halted :=
  ⟨watching_ratings, by decide +kernel, by decide +kernel, rfl, rfl⟩
theorem test_hyp_ParseAppliesTheOldestRecord_changes :
    (channel.version ≠ some 5 ∧ channel.lastId = some 7 ∧ (7 : Half) ≠ 9 ∧ 0 < channel.bindCount
        ∧ (watching.context .primary).service = some 5)
      ∧ ((readService State.reset.rating.schemes
          (sectionBody ⟨1, 2, 3⟩ 5 1 (some ⟨9, 0, 0, 60, []⟩) none)).bind (·.present)).map (·.id) = some 9
      ∧ (readService State.reset.rating.schemes (sectionBody ⟨1, 2, 3⟩ 5 0 none none)).map (·.present) = some none
      ∧ channel.present.currentEvent.isSome = true
      ∧ (State.reset.time.source = .unset ∧ timed.time.source ≠ .unset) := by
  decide +kernel
theorem test_hyp_SecondEventAdvancesTime :
    finishSecond timed = timed ∧ Running timed ∧ timed.time.source ≠ .unset
      ∧ finishSecond State.reset = State.reset ∧ State.reset.time.source = .unset
      ∧ (86398 < 86399 ∧ ¬ 86399 < 86399 ∧ ¬ 65535 < 65535)
      ∧ (compareDay (tick { timed with time := { timed.time with profileDay := none } })).time.profileDay
        ≠ ({ timed.time with profileDay := none } : TimeBase).profileDay
      ∧ (compareDay (tick timed)).time.profileDay = timed.time.profileDay :=
  ⟨rfl, rfl, by decide, rfl, rfl, by decide, by decide +kernel, by decide +kernel⟩

/-- `watching` with the activity flag of PRIMARY set. -/
def active : State :=
  { watching with lanes := { watching.lanes with activity := { watching.lanes.activity with primary := true } } }

theorem test_hyp_AccountsAreChargedAndSettled :
    [Output.primary] = allOutputs.filter (fun o =>
        decide ((active.context o).profile = some 0)
          && decide ((active.context o).verdict = .opened ∨ (active.context o).verdict = .warning)
          && active.lanes.activity.get o)
      ∧ (active.profile 0).state = .active
      ∧ (∃ o ∈ [Output.primary], contentRate (active.profile 0) (active.currentEvent o) = 4)
      ∧ (∀ o ∈ [Output.primary], contentRate (active.profile 0) (active.currentEvent o) ≤ 4)
      ∧ (home.profile 7).state ≠ .active
      ∧ ((active.putProfile 0 { viewer with remaining := 4 }).profile 0).remaining ≤ 4
      ∧ (active.profile 0).allowance.isSome = true ∧ Running active :=
  ⟨by decide +kernel, by decide +kernel, ⟨.primary, by decide, by decide +kernel⟩, by decide +kernel,
    by decide +kernel, by decide +kernel, by decide +kernel, rfl⟩
theorem test_hyp_AccountsAreChargedAndSettled_settlements :
    (let s := home.putProfile 0 { viewer with budgetDay := some 4 }
     (s.profile 0).state = .active ∧ (∃ b, (s.profile 0).budgetDay = some b ∧ b < 5) ∧ Running s)
      ∧ ∀ m, (home.profile m).state = .active → ∀ b, (home.profile m).budgetDay = some b → 5 ≤ b := by
  refine ⟨⟨by decide +kernel, ⟨4, by decide +kernel⟩, rfl⟩, fun m _ b h => ?_⟩
  have e : ∀ m, (home.profile m).budgetDay = none := by decide +kernel
  rw [e m] at h
  cases h

/-- `watching` with time set and every promotion test due against a wall count. -/
def promoting (wall : Nat) (e : Entry) : State :=
  { watching.putEntry 5 (some e) with
    time := timed.time
    rating := { (watching.putEntry 5 (some e)).rating with promotionDue := [5, 6], promotionWall := wall } }

theorem test_hyp_PromotionMovesEvents :
    Running (promoting 60 channel) ∧ (60 : Nat) = (promoting 60 channel).rating.promotionWall
      ∧ (7 : Fin 64) ∉ (promoting 60 channel).rating.promotionDue
      ∧ (5 : Fin 64) ∈ (promoting 60 channel).rating.promotionDue
      ∧ (promoting 60 channel).time.source ≠ .unset ∧ State.reset.time.source = .unset
      ∧ ((promoting 60 channel).entry 5 = some channel ∧ channel.source = .broadcast
        ∧ declared.source = .declared)
      ∧ (channel.following.map (fun f => decide (f.start ≤ 60)) = some true
        ∧ channel.present.currentEvent.map (fun p => p.over 60) = some true
        ∧ channel.present.currentEvent.map (fun p => p.over 59) = some false
        ∧ channel.lastId = some 7 ∧ channel.following.map (·.id) ≠ some 7)
      ∧ (∀ p, ({ channel with present := .none } : Entry).present ≠ .current p)
      ∧ ({ channel with following := none } : Entry).following = none := by
  refine ⟨rfl, rfl, by decide +kernel, by decide +kernel, by decide, by decide +kernel, ⟨rfl, rfl, rfl⟩,
    by decide +kernel, fun p h => (by cases h), rfl⟩

/-- An entry that runs to the end of local day 0. -/
def timedEntry : Override := { blockEntry with scope := .untilTime, endTime := some 86400 }

theorem test_hyp_TimersRunOut :
    (let s := timed.putContext .remote ⟨none, none, .unsupervised, .none, 0, [timedEntry]⟩
     Running s ∧ s.time.source ≠ .unset
       ∧ (∃ e ∈ (s.context .remote).stack, e.reached s.time.localSeconds = true)
       ∧ timedEntry.reached 86399 = false)
      ∧ (let s := watching.putContext .primary ⟨some 0, some 5, .pending, .pending, 0, []⟩
         (s.context .primary).profile = some 0 ∧ (s.context .primary).verdict = .pending
           ∧ ((s.putProfile 0 { viewer with pendingLimit := 0 }).profile 0).pendingLimit
             ≤ s.time.run - (s.context .primary).pendingSince
           ∧ s.time.run - (s.context .primary).pendingSince < (s.profile 0).pendingLimit)
      ∧ (inSession.pin.sessionOpen = true
        ∧ ({ inSession with pin := { inSession.pin with sessionRemaining := 0 } } : State).pin.sessionRemaining = 0
        ∧ 0 < inSession.pin.sessionRemaining)
      ∧ (({ pinned with pin := { pinned.pin with matcher := .lockout, timer := 0 } } : State).pin.timer = 0
        ∧ ({ pinned with pin := { pinned.pin with matcher := .lockout, timer := 1 } } : State).pin.matcher
          = .lockout)
      ∧ (let s := { collecting .session [] none 0x0D with
            time := { (collecting .session [] none 0x0D).time with run := 90 } }
         s.panel.queue.length < 4 ∧ s.pin.matcher = .collecting ∧ 90 ≤ s.time.run - s.pin.entry.takeStamp
           ∧ 15 ≤ s.time.run - s.pin.entry.lastKeyStamp)
      ∧ (let s := { collecting .session [] none 0x0D with
            time := { (collecting .session [] none 0x0D).time with run := 14 } }
         s.time.run - s.pin.entry.takeStamp < 90 ∧ s.time.run - s.pin.entry.lastKeyStamp < 15) := by
  refine ⟨⟨rfl, by decide, ⟨timedEntry, by decide +kernel⟩, by decide +kernel⟩, ?_⟩
  decide +kernel

/-! ### Hypotheses of the statements about the panel link and the PIN authority -/

theorem test_hyp_FramesAreReceivedAsSent :
    ({ WireFrame.clean 0x31 false with start := .clean true }).start.value = true
      ∧ (WireFrame.clean 0x31 false).start.value = false := by decide

/-- The machine after reset with the receiver in a listener state and an answer awaited, or none. -/
def listening (l : ListenerState) (a : Option Answer) : State :=
  { State.reset with panel := { State.reset.panel with listener := l, awaited := a } }

theorem listening_quiet (l : ListenerState) (a : Option Answer) : Quiet (listening l a) := reset_quiet
theorem test_hyp_FramesAreTakenByTheListener :
    Quiet (listening .attendingOwn none)
      ∧ ((WireFrame.clean 0x5A true).received = some ⟨0x5A, true, ⟨false, false, false⟩⟩
        ∧ (WireFrame.clean 0 true).received = some ⟨0, true, ⟨false, false, false⟩⟩
        ∧ (listening .attendingOwn none).panel.listener ≠ .fault)
      ∧ ((WireFrame.clean 0x7F false).received = some ⟨0x7F, false, ⟨false, false, false⟩⟩
        ∧ (0x7F : Byte).toNat < 0x80 ∧ (0x7F : Byte) ≠ 0x4C)
      ∧ (({ WireFrame.clean 0x4C false with stop := .clean false }).received
          = some ⟨0x4C, false, ⟨false, true, false⟩⟩ ∧ (FrameFlags.mk false true false).any = true)
      ∧ ((WireFrame.clean 0xF1 false).received = some ⟨0xF1, false, ⟨false, false, false⟩⟩
        ∧ (WireFrame.clean 0xF2 false).received = some ⟨0xF2, false, ⟨false, false, false⟩⟩)
      ∧ ((WireFrame.clean 0x80 false).received = some ⟨0x80, false, ⟨false, false, false⟩⟩
        ∧ 0x80 ≤ (0x80 : Byte).toNat)
      ∧ ((listening .asleep none).panel.listener = .asleep ∧ (listening .fault none).panel.listener = .fault
        ∧ (listening .attendingAll none).panel.listener = .attendingAll)
      ∧ ((collecting .session [] none 0x31).pin.matcher = .collecting
        ∧ Quiet (collecting .session [] none 0x31)
        ∧ (List.replicate 15 (0 : Nat)).length < 16 ∧ 15 ≤ (List.replicate 15 (0 : Nat)).length) :=
  ⟨reset_quiet, by decide, by decide, by decide, by decide, by decide, by decide, rfl, reset_quiet, by decide,
    by decide⟩
theorem test_hyp_FramesAreTakenByTheListener_all :
    Quiet (listening .attendingAll none) ∧ (listening .attendingAll none).panel.listener = .attendingAll
      ∧ ({ WireFrame.clean 0x4C false with stop := .clean false }).received
        = some ⟨0x4C, false, ⟨false, true, false⟩⟩
      ∧ (FrameFlags.mk false true false).any = true := ⟨reset_quiet, rfl, by decide⟩

/-- The machine after reset with a message awaiting its acknowledgement and an answer awaiting its echo. -/
def awaiting (m : Message) (a : Answer) (matcher : Matcher) : State :=
  { pinned with
    panel := { pinned.panel with
      listener := .attendingOwn, awaited := some a, transmitter := .awaiting, outstanding := some m }
    pin := { pinned.pin with matcher := matcher } }

theorem test_hyp_MessagesEndByAnswerOrTimeout (m : Message) (a : Answer) (matcher : Matcher)
    (h : m = .routeKeys 90 ∨ m = .releaseKeys ∨ m = .lamp .on) :
    Quiet (awaiting m a matcher) ∧ (awaiting m a matcher).panel.transmitter = .awaiting
      ∧ (awaiting m a matcher).panel.outstanding = some m ∧ (awaiting m a matcher).panel.awaited = some a
      ∧ (awaiting m a matcher).panel.listener = .attendingOwn ∧ (awaiting m a matcher).pin.matcher = matcher
      ∧ (WireFrame.clean (messageCommand m) false).received
        = some ⟨messageCommand m, false, ⟨false, false, false⟩⟩ := by
  refine ⟨reset_quiet, rfl, rfl, rfl, rfl, rfl, ?_⟩
  rcases h with h | h | h <;> subst h <;> decide
theorem test_hyp_MessagesEndByAnswerOrTimeout_others :
    Quiet (listening .attendingOwn (some .refusal)) ∧ Quiet (awaiting .releaseKeys .refusal .releasing)
      ∧ (listening .attendingOwn (some .refusal)).panel.transmitter ≠ .awaiting
      ∧ (WireFrame.clean 0x31 false).received = some ⟨0x31, false, ⟨false, false, false⟩⟩
      ∧ (∀ m, (awaiting .releaseKeys .refusal .releasing).panel.outstanding = some m →
          (0x31 : Byte) ≠ messageCommand m)
      ∧ ({ WireFrame.clean 0x32 false with stop := .clean false }).received
        = some ⟨0x32, false, ⟨false, true, false⟩⟩ :=
  ⟨reset_quiet, reset_quiet, by decide, by decide, fun m h => by cases h; decide, by decide⟩
theorem test_hyp_LocksAndBreaks :
    (WireFrame.clean 0x4C false).received = some ⟨0x4C, false, ⟨false, false, false⟩⟩
      ∧ Quiet (listening .attendingOwn none) ∧ Quiet (listening .attendingAll none)
      ∧ ((listening .attendingOwn none).panel.listener = .attendingOwn
        ∧ (listening .attendingOwn none).panel.awaited = none)
      ∧ (Running (listening .fault none) ∧ (listening .fault none).panel.listener = .fault)
      ∧ (listening .asleep none).panel.listener ≠ .fault
      ∧ ((collecting .session [] none 0x31).pin.matcher = .collecting
        ∧ (collecting .session [] none 0x31).panel.listener = .attendingOwn)
      ∧ inSession.pin.sessionOpen = true :=
  ⟨by decide, reset_quiet, reset_quiet, ⟨rfl, rfl⟩, ⟨rfl, rfl⟩, by decide, ⟨rfl, rfl⟩, rfl⟩
theorem test_hyp_MessagesAreSent :
    (let s : State := { State.reset with panel := { State.reset.panel with queue := [.lamp .on] } }
     Running s ∧ s.panel.transmitter = .idle ∧ s.panel.queue = .lamp .on :: [])
      ∧ State.reset.panel.queue = [] ∧ (awaiting .releaseKeys .refusal .releasing).panel.transmitter ≠ .idle
      ∧ (let s : State := { State.reset with panel := { State.reset.panel with
            transmitter := .sending, outstanding := some (.lamp .flashing), shifting := some ⟨1, true⟩ } }
         s.panel.transmitter = .sending ∧ s.panel.outstanding = some (.lamp .flashing)
           ∧ s.panel.shifting = some ⟨1, true⟩)
      ∧ State.reset.panel.transmitter ≠ .sending :=
  ⟨⟨rfl, rfl, rfl⟩, rfl, by decide, ⟨rfl, rfl, rfl⟩, by decide⟩
theorem test_hyp_KeysAreTaken (purpose : Purpose) (buffer : List Digit) (first : Option (List Digit))
    (code : Byte) :
    Running (collecting purpose buffer first code)
      ∧ (collecting purpose buffer first code).pin.matcher = .collecting
      ∧ (collecting purpose buffer first code).panel.fifo = ⟨code, ⟨false, false, false⟩, false⟩ :: []
      ∧ (collecting purpose buffer first code).panel.queue.length < 3
      ∧ (collecting purpose buffer first code).pin.entry.buffer = buffer
      ∧ (collecting purpose buffer first code).pin.entry.purpose = purpose
      ∧ (collecting purpose buffer first code).pin.entry.firstCollection = first
      ∧ (collecting purpose buffer first code).pin.stored = some [1, 2, 3, 4]
      ∧ (collecting purpose buffer first code).pin.failures + 1 < 3 :=
  ⟨rfl, rfl, rfl, (by decide : 0 < 3), rfl, rfl, rfl, rfl, (by decide : 0 + 1 < 3)⟩
theorem test_hyp_KeysAreTaken_clauses :
    (⟨0x31, ⟨true, false, false⟩, false⟩ : Key).flagged = true
      ∧ (⟨0x31, ⟨false, false, false⟩, true⟩ : Key).flagged = true
      ∧ (⟨0x39, ⟨false, false, false⟩, false⟩ : Key).flagged = false
      ∧ ((0x30 : Byte).toNat = 0x30 + (0 : Digit).val ∧ (0x39 : Byte).toNat = 0x30 + (9 : Digit).val)
      ∧ ((0x2F : Byte).toNat < 0x30 ∧ 0x39 < (0x3A : Byte).toNat)
      ∧ (some [1, 2, 3, 4] ≠ some ([1, 2, 3] : List Digit) ∧ 3 ≤ 2 + 1)
      ∧ (([1, 2, 3] : List Digit).length < 4 ∧ 4 ≤ ([1, 2, 3, 4] : List Digit).length)
      ∧ (authority (collecting .pinChange [5, 5, 5, 5] (some [5, 5, 5, 5]) 0x0D) = false
        ∧ authority inSession = true)
      ∧ (let s := { home with pin := (collecting .grant [1, 2, 3, 4] none 0x0D).pin }
         s.image.operation.importsInto 0 = false ∧ (s.profile 0).state ≠ .empty ∧ (720 : Nat) ≤ 720) := by
  decide +kernel
/-- `home` with a GRANT entry collecting, a staged action and the stored PIN typed in. -/
def granting (s : State) (a : Staged) : State :=
  { s with
    pin := { (collecting .grant [1, 2, 3, 4] none 0x0D).pin with
      entry := { (collecting .grant [1, 2, 3, 4] none 0x0D).pin.entry with staged := some a } }
    panel := (collecting .grant [1, 2, 3, 4] none 0x0D).panel }

/-- A staged push of a block until a local time. -/
def stagedBlock (at_ : Nat) : StagedPush := ⟨.remote, .forceBlock, .untilTime, some at_, none, none, false⟩

theorem test_hyp_KeysAreTaken_staged :
    (Running (granting importing (.grant 0 30 false))
        ∧ (granting importing (.grant 0 30 false)).image.operation.importsInto 0 = true
        ∧ (granting home (.grant 7 30 false)).image.operation.importsInto 7 = false
        ∧ ((granting home (.grant 7 30 false)).profile 7).state = .empty)
      ∧ (let q : StagedPush := ⟨.remote, .allowService, .unbind, none, some ⟨1, 2, 3⟩, none, false⟩
         (granting home (.push q)).pin.entry.staged = some (.push q) ∧ SubjectMoved q (granting home (.push q)))
      ∧ ¬ SubjectMoved (stagedBlock 86400) (granting timed (.push (stagedBlock 86400)))
      ∧ (4 ≤ (List.replicate 4 blockEntry).length
        ∧ ((granting timed (.push (stagedBlock 86400))).context .remote).stack.length < 4)
      ∧ (timed.time.source ≠ .unset ∧ 86400 ≤ timed.time.localSeconds ∧ ¬ 86401 ≤ timed.time.localSeconds)
      ∧ (timed.time.localSeconds + 86400 < 172801 ∧ ¬ timed.time.localSeconds + 86400 < 172800) := by
  unfold SubjectMoved
  refine ⟨⟨rfl, ?_⟩, ?_⟩ <;> decide +kernel

/-! ### Hypotheses of the statements about evaluations -/

theorem test_hyp_EvaluationsFollowTheTests :
    (home.context .remote).profile = none ∧ (home.context .primary).profile = some 0
      ∧ ((home.putProfile 0 { viewer with state := .suspended }).profile 0).state = .suspended
      ∧ ((home.putProfile 0 { viewer with ceiling := .closed }).profile 0).ceiling = .closed
      ∧ ((home.profile 0).state ≠ .suspended ∧ (home.profile 0).ceiling ≠ .closed)
      ∧ LiveKind (home.putContext .primary ⟨some 0, none, .blocked, .manual, 0, [blockEntry]⟩) .primary
          .forceBlock
      ∧ ¬ LiveKind home .primary .forceBlock
      ∧ ((home.profile 0).ceiling = .age 18 ∧ (home.context .primary).service = none
        ∧ (watching.context .primary).service ≠ none)
      ∧ contentDecision viewer 11 0 (watching.currentEvent .primary) = some (.blocked, .rating)
      ∧ contentDecision viewer 12 0 (watching.currentEvent .primary) = none
      ∧ (viewer.allowance ≠ none ∧ viewer.rates[(1 : Fin 4)] = 4 ∧ 0 < viewer.remaining
        ∧ viewer.lead * 4 ≤ viewer.remaining ∧ ¬ viewer.lead * 4 ≤ 1199) := by
  refine ⟨by decide +kernel, by decide +kernel, by decide +kernel, by decide +kernel, by decide +kernel,
    ⟨blockEntry, by decide +kernel⟩, fun h => ?_, by decide +kernel, by decide +kernel, by decide +kernel,
    by decide +kernel⟩
  obtain ⟨x, hx, _⟩ := h
  exact absurd hx (by simp [show (home.context .primary).stack = [] from rfl])

/-- `viewer` with a curfew from 21:00 to 06:00 on every day. -/
def nightly : Profile := { viewer with curfews := #v[some ⟨0x7F, 1260, 360⟩, none, none] }

theorem test_hyp_EvaluationsFollowTheTests_curfew :
    CurfewApplies ((home.putProfile 0 nightly)) .primary nightly
      ∧ InCurfew { timed with time := { timed.time with second := 75600 } } nightly
      ∧ ¬ InCurfew { timed with time := { timed.time with second := 75599 } } nightly
      ∧ nextCurfewStart nightly 1 75301 = some 299 ∧ nextCurfewStart nightly 1 75300 = some 300
      ∧ nightly.lead = 300 := by
  refine ⟨⟨⟨⟨0x7F, 1260, 360⟩, by decide⟩, fun h => ?_⟩, ⟨⟨0x7F, 1260, 360⟩, by decide, by decide +kernel⟩,
    fun h => ?_, by decide +kernel, by decide +kernel, rfl⟩
  · obtain ⟨x, hx, _⟩ := h
    have none : ((home.putProfile 0 nightly).context .primary).stack = [] := rfl
    rw [none] at hx
    exact absurd hx List.not_mem_nil
  · obtain ⟨w, hw, hc⟩ := h
    have : w = ⟨0x7F, 1260, 360⟩ := by simpa [nightly] using hw
    subst this
    revert hc
    decide +kernel
theorem test_hyp_VerdictChangesAreTold :
    (Running home ∧ judge home .primary = (.blocked, .noService)
        ∧ ((home.context .primary).verdict, (home.context .primary).reason) = (.blocked, .noService))
      ∧ (let s := watching.putContext .primary ⟨some 0, some 5, .blocked, .rating, 0, []⟩
         judge s .primary = (.opened, .none) ∧ (s.context .primary).verdict ≠ .opened
           ∧ s.pin.sessionOpen = false ∧ s.panel.queue.length < 4 ∧ s.panel.lampRecord = some .off
           ∧ ({ s.panel with lampRecord := some .on } : PanelLink).lampRecord ≠ some .off)
      ∧ (let s := watching.putProfile 0 { viewer with remaining := 1199 }
         judge s .primary = (.warning, .budgetNear) ∧ (s.context .primary).profile = some 0
           ∧ (s.context .primary).verdict ≠ .warning)
      ∧ (let s := watching.putContext .primary ⟨some 0, some 5, .blocked, .manual, 0, [blockEntry]⟩
         (s.context .primary).verdict = (judge s .primary).1
           ∧ (judge (s.putContext .primary ⟨some 0, some 5, .blocked, .curfew, 0, [blockEntry]⟩) .primary)
             = (.blocked, .manual))
      ∧ ([Message.releaseKeys, .lamp .on, .routeKeys 90] = [.releaseKeys] ++ .lamp .on :: [.routeKeys 90]
        ∧ ([Message.releaseKeys] ++ [Message.routeKeys 90]).any Message.isLamp = false)
      ∧ (let s := watching.putContext .primary ⟨some 0, some 5, .pending, .pending, 0, []⟩
         (s.context .primary).verdict = .pending
           ∧ ((s.putProfile 0 { viewer with pendingLimit := 0 }).profile 0).pendingLimit
             ≤ s.time.run - (s.context .primary).pendingSince) := by
  refine ⟨⟨rfl, ?_⟩, ?_⟩ <;> decide +kernel
theorem test_hyp_LocalTimeAndCurfews :
    timed.time.dayStart * 60 ≤ timed.time.localSeconds
      ∧ ({ timed.time with day := 0, second := 14399 } : TimeBase).localSeconds
        < ({ timed.time with day := 0, second := 14399 } : TimeBase).dayStart * 60
      ∧ (6 : Nat) < 7 ∧ (86399 : Nat) < 86400 ∧ some ⟨0x7F, 1260, 360⟩ ∈ nightly.curfews.toList
      ∧ ((⟨0x7F, 1439, 0⟩ : Curfew).days.getLsbD 0 = true ∧ 86339 < 1439 * 60 ∧ ¬ 86340 < 1439 * 60) := by
  decide +kernel

end Sys2Proof.Tests
end

section
/-! PROOF. What every row of the table does: it stops exactly where it is a lane transfer that is no burst, it
leaves the queue of commands and the integration inputs alone, and it keeps every law of one block. -/

namespace Sys2Proof.Machine

open Sys2Proof

/-! ### The rows -/

/-- Log 1: the row of a host command is its record posted while the reset input is not asserted. -/
theorem exec_host {i : Instr} {c : Command} (h : commandOf i = some c) (s : State) :
    exec i s = .next (whileRunning (hostPosts c) s) := by
  cases i <;> cases h <;> rfl

/-- R1: every row answers a next state but for a lane transfer that is no burst. -/
theorem exec_eq_ifBurst (i : Instr) (s : State) :
    ∃ t, exec i s = ifBurst (!laneTransfer i || i.wellFormed) t := by
  cases i <;> exact ⟨_, rfl⟩

/-- Settles O3: a row's answer is that of `ifBurst`, whose condition is that of the statement. -/
theorem onlyABadBurstStops : Obligations.OnlyABadBurstStops := by
  intro i s
  obtain ⟨t, ht⟩ := exec_eq_ifBurst i s
  rw [ht]
  refine ⟨fun ⟨hl, hw⟩ => by simp [ifBurst, hl, hw], fun h => ⟨t, ?_⟩⟩
  have ok : (!laneTransfer i || i.wellFormed) = true := by
    cases hl : laneTransfer i <;> cases hw : i.wellFormed <;> simp_all
  simp [ifBurst, ok]

theorem ifBurst_next {ok : Bool} {s t : State} (h : ifBurst ok s = .next t) : ok = true ∧ s = t := by
  cases ok <;> simp_all [ifBurst]

/-! ### What every row leaves and keeps -/

/-- The queue of commands and the integration inputs are unchanged, and every law of one block that held still
holds. -/
structure Steady (s t : State) : Prop where
  queue : t.pending = s.pending
  inputs : t.inputs = s.inputs
  laws : ∀ l : LocalLaw, l.holds s → l.holds t

theorem Steady.refl (s : State) : Steady s s := ⟨rfl, rfl, fun _ h => h⟩

theorem Steady.trans {s t u : State} (h : Steady s t) (k : Steady t u) : Steady s u :=
  ⟨k.queue.trans h.queue, k.inputs.trans h.inputs, fun l hl => k.laws l (h.laws l hl)⟩

theorem Within.steady {ps : List Part} {s t : State} (h : Within ps s t)
    (hq : Part.pending ∉ ps := by simp) (hi : Part.inputs ∉ ps := by simp) : Steady s t :=
  ⟨h.frame _ hq, h.frame _ hi, h.keeps⟩

theorem Steady.foldl {α : Type} {f : State → α → State} (h : ∀ s a, Steady s (f s a)) (l : List α) (s : State) :
    Steady s (l.foldl f s) := by
  induction l generalizing s with
  | nil => exact .refl s
  | cons a l ih => exact (h s a).trans (ih (f s a))

theorem Steady.whileRunning {f : State → State} {s : State} (h : Steady s (f s)) :
    Steady s (whileRunning f s) := by
  unfold Machine.whileRunning
  split
  · exact .refl s
  · exact h

/-! ### The ring -/

/-- R180: whatever a record holds, its judging leaves every part that no command touches. -/
theorem judgeRecord32_same {p : Part} (hp : p.outsideCommands = true) (slot : Fin 16) (r : List Byte)
    (s : State) : p.same s (judgeRecord32 slot r s).1 := by
  unfold judgeRecord32
  split
  · exact p.same_refl s
  · next c _ =>
    refine (judgeCommand_within slot c s).frame p fun hm => ?_
    have := inside_cons (q := .sessionRemaining) rfl (inside_commandParts c) p hm
    simp [hp] at this

theorem putSlot_same {p : Part} (hp : p.outsideCommands = true) (n : Fin 16) (c : CommandSlot) (s : State) :
    p.same s (s.putSlot n c) :=
  (within_slot (ps := [.slot n]) (by simp)).frame p fun hm => by
    rw [List.mem_singleton.1 hm] at hp
    simp [Part.outsideCommands] at hp

theorem advancePointer_same {p : Part} (hp : p ≠ .pointer) (s : State) : p.same s (advancePointer s) := by
  have h : Within [.pointer] s (advancePointer s) :=
    within_command (.inr rfl) (.inl (by simp)) (fun _ => .inr rfl) id
  exact h.frame p (by simpa using hp)

theorem takeRecord_same {p : Part} (hp : p.outsideCommands = true) (hq : p ≠ .pointer) (r : List Byte)
    (s : State) : p.same s (takeRecord r s) :=
  Part.same_trans (putSlot_same hp _ _ s) (Part.same_trans (judgeRecord32_same hp _ r _)
    (Part.same_trans (putSlot_same hp _ _ _) (advancePointer_same hq _)))

theorem takeChain_same {p : Part} (hp : p.outsideCommands = true) (hq : p ≠ .pointer) (n : Nat) (s : State) :
    p.same s (takeChain n s) := by
  induction n generalizing s with
  | zero => exact p.same_refl s
  | succ n ih =>
    unfold takeChain
    split
    · exact Part.same_trans (takeRecord_same hp hq _ s) (ih _)
    · exact p.same_refl s

/-- R179: the chain of takes leaves every part that no command touches, but for the pointer. -/
theorem runRing_same {p : Part} (hp : p.outsideCommands = true) (hq : p ≠ .pointer) (s : State) :
    p.same s (runRing s) := takeChain_same hp hq 16 s

theorem capture_same {p : Part} (hp : p.outsideCommands = true) (n : Fin 16) (r : List Byte) (s : State) :
    p.same s (capture n r s) := by
  unfold capture
  split
  · exact putSlot_same hp ..
  · exact p.same_refl s

theorem postSlot_same {p : Part} (hp : p.outsideCommands = true) (hq : p ≠ .pointer) (n : Fin 16) (s : State) :
    p.same s (postSlot n s) :=
  Part.same_trans (capture_same hp n _ s) (runRing_same hp hq _)

theorem copyToShadow_frame (offset : Nat) (bytes : List (Byte × Bool)) (s : State) :
    Frame [.shadow] s (copyToShadow offset bytes s) := by
  intro p hp
  have h := p.same_refl s
  cases p
  case shadow => simp at hp
  all_goals exact h

theorem postSlots_same {p : Part} (hp : p.outsideCommands = true) (hq : p ≠ .pointer) (ns : List (Fin 16))
    (s : State) : p.same s (ns.foldl (fun t n => postSlot n t) s) := by
  induction ns generalizing s with
  | nil => exact p.same_refl s
  | cons n ns ih => exact Part.same_trans (postSlot_same hp hq n s) (ih _)

theorem snoopControl_same {p : Part} (hp : p.outsideCommands = true) (hq : p ≠ .pointer) (hs : p ≠ .shadow)
    (start : Nat) (bytes : List (Byte × Bool)) (s : State) : p.same s (snoopControl start bytes s) := by
  unfold snoopControl
  split
  · exact Part.same_trans (copyToShadow_frame _ _ s p (by simpa using hs)) (postSlots_same hp hq _ _)
  · exact p.same_refl s

theorem runRing_steady (s : State) : Steady s (runRing s) :=
  ⟨runRing_same (p := .pending) rfl (by simp) s, runRing_same (p := .inputs) rfl (by simp) s,
    fun l h => runRing_keeps l h⟩

theorem hostPosts_steady (c : Command) (s : State) : Steady s (hostPosts c s) := by
  have post : Steady s (postCommand c s) := by
    rw [postCommand_eq]
    exact ⟨rfl, rfl, fun l h => by rw [← postCommand_eq]; exact postCommand_keeps c l h⟩
  exact post.trans (runRing_steady _)

theorem snoopControl_steady (start : Nat) (bytes : List (Byte × Bool)) (s : State) :
    Steady s (snoopControl start bytes s) :=
  ⟨snoopControl_same (p := .pending) rfl (by simp) (by simp) start bytes s,
    snoopControl_same (p := .inputs) rfl (by simp) (by simp) start bytes s,
    fun l h => snoopControl_keeps start bytes l h⟩

/-! ### The other rows -/

theorem putOut_steady (x : LaneOut) (s : State) : Steady s (s.putOut x) := (putOut_within x s).steady

theorem doWork_steady (w : SecondWork) (s : State) : Steady s (doWork w s) := by
  cases w with
  | dayComparison => exact (compareDay_within s).steady (by decide) (by decide)
  | sample => exact (sample_within s).steady (by decide) (by decide)
  | evaluation o => exact (evaluateIfSupervised_within o s).steady
  | promotion n => exact (promoteOnce_within n s).steady
  | untilTimeExpiry o => exact (expireUntilTime_within o s).steady
  | pendingLimitExpiry o => exact (expirePending_within o s).steady
  | sessionExpiry => exact (expireSession_within s).steady
  | lockoutExpiry => exact (expireLockout_within s).steady
  | wholeEntryLimit => exact (wholeEntryLimit_within s).steady
  | interKeyLimit => exact (interKeyLimit_within s).steady

theorem secondEvent_steady (order : List SecondWork) (s : State) : Steady s (secondEvent order s) := by
  have promotions : ∀ (ns : List (Fin 64)) t, Steady t (ns.foldl (fun t n => promoteOnce n t) t) :=
    .foldl fun t n => (promoteOnce_within n t).steady
  have works : ∀ ws t, Steady t (doAll ws t) := .foldl fun t w => doWork_steady w t
  exact ((promotions _ s).trans (works lateWork _)).trans ((tick_within _).steady.trans (works _ _))

theorem coldReset_steady (s : State) : Steady s (coldReset s) := ⟨rfl, rfl, fun l _ => coldReset_holds s l⟩

theorem warmReset_steady (s : State) : Steady s (warmReset s) := ⟨rfl, rfl, fun l h => warmReset_keeps l h⟩

theorem releaseReset_steady (s : State) : Steady s (releaseReset s) := by
  refine ⟨?_, ?_, fun l h => releaseReset_keeps l h⟩ <;> unfold releaseReset <;> split
  · exact (evaluateAll_within _).frame .pending (by decide)
  · rfl
  · exact (evaluateAll_within _).frame .inputs (by decide)
  · rfl

theorem arriveHeld_steady (lane : HoldingLane) (s : State) : Steady s (arriveHeld lane s) := by
  cases lane with
  | presentation => exact (arrivePresentation_within s).steady
  | control => exact (arriveControl_within s).steady

theorem frameArrives_steady (w : WireFrame) (s : State) : Steady s (frameArrives w s) :=
  (receiveFrame_within w s).steady.trans (runRing_steady _)

theorem waitEnds_steady (s : State) : Steady s (waitEnds s) :=
  (waitRunsOut_within s).steady.trans (runRing_steady _)

theorem exportCompletes_steady (s : State) : Steady s (exportCompletes s) := by
  unfold exportCompletes
  split
  · exact (completeExport_within ..).steady.trans (runRing_steady _)
  · exact .refl s

theorem importCompletes_steady (s : State) : Steady s (importCompletes s) := by
  unfold importCompletes
  split
  · exact (completeImport_within ..).steady.trans (runRing_steady _)
  · exact .refl s

/-- The rows that are no lane transfer and post no record: what drives time, the intake, the image unit and the
panel line. -/
theorem exec_event_steady {i : Instr} {s t : State} (hi : ((commandOf i).isSome || laneTransfer i) = false)
    (h : exec i s = .next t) : Steady s t := by
  cases i with
  | heldRequestArrival lane => cases h; exact .whileRunning (arriveHeld_steady lane s)
  | coldReset => cases h; exact coldReset_steady s
  | warmReset => cases h; exact warmReset_steady s
  | warmResetRelease => cases h; exact releaseReset_steady s
  | secondEvent order => cases h; exact secondEvent_steady order s
  | parseCompletion => cases h; exact .whileRunning ((completeParse_within s).steady (by decide) (by decide))
  | promotion n => cases h; exact .whileRunning (doWork_steady (.promotion n) s)
  | untilTimeExpiry o => cases h; exact .whileRunning (doWork_steady (.untilTimeExpiry o) s)
  | pendingLimitExpiry o => cases h; exact .whileRunning (doWork_steady (.pendingLimitExpiry o) s)
  | sessionExpiry => cases h; exact .whileRunning (doWork_steady .sessionExpiry s)
  | lockoutExpiry => cases h; exact doWork_steady .lockoutExpiry s
  | wholeEntryLimit => cases h; exact .whileRunning (doWork_steady .wholeEntryLimit s)
  | interKeyLimit => cases h; exact .whileRunning (doWork_steady .interKeyLimit s)
  | exportCompletion => cases h; exact .whileRunning (exportCompletes_steady s)
  | importCompletion => cases h; exact .whileRunning (importCompletes_steady s)
  | addressFrame w | keyFrame w | panelAnswer w | lock w | dataFrameDropped w | answerAwaitingEcho w =>
    cases h; exact .whileRunning (frameArrives_steady w s)
  | lineBreak => cases h; exact .whileRunning (takeBreak_within s).steady
  | faultRecovery => cases h; exact .whileRunning (recoverFault_within s).steady
  | transmitStart => cases h; exact .whileRunning (startMessage_within s).steady
  | messageSent => cases h; exact .whileRunning (messageSent_within s).steady
  | acknowledgementTimeout => cases h; exact .whileRunning (waitEnds_steady s)
  | keyTaken => cases h; exact .whileRunning ((takeKey_within s).steady (by decide) (by decide))
  | _ => cases hi

/-- The transfers on the lanes (R1 to R21). -/
theorem exec_transfer_steady {i : Instr} {s t : State} (hl : laneTransfer i = true)
    (h : exec i s = .next t) : Steady s t := by
  cases i with
  | streamWriteBurst start bytes =>
    obtain ⟨-, rfl⟩ := ifBurst_next h
    exact .whileRunning ((putOut_steady _ s).trans ((snoopStream_within ..).steady (by decide) (by decide)))
  | streamReadBurst tag start status data =>
    obtain ⟨-, rfl⟩ := ifBurst_next h
    exact .whileRunning ((putOut_steady _ s).trans (putOut_steady _ _))
  | controlWriteBurst start bytes =>
    obtain ⟨-, rfl⟩ := ifBurst_next h
    exact .whileRunning ((putOut_steady _ s).trans (snoopControl_steady ..))
  | controlReadRequest tag start count =>
    obtain ⟨-, rfl⟩ := ifBurst_next h
    exact .whileRunning (presentControl_within ..).steady
  | controlReadResponse mark tag status data =>
    obtain ⟨-, rfl⟩ := ifBurst_next h
    exact .whileRunning (takeControlResponse_within ..).steady
  | noticePortRead mark data | summaryRead mark data =>
    obtain ⟨-, rfl⟩ := ifBurst_next h
    exact .whileRunning (takeMarkedResponse_within ..).steady
  | presentationReadRequest tag start count =>
    obtain ⟨-, rfl⟩ := ifBurst_next h
    exact .whileRunning (presentPresentation_within ..).steady
  | presentationWriteBurst start bytes =>
    obtain ⟨-, rfl⟩ := ifBurst_next h
    exact .whileRunning (putOut_steady _ s)
  | presentationResponse tag status data =>
    obtain ⟨-, rfl⟩ := ifBurst_next h
    exact .whileRunning (takePresentationResponse_within ..).steady
  | _ => cases hl

/-- Every row leaves the queue and the inputs alone and keeps every law of one block. -/
theorem exec_steady {i : Instr} {s t : State} (h : exec i s = .next t) : Steady s t := by
  cases hc : commandOf i with
  | some c =>
    rw [exec_host hc] at h
    cases h
    exact .whileRunning (hostPosts_steady c s)
  | none =>
    cases hl : laneTransfer i with
    | true => exact exec_transfer_steady hl h
    | false => exact exec_event_steady (by simp [hc, hl]) h

/-- A step keeps every law of one block: none of them reads the queue of commands. -/
theorem step_keeps {s t : State} (h : step s = .next t) (l : LocalLaw) (hl : l.holds s) : l.holds t := by
  unfold step at h
  split at h
  · cases h
    exact hl
  · exact (exec_steady h).laws l (by cases l <;> exact hl)

/-- Settles O2: a part of what every row leaves and keeps. -/
theorem commandsKeepQueueAndInputs : Obligations.CommandsKeepQueueAndInputs :=
  fun _ _ _ h => ⟨(exec_steady h).queue, (exec_steady h).inputs⟩

/-- Settles O6: the two laws are laws of one block, which every step keeps. -/
theorem stepKeepsTheLanesAndTheShadow : Obligations.StepKeepsTheLanesAndTheShadow :=
  fun _ _ h => ⟨step_keeps h .lanes, step_keeps h .shadow⟩

end Sys2Proof.Machine
end

section
/-! PROOF. The resets (R21, R23, R24, R46): the values after a cold and after a warm reset, and what the release of
a warm reset evaluates. -/

namespace Sys2Proof.Machine

open Sys2Proof

/-! ### The cold reset -/

theorem pathCold_cold (i : Inputs) : PathCold (State.cold i) :=
  ⟨fun o k => by cases o <;> cases k <;> rfl, rfl, rfl, rfl, rfl, rfl, fun o => by cases o <;> rfl,
    fun o => by cases o <;> rfl⟩

theorem profilesCold_cold (i : Inputs) : ProfilesCold (State.cold i) :=
  ⟨fun n => by simp [State.cold, State.profile, Profile.default], rfl, rfl⟩

theorem tablesCold_cold (i : Inputs) : TablesCold (State.cold i) :=
  ⟨fun n => by simp [State.cold, State.entry, RatingTable.cold], fun m v => by simp [State.cold, RatingTable.cold],
    rfl, fun w => by simp [State.cold, State.sectionWindow, Intake.cold, SectionWindow.unset], rfl, rfl, rfl, rfl,
    rfl⟩

theorem panelCold_cold (i : Inputs) : PanelCold (State.cold i) :=
  ⟨rfl, rfl, rfl, rfl, rfl, rfl, rfl, rfl, rfl, rfl, rfl, rfl, rfl, rfl, rfl⟩

/-- R177, R184: the command and report units hold their reset values where each is that of a reset. -/
theorem unitsCold_of {t : State} (hc : t.command = .cold) (hr : t.report = .cold) : UnitsCold t := by
  have slot : ∀ n, t.slot n = .cold := fun n => by simp [State.slot, hc, CommandUnit.cold]
  refine ⟨fun a => by rw [hc]; rfl, by rw [hc]; rfl, fun n => by rw [slot]; exact ⟨rfl, rfl, rfl, rfl⟩, ?_⟩
  rw [hr]
  exact ⟨rfl, rfl, rfl, rfl, rfl, rfl, rfl, rfl⟩

theorem coldValues_cold (i : Inputs) : ColdValues (State.cold i) :=
  ⟨pathCold_cold i, profilesCold_cold i, tablesCold_cold i, panelCold_cold i, unitsCold_of rfl rfl⟩

theorem cold_context (i : Inputs) (o : Output) : (State.cold i).context o = .cold := by cases o <;> rfl

theorem cold_entry (i : Inputs) (n : Fin 64) : (State.cold i).entry n = none :=
  (tablesCold_cold i).1 n

/-- After a cold reset no output is bound to anything, so that the laws of verdicts and bindings hold. -/
theorem allLaws_cold (i : Inputs) : AllLaws (State.cold i) := by
  have law := cold_holds i
  refine ⟨law .lanes, law .shadow, law .intake, law .profiles, law .time, law .panel, law .pin, law .report,
    law .stackTops, fun o => ?supervision, fun o => ?reason, fun o n h => ?blocked, fun o n h => ?binding,
    fun m n e f h => ?keys, fun n e h => ?counts, fun n _ => ?free⟩
  case supervision => simp [cold_context, OutputContext.cold]
  case reason => simp [cold_context, OutputContext.cold, reasonFits]
  case blocked => simp [cold_context, OutputContext.cold] at h
  case binding => simp [cold_context, OutputContext.cold] at h
  case keys => simp [cold_entry] at h
  case counts => simp [cold_entry] at h
  case free => simp [boundTo, cold_context, OutputContext.cold]

/-- Settles O4: `coldReset` is the cold state with the queue of commands kept. -/
theorem coldResetGivesTheColdValues : Obligations.ColdResetGivesTheColdValues :=
  ⟨fun s => ⟨coldReset s, rfl, coldValues_cold s.inputs, rfl, rfl⟩, coldValues_cold _, rfl, allLaws_cold _⟩

/-! ### The warm reset -/

theorem slot_mem_everySlot (n : Fin 16) : Part.slot n ∈ everySlot := List.mem_map_of_mem (List.mem_finRange n)

/-- R21, R24: the warm reset writes its own parts only. -/
theorem warmReset_frame (s : State) : Frame warmParts s (warmReset s) := by
  intro p hp
  have same := p.same_refl s
  cases p
  case inputs | pending | layout | nextMark | transfers | profile | schemes | run | wall | offset | dayStart
      | profileDay | intakeLevels | panelAddresses | sentFrames | storedPin | failures | sessionLength =>
    exact same
  case window o k => exact same
  case profileBinding o | verdict o | pendingSince o => cases o <;> exact same
  case entry n => exact absurd (by simp [warmParts, entry_mem_everyEntry]) hp
  case sectionWindow w => exact absurd (by simp [warmParts, section_mem]) hp
  case slot n => exact absurd (by simp [warmParts, slot_mem_everySlot]) hp
  case activity o | serviceBinding o | stack o => exact absurd (by cases o <;> simp [warmParts]) hp
  all_goals exact absurd (by simp [warmParts]) hp

theorem warmReset_sectionWindow (s : State) (w : Fin 4) :
    (warmReset s).sectionWindow w = (s.sectionWindow w).warm := by
  simp [warmReset, Intake.warm, State.sectionWindow]

theorem warmReset_context (s : State) (o : Output) : (warmReset s).context o = (s.context o).warm := by
  cases o <;> rfl

/-- R49: with no session open the lamp is lit exactly where an output is BLOCKED or PENDING, and never flashes. -/
theorem lampOf_closed (p : PerOutput OutputContext) :
    (lampOf false p = .on ↔ ∃ o, (p.get o).verdict = .blocked ∨ (p.get o).verdict = .pending)
      ∧ lampOf false p ≠ .flashing := by
  have some_output : (lights p.primary || lights p.secondary || lights p.remote) = true
      ↔ ∃ o, (p.get o).verdict = .blocked ∨ (p.get o).verdict = .pending := by
    simp only [lights, Bool.or_eq_true, decide_eq_true_eq]
    constructor
    · rintro ((h | h) | h)
      exacts [⟨.primary, h⟩, ⟨.secondary, h⟩, ⟨.remote, h⟩]
    · rintro ⟨o, h⟩
      cases o
      exacts [.inl (.inl h), .inl (.inr h), .inr h]
  rw [← some_output]
  simp only [lampOf]
  cases lights p.primary || lights p.secondary || lights p.remote <;> simp

/-! ### The release -/

theorem UpToDate.unsupervised {t : State} {o : Output} (h : UpToDate t o) (hp : (t.context o).profile = none) :
    (t.context o).verdict = .unsupervised ∧ (t.context o).reason = .none := by
  unfold UpToDate judge at h
  rw [hp] at h
  exact ⟨congrArg Prod.fst h, congrArg Prod.snd h⟩

theorem evaluateAll_upToDate {s : State} (h : s.systemReset = false) (o : Output) : UpToDate (evaluateAll s) o :=
  evaluateWhere_upToDate keptByEvaluation_true s h o rfl

theorem deassert_frame (s : State) : Frame [.systemReset] s { s with systemReset := false } := by
  intro p hp
  have same := p.same_refl s
  cases p
  case systemReset => simp at hp
  all_goals exact same

/-- R46: the release of the system reset input evaluates every output. -/
theorem releaseReset_asserted {s : State} (h : s.systemReset = true) :
    (releaseReset s).systemReset = false ∧ (∀ o, UpToDate (releaseReset s) o)
      ∧ Frame (.systemReset :: allJudged) s (releaseReset s) := by
  have f := (evaluateAll_within { s with systemReset := false }).frame
  rw [show releaseReset s = evaluateAll { s with systemReset := false } by simp [releaseReset, h]]
  exact ⟨f .systemReset (by decide), evaluateAll_upToDate rfl,
    ((deassert_frame s).mono (by simp)).trans (f.mono fun p hp => List.mem_cons_of_mem _ hp)⟩

/-- Settles O5: the warm values by the parts of `warmReset`, the release by what an evaluation of all outputs
decides. -/
theorem warmResetAndItsRelease : Obligations.WarmResetAndItsRelease := by
  intro s
  refine ⟨⟨warmReset s, rfl, warmReset_frame s, unitsCold_of rfl rfl, rfl, rfl, rfl, rfl,
    fun o => by cases o <;> rfl, fun o => by rw [warmReset_context]; exact ⟨rfl, rfl⟩, fun n => ?entries, rfl,
    fun w => warmReset_sectionWindow s w, rfl, rfl, rfl, rfl, rfl, rfl, rfl, rfl,
    ⟨lampOf false s.outputs, (lampOf_closed _).1, (lampOf_closed _).2, rfl, rfl⟩, rfl,
    fun h => ?lockout, fun h => ?other⟩, fun h => ?release, fun h => ?idle⟩
  case entries => simp [warmReset, RatingTable.warm, RatingTable.cold, State.entry]
  case lockout => simp [warmReset, PinAuthority.warm, h]
  case other => simp [warmReset, PinAuthority.warm, h]
  case release =>
    obtain ⟨hs, hu, hf⟩ := releaseReset_asserted h
    refine ⟨releaseReset s, rfl, hs, hu, hf, fun o hp => ((hu o).unsupervised ?_).1⟩
    rw [← hp]
    exact hf (.profileBinding o) (by simp)
  case idle =>
    show Host.Outcome.next (releaseReset s) = .next s
    simp [releaseReset, h]

end Sys2Proof.Machine
end

section
/-! PROOF. Transfers on the stream and presentation lanes, and read requests (R2, R4, R5, R11 to R13, R107). -/

namespace Sys2Proof.Machine

open Sys2Proof

/-! ### Forwarding -/

theorem whileRunning_eq {f : State → State} {s : State} (h : Running s) : whileRunning f s = f s := by
  unfold Running at h
  simp [whileRunning, h]

theorem ifBurst_ok {ok : Bool} (h : ok = true) (s : State) : ifBurst ok s = .next s := by
  simp [ifBurst, h]

/-- R1, R23: a legal burst acts while the reset input is not asserted. -/
theorem ifBurst_running {ok : Bool} {f : State → State} {s : State} (hr : Running s) (h : ok = true) :
    ifBurst ok (whileRunning f s) = .next (f s) := by
  rw [ifBurst_ok h, whileRunning_eq hr]

/-- R23: an event acts while the reset input is not asserted. -/
theorem carried_running {f : State → State} {s : State} (hr : Running s) :
    carried (whileRunning f s) = .next (f s) := by
  rw [whileRunning_eq hr]
  rfl

/-- R107, R115: a burst that touches SHED windows only changes nothing in the intake. -/
theorem snoopStream_shed {s : State} {start : Nat} {bytes : List (Byte × Bool)}
    (h : ∀ w, Touches s start bytes w → (s.sectionWindow w).context = .shed) :
    snoopStream start bytes s = s := by
  refine List.foldl_fixed' (fun w => ?_) _
  by_cases ht : Touches s start bytes w
  · simp only [handWindow, ht.1, if_true]
    split
    · exact takeWindowWrite_inactive w _ _ s (by rw [h w ht]; rfl)
    · rfl
  · exact handWindow_untouched ht

/-- Settles O12: nothing of the stream lane but the intake watches it, and the intake keeps the transfers. -/
theorem streamAndPresentationTransfersPass : Obligations.StreamAndPresentationTransfersPass := by
  intro s hr
  refine ⟨fun tag start status data h => ?read, fun start bytes h => ifBurst_running hr h,
    fun start bytes h => ⟨_, ifBurst_running hr h, ?out, ?frame, fun hs => ?shed⟩⟩
  case read =>
    refine (ifBurst_running hr h).trans ?_
    simp [State.putOut]
  case out => exact (snoopStream_within ..).frame .transfers (by decide)
  case frame =>
    exact ((putOut_within _ s).frame.mono (by simp)).trans
      ((snoopStream_within ..).frame.mono fun p hp => List.mem_cons_of_mem _ hp)
  case shed =>
    rw [snoopStream_putOut, snoopStream_shed fun w ht => hs w ht.1 ht.2]
    exact (putOut_within _ s).frame

/-! ### Read requests (R4, R5, R11 to R13) -/

theorem presentationFull_iff (s : State) : presentationFull s = true ↔ 16 ≤ s.lanes.presentation.length := by
  simp [presentationFull]

theorem controlBlocked_iff (r : ReadRequest) (s : State) :
    controlBlocked r s = true ↔
      rangesMeet r.start r.count s.inputs.reportBase 2048 = true ∧ 4 ≤ s.lanes.control.length := by
  simp [controlBlocked, touchesReport]

theorem presentPresentation_enters {s : State} (r : ReadRequest) (h : s.lanes.presentation.length < 16)
    (hh : s.lanes.heldPresentation = []) : presentPresentation r s = acceptPresentation r s := by
  have hf : presentationFull s = false := by simpa [presentationFull] using h
  simp [presentPresentation, hf, hh]

theorem presentPresentation_holds {s : State} (r : ReadRequest)
    (h : 16 ≤ s.lanes.presentation.length ∨ s.lanes.heldPresentation ≠ []) :
    presentPresentation r s
      = { s with lanes := { s.lanes with heldPresentation := s.lanes.heldPresentation ++ [r] } } := by
  have hc : (presentationFull s || !s.lanes.heldPresentation.isEmpty) = true := by
    simpa [presentationFull_iff] using h
  simp [presentPresentation, hc]

theorem presentControl_accepts {s : State} (r : ReadRequest) (h : controlBlocked r s = false)
    (hh : s.lanes.heldControl = []) : presentControl r s = acceptControl r s := by
  simp [presentControl, h, hh]

theorem presentControl_holds {s : State} (r : ReadRequest)
    (h : controlBlocked r s = true ∨ s.lanes.heldControl ≠ []) :
    presentControl r s = { s with lanes := { s.lanes with heldControl := s.lanes.heldControl ++ [r] } } := by
  have hc : (controlBlocked r s || !s.lanes.heldControl.isEmpty) = true := by simpa using h
  simp [presentControl, hc]

theorem controlBlocked_of_room {s : State} (r : ReadRequest) (h : s.lanes.control.length < 4) :
    controlBlocked r s = false := by
  have := (controlBlocked_iff r s).not.2 (by omega)
  simpa using this

theorem controlBlocked_of_apart {s : State} (r : ReadRequest)
    (h : rangesMeet r.start r.count s.inputs.reportBase 2048 = false) : controlBlocked r s = false := by
  have := (controlBlocked_iff r s).not.2 (by simp [h])
  simpa using this

/-- R4, R12: a control request that touches the report window is entered and forwarded under its mark. -/
theorem acceptControl_touching {s : State} (r : ReadRequest)
    (h : rangesMeet r.start r.count s.inputs.reportBase 2048 = true) :
    acceptControl r s = { s with lanes := { s.lanes with
      control := s.lanes.control
        ++ [⟨r.tag, s.lanes.nextMark, r.start, r.count, resolve (controlMark s) r.start r.count⟩]
      nextMark := s.lanes.nextMark + 1
      out := s.lanes.out ++ [.readToMemory .control r.tag (some s.lanes.nextMark) r.start r.count] } } :=
  if_pos h

/-- R4: a control request that touches no report byte is only forwarded. -/
theorem acceptControl_apart {s : State} (r : ReadRequest)
    (h : rangesMeet r.start r.count s.inputs.reportBase 2048 = false) :
    acceptControl r s = s.putOut (.readToMemory .control r.tag none r.start r.count) :=
  if_neg (by simp [touchesReport, h])

theorem arrivePresentation_enters {s : State} {r : ReadRequest} {rest : List ReadRequest}
    (hh : s.lanes.heldPresentation = r :: rest) (h : s.lanes.presentation.length < 16) :
    arrivePresentation s
      = acceptPresentation r { s with lanes := { s.lanes with heldPresentation := rest } } := by
  have hf : presentationFull s = false := by simpa [presentationFull] using h
  simp [arrivePresentation, hh, hf]

theorem arriveControl_accepts {s : State} {r : ReadRequest} {rest : List ReadRequest}
    (hh : s.lanes.heldControl = r :: rest) (h : controlBlocked r s = false) :
    arriveControl s = acceptControl r { s with lanes := { s.lanes with heldControl := rest } } := by
  simp [arriveControl, hh, h]

/-- Settles O20: each case is an arrival that enters, is forwarded or is held, put through its row. -/
theorem readRequestsAreEnteredOrHeld : Obligations.ReadRequestsAreEnteredOrHeld := by
  intro tag start count s hr
  refine ⟨fun hb => ⟨fun h hh => ?enter, fun h => ?hold, fun ht h hh => ?mark, fun ht hh => ?pass, fun h => ?wait⟩,
    fun r rest hh h => ?arrive, fun r rest hh ht h => ?arriveMarked, fun r rest hh ht => ?arrivePass⟩
  case enter =>
    exact (ifBurst_running hr hb).trans (congrArg _ (presentPresentation_enters _ h hh))
  case hold =>
    exact (ifBurst_running hr hb).trans (congrArg _ (presentPresentation_holds _ h))
  case mark =>
    refine (ifBurst_running hr hb).trans (congrArg _ ?_)
    rw [presentControl_accepts _ (controlBlocked_of_room _ h) hh, acceptControl_touching _ ht]
  case pass =>
    refine (ifBurst_running hr hb).trans (congrArg _ ?_)
    rw [presentControl_accepts _ (controlBlocked_of_apart _ ht) hh, acceptControl_apart _ ht]
    rfl
  case wait =>
    exact (ifBurst_running hr hb).trans
      (congrArg _ (presentControl_holds _ (h.imp_left (controlBlocked_iff _ s).2)))
  case arrive =>
    exact (carried_running hr).trans (congrArg _ (arrivePresentation_enters hh h))
  case arriveMarked =>
    exact (carried_running hr).trans
      (congrArg _ ((arriveControl_accepts hh (controlBlocked_of_room _ h)).trans (acceptControl_touching _ ht)))
  case arrivePass =>
    exact (carried_running hr).trans
      (congrArg _ ((arriveControl_accepts hh (controlBlocked_of_apart _ ht)).trans (acceptControl_apart _ ht)))

end Sys2Proof.Machine
end

section
/-! PROOF. Control writes (R3, R177, R178): what a burst in the command window leaves in the shadow, the slots it
posts, and the record of a host command as a burst. -/

namespace Sys2Proof.Machine

open Sys2Proof

/-! ### The part of a burst in a window -/

/-- A byte of the part of a run in a window, by its offset in the window, is that byte of the run. -/
theorem partWithin_getElem? {α : Type} {base size start : Nat} {bytes : List α} {p : Nat × List α}
    (h : partWithin base size start bytes = some p) (a : Nat) :
    (if p.1 - base ≤ a then p.2[a - (p.1 - base)]? else none)
      = if a < size ∧ start ≤ base + a then bytes[base + a - start]? else none := by
  unfold partWithin at h
  simp only at h
  split_ifs at h with hlt
  simp only [Option.some.injEq] at h
  subst h
  simp only [List.getElem?_take, List.getElem?_drop]
  by_cases hin : a < size ∧ start ≤ base + a
  · obtain ⟨ha, hs⟩ := hin
    rw [if_pos (show max start base - base ≤ a by omega), if_pos (show a < size ∧ start ≤ base + a from ⟨ha, hs⟩)]
    by_cases hb : base + a < start + bytes.length
    · rw [if_pos (by omega)]
      congr 1
      omega
    · rw [if_neg (by omega), List.getElem?_eq_none (by omega)]
  · rw [if_neg hin]
    by_cases ho : max start base - base ≤ a
    · rw [if_pos ho, if_neg (by omega)]
    · rw [if_neg ho]

/-- A run without a part in a window has no byte there. -/
theorem getElem?_of_partWithin_none {α : Type} {base size start : Nat} {bytes : List α}
    (h : partWithin base size start bytes = none) {a : Nat} (ha : a < size) (hs : start ≤ base + a) :
    bytes[base + a - start]? = none := by
  unfold partWithin at h
  simp only at h
  split_ifs at h with hlt
  exact List.getElem?_eq_none (by omega)

/-- A run that lies in a window is its own part. -/
theorem partWithin_inside {α : Type} {base size start : Nat} {bytes : List α} (hn : bytes ≠ [])
    (hb : base ≤ start) (he : start + bytes.length ≤ base + size) :
    partWithin base size start bytes = some (start, bytes) := by
  have := List.length_pos_iff.2 hn
  simp only [partWithin, Nat.max_eq_left hb, Nat.min_eq_left he]
  rw [if_pos (by omega)]
  simp

/-! ### The shadow after a control write -/

theorem snoopControl_inside {s : State} {start : Nat} {bytes : List (Byte × Bool)} {p : Nat × List (Byte × Bool)}
    (h : partWithin s.inputs.commandBase Config.commandWindowSize start bytes = some p) :
    snoopControl start bytes s = snoopWindow (p.1 - s.inputs.commandBase) p.2 s := by
  simp [snoopControl, h]

theorem snoopControl_outside {s : State} {start : Nat} {bytes : List (Byte × Bool)}
    (h : partWithin s.inputs.commandBase Config.commandWindowSize start bytes = none) :
    snoopControl start bytes s = s := by
  simp [snoopControl, h]

/-- R177, R179: posts and takes leave the shadow as the burst wrote it. -/
theorem snoopWindow_shadow (offset : Nat) (bytes : List (Byte × Bool)) (s : State) :
    (snoopWindow offset bytes s).command.shadow = s.command.shadow.writeRun offset bytes :=
  postSlots_same (p := .shadow) rfl (by simp) _ (copyToShadow offset bytes s)

/-- R3: the enabled bytes of a burst in the command window reach the shadow, and no other byte changes. -/
theorem snoopControl_read {s : State} (h : ShadowLaw s) (start : Nat) (bytes : List (Byte × Bool)) (a : Nat) :
    (snoopControl start bytes s).command.shadow.read a
      = if a < Config.commandWindowSize ∧ start ≤ s.inputs.commandBase + a then
          match bytes[s.inputs.commandBase + a - start]? with
          | some (b, true) => b
          | _ => s.command.shadow.read a
        else s.command.shadow.read a := by
  cases hp : partWithin s.inputs.commandBase Config.commandWindowSize start bytes with
  | some p =>
    rw [snoopControl_inside hp, snoopWindow_shadow, Memory.read_writeRun h.1, partWithin_getElem? hp]
    by_cases hin : a < Config.commandWindowSize ∧ start ≤ s.inputs.commandBase + a
    · simp only [if_pos hin] <;> rfl
    · simp only [if_neg hin]
  | none =>
    rw [snoopControl_outside hp]
    split
    · next ha => rw [getElem?_of_partWithin_none hp ha.1 ha.2]
    · rfl

/-! ### The slots a burst posts -/

/-- R178: what it is for the four bytes from an index on to be enabled. -/
theorem enabled_header {l : List (Byte × Bool)} {n : Nat}
    (h : ((l.drop n).take 4).map (·.2) = [true, true, true, true]) {k : Nat} (hk : k < 4) :
    ∃ b, l[n + k]? = some (b, true) := by
  have e : (((l.drop n).take 4).map (·.2))[k]? = some true := by
    rw [h]
    interval_cases k <;> rfl
  rw [List.getElem?_map, List.getElem?_take_of_lt hk, List.getElem?_drop] at e
  obtain ⟨⟨b, en⟩, hb, rfl⟩ := Option.map_eq_some_iff.1 e
  exact ⟨b, hb⟩

/-- R178: a slot that the part of a burst in the command window posts is one that the burst posts. -/
theorem postsSlot_of_coversHeader {i : Inputs} {start : Nat} {bytes : List (Byte × Bool)}
    {q : Nat × List (Byte × Bool)} (hq : partWithin i.commandBase Config.commandWindowSize start bytes = some q)
    {p : Fin 16} (h : coversHeader (q.1 - i.commandBase) q.2 p = true) : PostsSlot i start bytes p := by
  obtain ⟨hb, hs, -, -⟩ := partWithin_spec hq
  simp only [coversHeader, Bool.and_eq_true, decide_eq_true_eq, beq_iff_eq] at h
  obtain ⟨ho, hh⟩ := h
  refine ⟨by omega, fun k hk => ?_⟩
  obtain ⟨b, e⟩ := enabled_header hh hk
  have part := partWithin_getElem? hq (32 * p.val + k)
  rw [if_pos (by omega), show 32 * p.val + k - (q.1 - i.commandBase) = 32 * p.val - (q.1 - i.commandBase) + k by omega,
    e] at part
  split_ifs at part with hin
  exact ⟨b, by rw [Nat.add_assoc, ← part]⟩

/-- R178: a burst that posts no slot changes nothing but the shadow. -/
theorem snoopControl_frame_of_no_post {s : State} {start : Nat} {bytes : List (Byte × Bool)}
    (h : ∀ p, ¬ PostsSlot s.inputs start bytes p) : Frame [.shadow] s (snoopControl start bytes s) := by
  cases hq : partWithin s.inputs.commandBase Config.commandWindowSize start bytes with
  | some q =>
    have none_posted : postedBy (q.1 - s.inputs.commandBase) q.2 = [] :=
      List.filter_eq_nil_iff.2 fun p _ hc => h p (postsSlot_of_coversHeader hq hc)
    rw [snoopControl_inside hq, snoopWindow, none_posted]
    exact copyToShadow_frame _ _ s
  | none =>
    rw [snoopControl_outside hq]
    exact .refl _ s

/-- Settles O16: what the takes that a burst brings about do leaves the shadow and the transfers alone. -/
theorem controlWriteReachesTheShadow : Obligations.ControlWriteReachesTheShadow := by
  intro start bytes s hr hl hb
  refine ⟨_, ifBurst_running hr hb, ?_, fun a => snoopControl_read (s := s.putOut _) hl _ _ a, fun hp => ?_⟩
  · exact snoopControl_same (p := .transfers) rfl (by simp) (by simp) ..
  · exact ((putOut_within _ s).frame.mono (by simp)).trans
      ((snoopControl_frame_of_no_post (s := s.putOut _) hp).mono (by simp))

/-! ### The record of a host command as a burst (log 1) -/

/-- The record of a host command enables the header of the slot it is written to, and of no other. -/
theorem coversHeader_record {record : List Byte} (h : record.length = 32) (p q : Fin 16) :
    coversHeader (32 * p.val) (record.map (fun b => (b, true))) q = decide (q = p) := by
  rcases Nat.lt_trichotomy q.val p.val with hq | hq | hq
  · have ne : q ≠ p := fun e => by simp [e] at hq
    simp only [coversHeader, ne, decide_false, Bool.and_eq_false_iff, decide_eq_false_iff_not]
    exact .inl (by omega)
  · obtain ⟨a, b, c, d, rest, rfl⟩ : ∃ a b c d rest, record = a :: b :: c :: d :: rest := by
      match record, h with
      | a :: b :: c :: d :: rest, _ => exact ⟨a, b, c, d, rest, rfl⟩
    rw [Fin.ext hq]
    simp [coversHeader]
  · have ne : q ≠ p := fun e => by simp [e] at hq
    have nothing : (record.map (fun b => (b, true))).drop (32 * q.val - 32 * p.val) = [] :=
      List.drop_eq_nil_of_le (by simp only [List.length_map]; omega)
    simp [coversHeader, nothing, ne]

theorem postedBy_record {record : List Byte} (h : record.length = 32) (p : Fin 16) :
    postedBy (32 * p.val) (record.map (fun b => (b, true))) = [p] := by
  have only : List.filter (fun q => decide (q = p)) (List.finRange 16) = [p] := by
    fin_cases p <;> decide
  rw [← only]
  exact List.filter_congr fun q _ => coversHeader_record h p q

theorem hostRecord_length (c : Command) (s : State) : (hostRecord c s).length = 32 := Command.encode_length c _

/-- R3, R178: the record of a host command, written in the slot at the pointer, is what its row posts. -/
theorem snoopControl_hostRecord {s : State} (h : ShadowLaw s) (c : Command) :
    snoopControl (s.inputs.commandBase + 32 * s.command.pointer.val)
      ((hostRecord c s).map (fun b => (b, true))) s = hostPosts c s := by
  have len := hostRecord_length c s
  have hp := s.command.pointer.isLt
  have part : partWithin s.inputs.commandBase Config.commandWindowSize
      (s.inputs.commandBase + 32 * s.command.pointer.val) ((hostRecord c s).map (fun b => (b, true)))
      = some (s.inputs.commandBase + 32 * s.command.pointer.val, (hostRecord c s).map (fun b => (b, true))) :=
    partWithin_inside (fun e => by simp [List.map_eq_nil_iff.1 e] at len) (by omega)
      (by simp only [List.length_map, len, Config.commandWindowSize]; omega)
  have read_back : shadowRecord (copyToShadow (32 * s.command.pointer.val)
      ((hostRecord c s).map (fun b => (b, true))) s) s.command.pointer = hostRecord c s := by
    have := Memory.readRun_writeRun h.1 (32 * s.command.pointer.val) (hostRecord c s)
    rwa [len] at this
  rw [snoopControl_inside part, Nat.add_sub_cancel_left, snoopWindow, postedBy_record len]
  simp only [List.foldl_cons, List.foldl_nil, postSlot, read_back]
  rfl

/-- Settles O17: the burst posts one slot, whose shadow bytes read back as the record. -/
theorem hostCommandIsItsRecordWritten : Obligations.HostCommandIsItsRecordWritten := by
  intro i c s hi hl hw
  have hp := s.command.pointer.isLt
  simp only [Config.commandWindowSize, Config.addressSpace] at hw
  have start : (BitVec.ofNat 32 (s.inputs.commandBase + 32 * s.command.pointer.val)).toNat
      = s.inputs.commandBase + 32 * s.command.pointer.val := by
    rw [BitVec.toNat_ofNat, Nat.mod_eq_of_lt (by omega)]
  have burst : burstOk (BitVec.ofNat 32 (s.inputs.commandBase + 32 * s.command.pointer.val))
      ((hostRecord c s).map (fun b => (b, true))).length = true := by
    simp only [burstOk, start, List.length_map, hostRecord_length, Config.addressSpace, decide_eq_true_eq]
    omega
  rw [exec_host hi]
  cases hr : s.systemReset with
  | true =>
    exact (ifBurst_ok burst _).trans (by simp [whileRunning, hr])
  | false =>
    refine (ifBurst_running hr burst).trans (congrArg _ ?_)
    rw [start, if_neg (by simp), whileRunning_eq (s := s.putOut _) hr]
    exact snoopControl_hostRecord (s := s.putOut _) hl c

end Sys2Proof.Machine
end

section
/-! PROOF. The division of a request into segments (R12): the segments are the maximal runs of one marking, and
how many there can be on each lane. -/

namespace Sys2Proof.Machine

open Sys2Proof

/-! ### Maximal runs -/

/-- Segments that follow one another from an address up, each not empty and of the marking that its bytes have,
neighbours of different markings. -/
def Runs (mark : Nat → Marking) : Nat → List Segment → Prop
  | _, [] => True
  | a, g :: rest =>
    g.start = a ∧ 0 < g.count ∧ (∀ i, i < g.count → mark (a + i) = g.marking)
      ∧ (∀ h ∈ rest.head?, h.marking ≠ g.marking) ∧ Runs mark (a + g.count) rest

/-- R12: the segments of a range from those of the range behind its first byte. -/
def runsFrom (a : Nat) (m : Marking) : List Segment → List Segment
  | g :: more => if g.marking = m then ⟨a, g.count + 1, m⟩ :: more else ⟨a, 1, m⟩ :: g :: more
  | [] => [⟨a, 1, m⟩]

theorem runsFrom_joins {a : Nat} {m : Marking} {g : Segment} (h : g.marking = m) (more : List Segment) :
    runsFrom a m (g :: more) = ⟨a, g.count + 1, m⟩ :: more := if_pos h

theorem runsFrom_apart {a : Nat} {m : Marking} {g : Segment} (h : g.marking ≠ m) (more : List Segment) :
    runsFrom a m (g :: more) = ⟨a, 1, m⟩ :: g :: more := if_neg h

theorem segmentsOf_cons (a : Nat) (m : Marking) (ms : List Marking) :
    segmentsOf a (m :: ms) = runsFrom a m (segmentsOf (a + 1) ms) := by
  rw [segmentsOf]
  cases segmentsOf (a + 1) ms <;> rfl

theorem resolve_succ (mark : Nat → Marking) (a n : Nat) :
    resolve mark a (n + 1) = runsFrom a (mark a) (resolve mark (a + 1) n) := by
  unfold resolve
  rw [List.range_succ_eq_map, List.map_cons, segmentsOf_cons, List.map_map]
  congr 2
  refine List.map_congr_left fun i _ => ?_
  simp only [Function.comp_apply]
  congr 1
  omega

@[simp] theorem coveredBy_nil : coveredBy [] = 0 := rfl

@[simp] theorem coveredBy_cons (g : Segment) (gs : List Segment) : coveredBy (g :: gs) = g.count + coveredBy gs := by
  simp [coveredBy]

@[simp] theorem coveredBy_append (gs hs : List Segment) : coveredBy (gs ++ hs) = coveredBy gs + coveredBy hs := by
  simp [coveredBy]

theorem runsFrom_covered (a : Nat) (m : Marking) (gs : List Segment) :
    coveredBy (runsFrom a m gs) = coveredBy gs + 1 := by
  cases gs with
  | nil => rfl
  | cons g more =>
    by_cases h : g.marking = m
    · simp only [runsFrom_joins h, coveredBy_cons]
      omega
    · rw [runsFrom_apart h, coveredBy_cons, Nat.add_comm]

/-- R12: the segments together cover the range. -/
theorem resolve_covered (mark : Nat → Marking) (a n : Nat) : coveredBy (resolve mark a n) = n := by
  induction n generalizing a with
  | zero => rfl
  | succ n ih => rw [resolve_succ, runsFrom_covered, ih]

theorem runsFrom_runs {mark : Nat → Marking} {a : Nat} {gs : List Segment} (h : Runs mark (a + 1) gs) :
    Runs mark a (runsFrom a (mark a) gs) := by
  have alone : ∀ i, i < 1 → mark (a + i) = mark a := fun i hi => by rw [Nat.lt_one_iff.1 hi, Nat.add_zero]
  cases gs with
  | nil => exact ⟨rfl, Nat.one_pos, alone, by simp, trivial⟩
  | cons g more =>
    by_cases e : g.marking = mark a
    · obtain ⟨-, -, inside, differs, later⟩ := h
      rw [runsFrom_joins e]
      refine ⟨rfl, Nat.succ_pos _, fun i hi => ?_, fun x hx => e ▸ differs x hx, ?_⟩
      · cases i with
        | zero => rfl
        | succ i =>
          rw [← e, ← inside i (by simpa using hi)]
          congr 1
          omega
      · rwa [show a + (g.count + 1) = a + 1 + g.count by omega]
    · rw [runsFrom_apart e]
      exact ⟨rfl, Nat.one_pos, alone, by simpa using e, h⟩

/-- R12: a range is divided into its maximal runs. -/
theorem resolve_runs (mark : Nat → Marking) (a n : Nat) : Runs mark a (resolve mark a n) := by
  induction n generalizing a with
  | zero => trivial
  | succ n ih => rw [resolve_succ]; exact runsFrom_runs (ih (a + 1))

/-- What a run is, wherever it stands among the others. -/
theorem Runs.at {mark : Nat → Marking} {a : Nat} {before after : List Segment} {g : Segment}
    (h : Runs mark a (before ++ g :: after)) :
    g.start = a + coveredBy before ∧ 0 < g.count ∧ (∀ i, i < g.count → mark (g.start + i) = g.marking)
      ∧ ∀ x rest, after = x :: rest → x.marking ≠ g.marking := by
  induction before generalizing a with
  | nil =>
    obtain ⟨rfl, pos, inside, differs, -⟩ := h
    exact ⟨rfl, pos, inside, fun x rest e => differs x (by simp [e])⟩
  | cons b before ih =>
    obtain ⟨start, rest⟩ := ih h.2.2.2.2
    exact ⟨by rw [start, coveredBy_cons, Nat.add_assoc], rest⟩

/-! ### How many runs -/

theorem runsFrom_length (a : Nat) (m : Marking) (g : Segment) (more : List Segment) :
    (runsFrom a m (g :: more)).length = (g :: more).length + if g.marking = m then 0 else 1 := by
  by_cases h : g.marking = m
  · simp [runsFrom_joins h, h]
  · simp [runsFrom_apart h, h]

theorem runsFrom_head (a : Nat) (m : Marking) (gs : List Segment) :
    ∃ g more, runsFrom a m gs = g :: more ∧ g.marking = m := by
  cases gs with
  | nil => exact ⟨_, _, rfl, rfl⟩
  | cons g more =>
    by_cases h : g.marking = m
    · exact ⟨_, _, runsFrom_joins h more, rfl⟩
    · exact ⟨_, _, runsFrom_apart h more, rfl⟩

/-- A byte begins a run where its marking is not that of the byte behind it. -/
theorem resolve_length_succ (mark : Nat → Marking) (a n : Nat) :
    (resolve mark a (n + 2)).length
      = (resolve mark (a + 1) (n + 1)).length + if mark (a + 1) = mark a then 0 else 1 := by
  obtain ⟨g, more, e, hg⟩ := runsFrom_head (a + 1) (mark (a + 1)) (resolve mark (a + 1 + 1) n)
  rw [resolve_succ mark a, resolve_succ mark (a + 1), e, runsFrom_length, hg]

/-- Two ranges that follow one another have together no more runs than each has by itself. -/
theorem resolve_length_add (mark : Nat → Marking) (a n k : Nat) :
    (resolve mark a (n + k)).length ≤ (resolve mark a n).length + (resolve mark (a + n) k).length := by
  induction n generalizing a with
  | zero => simp
  | succ n ih =>
    have step := ih (a + 1)
    rw [show a + 1 + n = a + (n + 1) by omega] at step
    cases n with
    | zero =>
      cases k with
      | zero => simp
      | succ k =>
        rw [show 0 + 1 + (k + 1) = k + 2 by omega, resolve_length_succ]
        have : (resolve mark a (0 + 1)).length = 1 := rfl
        split <;> simp only [Nat.zero_add] at * <;> omega
    | succ n =>
      rw [show n + 1 + 1 + k = n + k + 2 by omega, resolve_length_succ, resolve_length_succ]
      rw [show n + 1 + k = n + k + 1 by omega] at step
      omega

/-- A range of one marking has one run at most. -/
theorem resolve_length_uniform {mark : Nat → Marking} {a n : Nat} {m : Marking}
    (h : ∀ i, i < n → mark (a + i) = m) : (resolve mark a n).length ≤ 1 := by
  have runs := resolve_runs mark a n
  have covered := resolve_covered mark a n
  match hr : resolve mark a n with
  | [] => simp
  | [_] => simp
  | g :: g' :: rest =>
    rw [hr] at runs covered
    obtain ⟨-, pos, first, differs, start', pos', second, -⟩ := runs
    simp only [coveredBy_cons] at covered
    have e : g.marking = m := by rw [← first 0 pos]; exact h 0 (by omega)
    have e' : g'.marking = m := by rw [← second 0 pos', Nat.add_assoc]; exact h _ (by omega)
    exact absurd (e'.trans e.symm) (differs g' (by simp))

/-! ### The presentation lane -/

/-- R6: a window covers a 256-byte block whole or not at all. -/
theorem Window.covers_congr {k : WindowKind} {w : Window} (h : w.law k) {a b : Nat} (hab : a / 256 = b / 256) :
    w.covers a = w.covers b := by
  unfold Window.law at h
  unfold Window.covers
  split_ifs at h with hs
  · obtain ⟨hb, hz, -⟩ := h
    rw [hs, Bool.true_and, Bool.true_and, decide_eq_decide]
    omega
  · simp [hs]

theorem presentationMark_congr {s : State} (h : LanesLaw s) {a b : Nat} (hab : a / 256 = b / 256) :
    presentationMark s a = presentationMark s b := by
  have covers : (fun n : Output × WindowKind => (s.window n.1 n.2).covers a)
      = fun n => (s.window n.1 n.2).covers b := funext fun n => Window.covers_congr (h.1 n.1 n.2) hab
  unfold presentationMark
  rw [covers]

/-- R7: a byte of a SET window is marked with it, since no other window shares it. -/
theorem presentationMark_covered {s : State} (h : LanesLaw s) {a : Nat} {o : Output} {k : WindowKind}
    (hc : (s.window o k).covers a = true) : presentationMark s a = .window o k (s.window o k).fill := by
  have found : (allWindows.find? fun n => (s.window n.1 n.2).covers a) = some (o, k) := by
    cases hf : allWindows.find? fun n => (s.window n.1 n.2).covers a with
    | none => exact absurd hc (by simpa using List.find?_eq_none.1 hf (o, k) (mem_allWindows o k))
    | some n =>
      have hn := List.find?_some hf
      by_contra ne
      have apart := h.2.1 n.1 n.2 o k (by simpa using ne)
      simp only [Window.covers, Bool.and_eq_true, decide_eq_true_eq] at hn hc
      have := apart hn.1 hc.1
      omega
  simp [presentationMark, found]

theorem presentationMark_uncovered {s : State} {a : Nat} (h : ∀ o k, (s.window o k).covers a = false) :
    presentationMark s a = .none := by
  have none_found : (allWindows.find? fun n => (s.window n.1 n.2).covers a) = none :=
    List.find?_eq_none.2 fun n _ => by simp [h n.1 n.2]
  simp [presentationMark, none_found]

/-- A range within one 256-byte block has one segment at most. -/
theorem presentation_block {s : State} (h : LanesLaw s) {a n : Nat} (hn : a % 256 + n ≤ 256) :
    (resolve (presentationMark s) a n).length ≤ 1 :=
  resolve_length_uniform (m := presentationMark s a) fun i hi => presentationMark_congr h (by omega)

/-- A range that reaches into the next block and no further has two segments at most. -/
theorem presentation_two {s : State} (h : LanesLaw s) {a n : Nat} (hn : a % 256 + n ≤ 512) :
    (resolve (presentationMark s) a n).length ≤ 2 := by
  have first := presentation_block h (a := a) (n := min n (256 - a % 256)) (by omega)
  have second := presentation_block h (a := a + min n (256 - a % 256)) (n := n - min n (256 - a % 256)) (by omega)
  have both := resolve_length_add (presentationMark s) a (min n (256 - a % 256)) (n - min n (256 - a % 256))
  rw [Nat.add_sub_cancel' (Nat.min_le_left _ _)] at both
  omega

/-- R12: a range of 512 bytes is the rest of a block and a range within two. -/
theorem presentation_three {s : State} (h : LanesLaw s) {a n : Nat} (hn : n ≤ 512) :
    (resolve (presentationMark s) a n).length ≤ 3 := by
  have first := presentation_block h (a := a) (n := min n (256 - a % 256)) (by omega)
  have later := presentation_two h (a := a + min n (256 - a % 256)) (n := n - min n (256 - a % 256)) (by omega)
  have all := resolve_length_add (presentationMark s) a (min n (256 - a % 256)) (n - min n (256 - a % 256))
  rw [Nat.add_sub_cancel' (Nat.min_le_left _ _)] at all
  omega

/-! ### The control lane -/

theorem controlMark_report {s : State} {a : Nat} (h1 : s.inputs.reportBase ≤ a)
    (h2 : a < s.inputs.reportBase + 2048) : controlMark s a = .report := by
  simp [controlMark, inReport, h1, h2]

theorem controlMark_none {s : State} {a : Nat} (h : a < s.inputs.reportBase ∨ s.inputs.reportBase + 2048 ≤ a) :
    controlMark s a = .none := by
  have : ¬ (s.inputs.reportBase ≤ a ∧ a < s.inputs.reportBase + 2048) := by omega
  simp [controlMark, inReport, this]

/-- R12: a range of 512 bytes, shorter than the report window, holds one end of it at most. -/
theorem control_two (s : State) {a n : Nat} (hn : n ≤ 512) : (resolve (controlMark s) a n).length ≤ 2 := by
  have pieces : ∀ x ≤ n, (resolve (controlMark s) a x).length ≤ 1 →
      (resolve (controlMark s) (a + x) (n - x)).length ≤ 1 → (resolve (controlMark s) a n).length ≤ 2 := by
    intro x hx h1 h2
    have both := resolve_length_add (controlMark s) a x (n - x)
    rw [Nat.add_sub_cancel' hx] at both
    omega
  by_cases before : a < s.inputs.reportBase
  · refine pieces (min n (s.inputs.reportBase - a)) (Nat.min_le_left _ _)
      (resolve_length_uniform fun i hi => controlMark_none (by omega))
      (resolve_length_uniform fun i hi => controlMark_report (by omega) (by omega))
  · refine pieces (min n (s.inputs.reportBase + 2048 - a)) (Nat.min_le_left _ _)
      (resolve_length_uniform fun i hi => controlMark_report (by omega) (by omega))
      (resolve_length_uniform fun i hi => controlMark_none (by omega))

/-- Settles O21: the segments are maximal runs, and a burst meets few ends of windows. -/
theorem segmentsCoverTheBurst : Obligations.SegmentsCoverTheBurst := by
  intro s start count h hc
  refine ⟨presentation_three h hc, fun hn => presentation_two h (by omega), control_two s hc,
    fun a o k => presentationMark_covered h, fun a => presentationMark_uncovered, fun mark _ =>
    ⟨resolve_covered mark start count, fun before g after e => ?_⟩⟩
  have runs := resolve_runs mark start count
  rw [e] at runs
  exact runs.at

end Sys2Proof.Machine
end

section
/-! PROOF. Responses on the presentation and control lanes (R4, R14 to R19, R21, R182, R185): what is returned for
each byte, and what a response changes. -/

namespace Sys2Proof.Machine

open Sys2Proof

/-! ### Data treated segment by segment -/

/-- The data of a response, each segment's bytes changed by a function: what both lanes do. -/
def bySegment (f : Segment → List Byte → List Byte) : List Segment → List Byte → List Byte
  | [], _ => []
  | g :: rest, bytes => f g (bytes.take g.count) ++ bySegment f rest (bytes.drop g.count)

theorem treatData_eq (s : State) (gs : List Segment) (bytes : List Byte) :
    treatData s gs bytes = bySegment (treatSegment s) gs bytes := by
  induction gs generalizing bytes with
  | nil => rfl
  | cons g gs ih => rw [treatData, bySegment, ih]

theorem answerData_eq (supplied : List Byte) (base : Nat) (gs : List Segment) (bytes : List Byte) :
    answerData supplied base gs bytes = bySegment (answerSegment supplied base) gs bytes := by
  induction gs generalizing bytes with
  | nil => rfl
  | cons g gs ih => rw [answerData, bySegment, ih]

/-- A function gives as many bytes as the segment has. -/
def KeepsCount (f : Segment → List Byte → List Byte) (g : Segment) : Prop :=
  ∀ bytes : List Byte, bytes.length = g.count → (f g bytes).length = g.count

theorem bySegment_length {f : Segment → List Byte → List Byte} {gs : List Segment} {bytes : List Byte}
    (hf : ∀ g ∈ gs, KeepsCount f g) (h : coveredBy gs = bytes.length) :
    (bySegment f gs bytes).length = bytes.length := by
  induction gs generalizing bytes with
  | nil => exact h
  | cons g gs ih =>
    rw [coveredBy_cons] at h
    have here := hf g (by simp) (bytes.take g.count) (by simp only [List.length_take]; omega)
    have later := ih (bytes := bytes.drop g.count) (fun x hx => hf x (by simp [hx]))
      (by simp only [List.length_drop]; omega)
    rw [bySegment, List.length_append, here, later, List.length_drop]
    omega

/-- The bytes of a response are those of the segments, each in its place. -/
theorem bySegment_getElem? {f : Segment → List Byte → List Byte} {before after : List Segment} {g : Segment}
    {bytes : List Byte} (hf : ∀ x ∈ before ++ g :: after, KeepsCount f x)
    (h : coveredBy (before ++ g :: after) = bytes.length) {i : Nat} (hi : i < g.count) :
    (bySegment f (before ++ g :: after) bytes)[coveredBy before + i]?
      = (f g ((bytes.drop (coveredBy before)).take g.count))[i]? := by
  induction before generalizing bytes with
  | nil =>
    simp only [List.nil_append, coveredBy_cons] at h
    have here := hf g (by simp) (bytes.take g.count) (by simp only [List.length_take]; omega)
    simp only [List.nil_append, bySegment, coveredBy_nil, Nat.zero_add, List.drop_zero]
    exact List.getElem?_append_left (by omega)
  | cons b before ih =>
    simp only [List.cons_append, coveredBy_cons] at h
    have here := hf b (by simp) (bytes.take b.count) (by simp only [List.length_take]; omega)
    have later := ih (bytes := bytes.drop b.count) (fun x hx => hf x (by simp [hx]))
      (by simp only [List.length_drop]; omega)
    rw [List.drop_drop] at later
    rw [coveredBy_cons, ← later, List.cons_append, bySegment, List.getElem?_append_right (by omega), here]
    congr 1
    omega

/-- A byte that segments cover lies in one of them. -/
theorem exists_segment {gs : List Segment} {i : Nat} (h : i < coveredBy gs) :
    ∃ before g after j, gs = before ++ g :: after ∧ i = coveredBy before + j ∧ j < g.count := by
  induction gs generalizing i with
  | nil => exact absurd h (Nat.not_lt_zero i)
  | cons g gs ih =>
    rw [coveredBy_cons] at h
    by_cases hi : i < g.count
    · exact ⟨[], g, gs, i, rfl, by simp, hi⟩
    · obtain ⟨before, x, after, j, rfl, hj, hx⟩ := ih (i := i - g.count) (by omega)
      exact ⟨g :: before, x, after, j, rfl, by rw [coveredBy_cons]; omega, hx⟩

/-! ### Presentation responses (R14 to R19, R21) -/

theorem passes_iff (v : Verdict) : v.passes = true ↔ ¬ (v = .pending ∨ v = .blocked) := by
  cases v <;> simp [Verdict.passes]

theorem treatSegment_keepsCount (s : State) (g : Segment) : KeepsCount (treatSegment s) g := by
  intro bytes h
  unfold treatSegment
  split
  · split
    · exact h
    · simpa using h
  · exact h
  · exact h

/-- R15: a byte of a window whose output is PENDING or BLOCKED is substituted. -/
theorem treatSegment_blocked {s : State} {g : Segment} {o : Output} {k : WindowKind} {fill : Word}
    (hg : g.marking = .window o k fill)
    (hv : (s.context o).verdict = .pending ∨ (s.context o).verdict = .blocked) {bytes : List Byte} {i : Nat}
    (hi : i < bytes.length) : (treatSegment s g bytes)[i]? = some (substitutionByte k fill (g.start + i)) := by
  have hp : (s.context o).verdict.passes = false := by
    simpa using (passes_iff _).not.2 (not_not.2 hv)
  simp [treatSegment, hg, hp, hi]

/-- R14: every other byte is memory's. -/
theorem treatSegment_passing {s : State} {g : Segment}
    (h : ∀ o k fill, g.marking = .window o k fill →
      ¬ ((s.context o).verdict = .pending ∨ (s.context o).verdict = .blocked)) (bytes : List Byte) :
    treatSegment s g bytes = bytes := by
  unfold treatSegment
  split
  · next o k fill hg => rw [if_pos ((passes_iff _).2 (h o k fill hg))]
  · rfl
  · rfl

theorem showsPicture_iff (s : State) (gs : List Segment) (o : Output) :
    showsPicture s gs o = true ↔
      (s.context o).verdict.passes = true ∧ ∃ g ∈ gs, ∃ fill, g.marking = .window o .picture fill := by
  unfold showsPicture
  rw [List.any_eq_true]
  constructor
  · rintro ⟨g, hg, h⟩
    split at h
    · next o' fill hm =>
      simp only [segmentPasses, hm, Bool.and_eq_true, decide_eq_true_eq] at h
      obtain ⟨rfl, hp⟩ := h
      exact ⟨hp, g, hg, fill, hm⟩
    · cases h
  · rintro ⟨hp, g, hg, fill, hm⟩
    exact ⟨g, hg, by simp [hm, segmentPasses, hp]⟩

/-- R19: a response raises the activity flags of the outputs whose picture it shows, and lowers none. -/
theorem flagsAfter_get (s : State) (gs : List Segment) (status : Status) (o : Output) :
    (flagsAfter s gs status).get o
      = (s.lanes.activity.get o || (decide (status = .okay) && showsPicture s gs o)) := by
  unfold flagsAfter
  split
  · next h => cases o <;> simp [PerOutput.get, h]
  · next h => simp [h]

theorem takePresentationResponse_unknown {s : State} {tag : Nat} (h : ∀ e ∈ s.lanes.presentation, e.tag ≠ tag)
    (status : Status) (data : List Byte) : takePresentationResponse tag status data s = s := by
  have none_found : oldestOf tag s.lanes.presentation = none :=
    List.find?_eq_none.2 fun e he => by simpa using h e he
  simp [takePresentationResponse, none_found]

theorem oldestOf_append {tag : Nat} {older younger : List InFlight} {e : InFlight} (he : e.tag = tag)
    (h : ∀ d ∈ older, d.tag ≠ tag) : oldestOf tag (older ++ e :: younger) = some e :=
  List.find?_eq_some_iff_append.2 ⟨by simpa using he, older, younger, rfl, fun d hd => by simpa using h d hd⟩

theorem takePresentationResponse_known {s : State} {tag : Nat} {older younger : List InFlight} {e : InFlight}
    (ht : s.lanes.presentation = older ++ e :: younger) (he : e.tag = tag) (h : ∀ d ∈ older, d.tag ≠ tag)
    (status : Status) (data : List Byte) :
    takePresentationResponse tag status data s = { s with lanes := { s.lanes with
      presentation := older ++ younger
      activity := flagsAfter s e.segments status
      out := s.lanes.out ++ [.response .presentation tag status (treatData s e.segments data)] } } := by
  have found : oldestOf tag s.lanes.presentation = some e := by rw [ht]; exact oldestOf_append he h
  have removed : s.lanes.presentation.erase e = older ++ younger := by
    rw [ht, List.erase_append_right _ (fun hm => h e hm he), List.erase_cons_head]
  simp [takePresentationResponse, found, removed]

/-- Settles O26: byte by byte, a response is what is made of the segment the byte lies in. -/
theorem substitutionLaw : Obligations.SubstitutionLaw := by
  intro s tag status data hr hd
  refine ⟨fun h => ?unknown, fun older e younger ht he h hc => ?known⟩
  case unknown =>
    exact (ifBurst_running hr hd).trans (congrArg _ (takePresentationResponse_unknown h status data))
  case known =>
    have counts : ∀ g ∈ e.segments, KeepsCount (treatSegment s) g := fun g _ => treatSegment_keepsCount s g
    refine ⟨_, treatData s e.segments data, (ifBurst_running hr hd).trans
      (congrArg _ (takePresentationResponse_known ht he h status data)), rfl, rfl, ?_,
      fun before g after i hg hi => ?_, fun o => ?_, ?_⟩
    · rw [treatData_eq]
      exact bySegment_length counts hc
    · have place : coveredBy before + g.count ≤ data.length := by
        rw [← hc, hg, coveredBy_append, coveredBy_cons]
        omega
      have memory : ((data.drop (coveredBy before)).take g.count)[i]? = data[coveredBy before + i]? := by
        rw [List.getElem?_take_of_lt hi, List.getElem?_drop]
      rw [treatData_eq, hg, bySegment_getElem? (hg ▸ counts) (hg ▸ hc) hi]
      cases hm : g.marking with
      | window o k fill =>
        by_cases hv : (s.context o).verdict = .pending ∨ (s.context o).verdict = .blocked
        · rw [treatSegment_blocked hm hv (by simp only [List.length_take, List.length_drop]; omega)]
          cases k <;> simp [hv, substitutionByte]
        · rw [treatSegment_passing (fun o' k' fill' e' => by cases hm.symm.trans e'; exact hv), memory]
          simp [hv]
      | none => rw [treatSegment_passing (by simp [hm]), memory]
      | report => rw [treatSegment_passing (by simp [hm]), memory]
    · simp only [flagsAfter_get, Bool.or_eq_true, Bool.and_eq_true, decide_eq_true_eq, showsPicture_iff,
        passes_iff, not_or, and_assoc, ne_eq]
    · have w := (takePresentationResponse_within tag status data s).frame
      rw [takePresentationResponse_known ht he h] at w
      exact w.mono (by simp)

/-! ### Control responses (R4, R21, R182, R185) -/

theorem padTo_length (n : Nat) (bytes : List Byte) : (padTo n bytes).length = n := by
  simp [padTo]

theorem noticeBytes_length (n : Option Notice) : (noticeBytes n).length = 32 := by
  cases n <;> exact padTo_length _ _

theorem viewBytes_length (s : State) : (viewBytes s).length = 1024 := by
  unfold viewBytes
  split <;> exact padTo_length _ _

/-- R182: the report window is 2 KiB. -/
theorem reportBytes_length (s : State) (atPort : Bool) : (reportBytes s atPort).length = 2048 := by
  cases atPort <;>
    simp [reportBytes, summaryBytes, identificationBytes, padTo_length, noticeBytes_length, viewBytes_length]

/-- R4, R182: a byte of the report window is the report unit's. -/
theorem answerSegment_report {g : Segment} (h : g.marking = .report) (supplied : List Byte) (base : Nat)
    (bytes : List Byte) :
    answerSegment supplied base g bytes = (supplied.drop (g.start - base)).take bytes.length := by
  simp [answerSegment, h]

theorem answerSegment_memory {g : Segment} (h : g.marking = .none) (supplied : List Byte) (base : Nat)
    (bytes : List Byte) : answerSegment supplied base g bytes = bytes := by
  simp [answerSegment, h]

theorem controlMark_eq_report {s : State} {a : Nat} (h : controlMark s a = .report) :
    s.inputs.reportBase ≤ a ∧ a < s.inputs.reportBase + 2048 := by
  by_contra hn
  rw [controlMark_none (by omega)] at h
  cases h

theorem controlMark_eq_none {s : State} {a : Nat} (h : controlMark s a = .none) :
    ¬ (s.inputs.reportBase ≤ a ∧ a < s.inputs.reportBase + 2048) := by
  intro hn
  rw [controlMark_report hn.1 hn.2] at h
  cases h

/-- A segment of a control request lies in the report window whole or not at all. -/
theorem control_segment {s : State} {a n : Nat} {before after : List Segment} {g : Segment}
    (h : resolve (controlMark s) a n = before ++ g :: after) :
    g.start = a + coveredBy before ∧
      ((g.marking = .report ∧ s.inputs.reportBase ≤ g.start ∧ g.start + g.count ≤ s.inputs.reportBase + 2048)
        ∨ (g.marking = .none ∧ ∀ i, i < g.count →
          ¬ (s.inputs.reportBase ≤ g.start + i ∧ g.start + i < s.inputs.reportBase + 2048))) := by
  have runs := resolve_runs (controlMark s) a n
  rw [h] at runs
  obtain ⟨start, pos, inside, -⟩ := runs.at
  refine ⟨start, ?_⟩
  cases hm : g.marking with
  | report =>
    have first := controlMark_eq_report ((inside 0 pos).trans hm)
    have last := controlMark_eq_report ((inside (g.count - 1) (by omega)).trans hm)
    exact .inl ⟨rfl, by omega, by omega⟩
  | none => exact .inr ⟨rfl, fun i hi => controlMark_eq_none ((inside i hi).trans hm)⟩
  | window o k fill =>
    have := (inside 0 pos).trans hm
    unfold controlMark at this
    split at this <;> cases this

theorem control_keepsCount {s : State} {a n : Nat} {supplied : List Byte} (hs : supplied.length = 2048) :
    ∀ g ∈ resolve (controlMark s) a n, KeepsCount (answerSegment supplied s.inputs.reportBase) g := by
  intro g hg bytes hb
  obtain ⟨before, after, e⟩ := List.append_of_mem hg
  obtain ⟨-, ⟨hm, h1, h2⟩ | ⟨hm, -⟩⟩ := control_segment e
  · rw [answerSegment_report hm, List.length_take, List.length_drop, hs]
    omega
  · rw [answerSegment_memory hm, hb]

/-- R4: the data of a marked response, byte by byte. -/
theorem answerData_getElem? {s : State} {a : Nat} {supplied data : List Byte} (hs : supplied.length = 2048)
    {i : Nat} (hi : i < data.length) :
    (answerData supplied s.inputs.reportBase (resolve (controlMark s) a data.length) data)[i]?
      = if s.inputs.reportBase ≤ a + i ∧ a + i < s.inputs.reportBase + 2048 then
          supplied[a + i - s.inputs.reportBase]?
        else data[i]? := by
  have covered := resolve_covered (controlMark s) a data.length
  have counts := control_keepsCount (s := s) (a := a) (n := data.length) hs
  obtain ⟨before, g, after, j, e, rfl, hj⟩ := exists_segment (i := i) (covered.symm ▸ hi)
  obtain ⟨start, where_⟩ := control_segment e
  rw [e] at covered counts
  have place : coveredBy before + g.count ≤ data.length := by
    rw [← covered, coveredBy_append, coveredBy_cons]
    omega
  rw [answerData_eq, e, bySegment_getElem? counts covered hj, ← Nat.add_assoc, ← start]
  obtain ⟨hm, h1, h2⟩ | ⟨hm, h⟩ := where_
  · rw [answerSegment_report hm, if_pos ⟨by omega, by omega⟩, List.getElem?_take_of_lt, List.getElem?_drop]
    · congr 1
      omega
    · simp only [List.length_take, List.length_drop]
      omega
  · rw [answerSegment_memory hm, if_neg (h j hj), List.getElem?_take_of_lt hj, List.getElem?_drop]

/-! ### What a read of the report window does -/

theorem popNotice_best {s : State} {n : Notice} (h : bestNotice s.report.queue = some n) :
    (popNotice s).report.queue = s.report.queue.erase n := by
  simp only [popNotice, h]
  rfl

/-- R185: the state after the port's part of a read. -/
theorem readEffects_eq (start count : Nat) (s : State) :
    readEffects start count s
      = if rangesMeet start count (s.inputs.reportBase + 0x200) 0x40 = true then
          clearSticky (if beginsAtPort s.inputs start then popNotice s else s)
        else if beginsAtPort s.inputs start then popNotice s else s := rfl

theorem readEffects_frame (start count : Nat) (s : State) :
    Frame ((if start = s.inputs.reportBase + 0x280 then [.notices] else [])
      ++ (if rangesMeet start count (s.inputs.reportBase + 0x200) 0x40 = true then [.flags] else [])) s
      (readEffects start count s) := by
  have port : Frame (if start = s.inputs.reportBase + 0x280 then [.notices] else []) s
      (if beginsAtPort s.inputs start then popNotice s else s) := by
    by_cases hp : start = s.inputs.reportBase + 0x280
    · simpa [beginsAtPort, hp] using (popNotice_within s).frame
    · simpa [beginsAtPort, hp] using Frame.refl [] s
  rw [readEffects_eq]
  by_cases hs : rangesMeet start count (s.inputs.reportBase + 0x200) 0x40 = true
  · rw [if_pos hs, if_pos hs]
    exact (port.mono fun p hp => List.mem_append_left _ hp).trans
      ((clearSticky_within _).frame.mono fun p hp => List.mem_append_right _ hp)
  · rw [if_neg hs, if_neg hs, List.append_nil]
    exact port

theorem readEffects_queue {s : State} {start : Nat} (count : Nat) (hp : start = s.inputs.reportBase + 0x280)
    {n : Notice} (h : bestNotice s.report.queue = some n) :
    (readEffects start count s).report.queue = s.report.queue.erase n := by
  have port : beginsAtPort s.inputs start = true := by simp [beginsAtPort, hp]
  rw [readEffects_eq, port, if_pos rfl, ← popNotice_best h]
  split <;> rfl

theorem readEffects_flags {s : State} {start count : Nat}
    (h : rangesMeet start count (s.inputs.reportBase + 0x200) 0x40 = true) :
    (readEffects start count s).report.sticky = 0 ∧ (readEffects start count s).report.lost = false := by
  rw [readEffects_eq, if_pos h]
  exact ⟨rfl, rfl⟩

/-- R4: the state after a marked response has been returned, before what its read does to the report unit. -/
def answered (e : InFlight) (status : Status) (data : List Byte) (s : State) : State :=
  { s with lanes := { s.lanes with
      control := s.lanes.control.erase e
      out := s.lanes.out ++ [.response .control e.tag status
        (answerData (reportBytes s (beginsAtPort s.inputs e.start)) s.inputs.reportBase e.segments data)] } }

theorem answered_frame (e : InFlight) (status : Status) (data : List Byte) (s : State) :
    Frame [.transfers, .controlTable] s (answered e status data s) := by
  intro p hp
  have same := p.same_refl s
  cases p
  case transfers | controlTable => simp at hp
  all_goals exact same

theorem takeMarkedResponse_unknown {s : State} {m : Nat} (h : markedEntry m s.lanes.control = none)
    (status : Status) (data : List Byte) : takeMarkedResponse m status data s = s := by
  simp [takeMarkedResponse, h]

theorem takeMarkedResponse_known {s : State} {m : Nat} {e : InFlight}
    (h : markedEntry m s.lanes.control = some e) (status : Status) (data : List Byte) :
    takeMarkedResponse m status data s
      = if status = .okay then readEffects e.start e.count (answered e status data s)
        else answered e status data s := by
  simp [takeMarkedResponse, h, answered]

/-- R4, R182, R185: what a response whose mark names an entry leaves as it was. -/
theorem takeMarkedResponse_frame {s : State} {m : Nat} {e : InFlight}
    (h : markedEntry m s.lanes.control = some e) (status : Status) (data : List Byte) :
    Frame (.transfers :: .controlTable
      :: ((if status = .okay ∧ e.start = s.inputs.reportBase + 0x280 then [.notices] else [])
        ++ (if status = .okay ∧ rangesMeet e.start e.count (s.inputs.reportBase + 0x200) 0x40 = true then [.flags]
            else []))) s (takeMarkedResponse m status data s) := by
  have returned := answered_frame e status data s
  rw [takeMarkedResponse_known h]
  by_cases hs : status = .okay
  · simp only [hs, true_and, if_true] at returned ⊢
    exact (returned.mono (by simp)).trans
      ((readEffects_frame e.start e.count (answered e .okay data s)).mono fun p hp => .tail _ (.tail _ hp))
  · simpa [hs] using returned

/-- Settles O22: a byte lies in a segment that is the report unit's or memory's, and the read's effects follow. -/
theorem controlResponsesAnswerFromTheReport : Obligations.ControlResponsesAnswerFromTheReport := by
  intro s tag m status data hr hd
  refine ⟨ifBurst_running hr hd, fun h => ?unknown, fun e h hlen hseg => ?known, rfl, rfl⟩
  case unknown =>
    exact (ifBurst_running hr hd).trans (congrArg _ (takeMarkedResponse_unknown h status data))
  case known =>
    have supplied := reportBytes_length s (beginsAtPort s.inputs e.start)
    rw [← hlen] at hseg
    have keeps : ∀ p, p ∉ raised → p.same (answered e status data s) (takeMarkedResponse m status data s) := by
      intro p hp
      rw [takeMarkedResponse_known h]
      split
      · exact (readEffects_within ..).frame p hp
      · exact p.same_refl _
    refine ⟨_, answerData (reportBytes s (beginsAtPort s.inputs e.start)) s.inputs.reportBase e.segments data,
      ifBurst_running hr hd, keeps .transfers (by simp), keeps .controlTable (by simp), ?_, fun i hi => ?_,
      fun hs hp n hn => ?_, fun hs hm => ?_, takeMarkedResponse_frame h status data⟩
    · rw [answerData_eq, hseg]
      exact bySegment_length (control_keepsCount supplied) (resolve_covered ..)
    · rw [hseg]
      exact answerData_getElem? supplied hi
    · show (takeMarkedResponse m status data s).report.queue = _
      rw [takeMarkedResponse_known h, if_pos hs]
      exact readEffects_queue (s := answered e status data s) e.count hp hn
    · show (takeMarkedResponse m status data s).report.sticky = 0 ∧ (takeMarkedResponse m status data s).report.lost = _
      rw [takeMarkedResponse_known h, if_pos hs]
      exact readEffects_flags (s := answered e status data s) hm

end Sys2Proof.Machine
end

section
/-! PROOF. A host command taken from a ring that is ready (R178 to R181): from what its owner answers to what its
row does; and the owner's answers for SET_WINDOW, COMMIT_LAYOUT and SET_PANEL_ADDRESSES (R8, R10, R160). -/

namespace Sys2Proof.Machine

open Sys2Proof

/-! ### From the owner's answer to the row's -/

/-- R180: the state in which a command reaches its owner: taken, and the session slid where it is privileged. -/
def atOwner (c : Command) (s : State) : State :=
  if privileged c s then slideSession (markTaken c s) else markTaken c s

theorem markTaken_frame (c : Command) (s : State) : Frame (ringParts s) s (markTaken c s) := by
  intro p hp
  have same := p.same_refl s
  cases p
  case slot n =>
    have hn : n ≠ s.command.pointer := fun e => hp (by simp [e])
    simp only [Part.same, markTaken, State.slot, Fin.getElem_fin, Vector.getElem_set]
    rw [if_neg (fun e => hn (Fin.ext e.symm))]
  case shadow | pointer => simp at hp
  all_goals exact same

theorem atOwner_frame (c : Command) (s : State) : Frame (.sessionRemaining :: ringParts s) s (atOwner c s) := by
  have marked := (markTaken_frame c s).mono (qs := .sessionRemaining :: ringParts s) (fun p hp => .tail _ hp)
  unfold atOwner
  split
  · exact marked.trans ((slideSession_within _).frame.mono (by simp))
  · exact marked

/-- R180, R181: the end of a take writes the result and moves the pointer on. -/
theorem takeEnd_frame (s u : State) (r : ResultRecord) :
    Frame (ringParts s) u (advancePointer (u.putResult s.command.pointer r)) := by
  intro p hp
  have same := p.same_refl u
  cases p
  case slot n =>
    have hn : n ≠ s.command.pointer := fun e => hp (by simp [e])
    exact (slot_putResult u s.command.pointer n r).trans (if_neg hn)
  case shadow | pointer => simp at hp
  all_goals exact same

/-- Whether a command is privileged is not about the command unit. -/
theorem privileged_markTaken (c d : Command) (s : State) : privileged c (markTaken d s) = privileged c s := by
  cases c <;> rfl

/-- R180: a command that is allowed is judged as its owner answers. -/
theorem judgeCommand_allowed {c : Command} {s : State} (h : Allowed c s) (slot : Fin 16) :
    judgeCommand slot c (markTaken c s) = obey slot c (atOwner c s) := by
  unfold judgeCommand atOwner
  rw [privileged_markTaken]
  cases hp : privileged c s with
  | true => rw [if_pos rfl, if_pos rfl, if_pos (show authority (markTaken c s) = true from h hp)]
  | false => rfl

/-- The row of an allowed host command on a ready ring: its owner's answer, told and entered. -/
theorem exec_ready {i : Instr} {c : Command} {s : State} (hi : commandOf i = some c) (hr : Ready i s) :
    exec i s = .next (advancePointer
      ((obey s.command.pointer c (atOwner c s)).1.putResult s.command.pointer
        (resultAt (hostRecord c s) (obey s.command.pointer c (atOwner c s)).2))) := by
  rw [exec_host hi, whileRunning_eq hr.1.1, hostPosts_eq c s hr.1, judgeCommand_allowed (hr.2 c hi)]

/-- What an owner answers and leaves alone is what the row of its command answers and leaves alone; the parts
outside the command unit are as the owner left them. -/
theorem took_of_obey {i : Instr} {c : Command} {s u : State} {r : Response} {ps : List Part}
    (hi : commandOf i = some c) (hr : Ready i s) (hc : c ≠ .factoryClear)
    (ho : obey s.command.pointer c (atOwner c s) = (u, r)) (hf : Frame ps (atOwner c s) u) :
    ∃ t, exec i s = .next t ∧ Took c r (.sessionRemaining :: ps) s t ∧ Frame (ringParts s) u t := by
  have unit := (hostPosts_took c s hr.1 hc).1
  rw [hostPosts_eq c s hr.1, judgeCommand_allowed (hr.2 c hi), ho] at unit
  have row := exec_ready hi hr
  rw [ho] at row
  have done := takeEnd_frame s u (resultAt (hostRecord c s) r)
  have before := (atOwner_frame c s).mono (qs := ringParts s ++ .sessionRemaining :: ps) (by simp)
  have owner := hf.mono (qs := ringParts s ++ .sessionRemaining :: ps)
    (fun p hp => List.mem_append_right _ (.tail _ hp))
  exact ⟨_, row, ⟨unit, (before.trans owner).trans (done.mono fun p hp => List.mem_append_left _ hp)⟩, done⟩

/-- As `took_of_obey`, for a command that is not about sessions: the open session slides as R180 gives. -/
theorem ends_of_obey {i : Instr} {c : Command} {s u : State} {r : Response} {ps : List Part}
    (hi : commandOf i = some c) (hr : Ready i s) (hc : c ≠ .factoryClear)
    (hm : Part.sessionRemaining ∉ commandParts c)
    (ho : obey s.command.pointer c (atOwner c s) = (u, r)) (hf : Frame ps (atOwner c s) u) :
    ∃ t, Ends i r ps s t ∧ Frame (ringParts s) u t := by
  obtain ⟨t, row, took, done⟩ := took_of_obey hi hr hc ho hf
  have left : t.pin.sessionRemaining = u.pin.sessionRemaining := done .sessionRemaining (by simp)
  have slid := judgeCommand_remaining s.command.pointer c (markTaken c s) hm
  rw [judgeCommand_allowed (hr.2 c hi), ho, slidRemaining, privileged_markTaken] at slid
  exact ⟨t, ⟨row, c, hi, took, left.trans slid⟩, done⟩

theorem refuses_of_obey {i : Instr} {c : Command} {s : State} {outcome : CommandOutcome}
    (hi : commandOf i = some c) (hr : Ready i s) (hc : c ≠ .factoryClear)
    (hm : Part.sessionRemaining ∉ commandParts c)
    (ho : obey s.command.pointer c (atOwner c s) = refuse outcome (atOwner c s)) : Refuses i outcome s := by
  obtain ⟨t, ends, -⟩ := ends_of_obey hi hr hc hm ho (.refl [] _)
  exact ⟨t, ends⟩

theorem atOwner_window (c : Command) (s : State) (o : Output) (k : WindowKind) :
    (atOwner c s).window o k = s.window o k := atOwner_frame c s (.window o k) (by simp)

/-! ### SET_WINDOW (R8) -/

theorem outputOf_code {b : Byte} {o : Output} (h : outputCode o = b.toNat) : outputOf b = some o := by
  unfold outputOf
  rw [← h]
  cases o <;> rfl

theorem windowKindOf_code {b : Byte} {k : WindowKind} (h : windowKindCode k = b.toNat) :
    windowKindOf b = some k := by
  unfold windowKindOf
  rw [← h]
  cases k <;> rfl

theorem outputOf_none {b : Byte} (h : 3 ≤ b.toNat) : outputOf b = none := by
  unfold outputOf
  split
  all_goals first | rfl | omega

theorem windowKindOf_none {b : Byte} (h : 2 ≤ b.toNat) : windowKindOf b = none := by
  unfold windowKindOf
  split
  all_goals first | rfl | omega

theorem putWindow_frame (o : Output) (k : WindowKind) (w : Window) (s : State) :
    Frame [.window o k] s (s.putWindow o k w) := by
  intro p hp
  have same := p.same_refl s
  cases p
  case window o' k' =>
    have ne : (o', k') ≠ (o, k) := fun e => hp (by simp only [Prod.mk.injEq] at e; simp [e.1, e.2])
    simp [Part.same, window_putWindow, ne]
  all_goals exact same

theorem overlapsWindow_iff (o : Output) (k : WindowKind) (base size : Nat) (s : State) :
    overlapsWindow o k base size s = true ↔
      ∃ o' k', (o', k') ≠ (o, k) ∧ (s.window o' k').set = true
        ∧ rangesMeet base size (s.window o' k').base (s.window o' k').size = true := by
  simp only [overlapsWindow, List.any_eq_true, Bool.and_eq_true, decide_eq_true_eq, and_assoc]
  exact ⟨fun ⟨n, _, h⟩ => ⟨n.1, n.2, h⟩, fun ⟨o', k', h⟩ => ⟨(o', k'), mem_allWindows o' k', h⟩⟩

section
variable {output kind : Byte} {base size fill : Word} {u : State}

theorem obeySetWindow_badOperand (h : 3 ≤ output.toNat ∨ 2 ≤ kind.toNat) :
    obeySetWindow output kind base size fill u = refuse .badField u := by
  unfold obeySetWindow
  obtain h | h := h
  · rw [outputOf_none h]
  · rw [windowKindOf_none h]
    cases outputOf output <;> rfl

variable {o : Output} {k : WindowKind} (ho : outputOf output = some o) (hk : windowKindOf kind = some k)
include ho hk

theorem obeySetWindow_unset (h : size.toNat = 0) :
    obeySetWindow output kind base size fill u = complete false [] (u.putWindow o k .unset) := by
  simp [obeySetWindow, ho, hk, h]

theorem obeySetWindow_badField (h0 : size.toNat ≠ 0) (h : windowFits base.toNat size.toNat = false) :
    obeySetWindow output kind base size fill u = refuse .badField u := by
  simp [obeySetWindow, ho, hk, h0, h]

theorem obeySetWindow_overlap (h0 : size.toNat ≠ 0) (h : windowFits base.toNat size.toNat = true)
    (hv : overlapsWindow o k base.toNat size.toNat u = true) :
    obeySetWindow output kind base size fill u = refuse .overlap u := by
  simp [obeySetWindow, ho, hk, h0, h, hv]

theorem obeySetWindow_set (h0 : size.toNat ≠ 0) (h : windowFits base.toNat size.toNat = true)
    (hv : overlapsWindow o k base.toNat size.toNat u = false) :
    obeySetWindow output kind base size fill u
      = complete false [] (u.putWindow o k ⟨true, base.toNat, size.toNat, fillFor k fill⟩) := by
  simp [obeySetWindow, ho, hk, h0, h, hv]

end

theorem sessionRemaining_notMem_setWindow {output kind : Byte} {base size fill : Word} :
    Part.sessionRemaining ∉ commandParts (.setWindow output kind base size fill) :=
  remaining_notMem_commandParts _ (by simp) (by simp) (by simp) (by simp)

/-- A window written by the owner of SET_WINDOW is written by its row. -/
theorem setWindow_ends {output kind : Byte} {base size fill : Word} {s : State} {o : Output} {k : WindowKind}
    {w : Window} (hr : Ready (.setWindow output kind base size fill) s)
    (h : obeySetWindow output kind base size fill (atOwner (.setWindow output kind base size fill) s)
      = complete false [] ((atOwner (.setWindow output kind base size fill) s).putWindow o k w)) :
    ∃ t, Ends (.setWindow output kind base size fill) (.done .doneOk []) [.window o k] s t ∧ t.window o k = w := by
  obtain ⟨t, ends, done⟩ := ends_of_obey rfl hr (by simp) sessionRemaining_notMem_setWindow h
    (putWindow_frame o k w _)
  exact ⟨t, ends, (done (.window o k) (by simp)).trans (window_putWindow_self ..)⟩

/-- R8: the checks of SET_WINDOW in their order, and its effect. -/
theorem setWindow_row (s : State) (output kind : Byte) (base size fill : Word)
    (hr : Ready (.setWindow output kind base size fill) s) (o : Output) (k : WindowKind)
    (ho : outputOf output = some o) (hk : windowKindOf kind = some k) :
    (size.toNat = 0 → ∃ t, Ends (.setWindow output kind base size fill) (.done .doneOk []) [.window o k] s t
        ∧ t.window o k = .unset)
      ∧ (size.toNat ≠ 0 →
        (windowFits base.toNat size.toNat = false → Refuses (.setWindow output kind base size fill) .badField s)
        ∧ (windowFits base.toNat size.toNat = true →
          (overlapsWindow o k base.toNat size.toNat s = true →
            Refuses (.setWindow output kind base size fill) .overlap s)
          ∧ (overlapsWindow o k base.toNat size.toNat s = false →
            ∃ t, Ends (.setWindow output kind base size fill) (.done .doneOk []) [.window o k] s t
              ∧ t.window o k = ⟨true, base.toNat, size.toNat, fillFor k fill⟩))) := by
  have refused := fun oc => refuses_of_obey (outcome := oc) rfl hr (by simp)
    (sessionRemaining_notMem_setWindow (output := output) (kind := kind) (base := base) (size := size) (fill := fill))
  have overlaps : overlapsWindow o k base.toNat size.toNat (atOwner (.setWindow output kind base size fill) s)
      = overlapsWindow o k base.toNat size.toNat s := by
    simp only [overlapsWindow, atOwner_window]
  refine ⟨fun h0 => setWindow_ends hr (obeySetWindow_unset ho hk h0), fun h0 =>
    ⟨fun hf => refused _ (obeySetWindow_badField ho hk h0 hf), fun hf =>
      ⟨fun hv => refused _ (obeySetWindow_overlap ho hk h0 hf (overlaps.trans hv)), fun hv =>
        setWindow_ends hr (obeySetWindow_set ho hk h0 hf (overlaps.trans hv))⟩⟩⟩

/-! ### COMMIT_LAYOUT and SET_PANEL_ADDRESSES (R10, R160) -/

theorem commitLayout_row {s : State} (h : RingReady s) :
    ∃ t, Ends .commitLayout (.done .doneOk []) [.layout] s t ∧ t.lanes.layout = .committed := by
  have hr : Ready .commitLayout s := ⟨h, fun c hc hp => by cases hc; cases hp⟩
  obtain ⟨t, ends, done⟩ := ends_of_obey rfl hr (by simp) (by simp [commandParts]) rfl
    (obeyCommitLayout_within _).frame
  exact ⟨t, ends, done .layout (by simp)⟩

theorem obeySetPanelAddresses_set {listener panel : Byte} (hl : listener ≠ 0) (hp : panel ≠ 0) (u : State) :
    obeySetPanelAddresses listener panel u
      = complete false [] (u.putPanel { u.panel with listenerAddress := listener, panelAddress := panel }) :=
  if_neg (not_or.2 ⟨hl, hp⟩)

theorem setPanelAddresses_row {s : State} {listener panel : Byte}
    (hr : Ready (.setPanelAddresses listener panel) s) :
    (listener = 0 ∨ panel = 0 → Refuses (.setPanelAddresses listener panel) .badField s)
      ∧ (listener ≠ 0 → panel ≠ 0 →
        ∃ t, Ends (.setPanelAddresses listener panel) (.done .doneOk []) [.panelAddresses] s t
          ∧ t.panel.listenerAddress = listener ∧ t.panel.panelAddress = panel) := by
  refine ⟨fun h => refuses_of_obey rfl hr (by simp) (by simp [commandParts]) (if_pos h), fun hl hp => ?_⟩
  have frame := (obeySetPanelAddresses_within listener panel (atOwner (.setPanelAddresses listener panel) s)).frame
  rw [obeySetPanelAddresses_set hl hp] at frame
  obtain ⟨t, ends, done⟩ := ends_of_obey (c := .setPanelAddresses listener panel) rfl hr (by simp)
    (by simp [commandParts]) (obeySetPanelAddresses_set hl hp _) frame
  exact ⟨t, ends, done .panelAddresses (by simp)⟩

/-- Settles O28: the owners' answers, put through their rows. -/
theorem windowsLayoutAndPanelAddressesAreSet : Obligations.WindowsLayoutAndPanelAddressesAreSet := by
  intro s
  refine ⟨fun i output kind base size fill e hr => ?_, commitLayout_row, fun listener panel =>
    setPanelAddresses_row⟩
  subst e
  refine ⟨fun h => refuses_of_obey rfl hr (by simp) sessionRemaining_notMem_setWindow
    (obeySetWindow_badOperand h), fun o k ho hk => ?_⟩
  obtain ⟨unset, row⟩ := setWindow_row s output kind base size fill hr o k (outputOf_code ho) (windowKindOf_code hk)
  refine ⟨unset, fun h0 => ?_⟩
  obtain ⟨bad, fits⟩ := row h0
  refine ⟨fun h => bad ?_, fun hb hs hm he => ?_⟩
  · simp only [windowFits, Config.windowSizeMax, Config.addressSpace, decide_eq_false_iff_not]
    omega
  · obtain ⟨overlap, set⟩ := fits (by simp [windowFits, hb, hs, hm, he])
    refine ⟨fun h => overlap ((overlapsWindow_iff ..).2 h), fun h => ?_⟩
    obtain ⟨t, ends, written⟩ := set (by
      rw [← Bool.not_eq_true, overlapsWindow_iff]
      rintro ⟨o', k', ne, hset, hmeet⟩
      simp [h o' k' ne hset] at hmeet)
    exact ⟨t, ends, written.trans (by cases k <;> rfl)⟩

end Sys2Proof.Machine
end

section
/-! PROOF. FACTORY_CLEAR (R176 with R10, R46, R88, R105, R114, R115, R136, R140, R160): what each of its stages
leaves, and what stands when all are done. -/

namespace Sys2Proof.Machine

open Sys2Proof

/-! ### Notices that were raised (R184) -/

theorem hasKind_kindBit (w : Word) (k : NoticeKind) : hasKind (w ||| kindBit k) k = true := by
  cases k <;> simp [hasKind, kindBit, noticeKindCode]

theorem hasKind_or {w : Word} {k : NoticeKind} (h : hasKind w k = true) (v : Word) : hasKind (w ||| v) k = true := by
  unfold hasKind at h ⊢
  rw [BitVec.getLsbD_or, h, Bool.true_or]

/-- R184: coalescing leaves every notice its kind and subject. -/
theorem any_isFor_coalesce (q : List Notice) (k k' : NoticeKind) (subj subj' : Word) (d : List Byte) :
    (q.map (fun n => if n.isFor k' subj' then n.coalesced d else n)).any (·.isFor k subj)
      = q.any (·.isFor k subj) := by
  rw [List.any_map]
  congr 1
  funext n
  simp only [Function.comp_apply]
  split <;> rfl

theorem raise_running {s : State} (h : s.systemReset = false) (k : NoticeKind) (subj : Nat) (d : List Byte) :
    raise k subj d s = { s with report := s.report.raised k (BitVec.ofNat 32 subj) d s.time.run } := by
  simp [raise, h]

/-- R184: after a raising the notice is queued, or told by the flags. -/
theorem noted_raise {s : State} (h : s.systemReset = false) (k : NoticeKind) (subj : Nat) (d : List Byte) :
    Noted k subj (raise k subj d s) := by
  rw [raise_running h]
  unfold Noted
  simp only [raised_masks]
  split
  · next hm =>
    rw [ReportUnit.raised, if_pos hm]
    exact hasKind_kindBit ..
  · next hm =>
    rw [ReportUnit.raised, if_neg hm]
    split_ifs with hq hl
    · exact .inr ((any_isFor_coalesce ..).trans hq)
    · exact .inr (by simp [ReportUnit.judged, Notice.isFor])
    · exact .inl rfl

/-- R184: a raising takes back no other. -/
theorem Noted.raise {s : State} {k : NoticeKind} {subj : Nat} (h : Noted k subj s) (k' : NoticeKind) (subj' : Nat)
    (d : List Byte) : Noted k subj (raise k' subj' d s) := by
  unfold Machine.raise
  split
  · exact h
  · unfold Noted at h ⊢
    simp only [raised_masks]
    split at h
    · next hm =>
      rw [if_pos hm]
      unfold ReportUnit.raised
      split_ifs
      exacts [hasKind_or h _, h, h, h]
    · next hm =>
      rw [if_neg hm]
      unfold ReportUnit.raised
      split_ifs
      · exact h
      · exact h.imp_right (any_isFor_coalesce ..).trans
      · exact h.imp_right fun hq => by
          simp only [ReportUnit.judged, List.any_append, hq, Bool.true_or]
      · exact .inl rfl

theorem Noted.frame {s t : State} {k : NoticeKind} {subj : Nat} {ps : List Part} (h : Noted k subj s)
    (f : Frame ps s t) (hn : Part.notices ∉ ps) (hf : Part.flags ∉ ps) (hm : Part.masks ∉ ps) :
    Noted k subj t := by
  obtain ⟨queue, -⟩ := f .notices hn
  obtain ⟨sticky, lost⟩ := f .flags hf
  have masks : t.report.masks = s.report.masks := f .masks hm
  unfold Noted at h ⊢
  rwa [masks, sticky, lost, queue]

theorem Noted.recomputeLamp {s : State} {k : NoticeKind} {subj : Nat} (h : Noted k subj s) :
    Noted k subj (recomputeLamp s) :=
  h.frame (recomputeLamp_within s).frame (by simp) (by simp) (by simp)

theorem closeSession_keeps_noted {s : State} {k : NoticeKind} {subj : Nat} (h : Noted k subj s) :
    Noted k subj (closeSession s) := by
  unfold closeSession
  split
  · refine (Noted.raise ?_ ..).recomputeLamp
    exact h
  · exact h

/-- R174: the close of an open session is noted. -/
theorem closeSession_noted {s : State} (h : s.systemReset = false) (ho : s.pin.sessionOpen = true) :
    Noted .sessionClosed 0 (closeSession s) := by
  unfold closeSession
  rw [if_pos ho]
  refine (noted_raise ?_ ..).recomputeLamp
  exact h

/-! ### The image operation (R88) -/

theorem cancelImage_slot_idle {s : State} (h : s.image.operation = .idle) (n : Fin 16) :
    (cancelImage s).slot n = s.slot n := by
  simp [cancelImage, h, State.slot]

/-- R88: the slot of the operation's command gets its result. -/
theorem finishResult_slot (s : State) (q n : Fin 16) (outcome : CommandOutcome) (data : List Byte) :
    (s.finishResult q outcome data).slot n
      = { s.slot n with result :=
          if q = n then { (s.slot n).result with state := .done, outcome := outcome, data := data }
          else (s.slot n).result } := by
  rw [State.finishResult, slot_putResult]
  by_cases e : n = q
  · subst e
    simp
  · rw [if_neg e, if_neg (Ne.symm e)]

theorem cancelImage_image (s : State) : (cancelImage s).image = ⟨.idle, none⟩ := by
  unfold cancelImage
  simp only
  split <;> rfl

/-! ### The intake (R105, R114, R115) -/

/-- What FACTORY_CLEAR makes of the intake: windows and levels cold, the levels applied to the queue. -/
theorem clearIntake_intake (s : State) :
    (clearIntake s).intake = { s.intake with
      windows := Vector.replicate 4 .unset, haltLevel := 6, resumeLevel := 2
      flow := if s.intake.queue.length < 6 then .flowing else .halted } := by
  unfold clearIntake
  simp only
  split
  · simp
  · rw [haltIntake_eq, raise_intake]
    simp [SectionWindow.unset, IntakeContext.halted]

theorem clearIntake_sectionWindow (s : State) (w : Fin 4) : (clearIntake s).sectionWindow w = .unset := by
  simp [State.sectionWindow, clearIntake_intake]

/-- R115: six records or more halt the intake, which is noted. -/
theorem clearIntake_noted {s : State} (h : s.systemReset = false) (hq : 6 ≤ s.intake.queue.length) :
    Noted .intakeShed 0xFF (clearIntake s) := by
  unfold clearIntake
  simp only
  rw [if_neg (Nat.not_lt.2 hq), haltIntake_eq]
  refine noted_raise ?_ ..
  exact h

/-! ### The PIN authority (R165, R168, R176) -/

theorem endEntry_pin (outcome : CommandOutcome) (data : List Byte) (s : State) :
    (endEntry outcome data s).pin.matcher = .releasing
      ∧ (endEntry outcome data s).pin.entry.outcome = outcome ∧ (endEntry outcome data s).panel.fifo = [] := by
  unfold endEntry offerMessage
  simp only
  split <;> exact ⟨rfl, rfl, rfl⟩

/-- R176: what FACTORY_CLEAR does last, to the session and the PIN authority. -/
def clearAuthority (s : State) : State := clearPin (closeSession (cancelEntry s))

/-- What it may change. -/
abbrev authorityParts : List Part := endingParts ++ sessionParts ++ pinClearParts

theorem clearAuthority_frame (s : State) : Frame authorityParts s (clearAuthority s) :=
  (((cancelEntry_within s).frame.mono fun _ hp => List.mem_append_left _ (List.mem_append_left _ hp)).trans
    ((closeSession_within _).frame.mono fun _ hp => List.mem_append_left _ (List.mem_append_right _ hp))).trans
    ((clearPin_frame _).mono fun _ hp => List.mem_append_right _ hp)

theorem clearAuthority_keeps_noted {s : State} {k : NoticeKind} {subj : Nat} (h : Noted k subj s) :
    Noted k subj (clearAuthority s) := by
  have ended := h.frame (cancelEntry_within s).frame (by simp) (by simp) (by simp)
  exact (closeSession_keeps_noted ended).frame (clearPin_frame _) (by simp) (by simp) (by simp)

theorem clearAuthority_noted {s : State} (h : s.systemReset = false) (ho : s.pin.sessionOpen = true) :
    Noted .sessionClosed 0 (clearAuthority s) := by
  have running : (cancelEntry s).systemReset = false :=
    ((cancelEntry_within s).frame .systemReset (by simp)).trans h
  exact (closeSession_noted running ((cancelEntry_session s).trans ho)).frame (clearPin_frame _)
    (by simp) (by simp) (by simp)

/-- R176: the PIN authority's retained state is cold, and no session is open. -/
theorem clearAuthority_pin (s : State) :
    (clearAuthority s).pin.stored = none ∧ (clearAuthority s).pin.failures = 0 ∧ (clearAuthority s).pin.step = 0
      ∧ (clearAuthority s).pin.sessionLength = 300 ∧ (clearAuthority s).pin.sessionOpen = false :=
  ⟨rfl, rfl, rfl, rfl, closeSession_closed (cancelEntry s)⟩

/-- R176: a LOCKOUT ends, and the entry is as its cancelling left it. -/
theorem clearAuthority_entry (s : State) :
    (clearAuthority s).pin.matcher
        = (if (cancelEntry s).pin.matcher = .lockout then .idle else (cancelEntry s).pin.matcher)
      ∧ (clearAuthority s).pin.entry = (cancelEntry s).pin.entry
      ∧ (clearAuthority s).panel.fifo = (cancelEntry s).panel.fifo := by
  have closed := (closeSession_within (cancelEntry s)).frame
  have matcher : (closeSession (cancelEntry s)).pin.matcher = (cancelEntry s).pin.matcher :=
    closed .matcher (by simp)
  refine ⟨?_, closed .pinEntry (by simp), closed .keyFifo (by simp)⟩
  rw [← matcher]
  rfl

theorem clearAuthority_entering {s : State} (h : s.pin.matcher = .routing ∨ s.pin.matcher = .collecting) :
    (clearAuthority s).pin.matcher = .releasing ∧ (clearAuthority s).pin.entry.outcome = .cancelled
      ∧ (clearAuthority s).panel.fifo = [] := by
  have entering : s.pin.matcher.entering = true := by
    obtain h | h := h <;> rw [h] <;> rfl
  obtain ⟨matcher, entry, fifo⟩ := clearAuthority_entry s
  obtain ⟨matcher', entry', fifo'⟩ := endEntry_pin .cancelled [] s
  rw [cancelEntry, if_pos entering] at matcher entry fifo
  refine ⟨?_, ?_, fifo.trans fifo'⟩
  · rw [matcher, matcher']
    rfl
  · rw [entry, entry']

theorem clearAuthority_not_entering {s : State} (h : s.pin.matcher.entering = false) :
    (clearAuthority s).pin.matcher = (if s.pin.matcher = .lockout then .idle else s.pin.matcher)
      ∧ (clearAuthority s).pin.entry = s.pin.entry := by
  obtain ⟨matcher, entry, -⟩ := clearAuthority_entry s
  rw [show cancelEntry s = s from if_neg (by simp [h])] at matcher entry
  exact ⟨matcher, entry⟩

/-! ### The stages together -/

/-- R176: the stages before the PIN authority's. -/
def clearGate (s : State) : State := clearIntake (evaluateAll (clearRetained (cancelImage s)))

theorem obeyFactoryClear_eq (s : State) :
    obeyFactoryClear s = (clearAuthority (clearGate s), .done .doneOk []) := rfl

/-- What precedes the clearing of the intake may change. -/
abbrev precedingParts : List Part := [.imageOperation, .imageBuffer] ++ everySlot ++ retainedParts ++ allJudged

theorem preceding_frame (s : State) :
    Frame precedingParts s (evaluateAll (clearRetained (cancelImage s))) :=
  (((cancelImage_within s).frame.mono fun _ hp =>
      List.mem_append_left _ (List.mem_append_left _ hp)).trans
    ((clearRetained_within _).frame.mono fun _ hp =>
      List.mem_append_left _ (List.mem_append_right _ hp))).trans
    ((evaluateAll_within _).frame.mono fun _ hp => List.mem_append_right _ hp)

theorem preceding_queue (s : State) :
    (evaluateAll (clearRetained (cancelImage s))).intake.queue = s.intake.queue :=
  (preceding_frame s .intakeQueue (by decide)).1

theorem clearGate_frame (s : State) : Frame (precedingParts ++ levelParts) s (clearGate s) :=
  ((preceding_frame s).mono fun _ hp => List.mem_append_left _ hp).trans
    ((clearIntake_within _).frame.mono fun _ hp => List.mem_append_right _ hp)

/-- What follows the evaluations may change. -/
abbrev settlingParts : List Part := levelParts ++ authorityParts

theorem settling_frame (s : State) :
    Frame settlingParts (evaluateAll (clearRetained (cancelImage s))) (clearAuthority (clearGate s)) :=
  ((clearIntake_within _).frame.mono fun _ hp => List.mem_append_left _ hp).trans
    ((clearAuthority_frame _).mono fun _ hp => List.mem_append_right _ hp)

/-- What follows the clearing of the retained items leaves as that made it. -/
theorem retained_frame (s : State) :
    Frame (allJudged ++ settlingParts) (clearRetained (cancelImage s)) (clearAuthority (clearGate s)) :=
  ((evaluateAll_within _).frame.mono fun _ hp => List.mem_append_left _ hp).trans
    ((settling_frame s).mono fun _ hp => List.mem_append_right _ hp)

/-- What follows the cancelling of the image operation leaves as that made it. -/
theorem cancelled_frame (s : State) :
    Frame (retainedParts ++ (allJudged ++ settlingParts)) (cancelImage s) (clearAuthority (clearGate s)) :=
  ((clearRetained_within _).frame.mono fun _ hp => List.mem_append_left _ hp).trans
    ((retained_frame s).mono fun _ hp => List.mem_append_right _ hp)

theorem factoryCleared_slot (s : State) (n : Fin 16) :
    (clearAuthority (clearGate s)).slot n = (cancelImage s).slot n :=
  cancelled_frame s (.slot n) (by simp [everyWindow, everyProfile, everySection])

theorem factoryCleared_pointer (s : State) :
    (clearAuthority (clearGate s)).command.pointer = s.command.pointer :=
  (cancelled_frame s .pointer (by decide)).trans ((cancelImage_within s).frame .pointer (by decide))

/-! ### What stands after the stages, and after the end of the take -/

theorem Frame.pin {ps : List Part} {s t : State} (f : Frame ps s t)
    (h : ∀ p ∈ [Part.storedPin, .matcher, .pinEntry, .failures, .lockoutTimer, .session, .sessionRemaining,
      .sessionLength], p ∉ ps) : t.pin = s.pin := by
  have stored := f .storedPin (h _ (by simp))
  have matcher := f .matcher (h _ (by simp))
  have entry := f .pinEntry (h _ (by simp))
  obtain ⟨failures, step⟩ := f .failures (h _ (by simp))
  have timer := f .lockoutTimer (h _ (by simp))
  have session := f .session (h _ (by simp))
  have remaining := f .sessionRemaining (h _ (by simp))
  have length := f .sessionLength (h _ (by simp))
  simp only [Part.same] at stored matcher entry timer session remaining length
  generalize t.pin = p at *
  generalize s.pin = q at *
  cases p
  cases q
  simp_all


/-- What the end of the take of the slot at a pointer writes. -/
abbrev takeParts (q : Fin 16) : List Part := [.shadow, .pointer, .slot q]

section
variable {s t : State} {q : Fin 16} (done : Frame (takeParts q) (clearAuthority (clearGate s)) t)
include done

theorem factoryCleared_window (o : Output) (k : WindowKind) : t.window o k = ⟨false, 0, 0, 0⟩ := by
  rw [done (.window o k) (by simp), retained_frame s (.window o k) (by simp [everySection])]
  cases o <;> cases k <;> rfl

theorem factoryCleared_layout : t.lanes.layout = .opened :=
  (done .layout (by simp)).trans (retained_frame s .layout (by decide))

theorem factoryCleared_profiles : ProfilesCold t := by
  have operation := (done .imageOperation (by simp)).trans (cancelled_frame s .imageOperation (by decide))
  have buffer := (done .imageBuffer (by simp)).trans (cancelled_frame s .imageBuffer (by decide))
  rw [cancelImage_image] at operation buffer
  refine ⟨fun n => ?_, operation, buffer⟩
  rw [done (.profile n) (by simp), retained_frame s (.profile n) (by simp [everySection])]
  simp [clearRetained, State.profile, Profile.default]

theorem factoryCleared_schemes (m : Fin 8) (v : Fin 16) : t.rating.schemes[m][v] = none := by
  have schemes : t.rating.schemes = RatingTable.cold.schemes :=
    (done .schemes (by simp)).trans (retained_frame s .schemes (by decide))
  simp [schemes, RatingTable.cold]

theorem factoryCleared_time : t.time = ⟨s.time.run, .unset, 0, 0, 0, 240, none⟩ := by
  have run : (cancelImage s).time.run = s.time.run := (cancelImage_within s).frame .run (by decide)
  rw [done.time (by simp), (retained_frame s).time (by decide), ← run]
  rfl

theorem factoryCleared_sectionWindow (w : Fin 4) : t.sectionWindow w = ⟨false, 0, 0, .unset⟩ := by
  rw [done (.sectionWindow w) (by simp), clearAuthority_frame _ (.sectionWindow w) (by simp)]
  exact clearIntake_sectionWindow _ w

theorem factoryCleared_levels : t.intake.haltLevel = 6 ∧ t.intake.resumeLevel = 2 := by
  have levels := Part.same_trans (clearAuthority_frame (clearGate s) .intakeLevels (by decide))
    (done .intakeLevels (by simp))
  simpa only [Part.same, clearGate, clearIntake_intake] using levels

theorem factoryCleared_flow : t.intake.flow = if s.intake.queue.length < 6 then .flowing else .halted := by
  have flow := (done .flow (by simp)).trans (clearAuthority_frame (clearGate s) .flow (by decide))
  simpa only [clearGate, clearIntake_intake, preceding_queue] using flow

theorem factoryCleared_panelAddresses : t.panel.listenerAddress = 0x5A ∧ t.panel.panelAddress = 0x01 :=
  Part.same_trans (p := .panelAddresses) (retained_frame s .panelAddresses (by decide))
    (done .panelAddresses (by simp))

theorem factoryCleared_pin :
    t.pin.stored = none ∧ t.pin.failures = 0 ∧ t.pin.step = 0 ∧ t.pin.sessionLength = 300
      ∧ t.pin.sessionOpen = false := by
  rw [done.pin (by simp)]
  exact clearAuthority_pin _

/-- R168, R176: what becomes of the matcher and of an entry. -/
theorem factoryCleared_entry :
    (s.pin.matcher = .idle ∨ s.pin.matcher = .lockout → t.pin.matcher = .idle)
      ∧ (s.pin.matcher = .routing ∨ s.pin.matcher = .collecting →
        t.pin.matcher = .releasing ∧ t.pin.entry.outcome = .cancelled ∧ t.panel.fifo = [])
      ∧ (s.pin.matcher = .releasing → t.pin.matcher = .releasing ∧ t.pin.entry = s.pin.entry) := by
  have matcher : (clearGate s).pin.matcher = s.pin.matcher := clearGate_frame s .matcher (by decide)
  have entry : (clearGate s).pin.entry = s.pin.entry := clearGate_frame s .pinEntry (by decide)
  rw [done.pin (by simp), show t.panel.fifo = _ from done .keyFifo (by simp)]
  refine ⟨fun h => ?_, fun h => clearAuthority_entering (by rwa [matcher]), fun h => ?_⟩
  · have left := (clearAuthority_not_entering (s := clearGate s)
      (by obtain h | h := h <;> rw [matcher, h] <;> rfl)).1
    rw [left, matcher]
    obtain h | h := h <;> rw [h] <;> rfl
  · obtain ⟨left, kept⟩ := clearAuthority_not_entering (s := clearGate s) (by rw [matcher, h]; rfl)
    rw [matcher, h] at left
    exact ⟨left, kept.trans entry⟩

variable (hr : s.systemReset = false)
include hr

/-- R46: with no profile bound, the evaluations make every output UNSUPERVISED. -/
theorem factoryCleared_context (o : Output) :
    (t.context o).profile = none ∧ (t.context o).stack = [] ∧ (t.context o).pendingSince = 0
      ∧ (t.context o).verdict = .unsupervised ∧ (t.context o).reason = .none := by
  have kept := retained_frame s
  have cleared := clearRetained_context (cancelImage s) o
  have profile := (done (.profileBinding o) (by simp)).trans (kept (.profileBinding o) (by simp [everySection]))
  have stack := (done (.stack o) (by simp)).trans (kept (.stack o) (by simp [everySection]))
  have since := (done (.pendingSince o) (by simp)).trans (kept (.pendingSince o) (by simp [everySection]))
  obtain ⟨verdict, reason⟩ := Part.same_trans (settling_frame s (.verdict o) (by simp [everySection]))
    (done (.verdict o) (by simp))
  have running : (clearRetained (cancelImage s)).systemReset = false :=
    ((cancelImage_within s).frame .systemReset (by decide)).trans hr
  have unbound : ((evaluateAll (clearRetained (cancelImage s))).context o).profile = none := by
    rw [(evaluateAll_within _).frame (.profileBinding o) (by simp), cleared]
    rfl
  obtain ⟨unsupervised, no_reason⟩ := (evaluateAll_upToDate running o).unsupervised unbound
  rw [cleared] at profile stack since
  exact ⟨profile, stack, since, verdict.trans unsupervised, reason.trans no_reason⟩

theorem factoryCleared_shed (hq : 6 ≤ s.intake.queue.length) : Noted .intakeShed 0xFF t :=
  (clearAuthority_keeps_noted (clearIntake_noted ((preceding_frame s .systemReset (by decide)).trans hr)
    (by rwa [preceding_queue]))).frame done (by simp) (by simp) (by simp)

theorem factoryCleared_session (ho : s.pin.sessionOpen = true) : Noted .sessionClosed 0 t :=
  (clearAuthority_noted ((clearGate_frame s .systemReset (by decide)).trans hr)
    ((clearGate_frame s .session (by decide)).trans ho)).frame done (by simp) (by simp) (by simp)

end

/-! ### The row -/

/-- R88: the slot of each command, its own apart, after an image operation was cancelled. -/
theorem cancelImage_slot (s : State) (n : Fin 16) :
    (cancelImage s).slot n = { s.slot n with
      result :=
        match s.image.operation with
        | .exporting _ q _ | .importing _ q _ =>
            if q = n then { (s.slot n).result with state := .done, outcome := .cancelled, data := [] }
            else (s.slot n).result
        | .idle => (s.slot n).result } := by
  cases h : s.image.operation with
  | idle => exact cancelImage_slot_idle h n
  | exporting a q snapshot =>
    simp only [cancelImage, h]
    exact finishResult_slot ..
  | importing a q image =>
    simp only [cancelImage, h]
    exact finishResult_slot ..

theorem atOwner_command (c : Command) (s : State) : (atOwner c s).command = (markTaken c s).command := by
  unfold atOwner
  split
  · unfold slideSession
    split <;> rfl
  · rfl

theorem atOwner_pointer (c : Command) (s : State) : (atOwner c s).command.pointer = s.command.pointer := by
  simp [atOwner_command, markTaken]

theorem atOwner_slot_self (c : Command) (s : State) :
    (atOwner c s).slot s.command.pointer
      = ⟨!(s.slot s.command.pointer).expected, .taken, none, (s.slot s.command.pointer).result⟩ := by
  simp [State.slot, atOwner_command, markTaken]

/-- R181: the result record that tells DONE_OK. -/
theorem resultAt_factoryClear (s : State) :
    resultAt (hostRecord .factoryClear s) (.done .doneOk [])
      = ⟨.done, 0x48, (s.slot s.command.pointer).expected, .doneOk, []⟩ := by
  rw [resultAt, hostRecord_toggle]
  rfl

/-- R179: FACTORY_CLEAR under authority is taken; outside the command unit its stages alone have acted. -/
theorem exec_factoryClear {s : State} (hr : RingReady s) (ha : authority s = true) :
    ∃ t, exec .factoryClear s = .next t
      ∧ Frame (ringParts s ++ clearingParts) s t
      ∧ Frame (ringParts s) (clearAuthority (clearGate (atOwner .factoryClear s))) t
      ∧ t.command.pointer = (clearAuthority (clearGate (atOwner .factoryClear s))).command.pointer + 1
      ∧ ∀ n, t.slot n = if n = s.command.pointer then
          { (clearAuthority (clearGate (atOwner .factoryClear s))).slot s.command.pointer with
            result := ⟨.done, 0x48, (s.slot s.command.pointer).expected, .doneOk, []⟩ }
        else (clearAuthority (clearGate (atOwner .factoryClear s))).slot n := by
  have row := exec_ready (i := .factoryClear) (c := .factoryClear) rfl
    ⟨hr, fun c hc _ => by cases hc; exact ha⟩
  have owner : obey s.command.pointer .factoryClear (atOwner .factoryClear s)
      = (clearAuthority (clearGate (atOwner .factoryClear s)), .done .doneOk []) := obeyFactoryClear_eq _
  have before := (atOwner_frame .factoryClear s).mono (qs := ringParts s ++ clearingParts) fun p hp => by
    obtain rfl | hp := List.mem_cons.1 hp
    · exact List.mem_append_right _ (by simp)
    · exact List.mem_append_left _ hp
  have stages := (obeyFactoryClear_within (atOwner .factoryClear s)).frame.mono
    (qs := ringParts s ++ clearingParts) fun _ hp => List.mem_append_right _ hp
  rw [obeyFactoryClear_eq] at stages
  rw [owner, resultAt_factoryClear] at row
  generalize clearAuthority (clearGate (atOwner .factoryClear s)) = u at row stages
  have done := takeEnd_frame s u ⟨.done, 0x48, (s.slot s.command.pointer).expected, .doneOk, []⟩
  exact ⟨_, row, (before.trans stages).trans (done.mono fun _ hp => List.mem_append_left _ hp), done, rfl,
    fun n => slot_putResult ..⟩

/-- Settles O43: every stage's effect stands at the end, since the stages behind it leave its parts alone. -/
theorem factoryClearTakesTheColdValues : Obligations.FactoryClearTakesTheColdValues := by
  intro s hr ha
  obtain ⟨t, row, frame, done, pointer, slot⟩ := exec_factoryClear hr ha
  rw [factoryCleared_pointer, atOwner_pointer] at pointer
  simp only [factoryCleared_slot, cancelImage_slot] at slot
  have own := atOwner_slot_self .factoryClear s
  have kept := atOwner_frame .factoryClear s
  generalize atOwner .factoryClear s = a at *
  have running : a.systemReset = false := (kept .systemReset (by simp)).trans hr.1
  have queue : a.intake.queue = s.intake.queue := (kept .intakeQueue (by simp)).1
  have opened : a.pin.sessionOpen = s.pin.sessionOpen := kept .session (by simp)
  have matcher : a.pin.matcher = s.pin.matcher := kept .matcher (by simp)
  have entry : a.pin.entry = s.pin.entry := kept .pinEntry (by simp)
  have run : a.time.run = s.time.run := kept .run (by simp)
  have operation : a.image.operation = s.image.operation := kept .imageOperation (by simp)
  rw [← queue, ← opened, ← matcher, ← entry, ← run]
  obtain ⟨halt, resume⟩ := factoryCleared_levels done
  obtain ⟨listener, panel⟩ := factoryCleared_panelAddresses done
  obtain ⟨stored, failures, step, length, closed⟩ := factoryCleared_pin done
  refine ⟨t, row, frame, ?own, pointer, fun n hn => ?other, factoryCleared_window done, factoryCleared_layout done,
    factoryCleared_profiles done, factoryCleared_context done running, factoryCleared_schemes done,
    factoryCleared_time done, factoryCleared_sectionWindow done, halt, resume, factoryCleared_flow done,
    factoryCleared_shed done running, listener, panel, stored, failures, step, length, closed,
    factoryCleared_session done running, factoryCleared_entry done⟩
  case own => rw [slot, if_pos rfl, own]
  case other =>
    have stands : a.slot n = s.slot n := kept (.slot n) (by simp [hn])
    rw [slot, if_neg hn, stands, operation] <;> rfl

end Sys2Proof.Machine
end

section
/-! PROOF. The laws of verdicts, of profile bindings and of override stacks (R25, R27, R31, R42, R91, R96): what
each operation does to the output contexts and to the records they are bound to keeps them. -/

namespace Sys2Proof.Machine

open Sys2Proof

/-! ### What an evaluation can decide (R25, R31) -/

/-- R25, R36: a decision about an output bound to a profile: a verdict other than UNSUPERVISED, with a reason of
its set, and other than PENDING where the pending limit has been reached (`due`). -/
def deciding (due : Bool) (d : Verdict × Reason) : Bool :=
  decide (d.1 ≠ .unsupervised) && reasonFits d.1 d.2 && (decide (d.1 ≠ .pending) || !due)

theorem curfewTest_deciding (due : Bool) (t : TimeBase) (p : Profile) (l : Lifts) :
    (curfewTest t p l).all (deciding due) = true := by
  unfold curfewTest
  split_ifs <;> rfl

theorem serviceTest_deciding (due bound : Bool) (p : Profile) :
    (serviceTest bound p).all (deciding due) = true := by
  unfold serviceTest
  split
  · split_ifs <;> rfl
  all_goals rfl

theorem policyTest_deciding {due : Bool} {r : Reason} (h : deciding due (.blocked, r) = true) (p : Policy) :
    (policyTest p r).all (deciding due) = true := by
  cases p
  exacts [rfl, h]

theorem classTest_deciding (c waited : Nat) (p : Profile) (cls : RatingClass) :
    (classTest c waited p cls).all (deciding (decide (p.pendingLimit ≤ waited))) = true := by
  cases cls with
  | aged a =>
    simp only [classTest]
    split_ifs <;> rfl
  | unrated => exact policyTest_deciding rfl _
  | unknownScheme => exact policyTest_deciding rfl _
  | absent =>
    simp only [classTest]
    split_ifs with early
    · simp [deciding, reasonFits, early]
    · exact policyTest_deciding rfl _

theorem contentTest_deciding (bound : Bool) (waited : Nat) (p : Profile) (l : Lifts) (e : Option Event) :
    (contentTest bound waited p l e).all (deciding (decide (p.pendingLimit ≤ waited))) = true := by
  unfold contentTest
  split
  · split_ifs
    exacts [classTest_deciding .., rfl]
  all_goals rfl

theorem descriptorTest_deciding (due bound : Bool) (p : Profile) (l : Lifts) (e : Option Event) :
    (descriptorTest bound p l e).all (deciding due) = true := by
  unfold descriptorTest
  split
  · split_ifs <;> rfl
  all_goals rfl

theorem budgetTest_deciding (due : Bool) (p : Profile) (e : Option Event) :
    (budgetTest p e).all (deciding due) = true := by
  unfold budgetTest
  split_ifs <;> rfl

theorem curfewNearTest_deciding (due : Bool) (t : TimeBase) (p : Profile) (l : Lifts) :
    (curfewNearTest t p l).all (deciding due) = true := by
  unfold curfewNearTest
  split_ifs
  · rfl
  · split
    · split_ifs <;> rfl
    · rfl

theorem firstDecided_deciding {due : Bool} {rs : List Ruling} (h : ∀ r ∈ rs, r.all (deciding due) = true) :
    deciding due (firstDecided rs) = true := by
  induction rs with
  | nil => rfl
  | cons r rs ih =>
    cases r with
    | none => exact ih fun r hr => h r (.tail _ hr)
    | some d => exact h _ (.head _)

theorem judgeProfile_deciding (s : State) (o : Output) (p : Profile) :
    deciding (decide (p.pendingLimit ≤ s.time.run - (s.context o).pendingSince)) (judgeProfile s o p) = true := by
  unfold judgeProfile
  simp only
  split_ifs
  · rfl
  · rfl
  · split
    · rfl
    · refine firstDecided_deciding fun r hr => ?_
      simp only [List.mem_cons, List.not_mem_nil, or_false] at hr
      obtain rfl | rfl | rfl | rfl | rfl | rfl := hr
      exacts [curfewTest_deciding .., serviceTest_deciding .., contentTest_deciding ..,
        descriptorTest_deciding .., budgetTest_deciding .., curfewNearTest_deciding ..]

theorem deciding_iff (due : Bool) (d : Verdict × Reason) :
    deciding due d = true ↔
      d.1 ≠ .unsupervised ∧ reasonFits d.1 d.2 = true ∧ (due = true → d.1 ≠ .pending) := by
  cases due <;> simp [deciding, and_assoc]

/-- R31: an evaluation decides UNSUPERVISED exactly where no profile is bound. -/
theorem judge_unsupervised (s : State) (o : Output) :
    (judge s o).1 = .unsupervised ↔ (s.context o).profile = none := by
  unfold judge
  split
  · next h => simp [h]
  · next n h =>
    obtain ⟨supervised, -⟩ := (deciding_iff _ _).1 (judgeProfile_deciding s o (s.profile n))
    simp [h, supervised]

/-- R25: the reason is one of the verdict's own. -/
theorem judge_reasonFits (s : State) (o : Output) : reasonFits (judge s o).1 (judge s o).2 = true := by
  unfold judge
  split
  · rfl
  · next n _ =>
    obtain ⟨-, fits, -⟩ := (deciding_iff _ _).1 (judgeProfile_deciding s o (s.profile n))
    exact fits

/-- R36: once the pending limit is reached no evaluation decides PENDING. -/
theorem judge_ne_pending {s : State} {o : Output} {n : Fin 8} (h : (s.context o).profile = some n)
    (hw : (s.profile n).pendingLimit ≤ s.time.run - (s.context o).pendingSince) : (judge s o).1 ≠ .pending := by
  obtain ⟨-, -, settled⟩ := (deciding_iff _ _).1 (judgeProfile_deciding s o (s.profile n))
  simp only [judge, h]
  exact settled (decide_eq_true hw)

/-- R42: a profile that is SUSPENDED or whose ceiling is CLOSED blocks. -/
theorem judge_blocked {s : State} {o : Output} {n : Fin 8} (h : (s.context o).profile = some n)
    (hn : (s.profile n).state = .suspended ∨ (s.profile n).ceiling = .closed) : (judge s o).1 = .blocked := by
  simp only [judge, h, judgeProfile]
  split_ifs with hs hc
  · rfl
  · rfl
  · exact absurd hn (not_or.2 ⟨hs, hc⟩)

/-! ### The laws of one output -/

/-- The laws that are about one output and the profile it is bound to. -/
inductive OutputLaw where
  | supervision | reason | blocked | binding
  deriving DecidableEq, Repr

/-- What such a law says of an output. -/
def OutputLaw.holdsAt : OutputLaw → State → Output → Prop
  | .supervision, s, o => (s.context o).verdict = .unsupervised ↔ (s.context o).profile = none
  | .reason, s, o => reasonFits (s.context o).verdict (s.context o).reason = true
  | .blocked, s, o => ∀ n, (s.context o).profile = some n →
      (s.profile n).state = .suspended ∨ (s.profile n).ceiling = .closed → (s.context o).verdict = .blocked
  | .binding, s, o => ∀ n, (s.context o).profile = some n → (s.profile n).state ≠ .empty

/-- Every law of an output that held still holds. -/
structure Orderly (s t : State) : Prop where
  laws : ∀ (l : OutputLaw) (o : Output), l.holdsAt s o → l.holdsAt t o

theorem Orderly.refl (s : State) : Orderly s s := ⟨fun _ _ h => h⟩

theorem Orderly.trans {s t u : State} (h : Orderly s t) (k : Orderly t u) : Orderly s u :=
  ⟨fun l o a => k.laws l o (h.laws l o a)⟩

theorem Orderly.foldl {α : Type} {f : State → α → State} (h : ∀ s a, Orderly s (f s a)) (l : List α) (s : State) :
    Orderly s (l.foldl f s) := by
  induction l generalizing s with
  | nil => exact .refl s
  | cons a l ih => exact (h s a).trans (ih (f s a))

/-- What the laws of an output read stands, or is changed so that they ask no more. -/
structure Undisturbed (s t : State) (o : Output) : Prop where
  binding : (t.context o).profile = (s.context o).profile
  verdict : (t.context o).verdict = (s.context o).verdict
  reason : (t.context o).reason = (s.context o).reason
  stricter : ∀ n, (s.context o).profile = some n →
    (t.profile n).state = .suspended ∨ (t.profile n).ceiling = .closed →
      (s.profile n).state = .suspended ∨ (s.profile n).ceiling = .closed
  held : ∀ n, (s.context o).profile = some n → (s.profile n).state ≠ .empty → (t.profile n).state ≠ .empty

theorem Undisturbed.keeps {s t : State} {o : Output} (h : Undisturbed s t o) (l : OutputLaw)
    (a : l.holdsAt s o) : l.holdsAt t o := by
  cases l with
  | supervision => simpa only [OutputLaw.holdsAt, h.verdict, h.binding] using a
  | reason => simpa only [OutputLaw.holdsAt, h.verdict, h.reason] using a
  | blocked =>
    intro n hn hs
    rw [h.binding] at hn
    rw [h.verdict]
    exact a n hn (h.stricter n hn hs)
  | binding =>
    intro n hn
    rw [h.binding] at hn
    exact h.held n hn (a n hn)

/-- R25, R31, R42: an output that holds what an evaluation decides keeps every law but that of its binding. -/
theorem UpToDate.holdsAt {t : State} {o : Output} (h : UpToDate t o) {l : OutputLaw} (hl : l ≠ .binding) :
    l.holdsAt t o := by
  have verdict : (t.context o).verdict = (judge t o).1 := congrArg Prod.fst h
  have reason : (t.context o).reason = (judge t o).2 := congrArg Prod.snd h
  cases l with
  | supervision => simpa only [OutputLaw.holdsAt, verdict] using judge_unsupervised t o
  | reason => simpa only [OutputLaw.holdsAt, verdict, reason] using judge_reasonFits t o
  | blocked => exact fun n hn hs => verdict.trans (judge_blocked hn hs)
  | binding => exact absurd rfl hl

/-- Each output is undisturbed, or evaluated with a binding that the law of bindings allows. -/
theorem Orderly.of_outputs {s t : State}
    (h : ∀ o, Undisturbed s t o
      ∨ (UpToDate t o ∧ (OutputLaw.binding.holdsAt s o → OutputLaw.binding.holdsAt t o))) : Orderly s t := by
  refine ⟨fun l o a => ?_⟩
  obtain same | ⟨judged, bound⟩ := h o
  · exact same.keeps l a
  · by_cases hl : l = .binding
    · subst hl
      exact bound a
    · exact judged.holdsAt hl

/-! ### Frames -/

/-- The parts that the laws of outputs read. -/
def Part.ruled : Part → Bool
  | .profileBinding _ | .verdict _ | .profile _ => true
  | _ => false

/-- A list holds no part that the laws of outputs read. -/
def Unruled (ps : List Part) : Prop := ∀ p ∈ ps, p.ruled = false

theorem unruled_append {a b : List Part} (ha : Unruled a) (hb : Unruled b) : Unruled (a ++ b) := fun p hp =>
  (List.mem_append.1 hp).elim (ha p) (hb p)

theorem unruled_map {α : Type} {l : List α} {f : α → Part} (h : ∀ a, (f a).ruled = false) :
    Unruled (l.map f) := by
  intro p hp
  obtain ⟨a, -, rfl⟩ := List.mem_map.1 hp
  exact h a

theorem unruled_everyEntry : Unruled everyEntry := unruled_map fun _ => rfl
theorem unruled_everySection : Unruled everySection := unruled_map fun _ => rfl
theorem unruled_everyStack : Unruled everyStack := by simp [Unruled, Part.ruled]
theorem unruled_raised : Unruled raised := by simp [Unruled, Part.ruled]
theorem unruled_sessionParts : Unruled sessionParts := by simp [Unruled, Part.ruled]
theorem unruled_endingParts : Unruled endingParts := by simp [Unruled, Part.ruled]
theorem unruled_levelParts : Unruled levelParts :=
  unruled_append (unruled_append unruled_everySection (by simp [Unruled, Part.ruled])) unruled_raised

theorem Unruled.notMem {ps : List Part} (h : Unruled ps) {p : Part} (hp : p.ruled = true) : p ∉ ps :=
  fun hm => by simp [h p hm] at hp

theorem Frame.undisturbed {ps : List Part} {s t : State} {o : Output} (f : Frame ps s t)
    (hb : Part.profileBinding o ∉ ps) (hv : Part.verdict o ∉ ps)
    (hp : ∀ n, (s.context o).profile = some n → Part.profile n ∉ ps) : Undisturbed s t o := by
  obtain ⟨verdict, reason⟩ := f (.verdict o) hv
  have record : ∀ n, (s.context o).profile = some n → t.profile n = s.profile n := fun n hn =>
    f (.profile n) (hp n hn)
  exact ⟨f (.profileBinding o) hb, verdict, reason, fun n hn => by rw [record n hn]; exact id,
    fun n hn => by rw [record n hn]; exact id⟩

/-- What touches no part that the laws read keeps them. -/
theorem Frame.orderly {ps : List Part} {s t : State} (f : Frame ps s t) (h : Unruled ps) : Orderly s t :=
  .of_outputs fun _ => .inl (f.undisturbed (h.notMem rfl) (h.notMem rfl) fun _ _ => h.notMem rfl)

/-- The output contexts and the records stand. -/
theorem Orderly.of_eq {s t : State} (ho : t.outputs = s.outputs) (hp : t.profiles = s.profiles) : Orderly s t :=
  .of_outputs fun o => .inl <| by
    have context : t.context o = s.context o := by simp only [State.context, ho]
    have record : ∀ n, t.profile n = s.profile n := fun n => by simp only [State.profile, hp]
    exact ⟨by rw [context], by rw [context], by rw [context], fun n _ => by rw [record]; exact id,
      fun n _ => by rw [record]; exact id⟩

/-! ### Evaluations -/

theorem evaluate_context_ne {o o' : Output} (h : o ≠ o') (s : State) :
    (evaluate o' s).context o = s.context o :=
  evaluateIf_context_other (chosen := fun _ => true) h s

theorem evaluate_orderly (o : Output) (s : State) : Orderly s (evaluate o s) := by
  by_cases hr : s.systemReset = true
  · rw [evaluate, if_pos hr]
    exact .refl s
  · refine .of_outputs fun p => ?_
    have f := (evaluate_within o s).frame
    by_cases hp : p = o
    · subst hp
      refine .inr ⟨evaluate_upToDate p s (by simpa using hr), fun a n hn => ?_⟩
      rw [show (evaluate p s).profile n = s.profile n from f (.profile n) (by simp)]
      exact a n ((f (.profileBinding p) (by simp)).symm.trans hn)
    · exact .inl (f.undisturbed (by simp) (by simpa using hp) (by simp))

theorem evaluateWhere_orderly (chosen : OutputContext → Bool) (s : State) :
    Orderly s (evaluateWhere chosen s) := by
  refine .foldl (fun t o => ?_) allOutputs s
  split
  · exact evaluate_orderly o t
  · exact .refl t

theorem evaluateProfile_orderly (n : Fin 8) (s : State) : Orderly s (evaluateProfile n s) :=
  evaluateWhere_orderly _ s

theorem evaluateEntry_orderly (n : Fin 64) (s : State) : Orderly s (evaluateEntry n s) :=
  evaluateWhere_orderly _ s

theorem evaluateSupervised_orderly (s : State) : Orderly s (evaluateSupervised s) := evaluateWhere_orderly _ s

theorem raise_orderly (k : NoticeKind) (subj : Nat) (d : List Byte) (s : State) : Orderly s (raise k subj d s) :=
  (raise_within k subj d s).frame.orderly unruled_raised

/-- A record that asks no more of the outputs bound to it takes the place of another. -/
theorem putProfile_orderly {s : State} {n : Fin 8} {p : Profile}
    (strict : p.state = .suspended ∨ p.ceiling = .closed →
      (s.profile n).state = .suspended ∨ (s.profile n).ceiling = .closed)
    (held : (s.profile n).state ≠ .empty → p.state ≠ .empty) : Orderly s (s.putProfile n p) := by
  refine .of_outputs fun o => .inl ⟨rfl, rfl, rfl, fun m _ => ?_, fun m _ => ?_⟩
  all_goals
    rw [profile_putProfile]
    split
    · next e => subst e; assumption
    · exact id

theorem Undisturbed.congr {s t u : State} {o : Output} (h : Undisturbed s t o)
    (hc : u.context o = t.context o) (hp : ∀ n, u.profile n = t.profile n) : Undisturbed s u o := by
  obtain ⟨binding, verdict, reason, stricter, held⟩ := h
  refine ⟨?_, ?_, ?_, fun n => ?_, fun n => ?_⟩
  · rw [hc, binding]
  · rw [hc, verdict]
  · rw [hc, reason]
  · rw [hp]; exact stricter n
  · rw [hp]; exact held n

/-- A record is written, and the outputs bound to its slot are evaluated. -/
theorem orderly_of_record {s t : State} {n : Fin 8} {ps : List Part} (hr : Running s)
    (f : Frame (.profile n :: ps) s t) (hps : Unruled ps) (hq : Part.systemReset ∉ ps)
    (held : (s.profile n).state ≠ .empty → (t.profile n).state ≠ .empty) :
    Orderly s (evaluateProfile n t) := by
  have running : t.systemReset = false := (f .systemReset (by simp [hq])).trans hr
  have unbound : ∀ o, Part.profileBinding o ∉ Part.profile n :: ps := fun o => by
    simpa using hps.notMem (p := .profileBinding o) rfl
  have records : ∀ m, (evaluateProfile n t).profile m = t.profile m := evaluateWhere_profile _ t
  refine .of_outputs fun o => ?_
  by_cases ho : (t.context o).profile = some n
  · refine .inr ⟨evaluateWhere_upToDate (keptByEvaluation_profile n) t running o (by simpa using ho),
      fun a m hm => ?_⟩
    have bound : ((evaluateProfile n t).context o).profile = (t.context o).profile :=
      (evaluateProfile_within n t).frame (.profileBinding o) (by simp)
    have same : (t.context o).profile = (s.context o).profile := f (.profileBinding o) (unbound o)
    rw [bound, ho] at hm
    cases hm
    rw [records]
    exact held (a n (same.symm.trans ho))
  · have same : (t.context o).profile = (s.context o).profile := f (.profileBinding o) (unbound o)
    refine .inl ((f.undisturbed (unbound o) ?_ fun m hm => ?_).congr
      (evaluateWhere_context_of_not t o (by simpa using ho)) records)
    · simpa using hps.notMem (p := .verdict o) rfl
    · have ne : m ≠ n := fun e => ho (same.trans (e ▸ hm))
      simpa [ne] using hps.notMem (p := .profile m) rfl

theorem Within.orderly {ps : List Part} {s t : State} (h : Within ps s t) (hp : Unruled ps) : Orderly s t :=
  h.frame.orderly hp

/-! ### Accounts and the profile day (R53 to R64, R150) -/

theorem chargeProfile_orderly (n : Fin 8) (r : Nat) (s : State) : Orderly s (chargeProfile n r s) := by
  have charged : Orderly s (s.putProfile n ((s.profile n).afterCharge r)) := putProfile_orderly id id
  simp only [chargeProfile]
  split
  · exact (charged.trans (raise_orderly ..)).trans (evaluateProfile_orderly ..)
  · exact charged

theorem sample_orderly (s : State) : Orderly s (sample s) := by
  refine Orderly.trans (.foldl (fun t n => ?_) allProfiles s)
    ((clearActivity_within _).orderly (by simp [Unruled, Part.ruled]))
  unfold sampleProfile
  split
  · split
    · exact chargeProfile_orderly ..
    · exact .refl t
  · exact .refl t

theorem noteExhaustion_orderly (n : Fin 8) (p : Profile) (s : State) : Orderly s (noteExhaustion n p s) :=
  (noteExhaustion_within n p s).orderly unruled_raised

theorem rollOver_orderly (n : Fin 8) (day : Nat) (s : State) : Orderly s (rollOver n day s) :=
  (putProfile_orderly (p := (s.profile n).rolledOver day) id id).trans (raise_orderly ..)

theorem settleProfile_orderly (n : Fin 8) (day : Nat) (s : State) : Orderly s (settleProfile n day s) := by
  unfold settleProfile
  split
  · exact .refl s
  · exact putProfile_orderly id id
  · exact ((rollOver_orderly ..).trans (noteExhaustion_orderly ..)).trans (evaluateProfile_orderly ..)

theorem settleAll_orderly (day : Nat) (s : State) : Orderly s (settleAll day s) :=
  .foldl (fun t n => settleProfile_orderly n day t) allProfiles s

theorem compareDay_orderly (s : State) : Orderly s (compareDay s) := by
  unfold compareDay
  split
  · exact Orderly.trans (t := { s with time := { s.time with profileDay := some s.time.computedDay } })
      (.of_eq rfl rfl)
      ((settleAll_orderly ..).trans ((clearFailures_within _).orderly (by simp [Unruled, Part.ruled])))
  · exact .refl s

theorem grant_orderly (n : Fin 8) (m : Nat) (s : State) : Orderly s (grant n m s) := by
  have granted : Orderly s (s.putProfile n ((s.profile n).afterGrant m)) := putProfile_orderly id id
  simp only [grant]
  split
  · exact granted.trans (evaluateProfile_orderly ..)
  · exact granted

theorem executeGrant_orderly (n : Fin 8) (m : Nat) (clamped : Bool) (s : State) :
    Orderly s (executeGrant n m clamped s).1 := by
  unfold executeGrant
  split_ifs
  exacts [.refl s, .refl s, grant_orderly n m s]

/-! ### Override stacks (R92 to R103) -/

/-- An output context is written that keeps the profile binding, the verdict and the reason, and the output is
evaluated. -/
theorem rewritten_orderly {s : State} {o : Output} {c : OutputContext} (hp : c.profile = (s.context o).profile)
    (hv : c.verdict = (s.context o).verdict) (hr : c.reason = (s.context o).reason) :
    Orderly s (evaluate o (s.putContext o c)) := by
  refine Orderly.trans (t := s.putContext o c)
    (.of_outputs fun p => .inl ⟨?_, ?_, ?_, fun _ _ => id, fun _ _ => id⟩) (evaluate_orderly o _)
  all_goals
    rw [context_putContext]
    split
    · next e => subst e; assumption
    · rfl

theorem executePush_orderly (p : StagedPush) (s : State) : Orderly s (executePush p s).1 := by
  unfold executePush
  split_ifs
  · exact .refl s
  · exact .refl s
  · split
    · exact .refl s
    · exact rewritten_orderly rfl rfl rfl

theorem executeStaged_orderly (a : Staged) (s : State) : Orderly s (executeStaged a s).1 := by
  cases a with
  | grant n m clamped => exact executeGrant_orderly ..
  | push p => exact executePush_orderly ..

theorem expireUntilTime_orderly (o : Output) (s : State) : Orderly s (expireUntilTime o s) := by
  unfold expireUntilTime
  split
  · exact rewritten_orderly rfl rfl rfl
  · exact .refl s

theorem meetEnds_orderly (s : State) : Orderly s (meetEnds s) :=
  .foldl (fun t o => expireUntilTime_orderly o t) allOutputs s

/-! ### Settings of time (R142 to R145, R151) -/

theorem replaceWall_orderly (day second : Nat) (source : TimeSource) (offset : Int) (s : State) :
    Orderly s (replaceWall day second source offset s) := by
  have written : Orderly s { s with time := s.time.withWall day second source offset } := .of_eq rfl rfl
  have spent : Orderly s
      (if s.time.isSet then spendReached { s with time := s.time.withWall day second source offset }
        else settleStacks { s with time := s.time.withWall day second source offset }) := by
    split
    · exact written.trans ((spendReached_within _).orderly unruled_everyStack)
    · exact written.trans ((settleStacks_within _).orderly unruled_everyStack)
  exact ((spent.trans (compareDay_orderly _)).trans (evaluateSupervised_orderly _)).trans
    ((noteTimeStep_within s.time _).orderly unruled_raised)

theorem setWall_orderly (day second : Nat) (source : TimeSource) (offset : Int) (s : State) :
    Orderly s (setWall day second source offset s) :=
  (meetEnds_orderly s).trans (replaceWall_orderly ..)

theorem takeBroadcastTime_orderly (day second : Nat) (s : State) : Orderly s (takeBroadcastTime day second s) := by
  unfold takeBroadcastTime
  split
  · exact .refl s
  · exact setWall_orderly ..

theorem takeOffset_orderly (offset : Int) (s : State) : Orderly s (takeOffset offset s) := by
  unfold takeOffset
  split
  · exact .refl s
  · refine (meetEnds_orderly s).trans ?_
    generalize meetEnds s = t
    have written : Orderly t { t with time := { t.time with offset := offset } } := .of_eq rfl rfl
    simp only [replaceOffset]
    split
    · exact written.trans (((spendReached_within _).orderly unruled_everyStack).trans
        ((compareDay_orderly _).trans (evaluateSupervised_orderly ..)))
    · exact written.trans (evaluateSupervised_orderly ..)

theorem takeDayStart_orderly (minute : Nat) (s : State) : Orderly s (takeDayStart minute s) := by
  have written : Orderly s { s with time := { s.time with dayStart := minute } } := .of_eq rfl rfl
  simp only [takeDayStart]
  split
  · exact written.trans ((compareDay_orderly _).trans (evaluateSupervised_orderly ..))
  · exact written

/-! ### The rating table (R126 to R135) -/

theorem unruled_entry (n : Fin 64) : Unruled [.entry n] := by simp [Unruled, Part.ruled]

theorem carryOut_orderly (n : Fin 64) (cause : ChangeCause) (c : Consequence) (s : State) :
    Orderly s (carryOut n cause c s) := by
  cases c with
  | event a b =>
    exact (((spendEventEnd_within n s).orderly unruled_everyStack).trans
      ((noteEventChange_within n a b cause _).orderly unruled_raised)).trans (evaluateEntry_orderly ..)
  | lost =>
    exact ((markPending_within n s).orderly (by simp [Unruled, Part.ruled])).trans (evaluateEntry_orderly ..)
  | evaluated => exact evaluateEntry_orderly ..
  | nothing => exact .refl s

theorem replaceEntry_orderly (n : Fin 64) (e f : Entry) (cause : ChangeCause) (s : State) :
    Orderly s (replaceEntry n e f cause s) :=
  Orderly.trans (t := s.putEntry n (some f)) (.of_eq rfl rfl) (carryOut_orderly ..)

theorem touchEnsured_orderly (k : ServiceKey) (s : State) :
    Orderly s (touch (ensureEntry k s).1 (ensureEntry k s).2) :=
  ((ensureEntry_within k s).orderly (unruled_entry _)).trans ((touch_within _ _).orderly (unruled_entry _))

theorem takeSection_orderly (d : ServiceSection) (s : State) : Orderly s (takeSection d s) := by
  simp only [takeSection]
  split
  · split
    · exact touchEnsured_orderly ..
    · exact (touchEnsured_orderly ..).trans (replaceEntry_orderly ..)
  · exact touchEnsured_orderly ..

theorem declareEvent_orderly (k : ServiceKey) (id : Half) (r : RatingRecord) (s : State) :
    Orderly s (declareEvent k id r s).2 := by
  simp only [declareEvent]
  split
  · exact (touchEnsured_orderly ..).trans (replaceEntry_orderly ..)
  · exact touchEnsured_orderly ..

theorem promoteOnce_orderly (n : Fin 64) (s : State) : Orderly s (promoteOnce n s) := by
  unfold promoteOnce
  split
  · refine Orderly.trans (.of_eq rfl rfl) (t := { s with rating := { s.rating with
      promotionDue := s.rating.promotionDue.filter (fun m => decide (m ≠ n)) } }) ?_
    unfold testPromotion
    split
    · exact .refl _
    · split
      · split
        · exact replaceEntry_orderly ..
        · exact .refl _
      · exact .refl _
  · exact .refl s

theorem lowerBind_orderly (held : Option (Fin 64)) (s : State) : Orderly s (lowerBind held s) :=
  (lowerBind_within held s).orderly unruled_everyEntry

theorem bindService_orderly (o : Output) (k : ServiceKey) (s : State) : Orderly s (bindService o k s).2 := by
  unfold bindService
  split
  · exact ((touch_within _ s).orderly (unruled_entry _)).trans (evaluate_orderly ..)
  · have counted : ∀ n t, Orderly t (touch n (raiseBind n t)) := fun n t =>
      ((changeEntry_within n _ t).orderly (unruled_entry n)).trans ((touch_within n _).orderly (unruled_entry n))
    exact (((ensureEntry_within k s).orderly (unruled_entry _)).trans (lowerBind_orderly ..)).trans
      ((counted _ _).trans (rewritten_orderly rfl rfl rfl))

theorem unbindService_orderly (o : Output) (s : State) : Orderly s (unbindService o s) := by
  unfold unbindService
  split
  · exact evaluate_orderly ..
  · exact (lowerBind_orderly ..).trans (rewritten_orderly rfl rfl rfl)

/-! ### The PIN authority and the panel link (R168 to R175) -/

theorem endEntry_orderly (outcome : CommandOutcome) (data : List Byte) (s : State) :
    Orderly s (endEntry outcome data s) := by
  refine .of_eq ?_ ?_ <;> simp only [endEntry, offerMessage] <;> split <;> rfl

theorem changePinEntry_orderly (f : PinEntry → PinEntry) (s : State) : Orderly s (changePinEntry f s) :=
  .of_eq rfl rfl

theorem putPin_orderly (p : PinAuthority) (s : State) : Orderly s (s.putPin p) := .of_eq rfl rfl

theorem openSession_orderly (s : State) : Orderly s (openSession s) :=
  (openSession_frame s).orderly unruled_sessionParts

theorem pinMatched_orderly (s : State) : Orderly s (pinMatched s) := by
  have forgiven : Orderly s (s.putPin { s.pin with failures := 0 }) := putPin_orderly ..
  simp only [pinMatched]
  split
  · exact forgiven.trans ((openSession_orderly _).trans (endEntry_orderly ..))
  · exact forgiven.trans ((executeStaged_orderly ..).trans (endEntry_orderly ..))
  · exact forgiven.trans (endEntry_orderly ..)

theorem pinMismatched_orderly (s : State) : Orderly s (pinMismatched s) := by
  simp only [pinMismatched]
  split
  · exact (putPin_orderly ..).trans (raise_orderly ..)
  · exact ((putPin_orderly ..).trans (raise_orderly ..)).trans (endEntry_orderly ..)

theorem judgePinChange_orderly (s : State) : Orderly s (judgePinChange s) := by
  simp only [judgePinChange]
  split
  · split
    · exact (changePinEntry_orderly ..).trans (raise_orderly ..)
    · exact changePinEntry_orderly ..
  · split_ifs
    · exact (changePinEntry_orderly ..).trans (raise_orderly ..)
    · exact (putPin_orderly ..).trans (endEntry_orderly ..)
    · exact endEntry_orderly ..

theorem okKey_orderly (s : State) : Orderly s (okKey s) := by
  unfold okKey
  split
  · exact (changePinEntry_orderly ..).trans (raise_orderly ..)
  · split
    · exact .refl s
    · split
      · exact judgePinChange_orderly s
      all_goals
        split
        · exact pinMatched_orderly s
        · exact pinMismatched_orderly s

theorem takeKey_orderly (s : State) : Orderly s (takeKey s) := by
  unfold takeKey
  split
  · next k rest _ _ =>
    refine Orderly.trans (t := changePinEntry (fun e => { e with lastKeyStamp := s.time.run })
      (s.putPanel { s.panel with fifo := rest })) (.of_eq rfl rfl) ?_
    unfold actOnKey
    split
    · exact changePinEntry_orderly ..
    · split
      exacts [changePinEntry_orderly .., changePinEntry_orderly .., endEntry_orderly .., okKey_orderly _,
        .refl _]
  · exact .refl s

/-! ### One output after another -/

/-- What is done to the outputs one after another, where a step leaves the contexts of the others: what its own
step makes true of an output, and the later steps keep, is true of each in the end. -/
theorem inTurn {f : State → Output → State} {C : State → Prop} {P : State → Output → Prop} {s : State}
    (start : C s) (keepC : ∀ t o, C t → C (f t o))
    (other : ∀ t o o', o' ≠ o → (f t o).context o' = t.context o')
    (make : ∀ t o, C t → t.context o = s.context o → P (f t o) o)
    (keep : ∀ t o o', o' ≠ o → C t → P t o' → P (f t o) o') (o : Output) : P (allOutputs.foldl f s) o := by
  simp only [allOutputs, List.foldl_cons, List.foldl_nil]
  have c1 := keepC s .primary start
  have c2 := keepC _ .secondary c1
  have untouched : (f s .primary).context .secondary = s.context .secondary := other s .primary _ (by simp)
  cases o with
  | primary => exact keep _ _ _ (by simp) c2 (keep _ _ _ (by simp) c1 (make s .primary start rfl))
  | secondary => exact keep _ _ _ (by simp) c2 (make _ .secondary c1 untouched)
  | remote =>
    refine make _ .remote c2 ?_
    rw [other _ .secondary _ (by simp), other _ .primary _ (by simp)]

theorem UpToDate.evaluate_other {s : State} {o o' : Output} (h : UpToDate s o) (ne : o ≠ o') :
    UpToDate (evaluate o' s) o :=
  evaluateIf_other (chosen := fun _ => true) s ne h

/-- Being up to date is about the output's own context, the time base, the records and the rating entries. -/
theorem UpToDate.congr {s t : State} {o : Output} (h : UpToDate s o) (hc : t.context o = s.context o)
    (ht : t.time = s.time) (hp : ∀ n, t.profile n = s.profile n) (he : ∀ n, t.entry n = s.entry n) :
    UpToDate t o := by
  have decided : judge t o = judge s o :=
    judge_congr (by rw [hc]) (by rw [hc]) (by rw [hc]) (by rw [hc]) (by rw [ht]) (by rw [ht]; simp)
      (by rw [ht]) hp he
  rw [UpToDate, decided, hc]
  exact h

theorem putProfile_frame (n : Fin 8) (p : Profile) (s : State) : Frame [.profile n] s (s.putProfile n p) := by
  intro q hq
  have same := q.same_refl s
  cases q
  case profile m => exact profile_putProfile_ne s p (by simpa using hq)
  all_goals exact same

/-! ### Unbinding (R29) -/

/-- One output of `unbindProfile`. -/
def unbindOne (n : Fin 8) (s : State) (o : Output) : State :=
  if (s.context o).profile = some n then evaluate o (s.putContext o { s.context o with profile := none }) else s

theorem unbindProfile_eq (n : Fin 8) (s : State) : unbindProfile n s = allOutputs.foldl (unbindOne n) s := rfl

theorem unbindOne_context_ne (n : Fin 8) (t : State) (o o' : Output) (h : o' ≠ o) :
    (unbindOne n t o).context o' = t.context o' := by
  unfold unbindOne
  split
  · rw [evaluate_context_ne h, context_putContext_ne _ _ h]
  · rfl

theorem unbindOne_running (n : Fin 8) (t : State) (o : Output) (h : Running t) : Running (unbindOne n t o) := by
  unfold unbindOne
  split
  · exact ((evaluate_within o _).frame .systemReset (by simp)).trans h
  · exact h

/-- R29: an output bound to the slot loses its binding and is evaluated. -/
theorem unbindProfile_bound {n : Fin 8} {s : State} (hr : Running s) {o : Output}
    (h : (s.context o).profile = some n) :
    ((unbindProfile n s).context o).profile = none ∧ UpToDate (unbindProfile n s) o := by
  rw [unbindProfile_eq]
  refine inTurn (C := Running)
    (P := fun t o => (s.context o).profile = some n → (t.context o).profile = none ∧ UpToDate t o) hr
    (unbindOne_running n) (unbindOne_context_ne n) (fun t o ht hc hb => ?_) (fun t o o' ne _ hp hb => ?_) o h
  · rw [unbindOne, if_pos (hc ▸ hb)]
    refine ⟨?_, evaluate_upToDate o _ ht⟩
    rw [show ((evaluate o _).context o).profile = _ from
      (evaluate_within o _).frame (.profileBinding o) (by simp), context_putContext_self]
  · obtain ⟨unbound, judged⟩ := hp hb
    rw [unbindOne_context_ne n t o o' ne]
    refine ⟨unbound, ?_⟩
    unfold unbindOne
    split
    · exact (judged.congr (context_putContext_ne t _ ne) rfl (fun _ => rfl) fun _ => rfl).evaluate_other ne
    · exact judged

/-- R29: any other output stands. -/
theorem unbindProfile_unbound {n : Fin 8} {s : State} {o : Output} (h : (s.context o).profile ≠ some n) :
    (unbindProfile n s).context o = s.context o := by
  rw [unbindProfile_eq]
  refine inTurn (C := fun _ => True)
    (P := fun t o => (s.context o).profile ≠ some n → t.context o = s.context o) trivial (fun _ _ _ => trivial)
    (unbindOne_context_ne n) (fun t o _ hc hb => ?_) (fun t o o' ne _ hp hb => ?_) o h
  · rw [unbindOne, if_neg (hc ▸ hb), hc]
  · rw [unbindOne_context_ne n t o o' ne, hp hb]

/-! ### The commands (R28, R73 to R78, R85, R176) -/

theorem Orderly.ite {c : Prop} [Decidable c] {s t u : State} (h : Orderly s t) (k : Orderly s u) :
    Orderly s (if c then t else u) := by
  split <;> assumption

/-- R28: a binding to a slot that is not EMPTY, or to none. -/
theorem setBinding_orderly {s : State} (hr : Running s) (o : Output) {b : Option (Fin 8)}
    (hb : ∀ n, b = some n → (s.profile n).state ≠ .empty) : Orderly s (setBinding o b s) := by
  refine .of_outputs fun p => ?_
  have f := (evaluate_within o (s.putContext o { s.context o with profile := b })).frame
  have records : ∀ n, (setBinding o b s).profile n = s.profile n := fun n => f (.profile n) (by simp)
  by_cases hp : p = o
  · subst hp
    refine .inr ⟨evaluate_upToDate p _ hr, fun _ n hn => ?_⟩
    rw [records]
    refine hb n ?_
    rw [show ((setBinding p b s).context p).profile = _ from f (.profileBinding p) (by simp),
      context_putContext_self] at hn
    exact hn
  · have context : (setBinding o b s).context p = s.context p :=
      (evaluate_context_ne hp _).trans (context_putContext_ne s _ hp)
    exact .inl ((Frame.refl [] s).undisturbed (by simp) (by simp) (by simp) |>.congr context records)

theorem obeyBindProfile_orderly {s : State} (hr : Running s) (output profile : Byte) :
    Orderly s (obeyBindProfile output profile s).1 := by
  unfold obeyBindProfile
  split
  · exact setBinding_orderly hr _ (by simp)
  · split
    · exact .refl s
    · next h => exact setBinding_orderly hr _ (fun n hn => by cases hn; exact h)
  · exact .refl s

/-- R73: a record with the state it had is written. -/
theorem writeProfile_orderly {s : State} (hr : Running s) {n : Fin 8} {p : Profile} (c : Bool)
    (h : p.state = (s.profile n).state) : Orderly s (writeProfile n p c s).1 := by
  have noted := (noteExhaustion_within n (s.profile n) (s.putProfile n p)).frame
  have frame : Frame (.profile n :: raised) s (noteExhaustion n (s.profile n) (s.putProfile n p)) :=
    ((putProfile_frame n p s).mono (by simp)).trans (noted.mono (by simp))
  refine orderly_of_record hr frame unruled_raised (by simp) fun hs => ?_
  rw [noted (.profile n) (by simp), profile_putProfile_self, h]
  exact hs

theorem onProfile_orderly {s : State} {profile : Byte} {act : Fin 8 → State → State × Response}
    (h : ∀ n, Orderly s (act n s).1) : Orderly s (onProfile profile act s).1 := by
  unfold onProfile
  split
  · exact .refl s
  · split
    · exact .refl s
    · exact h _

theorem obeySetProfileLimits_orderly {s : State} (hr : Running s) (p kind age mask u sc ab limit : Byte) :
    Orderly s (obeySetProfileLimits p kind age mask u sc ab limit s).1 := by
  refine onProfile_orderly fun n => ?_
  split
  · exact writeProfile_orderly hr _ rfl
  · exact .refl s

theorem obeySetProfileTime_orderly {s : State} (hr : Running s) (p : Byte) (a k lead : Half)
    (r0 r1 r2 r3 : Byte) : Orderly s (obeySetProfileTime p a k lead r0 r1 r2 r3 s).1 :=
  onProfile_orderly fun _ => writeProfile_orderly hr _ rfl

theorem obeySetCurfew_orderly {s : State} (hr : Running s) (p slot days : Byte) (a b : Half) :
    Orderly s (obeySetCurfew p slot days a b s).1 := by
  refine onProfile_orderly fun n => ?_
  split
  · exact .refl s
  · split
    · exact writeProfile_orderly hr _ rfl
    · exact .refl s

theorem obeyClearCurfew_orderly {s : State} (hr : Running s) (p slot : Byte) :
    Orderly s (obeyClearCurfew p slot s).1 := by
  refine onProfile_orderly fun n => ?_
  split
  · exact .refl s
  · exact writeProfile_orderly hr _ rfl

/-- R29, R69: a slot becomes EMPTY; the outputs bound to it lose their binding. -/
theorem emptyProfile_orderly {s : State} (hr : Running s) (n : Fin 8) : Orderly s (emptyProfile n s) := by
  refine .of_outputs fun o => ?_
  by_cases ho : (s.context o).profile = some n
  · obtain ⟨unbound, judged⟩ := unbindProfile_bound (s := s.putProfile n .default) hr ho
    exact .inr ⟨judged, fun _ m hm => by rw [emptyProfile, unbound] at hm; cases hm⟩
  · refine .inl (Undisturbed.congr (t := s.putProfile n .default) ?_ (unbindProfile_unbound ho) fun m =>
      (unbindProfile_within n _).frame (.profile m) (by simp))
    exact (putProfile_frame n .default s).undisturbed (by simp) (by simp)
      fun m hm => by simpa using fun e : m = n => ho (e ▸ hm)

/-- R78: a change of state, with the evaluation that follows. -/
theorem changeProfileState_orderly {s : State} (hr : Running s) (n : Fin 8) (new : ProfileState) :
    Orderly s (evaluateProfile n (changeProfileState n new s)) := by
  simp only [changeProfileState]
  split
  · exact evaluateProfile_orderly n s
  · exact evaluateProfile_orderly n s
  · exact evaluateProfile_orderly n s
  · next hs _ =>
    exact orderly_of_record (ps := raised) hr (((putProfile_frame n _ s).mono (by simp)).trans
      ((noteExhaustion_within ..).frame.mono (by simp))) unruled_raised (by simp) fun h => absurd hs h
  · exact orderly_of_record (ps := []) hr (putProfile_frame n _ s) (by simp [Unruled]) (by simp)
      fun _ => by simp
  · next hs =>
    have active : Orderly s (s.putProfile n { s.profile n with state := .active }) :=
      putProfile_orderly (fun _ => .inl hs) (fun _ => by simp)
    refine Orderly.trans ?_ (evaluateProfile_orderly n _)
    simp only [resumeProfile]
    split
    · exact active.trans (settleProfile_orderly ..)
    · exact active
  · exact (emptyProfile_orderly hr n).trans (evaluateProfile_orderly n _)

theorem obeySetProfileState_orderly {s : State} (hr : Running s) (p state : Byte) :
    Orderly s (obeySetProfileState p state s).1 := by
  refine onProfile_orderly fun n => ?_
  split
  · exact .refl s
  · exact changeProfileState_orderly hr n _

/-- R86: a settlement leaves the state. -/
theorem settleInstalled_state (n : Fin 8) (s : State) :
    ((settleInstalled n s).profile n).state = (s.profile n).state := by
  unfold settleInstalled
  split
  · rfl
  · split
    · rfl
    · rw [profile_putProfile_self]
    · rw [rollOver, raise_profile, profile_putProfile_self]
      rfl

/-- R85 to R87: a record that is not EMPTY is installed. -/
theorem installImage_orderly {s : State} (hr : Running s) (n : Fin 8) {p : Profile} (hp : p.state ≠ .empty) :
    Orderly s (installImage n p s) := by
  have settled := (settleInstalled_within n (s.putProfile n p)).frame
  have noted := (noteInstalledExhaustion_within n (settleInstalled n (s.putProfile n p))).frame
  refine orderly_of_record hr (((putProfile_frame n p s).mono (by simp)).trans
    (settled.trans (noted.mono (by simp)))) unruled_raised (by simp) fun _ => ?_
  rw [noted (.profile n) (by simp), settleInstalled_state, profile_putProfile_self]
  exact hp

theorem completeImport_orderly {s : State} (hr : Running s) (target : Fin 8) (slot : Fin 16) (image : List Byte) :
    Orderly s (completeImport target slot image s) := by
  unfold completeImport
  split
  · exact .of_eq rfl rfl
  · next h =>
    exact (installImage_orderly hr target (readImage_ok h).2).trans (.of_eq rfl rfl)

/-- R46, R176: every profile binding is removed and every output evaluated; nothing after that is about
verdicts. -/
theorem obeyFactoryClear_orderly {s : State} (hr : Running s) : Orderly s (obeyFactoryClear s).1 := by
  have running : (clearRetained (cancelImage s)).systemReset = false :=
    ((clearRetained_within _).frame .systemReset (by decide)).trans
      (((cancelImage_within s).frame .systemReset (by decide)).trans hr)
  have cleared : Orderly s (evaluateAll (clearRetained (cancelImage s))) := .of_outputs fun o => by
    refine .inr ⟨evaluateAll_upToDate running o, fun _ n hn => ?_⟩
    rw [show ((evaluateAll _).context o).profile = _ from
      (evaluateAll_within _).frame (.profileBinding o) (by simp), clearRetained_context] at hn
    cases hn
  rw [obeyFactoryClear_eq]
  refine cleared.trans ((settling_frame s).orderly (unruled_append unruled_levelParts ?_))
  exact unruled_append (unruled_append unruled_endingParts unruled_sessionParts) (by simp [Unruled, Part.ruled])

theorem obeyOpenPinEntry_orderly (output profile purpose staged : Byte) (minutes : Half) (kind scope : Byte)
    (d : Half) (sec : Word) (slot : Fin 16) (s : State) :
    Orderly s (obeyOpenPinEntry output profile purpose staged minutes kind scope d sec slot s).1 := by
  have begun : ∀ p a, Orderly s (beginEntry p slot a s) := fun p a => by
    refine .of_eq ?_ ?_ <;> simp only [beginEntry, offerMessage] <;> split <;> rfl
  unfold obeyOpenPinEntry
  split
  · exact .refl s
  · unfold obeyOpenSession
    split
    · exact .refl s
    · split
      exacts [openSession_orderly s, begun ..]
  · unfold obeyOpenGrant
    split
    · exact .refl s
    · split
      · exact .refl s
      · split
        exacts [executeStaged_orderly .., begun ..]
  · unfold obeyOpenPinChange
    split
    · exact .refl s
    · split
      exacts [begun .., .refl s]

/-- R180: whatever the command, its owner keeps the laws of the outputs. -/
theorem obey_orderly {s : State} (hr : Running s) (slot : Fin 16) (c : Command) :
    Orderly s (obey slot c s).1 := by
  have quiet : Unruled (commandParts c) → Orderly s (obey slot c s).1 := (obey_within slot c s).orderly
  cases c with
  | null | exportProfile | importProfile | commitLayout | closeSession | setSessionLength | setPanelAddresses
  | selectView | setNoticeMask | setAttention => exact quiet (by simp [Unruled, commandParts, Part.ruled])
  | setIntakeLevels => exact quiet unruled_levelParts
  | setScheme => exact quiet (unruled_append (a := [.schemes]) (by simp [Unruled, Part.ruled]) unruled_everyEntry)
  | setWindow o kind =>
    refine quiet ?_
    simp only [commandParts]
    cases outputOf o <;> cases windowKindOf kind <;> simp [Unruled, Part.ruled]
  | setSectionWindow number =>
    refine quiet ?_
    simp only [commandParts]
    split <;> simp [Unruled, Part.ruled]
  | bindService o unbind n st sv =>
    cases unbind with
    | false =>
      show Orderly s (obeyBindService o _ s).1
      unfold obeyBindService
      split
      exacts [.refl s, bindService_orderly ..]
    | true =>
      show Orderly s (obeyUnbindService o s).1
      unfold obeyUnbindService
      split
      exacts [.refl s, unbindService_orderly ..]
  | bindProfile o p => exact obeyBindProfile_orderly hr o p
  | declarePlayback =>
    show Orderly s (obeyDeclarePlayback ..).1
    unfold obeyDeclarePlayback
    split
    exacts [declareEvent_orderly .., .refl s]
  | setProfileLimits => exact obeySetProfileLimits_orderly hr ..
  | setProfileTime => exact obeySetProfileTime_orderly hr ..
  | setCurfew p c clear d a b =>
    cases clear with
    | false => exact obeySetCurfew_orderly hr ..
    | true => exact obeyClearCurfew_orderly hr ..
  | setProfileState p state => exact obeySetProfileState_orderly hr p state
  | grantTime p m =>
    show Orderly s (obeyGrantTime p m s).1
    unfold obeyGrantTime
    split
    exacts [.refl s, grant_orderly ..]
  | pushOverride =>
    show Orderly s (obeyPushOverride ..).1
    unfold obeyPushOverride
    split
    exacts [.refl s, rewritten_orderly rfl rfl rfl]
  | popOverride o =>
    show Orderly s (obeyPopOverride o s).1
    unfold obeyPopOverride
    split
    · exact .refl s
    · split
      exacts [.refl s, rewritten_orderly rfl rfl rfl]
  | clearOverrides o =>
    show Orderly s (obeyClearOverrides o s).1
    unfold obeyClearOverrides
    split
    exacts [.refl s, rewritten_orderly rfl rfl rfl]
  | setTime day second offset =>
    show Orderly s (obeySetTime day second offset s).1
    unfold obeySetTime
    split
    exacts [.refl s, setWall_orderly ..]
  | setDayStart m => exact takeDayStart_orderly ..
  | openPinEntry => exact obeyOpenPinEntry_orderly ..
  | factoryClear => exact obeyFactoryClear_orderly hr

/-! ### The work of the clock, and the parser -/

theorem doWork_orderly (w : SecondWork) (s : State) : Orderly s (doWork w s) := by
  cases w with
  | dayComparison => exact compareDay_orderly s
  | sample => exact sample_orderly s
  | evaluation o => exact Orderly.ite (evaluate_orderly o s) (.refl s)
  | promotion n => exact promoteOnce_orderly n s
  | untilTimeExpiry o => exact expireUntilTime_orderly o s
  | pendingLimitExpiry o =>
    show Orderly s (expirePending o s)
    unfold expirePending
    split
    · exact .ite (evaluate_orderly o s) (.refl s)
    · exact .refl s
  | sessionExpiry => exact (expireSession_within s).orderly unruled_sessionParts
  | lockoutExpiry => exact (expireLockout_within s).orderly (by simp [Unruled, Part.ruled])
  | wholeEntryLimit => exact (wholeEntryLimit_within s).orderly unruled_endingParts
  | interKeyLimit => exact (interKeyLimit_within s).orderly unruled_endingParts

theorem completeParse_orderly (s : State) : Orderly s (completeParse s) := by
  have applied : ∀ r, Orderly s (applyRecord r s) := fun r => by
    have bad : Orderly s (badBody r s) := raise_orderly ..
    unfold applyRecord
    split
    · split
      · exact .ite (.refl s) (takeSection_orderly ..)
      · exact bad
    · split
      exacts [takeBroadcastTime_orderly .., bad]
    · split
      exacts [takeOffset_orderly .., bad]
    · exact .refl s
  unfold completeParse
  split
  · exact (applied _).trans ((dequeue_within _).orderly
      (unruled_append (unruled_append unruled_everySection (by simp [Unruled, Part.ruled])) unruled_raised))
  · exact .refl s

/-! ### The rows, for any relation that the operations keep -/

/-- The parts that the law of the rating table reads. -/
def Part.rated : Part → Bool
  | .serviceBinding _ | .entry _ => true
  | _ => false

/-- A list holds no part that the laws of outputs or of the rating table read. -/
def Aside (ps : List Part) : Prop := ∀ p ∈ ps, (p.ruled || p.rated) = false

theorem aside_append {a b : List Part} (ha : Aside a) (hb : Aside b) : Aside (a ++ b) := fun p hp =>
  (List.mem_append.1 hp).elim (ha p) (hb p)

theorem aside_map {α : Type} {l : List α} {f : α → Part} (h : ∀ a, ((f a).ruled || (f a).rated) = false) :
    Aside (l.map f) := by
  intro p hp
  obtain ⟨a, -, rfl⟩ := List.mem_map.1 hp
  exact h a

theorem Aside.unruled {ps : List Part} (h : Aside ps) : Unruled ps := fun p hp =>
  (Bool.or_eq_false_iff.1 (h p hp)).1

theorem Aside.unrated {ps : List Part} (h : Aside ps) {p : Part} (hp : p ∈ ps) : p.rated = false :=
  (Bool.or_eq_false_iff.1 (h p hp)).2

theorem aside_raised : Aside raised := by simp [Aside, Part.ruled, Part.rated]
theorem aside_everySection : Aside everySection := aside_map fun _ => rfl

theorem aside_intakeParts : Aside intakeParts :=
  aside_append (aside_append aside_everySection (by simp [Aside, Part.ruled, Part.rated])) aside_raised

/-- A relation between a state and a later one that the operations of the gate keep, one after another. -/
structure Carried (R : State → State → Prop) : Prop where
  refl : ∀ s, R s s
  trans : ∀ {s t u}, R s t → R t u → R s u
  aside : ∀ {ps s t}, Frame ps s t → Aside ps → R s t
  obeyed : ∀ {s}, Running s → ∀ slot c, R s (obey slot c s).1
  worked : ∀ w s, R s (doWork w s)
  parsed : ∀ s, R s (completeParse s)
  imported : ∀ {s}, Running s → ∀ target slot image, R s (completeImport target slot image s)
  keyed : ∀ s, R s (takeKey s)
  warmed : ∀ s, R s (warmReset s)
  cooled : ∀ s, R s (coldReset s)
  released : ∀ s, R s (releaseReset s)

namespace Carried

variable {R : State → State → Prop} (c : Carried R)

include c

theorem within {ps : List Part} {s t : State} (h : Within ps s t)
    (hp : Aside ps := by simp [Aside, Part.ruled, Part.rated]) : R s t := c.aside h.frame hp

theorem slotWritten (n : Fin 16) (k : CommandSlot) (s : State) : R s (s.putSlot n k) :=
  c.within (within_slot (ps := [.slot n]) (by simp))

theorem foldl {α : Type} {f : State → α → State} (h : ∀ s a, R s (f s a)) (l : List α) (s : State) :
    R s (l.foldl f s) := by
  induction l generalizing s with
  | nil => exact c.refl s
  | cons a l ih => exact c.trans (h s a) (ih (f s a))

theorem ofWhileRunning {f : State → State} {s : State} (h : Running s → R s (f s)) : R s (whileRunning f s) := by
  unfold Machine.whileRunning
  split
  · exact c.refl s
  · next hr => exact h (Bool.eq_false_of_not_eq_true hr)

/-! #### The ring (R178 to R180) -/

theorem recordJudged {s : State} (hr : Running s) (slot : Fin 16) (record : List Byte) :
    R s (judgeRecord32 slot record s).1 := by
  unfold judgeRecord32
  split
  · exact c.refl s
  · next k _ =>
    unfold judgeCommand
    split
    · split
      · have slid := slideSession_within s
        exact c.trans (c.within slid)
          (c.obeyed ((slid.frame .systemReset (by simp)).trans hr) slot k)
      · exact c.refl s
    · exact c.obeyed hr slot k

theorem recordTaken {s : State} (hr : Running s) (record : List Byte) : R s (takeRecord record s) := by
  have advanced : ∀ t, R t (advancePointer t) := fun t =>
    c.within (ps := [.pointer]) (within_command (.inr rfl) (.inl (by simp)) (fun _ => .inr rfl) id)
  exact c.trans (c.slotWritten ..) (c.trans (c.recordJudged (by exact hr) _ record)
    (c.trans (c.slotWritten ..) (advanced _)))

theorem ringRuns {s : State} (hr : Running s) : R s (runRing s) := by
  suffices ∀ n {t : State}, Running t → R t (takeChain n t) from this 16 hr
  intro n
  induction n with
  | zero => exact fun _ => c.refl _
  | succ n ih =>
    intro t ht
    unfold takeChain
    split
    · exact c.trans (c.recordTaken ht _) (ih ((takeRecord_same (p := .systemReset) rfl (by simp) _ t).trans ht))
    · exact c.refl t

theorem captured (p : Fin 16) (record : List Byte) (s : State) : R s (capture p record s) := by
  unfold capture
  split
  exacts [c.slotWritten .., c.refl s]

theorem shadowed (offset : Nat) (bytes : List (Byte × Bool)) (s : State) : R s (copyToShadow offset bytes s) :=
  c.aside (copyToShadow_frame offset bytes s) (by simp [Aside, Part.ruled, Part.rated])

theorem posted {s : State} (hr : Running s) (p : Fin 16) : R s (postSlot p s) :=
  c.trans (c.captured ..) (c.ringRuns ((capture_same (p := .systemReset) rfl ..).trans hr))

theorem controlSnooped {s : State} (hr : Running s) (start : Nat) (bytes : List (Byte × Bool)) :
    R s (snoopControl start bytes s) := by
  have posts : ∀ (ps : List (Fin 16)) {t : State}, Running t → R t (ps.foldl (fun t p => postSlot p t) t) := by
    intro ps
    induction ps with
    | nil => exact fun _ => c.refl _
    | cons p ps ih =>
      exact fun ht => c.trans (c.posted ht p) (ih ((postSlot_same (p := .systemReset) rfl (by simp) p _).trans ht))
  unfold snoopControl
  split
  · exact c.trans (c.shadowed ..) (posts _ (by exact hr))
  · exact c.refl s

theorem hostPosted {s : State} (hr : Running s) (k : Command) : R s (hostPosts k s) := by
  have post : R s (postCommand k s) := c.trans (c.shadowed ..) (c.captured ..)
  exact c.trans post (c.ringRuns ((capture_same (p := .systemReset) rfl ..).trans hr))

/-! #### The other rows -/

theorem frameArrived {s : State} (hr : Running s) (w : WireFrame) : R s (frameArrives w s) := by
  have f := receiveFrame_within w s
  exact c.trans (c.within f) (c.ringRuns ((f.frame .systemReset (by simp)).trans hr))

theorem waitEnded {s : State} (hr : Running s) : R s (waitEnds s) := by
  have f := waitRunsOut_within s
  exact c.trans (c.within f)
    (c.ringRuns ((f.frame .systemReset (by simp)).trans hr))

theorem exportCompleted {s : State} (hr : Running s) : R s (exportCompletes s) := by
  unfold exportCompletes
  split
  · next n slot p _ =>
    have f := completeExport_within n slot p s
    exact c.trans (c.within f)
      (c.ringRuns ((f.frame .systemReset (by simp)).trans hr))
  · exact c.refl s

theorem importCompleted {s : State} (hr : Running s) : R s (importCompletes s) := by
  unfold importCompletes
  split
  · next n slot image _ =>
    exact c.trans (c.imported hr n slot image)
      (c.ringRuns (((completeImport_within n slot image s).frame .systemReset (by simp)).trans hr))
  · exact c.refl s

theorem heldArrived (lane : HoldingLane) (s : State) : R s (arriveHeld lane s) := by
  cases lane with
  | presentation => exact c.within (arrivePresentation_within s)
  | control => exact c.within (arriveControl_within s)

theorem secondPassed (order : List SecondWork) (s : State) : R s (secondEvent order s) := by
  have works : ∀ ws t, R t (doAll ws t) := c.foldl fun t w => c.worked w t
  have promotions : ∀ (ns : List (Fin 64)) t, R t (ns.foldl (fun t n => promoteOnce n t) t) :=
    c.foldl fun t n => c.worked (.promotion n) t
  exact c.trans (c.trans (promotions _ s) (works lateWork _))
    (c.trans (c.within (tick_within _)) (works _ _))

theorem put (x : LaneOut) (s : State) : R s (s.putOut x) :=
  c.within (putOut_within x s)

/-- The rows that are no lane transfer and post no record. -/
theorem eventRow {i : Instr} {s t : State} (hi : ((commandOf i).isSome || laneTransfer i) = false)
    (h : exec i s = .next t) : R s t := by
  cases i with
  | heldRequestArrival lane => cases h; exact c.ofWhileRunning fun _ => c.heldArrived lane s
  | coldReset => cases h; exact c.cooled s
  | warmReset => cases h; exact c.warmed s
  | warmResetRelease => cases h; exact c.released s
  | secondEvent order => cases h; exact c.secondPassed order s
  | parseCompletion => cases h; exact c.ofWhileRunning fun _ => c.parsed s
  | promotion n => cases h; exact c.ofWhileRunning fun _ => c.worked (.promotion n) s
  | untilTimeExpiry o => cases h; exact c.ofWhileRunning fun _ => c.worked (.untilTimeExpiry o) s
  | pendingLimitExpiry o => cases h; exact c.ofWhileRunning fun _ => c.worked (.pendingLimitExpiry o) s
  | sessionExpiry => cases h; exact c.ofWhileRunning fun _ => c.worked .sessionExpiry s
  | lockoutExpiry => cases h; exact c.worked .lockoutExpiry s
  | wholeEntryLimit => cases h; exact c.ofWhileRunning fun _ => c.worked .wholeEntryLimit s
  | interKeyLimit => cases h; exact c.ofWhileRunning fun _ => c.worked .interKeyLimit s
  | exportCompletion => cases h; exact c.ofWhileRunning fun hr => c.exportCompleted hr
  | importCompletion => cases h; exact c.ofWhileRunning fun hr => c.importCompleted hr
  | addressFrame w | keyFrame w | panelAnswer w | lock w | dataFrameDropped w | answerAwaitingEcho w =>
    cases h; exact c.ofWhileRunning fun hr => c.frameArrived hr w
  | lineBreak =>
    cases h; exact c.ofWhileRunning fun _ => c.within (takeBreak_within s)
  | faultRecovery =>
    cases h; exact c.ofWhileRunning fun _ => c.within (recoverFault_within s)
  | transmitStart =>
    cases h; exact c.ofWhileRunning fun _ => c.within (startMessage_within s)
  | messageSent =>
    cases h; exact c.ofWhileRunning fun _ => c.within (messageSent_within s)
  | acknowledgementTimeout => cases h; exact c.ofWhileRunning fun hr => c.waitEnded hr
  | keyTaken => cases h; exact c.ofWhileRunning fun _ => c.keyed s
  | _ => cases hi

/-- The transfers on the lanes (R1 to R21). -/
theorem transferRow {i : Instr} {s t : State} (hl : laneTransfer i = true) (h : exec i s = .next t) : R s t := by
  cases i with
  | streamWriteBurst start bytes =>
    obtain ⟨-, rfl⟩ := ifBurst_next h
    exact c.ofWhileRunning fun _ => c.trans (c.put _ s) (c.within (snoopStream_within ..) aside_intakeParts)
  | streamReadBurst tag start status data =>
    obtain ⟨-, rfl⟩ := ifBurst_next h
    exact c.ofWhileRunning fun _ => c.trans (c.put _ s) (c.put _ _)
  | controlWriteBurst start bytes =>
    obtain ⟨-, rfl⟩ := ifBurst_next h
    exact c.ofWhileRunning fun hr => c.trans (c.put _ s) (c.controlSnooped (by exact hr) ..)
  | controlReadRequest tag start count =>
    obtain ⟨-, rfl⟩ := ifBurst_next h
    exact c.ofWhileRunning fun _ => c.within (presentControl_within ..)
  | controlReadResponse mark tag status data =>
    obtain ⟨-, rfl⟩ := ifBurst_next h
    exact c.ofWhileRunning fun _ => c.within (takeControlResponse_within ..)
  | noticePortRead mark data | summaryRead mark data =>
    obtain ⟨-, rfl⟩ := ifBurst_next h
    exact c.ofWhileRunning fun _ => c.within (takeMarkedResponse_within ..)
  | presentationReadRequest tag start count =>
    obtain ⟨-, rfl⟩ := ifBurst_next h
    exact c.ofWhileRunning fun _ => c.within (presentPresentation_within ..)
  | presentationWriteBurst start bytes =>
    obtain ⟨-, rfl⟩ := ifBurst_next h
    exact c.ofWhileRunning fun _ => c.put _ s
  | presentationResponse tag status data =>
    obtain ⟨-, rfl⟩ := ifBurst_next h
    exact c.ofWhileRunning fun _ => c.within (takePresentationResponse_within ..)
  | _ => cases hl

theorem row {i : Instr} {s t : State} (h : exec i s = .next t) : R s t := by
  cases hc : commandOf i with
  | some k =>
    rw [exec_host hc] at h
    cases h
    exact c.ofWhileRunning fun hr => c.hostPosted hr k
  | none =>
    cases hl : laneTransfer i with
    | true => exact c.transferRow hl h
    | false => exact c.eventRow (by simp [hc, hl]) h

/-- A step keeps what every row keeps: nothing that it reads is in the queue of commands. -/
theorem afterStep {s t : State} (h : step s = .next t) : R s t := by
  unfold step at h
  split at h
  · cases h
    exact c.refl s
  · next rest _ =>
    refine c.trans (c.aside (ps := [.pending]) (t := { s with pending := rest }) ?_
      (by simp [Aside, Part.ruled, Part.rated])) (c.row h)
    intro p hp
    have same := p.same_refl s
    cases p
    case pending => simp at hp
    all_goals exact same

end Carried

/-! ### Every step keeps the laws of outputs -/

theorem warmReset_orderly (s : State) : Orderly s (warmReset s) :=
  (warmReset_frame s).orderly (unruled_append (unruled_append (unruled_append (unruled_append (unruled_append
    (by simp [Unruled, Part.ruled]) (by simp [Unruled, Part.ruled])) unruled_everyStack) unruled_everyEntry)
    unruled_everySection) (unruled_map fun _ => rfl))

theorem coldReset_orderly (s : State) : Orderly s (coldReset s) := by
  have context : ∀ o, (coldReset s).context o = .cold := cold_context s.inputs
  refine ⟨fun l o _ => ?_⟩
  cases l <;> simp [OutputLaw.holdsAt, context, OutputContext.cold, reasonFits]

theorem releaseReset_orderly (s : State) : Orderly s (releaseReset s) := by
  unfold releaseReset
  split
  · exact Orderly.trans (t := { s with systemReset := false }) (.of_eq rfl rfl)
      (.foldl (fun t o => evaluate_orderly o t) allOutputs _)
  · exact .refl s

theorem orderly_carried : Carried Orderly where
  refl := .refl
  trans := .trans
  aside f h := f.orderly h.unruled
  obeyed hr slot c := obey_orderly hr slot c
  worked := doWork_orderly
  parsed := completeParse_orderly
  imported hr := completeImport_orderly hr
  keyed := takeKey_orderly
  warmed := warmReset_orderly
  cooled := coldReset_orderly
  released := releaseReset_orderly

/-- Settles O7: the law of the stacks is a law of one block; the laws of supervision, of reasons and of BLOCKED
are laws of one output, and every step is orderly. -/
theorem stepKeepsVerdictsAndStacks : Obligations.StepKeepsVerdictsAndStacks := by
  unfold Obligations.StepKeepsVerdictsAndStacks
  intro s t h
  have kept := orderly_carried.afterStep h
  exact ⟨step_keeps h .stackTops, fun hs o => kept.laws .supervision o (hs o),
    fun hs o => kept.laws .reason o (hs o), fun hs o => kept.laws .blocked o (hs o)⟩

end Sys2Proof.Machine
end

section
/-! PROOF. The law of the rating table (R27, R123, R126, R134): where a new entry is placed, and what each
operation does to keys, sources, bind counts and service bindings. -/

namespace Sys2Proof.Machine

open Sys2Proof

/-! ### Look-up and placement (R123, R126) -/

theorem holdsKey_iff {s : State} {k : ServiceKey} {n : Fin 64} :
    holdsKey s k n = true ↔ ∃ e, s.entry n = some e ∧ e.key = k := by
  unfold holdsKey
  split
  · next e h => simp [h]
  · next h => simp [h]

theorem findKey_holds {s : State} {k : ServiceKey} {n : Fin 64} (h : findKey s k = some n) :
    ∃ e, s.entry n = some e ∧ e.key = k := holdsKey_iff.1 (List.find?_some h)

theorem findKey_none {s : State} {k : ServiceKey} (h : findKey s k = none) {n : Fin 64} {e : Entry}
    (he : s.entry n = some e) : e.key ≠ k := fun hk =>
  List.find?_eq_none.1 h n (List.mem_finRange n) (holdsKey_iff.2 ⟨e, he, hk⟩)

/-- The slot that a search of the table finds is the lowest. -/
theorem find_ratingSlots_le {p : Fin 64 → Bool} {n : Fin 64} (h : allRatingSlots.find? p = some n) (m : Fin 64)
    (hm : p m = true) : n ≤ m := by
  obtain ⟨-, before, after, split, none_before⟩ := List.find?_eq_some_iff_append.1 h
  have sorted : (before ++ n :: after).Pairwise (· < ·) := split ▸ List.pairwise_lt_finRange 64
  have member : m ∈ before ++ n :: after := split ▸ List.mem_finRange m
  rcases List.mem_append.1 member with hb | ha
  · exact absurd hm (by simpa using none_before m hb)
  · rcases List.mem_cons.1 ha with rfl | ha
    · exact le_refl m
    · exact ((List.pairwise_cons.1 (List.pairwise_append.1 sorted).2.1).1 m ha).le

/-- What a search for a victim among some slots has found: nothing, where no entry is unbound; else the first of
the unbound entries with the oldest stamp. -/
def VictimOf (s : State) (l : List (Fin 64)) : Option (Fin 64 × Nat) → Prop
  | none => ∀ m ∈ l, ∀ f, s.entry m = some f → f.bindCount ≠ 0
  | some (n, stamp) => n ∈ l ∧ (∃ e, s.entry n = some e ∧ e.bindCount = 0 ∧ e.lastTouch = stamp)
      ∧ ∀ m ∈ l, ∀ f, s.entry m = some f → f.bindCount = 0 →
          stamp < f.lastTouch ∨ (stamp = f.lastTouch ∧ n ≤ m)

/-- A slot with nothing to evict leaves the victim found so far. -/
theorem VictimOf.skip {s : State} {l : List (Fin 64)} {best : Option (Fin 64 × Nat)} (h : VictimOf s l best)
    {a : Fin 64} (ha : ∀ f, s.entry a = some f → f.bindCount ≠ 0) : VictimOf s (l ++ [a]) best := by
  cases best with
  | none =>
    intro m hm f hf
    rcases List.mem_append.1 hm with hm | hm
    · exact h m hm f hf
    · exact ha f (List.mem_singleton.1 hm ▸ hf)
  | some b =>
    obtain ⟨member, unbound, oldest⟩ := h
    refine ⟨List.mem_append_left _ member, unbound, fun m hm f hf h0 => ?_⟩
    rcases List.mem_append.1 hm with hm | hm
    · exact oldest m hm f hf h0
    · exact absurd h0 (ha f (List.mem_singleton.1 hm ▸ hf))

/-- A later slot is the victim where its entry is older than what was found so far. -/
theorem VictimOf.take {s : State} {l : List (Fin 64)} {best : Option (Fin 64 × Nat)} (h : VictimOf s l best)
    {a : Fin 64} {e : Entry} (ha : s.entry a = some e) (h0 : e.bindCount = 0)
    (older : ∀ b, best = some b → e.lastTouch < b.2) : VictimOf s (l ++ [a]) (some (a, e.lastTouch)) := by
  refine ⟨by simp, ⟨e, ha, h0, rfl⟩, fun m hm f hf hf0 => ?_⟩
  rcases List.mem_append.1 hm with hm | hm
  · cases best with
    | none => exact absurd hf0 (h m hm f hf)
    | some b =>
      have := older b rfl
      obtain ⟨-, -, oldest⟩ := h
      have := oldest m hm f hf hf0
      omega
  · obtain rfl := List.mem_singleton.1 hm
    rw [ha] at hf
    cases hf
    exact .inr ⟨rfl, le_refl _⟩

theorem VictimOf.stay {s : State} {l : List (Fin 64)} {b : Fin 64 × Nat} (h : VictimOf s l (some b))
    {a : Fin 64} {e : Entry} (ha : s.entry a = some e) (hle : b.2 ≤ e.lastTouch) (hl : ∀ m ∈ l, m < a) :
    VictimOf s (l ++ [a]) (some b) := by
  obtain ⟨member, unbound, oldest⟩ := h
  refine ⟨List.mem_append_left _ member, unbound, fun m hm f hf h0 => ?_⟩
  rcases List.mem_append.1 hm with hm | hm
  · exact oldest m hm f hf h0
  · obtain rfl := List.mem_singleton.1 hm
    rw [ha] at hf
    cases hf
    rcases hle.lt_or_eq with lt | eq
    · exact .inl lt
    · exact .inr ⟨eq, (hl _ member).le⟩

theorem VictimOf.next {s : State} {l : List (Fin 64)} {best : Option (Fin 64 × Nat)} (h : VictimOf s l best)
    {a : Fin 64} (hl : ∀ m ∈ l, m < a) : VictimOf s (l ++ [a]) (olderVictim s best a) := by
  unfold olderVictim
  split
  · next e he =>
    split
    · next h0 =>
      split
      · next b =>
        split
        · next hlt => exact h.take he h0 fun _ hb => by cases hb; exact hlt
        · next hge => exact h.stay he (Nat.le_of_not_lt hge) hl
      · exact h.take he h0 (by simp)
    · next h0 => exact h.skip fun f hf => by rw [he] at hf; cases hf; exact h0
  · next he => exact h.skip fun f hf => by simp [he] at hf

theorem victimOf_foldl (s : State) {l : List (Fin 64)} (hl : l.Pairwise (· < ·)) :
    VictimOf s l (l.foldl (olderVictim s) none) := by
  induction l using List.reverseRecOn with
  | nil => intro m hm; cases hm
  | append_singleton l a ih =>
    obtain ⟨sorted, -, below⟩ := List.pairwise_append.1 hl
    rw [List.foldl_append]
    exact (ih sorted).next fun m hm => below m hm a (by simp)

/-- R126: with no slot free and an unbound entry somewhere, the place is the victim's. -/
theorem placeFor_victim {s : State} (full : ∀ m, s.entry m ≠ none) {m : Fin 64} {f : Entry}
    (hf : s.entry m = some f) (h0 : f.bindCount = 0) :
    ∃ e, s.entry (placeFor s) = some e ∧ e.bindCount = 0
      ∧ ∀ m f, s.entry m = some f → f.bindCount = 0 →
          e.lastTouch < f.lastTouch ∨ (e.lastTouch = f.lastTouch ∧ placeFor s ≤ m) := by
  have found := victimOf_foldl s (List.pairwise_lt_finRange 64)
  have none_free : allRatingSlots.find? (fun n => (s.entry n).isNone) = none :=
    List.find?_eq_none.2 fun n _ => by simp [full n]
  cases hv : allRatingSlots.foldl (olderVictim s) none with
  | none =>
    rw [show (List.finRange 64).foldl (olderVictim s) none = none from hv] at found
    exact absurd h0 (found m (List.mem_finRange m) f hf)
  | some b =>
    obtain ⟨n, stamp⟩ := b
    rw [show (List.finRange 64).foldl (olderVictim s) none = some (n, stamp) from hv] at found
    obtain ⟨-, ⟨e, he, he0, rfl⟩, oldest⟩ := found
    have place : placeFor s = n := by simp [placeFor, none_free, victim, hv]
    rw [place]
    exact ⟨e, he, he0, fun m f => oldest m (List.mem_finRange m) f⟩

/-- R126: with a slot free, the place is the lowest. -/
theorem placeFor_free {s : State} {m : Fin 64} (hm : s.entry m = none) :
    s.entry (placeFor s) = none ∧ placeFor s ≤ m := by
  cases hf : allRatingSlots.find? (fun n => (s.entry n).isNone) with
  | none => exact absurd (List.find?_eq_none.1 hf m (List.mem_finRange m)) (by simp [hm])
  | some n =>
    have place : placeFor s = n := by simp [placeFor, hf]
    rw [place]
    exact ⟨by simpa using List.find?_some hf, find_ratingSlots_le hf m (by simp [hm])⟩

theorem ensureEntry_of_found {k : ServiceKey} {s : State} {n : Fin 64} (h : findKey s k = some n) :
    ensureEntry k s = (n, s) := by simp [ensureEntry, h]

theorem ensureEntry_of_missing {k : ServiceKey} {s : State} (h : findKey s k = none) :
    ensureEntry k s = (placeFor s, s.putEntry (placeFor s) (some (newEntry k s.time.run))) := by
  simp [ensureEntry, h]

/-- R126: the slot of a key holds the entry of the key. -/
theorem ensureEntry_entry (k : ServiceKey) (s : State) :
    ∃ e, (ensureEntry k s).2.entry (ensureEntry k s).1 = some e ∧ e.key = k := by
  cases h : findKey s k with
  | some n => rw [ensureEntry_of_found h]; exact findKey_holds h
  | none => rw [ensureEntry_of_missing h]; exact ⟨_, entry_putEntry_self .., rfl⟩

/-- R123, R126: where the keys are distinct, the slot of a key is as the placement rule says. -/
theorem ensureEntry_placedAt {s : State}
    (distinct : ∀ m n e f, s.entry m = some e → s.entry n = some f → e.key = f.key → m = n) (k : ServiceKey) :
    PlacedAt s k (ensureEntry k s).1 := by
  cases h : findKey s k with
  | some n =>
    obtain ⟨e, he, hk⟩ := findKey_holds h
    rw [ensureEntry_of_found h]
    exact ⟨fun m f hf hfk => distinct n m e f he hf (hk.trans hfk.symm), fun new => absurd hk (new n e he)⟩
  | none =>
    rw [ensureEntry_of_missing h]
    refine ⟨fun m f hf hk => absurd hk (findKey_none h hf), fun _ => ⟨fun m hm => placeFor_free hm, ?_⟩⟩
    intro full m f hf h0
    obtain ⟨e, he, he0, oldest⟩ := placeFor_victim full hf h0
    exact ⟨e, he, he0, oldest m f hf h0⟩

/-! ### The law, for service bindings given apart from the state -/

/-- The outputs that a table of service bindings binds to a slot. -/
def bindersOf (f : Output → Option (Fin 64)) (n : Fin 64) : List Output :=
  allOutputs.filter (fun o => decide (f o = some n))

/-- The service binding of every output. -/
def State.services (s : State) (o : Output) : Option (Fin 64) := (s.context o).service

/-- The law of the rating table, read with service bindings `f`. -/
structure Tallied (f : Output → Option (Fin 64)) (s : State) : Prop where
  distinct : ∀ m n e e', s.entry m = some e → s.entry n = some e' → e.key = e'.key → m = n
  counted : ∀ n e, s.entry n = some e → e.bindCount = (bindersOf f n).length
  sourced : ∀ n e, s.entry n = some e → e.source = ServiceKey.source e.key
  free : ∀ n, s.entry n = none → bindersOf f n = []

theorem ratingLaw_iff (s : State) : RatingLaw s ↔ Tallied s.services s :=
  ⟨fun ⟨keys, counts, free⟩ => ⟨keys, fun n e h => (counts n e h).1, fun n e h => (counts n e h).2, free⟩,
    fun ⟨keys, counts, sources, free⟩ => ⟨keys, fun n e h => ⟨counts n e h, sources n e h⟩, free⟩⟩

theorem bindersOf_eq_nil {f : Output → Option (Fin 64)} {n : Fin 64} :
    bindersOf f n = [] ↔ ∀ o, f o ≠ some n := by
  have all : ∀ o : Output, o ∈ allOutputs := fun o => by cases o <;> simp [allOutputs]
  simp [bindersOf, List.filter_eq_nil_iff, all]

theorem bindersOf_clear {f : Output → Option (Fin 64)} {o : Output} {n : Fin 64} (h : f o = some n) :
    (bindersOf f n).length = (bindersOf (Function.update f o none) n).length + 1 := by
  cases o <;> simp [bindersOf, allOutputs, List.filter_cons, Function.update, h] <;> split_ifs <;> rfl

theorem bindersOf_update_other {f : Output → Option (Fin 64)} {o : Output} {n : Fin 64} {b : Option (Fin 64)}
    (h : f o ≠ some n) (hb : b ≠ some n) : bindersOf (Function.update f o b) n = bindersOf f n := by
  refine List.filter_congr fun p _ => ?_
  by_cases hp : p = o
  · subst hp; simp [h, hb]
  · simp [hp]

/-- Some slot has no output bound to it: there are three outputs. -/
theorem exists_unbound (f : Output → Option (Fin 64)) : ∃ n, bindersOf f n = [] := by
  by_contra h
  push Not at h
  have bound : ∀ n, n ∈ allOutputs.filterMap f := fun n => by
    obtain ⟨o, ho⟩ := List.exists_mem_of_ne_nil _ (h n)
    obtain ⟨member, eq⟩ := List.mem_filter.1 ho
    exact List.mem_filterMap.2 ⟨o, member, by simpa using eq⟩
  have most := ((List.nodup_finRange 64).subperm fun n _ => bound n).length_le
  have few := List.length_filterMap_le f allOutputs
  rw [List.length_finRange] at most
  simp only [allOutputs, List.length_cons, List.length_nil] at few most
  omega

/-- What the law reads of an entry. -/
def Entry.shape (e : Entry) : ServiceKey × EntrySource × Nat := (e.key, e.source, e.bindCount)

/-- The law reads no more of an entry than its key, its source and its bind count. -/
theorem Tallied.of_shape {f : Output → Option (Fin 64)} {s t : State} (h : Tallied f s)
    (same : ∀ n, (t.entry n).map Entry.shape = (s.entry n).map Entry.shape) : Tallied f t := by
  have before : ∀ {n e}, t.entry n = some e →
      ∃ e', s.entry n = some e' ∧ e'.key = e.key ∧ e'.source = e.source ∧ e'.bindCount = e.bindCount := by
    intro n e he
    have shape := same n
    rw [he, Option.map_some, eq_comm, Option.map_eq_some_iff] at shape
    obtain ⟨e', he', eq⟩ := shape
    simp only [Entry.shape, Prod.mk.injEq] at eq
    exact ⟨e', he', eq⟩
  refine ⟨fun m n e e' hm hn hk => ?_, fun n e hn => ?_, fun n e hn => ?_, fun n hn => h.free n ?_⟩
  · obtain ⟨a, ha, ka, -⟩ := before hm
    obtain ⟨b, hb, kb, -⟩ := before hn
    exact h.distinct m n a b ha hb (ka.trans (hk.trans kb.symm))
  · obtain ⟨a, ha, -, -, count⟩ := before hn
    rw [← count]
    exact h.counted n a ha
  · obtain ⟨a, ha, key, source, -⟩ := before hn
    rw [← key, ← source]
    exact h.sourced n a ha
  · have shape := same n
    rw [hn] at shape
    simpa using shape.symm

/-- An entry changed in what the law does not read. -/
theorem Tallied.changeEntry {f : Output → Option (Fin 64)} {s : State} (h : Tallied f s) (n : Fin 64)
    {g : Entry → Entry} (hg : ∀ e, (g e).shape = e.shape) : Tallied f (changeEntry n g s) := by
  refine h.of_shape fun m => ?_
  rw [Machine.changeEntry, entry_putEntry]
  split
  · next e =>
    subst e
    cases s.entry m <;> simp [hg]
  · rfl

theorem Tallied.touch {f : Output → Option (Fin 64)} {s : State} (h : Tallied f s) (n : Fin 64) :
    Tallied f (touch n s) := h.changeEntry n fun _ => rfl

/-- R126: a new entry has a key that no entry holds and takes a slot that no output is bound to. -/
theorem Tallied.ensureEntry {f : Output → Option (Fin 64)} {s : State} (h : Tallied f s) (k : ServiceKey) :
    Tallied f (ensureEntry k s).2 := by
  cases hk : findKey s k with
  | some n => rw [ensureEntry_of_found hk]; exact h
  | none =>
    have unbound : bindersOf f (placeFor s) = [] := by
      by_cases full : ∀ m, s.entry m ≠ none
      · obtain ⟨m, hm⟩ := exists_unbound f
        obtain ⟨e, he⟩ := Option.ne_none_iff_exists'.1 (full m)
        obtain ⟨v, hv, v0, -⟩ := placeFor_victim full he (by rw [h.counted m e he, hm]; rfl)
        exact List.length_eq_zero_iff.1 ((h.counted _ v hv).symm.trans v0)
      · push Not at full
        obtain ⟨m, hm⟩ := full
        exact h.free _ (placeFor_free hm).1
    rw [ensureEntry_of_missing hk]
    generalize placeFor s = p at unbound
    have entry : ∀ m e, (s.putEntry p (some (newEntry k s.time.run))).entry m = some e →
        (m = p ∧ e = newEntry k s.time.run) ∨ (m ≠ p ∧ s.entry m = some e) := by
      intro m e he
      rw [entry_putEntry] at he
      split at he
      · next eq => exact .inl ⟨eq, (Option.some.inj he).symm⟩
      · next ne => exact .inr ⟨ne, he⟩
    refine ⟨fun m n e e' hm hn same => ?_, fun n e hn => ?_, fun n e hn => ?_, fun n hn => ?_⟩
    · obtain ⟨rfl, rfl⟩ | ⟨-, oldm⟩ := entry m e hm <;> obtain ⟨rfl, rfl⟩ | ⟨-, oldn⟩ := entry n e' hn
      · rfl
      · exact absurd same.symm (findKey_none hk oldn)
      · exact absurd same (findKey_none hk oldm)
      · exact h.distinct m n e e' oldm oldn same
    · obtain ⟨rfl, rfl⟩ | ⟨-, hn⟩ := entry n e hn
      · rw [unbound]; rfl
      · exact h.counted n e hn
    · obtain ⟨rfl, rfl⟩ | ⟨-, hn⟩ := entry n e hn
      · rfl
      · exact h.sourced n e hn
    · rw [entry_putEntry] at hn
      split at hn
      · cases hn
      · exact h.free n hn

/-- An entry with its bind count replaced, and service bindings that agree with the new count. -/
theorem Tallied.recount {f g : Output → Option (Fin 64)} {s : State} (h : Tallied f s) {n : Fin 64}
    {c : Nat → Nat} (held : s.entry n ≠ none) (here : c (bindersOf f n).length = (bindersOf g n).length)
    (other : ∀ m, m ≠ n → bindersOf g m = bindersOf f m) :
    Tallied g (Machine.changeEntry n (fun e => { e with bindCount := c e.bindCount }) s) := by
  have entry : ∀ {m e}, (Machine.changeEntry n (fun e => { e with bindCount := c e.bindCount }) s).entry m = some e →
      ∃ e', s.entry m = some e' ∧ e'.key = e.key ∧ e'.source = e.source
        ∧ e.bindCount = if m = n then c e'.bindCount else e'.bindCount := by
    intro m e he
    rw [Machine.changeEntry, entry_putEntry] at he
    split at he
    · next eq =>
      subst eq
      obtain ⟨e', he', rfl⟩ := Option.map_eq_some_iff.1 he
      exact ⟨e', he', rfl, rfl, by simp⟩
    · next ne => exact ⟨e, he, rfl, rfl, by simp [ne]⟩
  refine ⟨fun m m' e e' hm hm' same => ?_, fun m e hm => ?_, fun m e hm => ?_, fun m hm => ?_⟩
  · obtain ⟨a, ha, ka, -⟩ := entry hm
    obtain ⟨b, hb, kb, -⟩ := entry hm'
    exact h.distinct m m' a b ha hb (ka.trans (same.trans kb.symm))
  · obtain ⟨a, ha, -, -, count⟩ := entry hm
    rw [count, h.counted m a ha]
    split
    · next eq => rw [eq, here]
    · next ne => rw [other m ne]
  · obtain ⟨a, ha, key, source, -⟩ := entry hm
    rw [← key, ← source]
    exact h.sourced m a ha
  · have free : s.entry m = none := by
      have some_iff := changeEntry_isSome n m (fun e => { e with bindCount := c e.bindCount }) s
      rw [hm] at some_iff
      simpa using some_iff.symm
    rw [other m fun eq => held (eq ▸ free)]
    exact h.free m free

/-- R134: the count of the entry an output is bound to falls as the output is unbound. -/
theorem Tallied.lowerBind {f : Output → Option (Fin 64)} {s : State} (h : Tallied f s) (o : Output) :
    Tallied (Function.update f o none) (lowerBind (f o) s) := by
  cases hf : f o with
  | none =>
    rw [← hf, Function.update_eq_self, hf]
    exact h
  | some n =>
    have cleared := bindersOf_clear hf
    refine h.recount (c := (· - 1)) (fun free => ?_) (by omega)
      fun m hm => bindersOf_update_other (by rw [hf]; simpa using hm.symm) (by simp)
    have none_bound := h.free n free
    rw [← List.length_eq_zero_iff] at none_bound
    omega

/-- R134: the count of an entry rises as an output that was not bound is bound to it. -/
theorem Tallied.raiseBind {f : Output → Option (Fin 64)} {s : State} (h : Tallied f s) {o : Output}
    (ho : f o = none) {n : Fin 64} (hn : s.entry n ≠ none) :
    Tallied (Function.update f o (some n)) (raiseBind n s) := by
  have raised := bindersOf_clear (f := Function.update f o (some n)) (o := o) (n := n) (by simp)
  rw [Function.update_idem, ← ho, Function.update_eq_self] at raised
  exact h.recount (c := (· + 1)) hn raised.symm
    fun m hm => bindersOf_update_other (by simp [ho]) (by simpa using hm.symm)

/-! ### What the operations do to the law -/

/-- The law of the rating table still holds if it held. -/
structure KeepsRating (s t : State) : Prop where
  law : RatingLaw s → RatingLaw t

theorem KeepsRating.refl (s : State) : KeepsRating s s := ⟨id⟩

theorem KeepsRating.trans {s t u : State} (h : KeepsRating s t) (k : KeepsRating t u) : KeepsRating s u :=
  ⟨k.law ∘ h.law⟩

/-- The service bindings and the shapes of the entries stand. -/
theorem KeepsRating.of_shape {s t : State} (hb : t.services = s.services)
    (same : ∀ n, (t.entry n).map Entry.shape = (s.entry n).map Entry.shape) : KeepsRating s t := by
  refine ⟨fun h => ?_⟩
  rw [ratingLaw_iff, hb]
  exact ((ratingLaw_iff s).1 h).of_shape same

/-- A list holds no part that the law of the rating table reads. -/
def Unrated (ps : List Part) : Prop := ∀ p ∈ ps, p.rated = false

theorem Unrated.notMem {ps : List Part} (h : Unrated ps) {p : Part} (hp : p.rated = true) : p ∉ ps :=
  fun hm => by simp [h p hm] at hp

theorem Frame.services {ps : List Part} {s t : State} (f : Frame ps s t) (h : Unrated ps) :
    t.services = s.services := funext fun o => f (.serviceBinding o) (h.notMem rfl)

theorem Frame.keepsRating {ps : List Part} {s t : State} (f : Frame ps s t) (h : Unrated ps) : KeepsRating s t :=
  .of_shape (f.services h) fun n => by rw [show t.entry n = s.entry n from f (.entry n) (h.notMem rfl)]

theorem Within.keepsRating {ps : List Part} {s t : State} (w : Within ps s t) (h : Unrated ps) : KeepsRating s t :=
  w.frame.keepsRating h

theorem unrated_judgedParts (o : Output) : Unrated (judgedParts o) := by simp [Unrated, Part.rated]

/-- An entry is replaced by one of its shape. -/
theorem putEntry_keepsRating {s : State} {n : Fin 64} {e f : Entry} (h : s.entry n = some e)
    (shape : f.shape = e.shape) : KeepsRating s (s.putEntry n (some f)) :=
  .of_shape rfl fun m => by
    rw [entry_putEntry]
    split
    · next eq => rw [eq, h, Option.map_some, Option.map_some, shape]
    · rfl

theorem replaceEntry_keepsRating {s : State} {n : Fin 64} {e f : Entry} (h : s.entry n = some e)
    (shape : f.shape = e.shape) (cause : ChangeCause) : KeepsRating s (replaceEntry n e f cause s) :=
  (putEntry_keepsRating h shape).trans
    ((carryOut_within n cause (consequence e f) _).keepsRating (by unfold Unrated; decide))

/-- R125, R126: the entry of a key, created where there is none, is touched. -/
theorem touchEnsured_keepsRating (k : ServiceKey) (s : State) :
    KeepsRating s (touch (ensureEntry k s).1 (ensureEntry k s).2) := by
  have services : (touch (ensureEntry k s).1 (ensureEntry k s).2).services = s.services :=
    funext fun o => ((touch_within ..).frame (.serviceBinding o) (by simp)).trans
      ((ensureEntry_within k s).frame (.serviceBinding o) (by simp))
  refine ⟨fun h => ?_⟩
  rw [ratingLaw_iff, services]
  exact (((ratingLaw_iff s).1 h).ensureEntry k).touch _

theorem takeSection_keepsRating (d : ServiceSection) (s : State) : KeepsRating s (takeSection d s) := by
  simp only [takeSection]
  split
  · next e he =>
    split
    · exact touchEnsured_keepsRating ..
    · exact (touchEnsured_keepsRating d.key s).trans (replaceEntry_keepsRating he (by rfl) .bySection)
  · exact touchEnsured_keepsRating ..

theorem declareEvent_keepsRating (k : ServiceKey) (id : Half) (r : RatingRecord) (s : State) :
    KeepsRating s (declareEvent k id r s).2 := by
  simp only [declareEvent]
  split
  · next e he => exact (touchEnsured_keepsRating k s).trans (replaceEntry_keepsRating he (by rfl) .byDeclaration)
  · exact touchEnsured_keepsRating ..

theorem promotionTest_shape {e f : Entry} {wall : Nat} (h : e.promotionTest wall = some f) : f.shape = e.shape := by
  unfold Entry.promotionTest at h
  split at h
  · cases h
  · split at h
    · split at h
      · cases h; rfl
      · cases h
    · split at h
      · cases h; rfl
      · cases h
    · cases h; rfl
    · cases h

theorem promoteOnce_keepsRating (n : Fin 64) (s : State) : KeepsRating s (promoteOnce n s) := by
  unfold promoteOnce
  split
  · refine KeepsRating.trans (.of_shape rfl fun _ => rfl) (t := { s with rating := { s.rating with
      promotionDue := s.rating.promotionDue.filter (fun m => decide (m ≠ n)) } }) ?_
    unfold testPromotion
    split
    · exact .refl _
    · split
      · next e he =>
        split
        · next f hf => exact replaceEntry_keepsRating he (promotionTest_shape hf) _
        · exact .refl _
      · exact .refl _
  · exact .refl s

theorem evaluate_keepsRating (o : Output) (s : State) : KeepsRating s (evaluate o s) :=
  (evaluate_within o s).keepsRating (unrated_judgedParts o)

/-- An output context is written with a service binding that the entries agree with, and is evaluated. -/
theorem rebound_keepsRating {s t : State} {o : Output} {c : OutputContext} (hs : t.services = s.services)
    (h : Tallied s.services s → Tallied (Function.update s.services o c.service) t) :
    KeepsRating s (evaluate o (t.putContext o c)) := by
  have services : (t.putContext o c).services = Function.update s.services o c.service := by
    funext p
    rw [State.services, context_putContext, ← hs]
    by_cases hp : p = o <;> simp [hp, State.services]
  refine KeepsRating.trans ⟨fun law => ?_⟩ (evaluate_keepsRating o _)
  rw [ratingLaw_iff, services]
  exact (h ((ratingLaw_iff s).1 law)).of_shape fun _ => rfl

theorem services_of_entries {ps : List Part} {s t : State} (h : Within ps s t)
    (hp : ∀ o, Part.serviceBinding o ∉ ps) : t.services = s.services :=
  funext fun o => h.frame (.serviceBinding o) (hp o)

/-- R27: the output leaves its entry, whose count falls. -/
theorem unbindService_keepsRating (o : Output) (s : State) : KeepsRating s (unbindService o s) := by
  unfold unbindService
  split
  · exact evaluate_keepsRating o s
  · next n hn =>
    refine rebound_keepsRating (services_of_entries (lowerBind_within _ s) (by simp [everyEntry])) fun h => ?_
    have lowered := h.lowerBind o
    rwa [show s.services o = some n from hn] at lowered

/-- R26: the output leaves its entry, if it had one, and is counted in the entry of the key. -/
theorem bindService_keepsRating (o : Output) (k : ServiceKey) (s : State) :
    KeepsRating s (bindService o k s).2 := by
  unfold bindService
  split
  · next n _ _ =>
    exact KeepsRating.trans (.of_shape (services_of_entries (touch_within n s) (by simp)) fun m => by
      rw [touch, changeEntry, entry_putEntry]
      split
      · next eq => rw [eq]; cases s.entry n <;> rfl
      · rfl) (evaluate_keepsRating o _)
  · have made := services_of_entries (ensureEntry_within k s) (by simp)
    have lowered := services_of_entries (lowerBind_within (s.context o).service (ensureEntry k s).2)
      (by simp [everyEntry])
    have raised := services_of_entries (changeEntry_within (ensureEntry k s).1
      (fun e => { e with bindCount := e.bindCount + 1 }) (lowerBind (s.context o).service (ensureEntry k s).2))
      (by simp)
    have touched := services_of_entries (touch_within (ensureEntry k s).1
      (raiseBind (ensureEntry k s).1 (lowerBind (s.context o).service (ensureEntry k s).2))) (by simp)
    refine rebound_keepsRating (touched.trans (raised.trans (lowered.trans made))) fun h => ?_
    have left := (h.ensureEntry k).lowerBind o
    have there : (lowerBind (s.services o) (ensureEntry k s).2).entry (ensureEntry k s).1 ≠ none := by
      obtain ⟨e, he, -⟩ := ensureEntry_entry k s
      rw [← Option.isSome_iff_ne_none]
      unfold lowerBind
      split
      · rw [changeEntry_isSome, he]; rfl
      · rw [he]; rfl
    have counted := (left.raiseBind (o := o) (by simp) there).touch (ensureEntry k s).1
    rw [Function.update_idem] at counted
    exact counted

theorem writeScheme_keepsRating (m : Fin 8) (map : Vector (Option Nat) 16) (s : State) :
    KeepsRating s (writeScheme m map s) :=
  .of_shape rfl fun n => by
    rw [writeScheme, forgetVersions_entry, Option.map_map]
    refine congrArg (fun g => Option.map g (s.entry n)) (funext fun e => ?_)
    simp only [Function.comp_apply]
    split <;> rfl

theorem obey_keepsRating (slot : Fin 16) (c : Command) (s : State) : KeepsRating s (obey slot c s).1 := by
  have aside : Unrated (commandParts c) → KeepsRating s (obey slot c s).1 := (obey_within slot c s).keepsRating
  cases c with
  | bindService o unbind n st sv =>
    cases unbind with
    | false =>
      show KeepsRating s (obeyBindService o _ s).1
      unfold obeyBindService
      split
      exacts [.refl s, bindService_keepsRating ..]
    | true =>
      show KeepsRating s (obeyUnbindService o s).1
      unfold obeyUnbindService
      split
      exacts [.refl s, unbindService_keepsRating ..]
  | declarePlayback =>
    show KeepsRating s (obeyDeclarePlayback ..).1
    unfold obeyDeclarePlayback
    split
    exacts [declareEvent_keepsRating .., .refl s]
  | setScheme n ages =>
    show KeepsRating s (obeySetScheme n ages s).1
    unfold obeySetScheme
    split
    exacts [writeScheme_keepsRating .., .refl s]
  | openPinEntry o p purpose =>
    refine aside ?_
    simp only [commandParts]
    unfold Unrated
    split <;> decide
  | bindProfile o | pushOverride o | popOverride o | clearOverrides o =>
    refine aside ?_
    simp only [commandParts]
    cases outputOf o <;> simp [Unrated, Part.rated]
  | setProfileLimits p | setProfileTime p | setCurfew p | grantTime p | setProfileState p =>
    refine aside ?_
    simp only [commandParts]
    cases profileSlotOf p <;> simp [Unrated, Part.rated]
  | setWindow o kind =>
    refine aside ?_
    simp only [commandParts]
    cases outputOf o <;> cases windowKindOf kind <;> simp [Unrated, Part.rated]
  | setSectionWindow number =>
    refine aside ?_
    simp only [commandParts]
    split <;> simp [Unrated, Part.rated]
  | null | exportProfile | importProfile | commitLayout | closeSession | setSessionLength | setPanelAddresses
  | selectView | setNoticeMask | setAttention | setTime | setDayStart | setIntakeLevels | factoryClear =>
    exact aside (by unfold Unrated; dsimp only [commandParts]; decide)

theorem doWork_keepsRating (w : SecondWork) (s : State) : KeepsRating s (doWork w s) := by
  cases w with
  | dayComparison => exact (compareDay_within s).keepsRating (by unfold Unrated; decide)
  | sample => exact (sample_within s).keepsRating (by unfold Unrated; decide)
  | evaluation o => exact (evaluateIfSupervised_within o s).keepsRating (unrated_judgedParts o)
  | promotion n => exact promoteOnce_keepsRating n s
  | untilTimeExpiry o => exact (expireUntilTime_within o s).keepsRating (by simp [Unrated, Part.rated])
  | pendingLimitExpiry o => exact (expirePending_within o s).keepsRating (unrated_judgedParts o)
  | sessionExpiry => exact (expireSession_within s).keepsRating (by unfold Unrated; decide)
  | lockoutExpiry => exact (expireLockout_within s).keepsRating (by unfold Unrated; decide)
  | wholeEntryLimit => exact (wholeEntryLimit_within s).keepsRating (by unfold Unrated; decide)
  | interKeyLimit => exact (interKeyLimit_within s).keepsRating (by unfold Unrated; decide)

theorem completeParse_keepsRating (s : State) : KeepsRating s (completeParse s) := by
  have applied : ∀ r, KeepsRating s (applyRecord r s) := fun r => by
    have bad : KeepsRating s (badBody r s) := (raise_within ..).keepsRating (by simp [Unrated, Part.rated])
    unfold applyRecord
    split
    · split
      · split
        exacts [.refl s, takeSection_keepsRating ..]
      · exact bad
    · split
      · next h =>
        obtain ⟨day, second⟩ := readTime_bounds h
        exact (takeBroadcastTime_within _ _ s day second).keepsRating (by unfold Unrated; decide)
      · exact bad
    · split
      · next h =>
        obtain ⟨low, high⟩ := readOffset_bounds h
        exact (takeOffset_within _ s low high).keepsRating (by unfold Unrated; decide)
      · exact bad
    · exact .refl s
  unfold completeParse
  split
  · exact (applied _).trans ((dequeue_within _).keepsRating (by unfold Unrated; decide))
  · exact .refl s

/-- R124: after a warm reset the table is empty and no output is bound to it. -/
theorem warmReset_keepsRating (s : State) : KeepsRating s (warmReset s) := by
  have empty : ∀ n, (warmReset s).entry n = none := fun n => by
    simp [warmReset, RatingTable.warm, RatingTable.cold, State.entry]
  refine ⟨fun _ => ?_⟩
  rw [ratingLaw_iff]
  refine ⟨fun m n e f h => ?_, fun n e h => ?_, fun n e h => ?_, fun n _ => ?_⟩
  iterate 3 · rw [empty] at h; cases h
  · exact bindersOf_eq_nil.2 fun o => by simp [State.services, warmReset_context, OutputContext.warm]

theorem coldReset_keepsRating (s : State) : KeepsRating s (coldReset s) := by
  obtain ⟨-, -, -, -, -, -, -, -, -, -, -, -, -, rating⟩ := allLaws_cold s.inputs
  exact ⟨fun _ => rating⟩

theorem releaseReset_keepsRating (s : State) : KeepsRating s (releaseReset s) := by
  unfold releaseReset
  split
  · exact KeepsRating.trans (t := { s with systemReset := false }) (.of_shape rfl fun _ => rfl)
      ((evaluateAll_within _).keepsRating (by unfold Unrated; decide))
  · exact .refl s

theorem keepsRating_carried : Carried KeepsRating where
  refl := .refl
  trans := .trans
  aside f h := f.keepsRating fun _ hp => h.unrated hp
  obeyed _ slot c := obey_keepsRating slot c _
  worked := doWork_keepsRating
  parsed := completeParse_keepsRating
  imported {s} _ n slot image := (completeImport_within n slot image s).keepsRating (by simp [Unrated, Part.rated])
  keyed s := (takeKey_within s).keepsRating (by unfold Unrated; decide)
  warmed := warmReset_keepsRating
  cooled := coldReset_keepsRating
  released := releaseReset_keepsRating

/-- Settles O8: the law of the records is a law of one block, the law of profile bindings a law of one output, and
every step keeps the law of the rating table. -/
theorem stepKeepsProfilesAndTheRatingTable : Obligations.StepKeepsProfilesAndTheRatingTable := by
  unfold Obligations.StepKeepsProfilesAndTheRatingTable
  intro s t h
  exact ⟨step_keeps h .profiles, fun hs o => (orderly_carried.afterStep h).laws .binding o (hs o),
    (keepsRating_carried.afterStep h).law⟩

end Sys2Proof.Machine
end

section
/-! PROOF. What an evaluation decides (R31 to R40): what the walk of the stack finds, and what each test asks. -/

namespace Sys2Proof.Machine

open Sys2Proof

/-! ### The walk of the stack (R32) -/

/-- What the walk does with a LIVE entry. -/
theorem walkStack_live {key : Option ServiceKey} {event : Option Half} {x : Override} {below : List Override}
    {l : Lifts} (h : x.tag = .live) :
    walkStack key event (x :: below) l
      = if x.kind = .forceBlock then none
        else walkStack key event below
          ⟨l.allow || decide (x.kind ≠ .curfewWaive) && x.matchesSubject key event,
            l.waive || decide (x.kind = .curfewWaive)⟩ := by
  rw [walkStack, if_neg (by rw [h]; decide)]
  cases hk : x.kind <;> simp

theorem walkStack_spent {key : Option ServiceKey} {event : Option Half} {x : Override} {below : List Override}
    {l : Lifts} (h : x.tag ≠ .live) : walkStack key event (x :: below) l = walkStack key event below l := by
  rw [walkStack, if_pos (by cases ht : x.tag <;> simp_all)]

/-- The walk ends at a LIVE FORCE_BLOCK. -/
theorem walkStack_none {key : Option ServiceKey} {event : Option Half} {xs : List Override} {l : Lifts} :
    walkStack key event xs l = none ↔ ∃ x ∈ xs, x.tag = .live ∧ x.kind = .forceBlock := by
  induction xs generalizing l with
  | nil => simp [walkStack]
  | cons x xs ih =>
    by_cases hx : x.tag = .live
    · rw [walkStack_live hx]
      split
      · next hk => exact iff_of_true rfl ⟨x, by simp, hx, hk⟩
      · next hk => rw [ih]; simp [hk]
    · rw [walkStack_spent hx, ih]
      simp [hx]

theorem walkStack_waive {key : Option ServiceKey} {event : Option Half} {xs : List Override} {l r : Lifts}
    (h : walkStack key event xs l = some r) :
    r.waive = true ↔ l.waive = true ∨ ∃ x ∈ xs, x.tag = .live ∧ x.kind = .curfewWaive := by
  induction xs generalizing l with
  | nil => cases h; simp
  | cons x xs ih =>
    by_cases hx : x.tag = .live
    · rw [walkStack_live hx] at h
      split at h
      · cases h
      · rw [ih h]
        simp [hx, or_assoc]
    · rw [walkStack_spent hx] at h
      rw [ih h]
      simp [hx]

theorem walkStack_allow {key : Option ServiceKey} {event : Option Half} {xs : List Override} {l r : Lifts}
    (h : walkStack key event xs l = some r) :
    r.allow = true ↔ l.allow = true
      ∨ ∃ x ∈ xs, x.tag = .live ∧ x.kind ≠ .curfewWaive ∧ x.matchesSubject key event = true := by
  induction xs generalizing l with
  | nil => cases h; simp
  | cons x xs ih =>
    by_cases hx : x.tag = .live
    · rw [walkStack_live hx] at h
      split at h
      · cases h
      · rw [ih h]
        simp [hx, or_assoc]
    · rw [walkStack_spent hx] at h
      rw [ih h]
      simp [hx]

/-- R32: the lifts that an evaluation of an output finds. -/
def liftsOf (s : State) (o : Output) : Option Lifts :=
  walkStack (s.boundKey o) ((s.currentEvent o).map (·.id)) (s.context o).stack ⟨false, false⟩

theorem liftsOf_none {s : State} {o : Output} : liftsOf s o = none ↔ LiveKind s o .forceBlock := walkStack_none

theorem liftsOf_waive {s : State} {o : Output} {l : Lifts} (h : liftsOf s o = some l) :
    l.waive = true ↔ LiveKind s o .curfewWaive := by
  rw [walkStack_waive h]
  simp [LiveKind]

/-- R32: what the subject of an ALLOW entry asks. -/
theorem matchesSubject_iff {x : Override} {key : Option ServiceKey} {event : Option Event} :
    (x.kind ≠ .curfewWaive ∧ x.matchesSubject key (event.map (·.id)) = true)
      ↔ (∃ k, key = some k ∧ x.subjectKey = some k) ∧ (x.kind = .allowService
        ∨ (x.kind = .allowEvent ∧ ∃ e, event = some e ∧ x.subjectEvent = some e.id)) := by
  unfold Override.matchesSubject
  cases key <;> cases event <;> cases hk : x.kind <;> simp

theorem liftsOf_allow {s : State} {o : Output} {l : Lifts} (h : liftsOf s o = some l) :
    l.allow = true ↔ AllowLift s o := by
  rw [walkStack_allow h]
  simp only [matchesSubject_iff, Bool.false_eq_true, false_or]
  rfl

/-! ### The tests (R33 to R40) -/

theorem mem_windows {p : Profile} {w : Curfew} : w ∈ p.windows ↔ some w ∈ p.curfews.toList := by
  simp [Profile.windows]

theorem isSet_iff (t : TimeBase) : t.isSet = true ↔ t.source ≠ .unset := by simp [TimeBase.isSet]

/-- R33, R40: the curfew tests ask nothing where no window is held or a lift waives them. -/
theorem curfewApplies_iff {s : State} {o : Output} {p : Profile} {l : Lifts} (h : liftsOf s o = some l) :
    CurfewApplies s o p ↔ (p.windows.isEmpty || l.waive) = false := by
  have held : (∃ w, some w ∈ p.curfews.toList) ↔ p.windows.isEmpty = false := by
    rw [List.isEmpty_eq_false_iff_exists_mem]
    simp only [mem_windows]
  rw [CurfewApplies, held, ← liftsOf_waive h, Bool.or_eq_false_iff, Bool.not_eq_true]

theorem inCurfew_iff {s : State} {p : Profile} :
    InCurfew s p ↔ p.windows.any (fun w => w.covers s.time.weekday s.time.timeOfDay) = true := by
  simp only [InCurfew, List.any_eq_true, mem_windows]

theorem curfewTest_unset {s : State} {o : Output} {p : Profile} {l : Lifts} (h : liftsOf s o = some l)
    (ha : CurfewApplies s o p) (ht : s.time.source = .unset) :
    curfewTest s.time p l = some (.blocked, .timeUnknown) := by
  simp [curfewTest, (curfewApplies_iff h).1 ha, TimeBase.isSet, ht]

theorem curfewTest_inside {s : State} {o : Output} {p : Profile} {l : Lifts} (h : liftsOf s o = some l)
    (ha : CurfewApplies s o p) (ht : s.time.source ≠ .unset) (hi : InCurfew s p) :
    curfewTest s.time p l = some (.blocked, .curfew) := by
  rw [curfewTest, if_neg (by simp [(curfewApplies_iff h).1 ha]), if_neg (by simp [TimeBase.isSet, ht]),
    if_pos (inCurfew_iff.1 hi)]

theorem curfewTest_none {s : State} {o : Output} {p : Profile} {l : Lifts} (h : liftsOf s o = some l)
    (ha : CurfewApplies s o p → s.time.source ≠ .unset ∧ ¬ InCurfew s p) : curfewTest s.time p l = none := by
  unfold curfewTest
  split
  · rfl
  · next applies =>
    obtain ⟨ht, hi⟩ := ha ((curfewApplies_iff h).2 (Bool.eq_false_of_not_eq_true applies))
    rw [if_neg (by simp [TimeBase.isSet, ht]), if_neg (mt inCurfew_iff.2 hi)]

/-- R40: the test of the approaching curfew. -/
theorem curfewNearTest_eq {s : State} {o : Output} {p : Profile} {l : Lifts} (h : liftsOf s o = some l)
    [Decidable (CurfewNear s o p)] :
    curfewNearTest s.time p l = if CurfewNear s o p then some (.warning, .curfewNear) else none := by
  have near : CurfewNear s o p ↔ (p.windows.isEmpty || l.waive || !s.time.isSet) = false
      ∧ ∃ n, nextCurfewStart p s.time.weekday s.time.timeOfDay = some n ∧ n < p.lead := by
    rw [CurfewNear, curfewApplies_iff h, ← isSet_iff, Bool.or_eq_false_iff (x := _ || _), Bool.not_eq_false', and_assoc]
  unfold curfewNearTest
  split
  · next hc => rw [if_neg fun hn => by rw [(near.1 hn).1] at hc; cases hc]
  · next hc =>
    have clear := Bool.eq_false_of_not_eq_true hc
    split
    · next n hn =>
      have : CurfewNear s o p ↔ n < p.lead := by simp [near, clear, hn]
      simp only [this]
    · next hn => rw [if_neg]; simp [near, hn]

/-- R36, R38: the content class and then the flags. -/
theorem contentDecision_eq (p : Profile) (c waited : Nat) (e : Option Event) :
    contentDecision p c waited e = (classTest c waited p (contentClass e)).or
      (if contentFlags e &&& p.blockMask = 0 then none else some (.blocked, .descriptor)) := by
  have policy : ∀ (q : Policy) (r : Reason) (rest : Ruling),
      (policyTest q r).or rest = if q = .allow then rest else some (.blocked, r) := fun q r rest => by
    cases q <;> rfl
  cases e with
  | none =>
    have silent : (0 : Byte) &&& p.blockMask = 0 := BitVec.zero_and
    simp only [contentDecision, contentClass, contentFlags, classTest, silent, if_true]
    split
    · rfl
    · exact (policy ..).symm
  | some e =>
    simp only [contentDecision, contentClass, contentFlags]
    cases e.rating.cls with
    | aged a =>
      simp only [classTest]
      split <;> rfl
    | unrated => exact (policy ..).symm
    | unknownScheme => exact (policy ..).symm
    | absent =>
      simp only [classTest]
      split
      · rfl
      · exact (policy ..).symm

theorem firstDecided_or (a b : Ruling) (rest : List Ruling) :
    firstDecided (a :: b :: rest) = firstDecided (a.or b :: rest) := by
  cases a <;> rfl

/-- R34, R36, R38: the tests of the service, the content class and the flags, under an age ceiling with a service
binding and no ALLOW lift. -/
theorem contentTests_rated {p : Profile} {c : Nat} (hp : p.ceiling = .age c) {l : Lifts} (hl : l.allow = false)
    (waited : Nat) (e : Option Event) (rest : List Ruling) :
    firstDecided (serviceTest true p :: contentTest true waited p l e :: descriptorTest true p l e :: rest)
      = firstDecided (contentDecision p c waited e :: rest) := by
  have service : serviceTest true p = none := by simp [serviceTest, hp]
  have content : contentTest true waited p l e = classTest c waited p (contentClass e) := by
    simp [contentTest, hp, hl]
  have flags : descriptorTest true p l e
      = if contentFlags e &&& p.blockMask = 0 then none else some (.blocked, .descriptor) := by
    by_cases h : contentFlags e &&& p.blockMask = 0
    · rw [if_pos h, descriptorTest, hp, hl]
      simp [h]
    · rw [if_neg h, descriptorTest, hp, hl]
      simpa using h
  rw [service, content, flags, firstDecided, firstDecided_or, contentDecision_eq]

/-- They ask nothing where the ceiling is OPEN, and nothing of a bound output with an ALLOW lift. -/
theorem contentTests_lifted {p : Profile} {l : Lifts} {bound : Bool}
    (h : p.ceiling = .opened ∨ (∃ c, p.ceiling = .age c) ∧ bound = true ∧ l.allow = true)
    (waited : Nat) (e : Option Event) (rest : List Ruling) :
    firstDecided (serviceTest bound p :: contentTest bound waited p l e :: descriptorTest bound p l e :: rest)
      = firstDecided rest := by
  obtain hp | ⟨⟨c, hp⟩, rfl, hl⟩ := h
  · simp [serviceTest, contentTest, descriptorTest, hp, firstDecided]
  · simp [serviceTest, contentTest, descriptorTest, hp, hl, firstDecided]

/-- R31, R32: an output whose profile is neither SUSPENDED nor CLOSED, with no LIVE FORCE_BLOCK. -/
theorem judge_of_lifts {s : State} {o : Output} {n : Fin 8} {p : Profile}
    (hb : (s.context o).profile = some n) (hp : p = s.profile n) (hs : p.state ≠ .suspended)
    (hc : p.ceiling ≠ .closed) {l : Lifts} (hl : liftsOf s o = some l) :
    judge s o = firstDecided
      [curfewTest s.time p l, serviceTest (s.context o).service.isSome p,
       contentTest (s.context o).service.isSome (s.time.run - (s.context o).pendingSince) p l (s.currentEvent o),
       descriptorTest (s.context o).service.isSome p l (s.currentEvent o), budgetTest p (s.currentEvent o),
       curfewNearTest s.time p l] := by
  subst hp
  have walk : walkStack (s.boundKey o) ((s.currentEvent o).map (·.id)) (s.context o).stack ⟨false, false⟩ = some l :=
    hl
  simp only [judge, hb, judgeProfile, if_neg hs, if_neg hc, walk]

/-- R39, R40: the budget and the approaching curfew. -/
theorem lastTests {s : State} {o : Output} {p : Profile} {l : Lifts} (hl : liftsOf s o = some l)
    (rate : Nat) (hr : rate = contentRate p (s.currentEvent o)) (d : Verdict × Reason)
    (hd : d = firstDecided [budgetTest p (s.currentEvent o), curfewNearTest s.time p l]) :
    (p.allowance ≠ none → rate ≠ 0 → p.remaining = 0 → d = (.blocked, .budget))
    ∧ (p.allowance ≠ none → rate ≠ 0 → 0 < p.remaining → p.remaining < p.lead * rate →
        d = (.warning, .budgetNear))
    ∧ (p.allowance = none ∨ rate = 0 ∨ (0 < p.remaining ∧ p.lead * rate ≤ p.remaining) →
        (CurfewNear s o p → d = (.warning, .curfewNear)) ∧ (¬ CurfewNear s o p → d = (.opened, .none))) := by
  classical
  subst hr hd
  refine ⟨fun ha h0 h => ?_, fun ha h0 hpos hlt => ?_, fun h => ?_⟩
  · have : budgetTest p (s.currentEvent o) = some (.blocked, .budget) := by
      simp [budgetTest, Option.isNone_iff_eq_none, ha, h0, h]
    rw [this]; rfl
  · have : budgetTest p (s.currentEvent o) = some (.warning, .budgetNear) := by
      simp [budgetTest, Option.isNone_iff_eq_none, ha, h0, hpos.ne', hlt]
    rw [this]; rfl
  · have : budgetTest p (s.currentEvent o) = none := by
      obtain ha | h0 | ⟨hpos, hge⟩ := h
      · simp [budgetTest, ha]
      · simp [budgetTest, h0]
      · simp [budgetTest, hpos.ne', Nat.not_lt.2 hge]
    rw [this, curfewNearTest_eq hl]
    exact ⟨fun hn => by rw [if_pos hn]; rfl, fun hn => by rw [if_neg hn]; rfl⟩

/-- Settles O58: the tests in their order, each with what it asks. -/
theorem evaluationsFollowTheTests : Obligations.EvaluationsFollowTheTests := by
  unfold Obligations.EvaluationsFollowTheTests
  intro s o
  refine ⟨fun h => by simp [judge, h], fun n p hb hp => ⟨fun hs => ?_, fun hs hc => ?_, fun hs hc => ⟨fun hf => ?_,
    fun hf => ?_⟩⟩⟩
  · simp [judge, hb, judgeProfile, ← hp, hs]
  · simp [judge, hb, judgeProfile, ← hp, hs, hc]
  · have walk : walkStack (s.boundKey o) ((s.currentEvent o).map (·.id)) (s.context o).stack ⟨false, false⟩ = none :=
      liftsOf_none.2 hf
    simp [judge, hb, judgeProfile, ← hp, hs, hc, walk]
  · obtain ⟨l, hl⟩ := Option.ne_none_iff_exists'.1 (mt liftsOf_none.1 hf)
    rw [judge_of_lifts hb hp hs hc hl]
    refine ⟨fun ha ht => ?_, fun ha ht hi => ?_, fun ha => ?_⟩
    · rw [curfewTest_unset hl ha ht]; rfl
    · rw [curfewTest_inside hl ha ht hi]; rfl
    · rw [curfewTest_none hl ha, firstDecided]
      refine ⟨fun c hage hu => ?_, fun c r hage hbound hlift hd => ?_, fun hopen rate hrate => ?_⟩
      · simp [serviceTest, hage, hu, firstDecided]
      · have bound : (s.context o).service.isSome = true := Option.isSome_iff_ne_none.2 hbound
        rw [bound, contentTests_rated hage (Bool.eq_false_of_not_eq_true (mt (liftsOf_allow hl).1 hlift)), hd]
        rfl
      · refine lastTests hl rate ?_ _ ?_
        · exact hrate.trans (congrArg (fun g : Fin 4 => p.rates[g]) (by cases s.currentEvent o <;> rfl))
        · obtain ho | ⟨c, hage, hbound, hlift⟩ := hopen
          · exact contentTests_lifted (.inl ho) ..
          · have bound : (s.context o).service.isSome = true := Option.isSome_iff_ne_none.2 hbound
            cases hallow : l.allow with
            | true => exact contentTests_lifted (.inr ⟨⟨c, hage⟩, bound, hallow⟩) ..
            | false =>
              have none_decided := hlift.resolve_left fun h => by
                rw [← liftsOf_allow hl, hallow] at h
                cases h
              rw [bound, contentTests_rated hage hallow, none_decided]
              rfl

end Sys2Proof.Machine
end

section
/-! PROOF. What a change of verdict tells (R30, R47 to R49, R164): the notices, and the lamp. -/

namespace Sys2Proof.Machine

open Sys2Proof

/-! ### The lamp (R49, R164) -/

/-- R49: the lamp state is the one that the session and the verdicts name. -/
theorem lampOf_eq {b : Bool} {p : PerOutput OutputContext} {l : Lamp} (flashing : l = .flashing ↔ b = true)
    (on : l = .on ↔ b = false ∧ ∃ o, (p.get o).verdict = .blocked ∨ (p.get o).verdict = .pending) :
    lampOf b p = l := by
  cases b with
  | true => rw [flashing.2 rfl]; rfl
  | false =>
    obtain ⟨lit, still⟩ := lampOf_closed p
    cases l with
    | flashing => cases flashing.1 rfl
    | on => exact lit.2 (on.1 rfl).2
    | off =>
      have dark : lampOf false p ≠ .on := fun h => by cases on.2 ⟨rfl, lit.1 h⟩
      cases h : lampOf false p with
      | off => rfl
      | on => exact absurd h dark
      | flashing => exact absurd h still

theorem isLamp_eq_false {m : Message} : m.isLamp = false ↔ ∀ x, m ≠ .lamp x := by
  cases m <;> simp [Message.isLamp]

theorem map_lamp_eq_self {q : List Message} (h : ∀ m ∈ q, ∀ x, m ≠ .lamp x) (l : Lamp) :
    q.map (fun m => if m.isLamp then .lamp l else m) = q := by
  refine (List.map_congr_left fun m hm => ?_).trans (List.map_id q)
  simp [isLamp_eq_false.2 (h m hm)]

/-- R164: a queued LAMP takes the new operand. -/
theorem offerLamp_queued {s : State} {before after : List Message} {old : Lamp}
    (hq : s.panel.queue = before ++ .lamp old :: after) (h : ∀ m ∈ before ++ after, ∀ x, m ≠ .lamp x) (l : Lamp) :
    (offerLamp l s).panel.queue = before ++ .lamp l :: after := by
  have held : s.panel.queue.any Message.isLamp = true := by simp [hq, Message.isLamp]
  rw [offerLamp, if_pos held]
  simp only [hq, List.map_append, List.map_cons]
  rw [map_lamp_eq_self fun m hm => h m (List.mem_append_left _ hm),
    map_lamp_eq_self fun m hm => h m (List.mem_append_right _ hm)]
  rfl

/-- R164: with no LAMP queued and room in the queue, one is queued at the end. -/
theorem offerLamp_unqueued {s : State} (h : ∀ m ∈ s.panel.queue, ∀ x, m ≠ .lamp x)
    (room : s.panel.queue.length < 4) (l : Lamp) : (offerLamp l s).panel.queue = s.panel.queue ++ [.lamp l] := by
  have none_held : s.panel.queue.any Message.isLamp = false := by
    rw [List.any_eq_false]
    exact fun m hm => by simp [isLamp_eq_false.2 (h m hm)]
  rw [offerLamp, if_neg (by simp [none_held]), offerMessage, if_pos room]

theorem handLamp_of_recorded {s : State} {l : Lamp} (h : s.panel.lampRecord = some l) : handLamp l s = s := by
  rw [handLamp, if_pos h]

theorem handLamp_of_new {s : State} {l : Lamp} (h : s.panel.lampRecord ≠ some l) :
    handLamp l s = offerLamp l { s with panel := { s.panel with lampRecord := some l } } := by
  rw [handLamp, if_neg h]

theorem recomputeLamp_report (s : State) : (recomputeLamp s).report = s.report := by
  unfold recomputeLamp handLamp offerLamp offerMessage
  split_ifs <;> rfl

/-! ### The notices of a change of verdict (R47, R48) -/

/-- What the report unit takes of a notice depends on the report, the run seconds and the reset input. -/
theorem raise_report_congr {s t : State} (hr : t.report = s.report) (ht : t.time.run = s.time.run)
    (hs : t.systemReset = s.systemReset) (k : NoticeKind) (subj : Nat) (d : List Byte) :
    (raise k subj d t).report = (raise k subj d s).report := by
  unfold raise
  rw [hs]
  split
  · exact hr
  · simp only [hr, ht]

/-- The written verdict and reason, told by VERDICT_CHANGED. -/
def toldVerdict (o : Output) (r : Verdict × Reason) (s : State) : State :=
  raise .verdictChanged (outputCode o)
    (nat8 (verdictCode r.1) ++ nat8 (reasonCode r.2) ++ [slotByte (s.context o).profile])
    (s.putContext o { s.context o with verdict := r.1, reason := r.2 })

theorem changeVerdict_of_same {o : Output} {r : Verdict × Reason} {s : State} (h : (s.context o).verdict = r.1) :
    changeVerdict o r s = warnBudget o r (toldVerdict o r s) := by
  simp only [changeVerdict, h, if_true]
  rfl

theorem changeVerdict_of_new {o : Output} {r : Verdict × Reason} {s : State} (h : (s.context o).verdict ≠ r.1) :
    changeVerdict o r s = recomputeLamp (warnBudget o r (toldVerdict o r s)) := by
  simp only [changeVerdict, h, if_false]
  rfl

theorem changeVerdict_report (o : Output) (r : Verdict × Reason) (s : State) :
    (changeVerdict o r s).report = (warnBudget o r (toldVerdict o r s)).report := by
  by_cases h : (s.context o).verdict = r.1
  · rw [changeVerdict_of_same h]
  · rw [changeVerdict_of_new h, recomputeLamp_report]

theorem raise_time (k : NoticeKind) (subj : Nat) (d : List Byte) (s : State) :
    (raise k subj d s).time = s.time := by unfold raise; split <;> rfl

theorem raise_systemReset (k : NoticeKind) (subj : Nat) (d : List Byte) (s : State) :
    (raise k subj d s).systemReset = s.systemReset := by unfold raise; split <;> rfl

theorem raise_panel (k : NoticeKind) (subj : Nat) (d : List Byte) (s : State) :
    (raise k subj d s).panel = s.panel := by unfold raise; split <;> rfl

theorem warnBudget_panel (o : Output) (r : Verdict × Reason) (s : State) :
    (warnBudget o r s).panel = s.panel := by
  unfold warnBudget
  split
  · split
    · exact raise_panel ..
    · rfl
  · rfl

theorem warnBudget_pin (o : Output) (r : Verdict × Reason) (s : State) : (warnBudget o r s).pin = s.pin := by
  unfold warnBudget
  split
  · split
    · exact raise_pin ..
    · rfl
  · rfl

/-- R48: BUDGET_WARNING is told for WARNING with BUDGET_NEAR only. -/
theorem warnBudget_other {o : Output} {r : Verdict × Reason} (h : r ≠ (.warning, .budgetNear)) (s : State) :
    warnBudget o r s = s := by
  unfold warnBudget
  split
  · rw [if_neg h]
  · rfl

theorem warnBudget_near {o : Output} {s : State} {n : Fin 8} (h : (s.context o).profile = some n) :
    warnBudget o (.warning, .budgetNear) s
      = raise .budgetWarning n.val (nat32 (s.profile n).remaining ++ nat8 (outputCode o)) s := by
  simp [warnBudget, h]

theorem toldVerdict_context (o : Output) (r : Verdict × Reason) (s : State) :
    (toldVerdict o r s).context o = { s.context o with verdict := r.1, reason := r.2 } := by
  rw [toldVerdict, State.context, raise_outputs]
  exact context_putContext_self ..

theorem toldVerdict_report (o : Output) (r : Verdict × Reason) (s : State) :
    (toldVerdict o r s).report = (raise .verdictChanged (outputCode o)
      (nat8 (verdictCode r.1) ++ nat8 (reasonCode r.2) ++ [slotByte (s.context o).profile]) s).report :=
  raise_report_congr (by rfl) (by rfl) (by rfl) ..

theorem toldVerdict_panel (o : Output) (r : Verdict × Reason) (s : State) :
    (toldVerdict o r s).panel = s.panel := raise_panel ..

theorem evaluate_of_change {s : State} {o : Output} (hr : Running s)
    (h : ((s.context o).verdict, (s.context o).reason) ≠ judge s o) :
    evaluate o s = changeVerdict o (judge s o) s := by
  have running : s.systemReset = false := hr
  rw [evaluate, if_neg (by simp [running]), if_neg (Ne.symm h)]

/-- R164: what a new verdict does to the panel link. -/
theorem changeVerdict_lamp {s : State} {o : Output} {r : Verdict × Reason} (h : (s.context o).verdict ≠ r.1)
    {l : Lamp} (hl : lampOf s.pin.sessionOpen (changeVerdict o r s).outputs = l) :
    (changeVerdict o r s).panel = (handLamp l (warnBudget o r (toldVerdict o r s))).panel := by
  have outputs : (changeVerdict o r s).outputs = (warnBudget o r (toldVerdict o r s)).outputs := by
    rw [changeVerdict_of_new h, recomputeLamp, handLamp_outputs]
  have pin : (warnBudget o r (toldVerdict o r s)).pin = s.pin := (warnBudget_pin ..).trans (raise_pin ..)
  rw [changeVerdict_of_new h, recomputeLamp, ← hl, pin, outputs]

/-- Settles O59: an evaluation that decides anew is a change of verdict, whose notices and lamp are those of the
lemmas above. -/
theorem verdictChangesAreTold : Obligations.VerdictChangesAreTold := by
  unfold Obligations.VerdictChangesAreTold
  intro s t o v r hr hj ht
  subst ht
  refine ⟨fun same => evaluate_eq_self o s (same.trans hj.symm), fun new u hu => ?_, fun n hn hv hlimit => ?_⟩
  · rw [← hj] at new
    have t_eq := evaluate_of_change hr new
    rw [hj] at t_eq
    rw [t_eq]
    have panel : (warnBudget o (v, r) (toldVerdict o (v, r) s)).panel = s.panel :=
      (warnBudget_panel ..).trans (toldVerdict_panel ..)
    have told : (toldVerdict o (v, r) s).report = u.report := hu ▸ toldVerdict_report o (v, r) s
    refine ⟨?context, (changeVerdict_within o (v, r) s).frame, fun far => ?quiet, fun n hn near => ?near,
      fun same => ?kept, fun changed l flashing on => ?lamp⟩
    case context => rw [State.context, changeVerdict_outputs, PerOutput.get_put, if_pos rfl]
    case quiet => rw [changeVerdict_report, warnBudget_other far, told]
    case near =>
      have bound : ((toldVerdict o (v, r) s).context o).profile = some n := by rw [toldVerdict_context]; exact hn
      have record : (toldVerdict o (v, r) s).profile n = s.profile n := raise_profile ..
      rw [changeVerdict_report, near, warnBudget_near (near ▸ bound), ← near, record]
      refine raise_report_congr told ?_ ?_ ..
      · rw [hu, toldVerdict, raise_time, raise_time]
        rfl
      · rw [hu, toldVerdict, raise_systemReset, raise_systemReset]
        rfl
    case kept => rw [changeVerdict_of_same same, panel]
    case lamp =>
      rw [changeVerdict_lamp changed (lampOf_eq flashing on)]
      refine ⟨fun recorded => ?_, fun fresh => ⟨handLamp_record .., fun before old after hq alone => ?_,
        fun absent room => ?_⟩⟩
      · rw [handLamp_of_recorded (panel ▸ recorded), panel]
      · rw [handLamp_of_new (panel ▸ fresh)]
        exact offerLamp_queued (by rw [← hq, ← panel]) alone l
      · rw [handLamp_of_new (panel ▸ fresh)]
        refine (offerLamp_unqueued ?_ ?_ l).trans ?_
        · rw [← panel] at absent; exact absent
        · rw [← panel] at room; exact room
        · simp only [panel]
  · have running : s.systemReset = false := hr
    show carried (whileRunning (expirePending o) s) = _
    have due : (s.context o).verdict = .pending
        ∧ (s.profile n).pendingLimit ≤ s.time.run - (s.context o).pendingSince := ⟨hv, hlimit⟩
    simp only [whileRunning, running, expirePending, hn, due, and_self, if_true]
    rfl

end Sys2Proof.Machine
end

section
/-! PROOF. What runs out at a second event (R36, R99, R172 to R174). -/

namespace Sys2Proof.Machine

open Sys2Proof

/-! ### UNTIL_TIME entries (R99) -/

/-- R96: spending a stack is what `SpentIn` says. -/
theorem spentIn_spendStack (cond : Override → Bool) (stack : List Override) :
    SpentIn cond stack (spendStack cond stack) := rfl

/-- The reached entries of an output's stack are spent where time is set and an entry is reached. -/
def EndReached (s : State) (o : Output) : Prop :=
  s.time.source ≠ .unset ∧ ∃ e ∈ (s.context o).stack, e.reached s.time.localSeconds = true

theorem endReached_iff (s : State) (o : Output) :
    EndReached s o ↔
      (s.time.isSet && (s.context o).stack.any (fun e => e.reached s.time.localSeconds)) = true := by
  simp [EndReached, TimeBase.isSet]

theorem expireUntilTime_of_reached {s : State} {o : Output} (h : EndReached s o) :
    expireUntilTime o s = evaluate o (spendReachedOn o s) := by
  rw [expireUntilTime, if_pos ((endReached_iff s o).1 h)]

theorem expireUntilTime_of_not {s : State} {o : Output} (h : ¬ EndReached s o) : expireUntilTime o s = s := by
  rw [expireUntilTime, if_neg (mt (endReached_iff s o).2 h)]

/-- R99: the reached entries are spent, and the output is evaluated. -/
theorem expireUntilTime_spends {s : State} {o : Output} (hr : Running s) (h : EndReached s o) :
    SpentIn (fun e => e.reached s.time.localSeconds) (s.context o).stack ((expireUntilTime o s).context o).stack
      ∧ UpToDate (expireUntilTime o s) o := by
  rw [expireUntilTime_of_reached h]
  refine ⟨?_, evaluate_upToDate o _ hr⟩
  rw [show ((evaluate o (spendReachedOn o s)).context o).stack = _ from
    (evaluate_within o _).frame (.stack o) (by simp), spendReachedOn, spendOn, context_putContext_self]
  rfl

/-! ### The pending limit (R36) -/

theorem expirePending_due {s : State} {o : Output} {n : Fin 8} (h : (s.context o).profile = some n)
    (hv : (s.context o).verdict = .pending)
    (hw : (s.profile n).pendingLimit ≤ s.time.run - (s.context o).pendingSince) :
    expirePending o s = evaluate o s := by
  simp [expirePending, h, hv, hw]

theorem expirePending_early {s : State} {o : Output} {n : Fin 8} (h : (s.context o).profile = some n)
    (hw : (s.context o).verdict ≠ .pending
      ∨ s.time.run - (s.context o).pendingSince < (s.profile n).pendingLimit) : expirePending o s = s := by
  have early : ¬ ((s.context o).verdict = .pending
      ∧ (s.profile n).pendingLimit ≤ s.time.run - (s.context o).pendingSince) := fun ⟨hv, hle⟩ =>
    hw.elim (fun h => h hv) (fun h => absurd hle (Nat.not_le.2 h))
  simp only [expirePending, h, if_neg early]

/-- R36: an evaluation made once the pending limit is reached leaves no output PENDING. -/
theorem evaluate_settles {s : State} {o : Output} {n : Fin 8} (hr : Running s)
    (h : (s.context o).profile = some n)
    (hw : (s.profile n).pendingLimit ≤ s.time.run - (s.context o).pendingSince) :
    ((evaluate o s).context o).verdict ≠ .pending := by
  have f := (evaluate_within o s).frame
  have judged : ((evaluate o s).context o).verdict = (judge (evaluate o s) o).1 :=
    congrArg Prod.fst (evaluate_upToDate o s hr)
  have bound : ((evaluate o s).context o).profile = some n := (f (.profileBinding o) (by simp)).trans h
  have record : (evaluate o s).profile n = s.profile n := f (.profile n) (by simp)
  have since : ((evaluate o s).context o).pendingSince = (s.context o).pendingSince := f (.pendingSince o) (by simp)
  have run : (evaluate o s).time.run = s.time.run := f .run (by simp)
  rw [judged]
  exact judge_ne_pending bound (by rw [record, since, run]; exact hw)

/-! ### The session, the lockout and the limits of an entry (R172 to R174) -/

/-- R168: an entry ends; with room in the queue the panel is told to release the keys. -/
theorem endEntry_ending {s : State} (room : s.panel.queue.length < 4) (outcome : CommandOutcome)
    (data : List Byte) : Ending outcome (endEntry outcome data s) := by
  rw [endEntry, offerMessage, if_pos (by exact room)]
  exact ⟨rfl, rfl, rfl, rfl, rfl, by simp⟩

theorem entering_iff (m : Matcher) : m.entering = true ↔ m = .routing ∨ m = .collecting := by
  cases m <;> simp [Matcher.entering]

theorem wholeEntryLimit_due {s : State} (hm : s.pin.matcher = .routing ∨ s.pin.matcher = .collecting)
    (h : 90 ≤ s.time.run - s.pin.entry.takeStamp) : wholeEntryLimit s = endEntry .timedOut [] s := by
  have due : Config.wholeEntrySeconds ≤ s.time.run - s.pin.entry.takeStamp := h
  simp [wholeEntryLimit, (entering_iff _).2 hm, due]

theorem wholeEntryLimit_early {s : State} (h : (s.pin.matcher ≠ .routing ∧ s.pin.matcher ≠ .collecting)
    ∨ s.time.run - s.pin.entry.takeStamp < 90) : wholeEntryLimit s = s := by
  rw [wholeEntryLimit, if_neg]
  rw [Bool.and_eq_true, entering_iff, decide_eq_true_eq]
  rintro ⟨hm, hw⟩
  have due : 90 ≤ s.time.run - s.pin.entry.takeStamp := hw
  obtain ⟨h1, h2⟩ | h := h
  · exact hm.elim h1 h2
  · omega

theorem interKeyLimit_due {s : State} (hm : s.pin.matcher = .collecting)
    (h : 15 ≤ s.time.run - s.pin.entry.lastKeyStamp) : interKeyLimit s = endEntry .timedOut [] s := by
  rw [interKeyLimit, if_pos ⟨hm, h⟩]

theorem interKeyLimit_early {s : State} (h : s.pin.matcher ≠ .collecting
    ∨ s.time.run - s.pin.entry.lastKeyStamp < 15) : interKeyLimit s = s := by
  rw [interKeyLimit, if_neg]
  rintro ⟨hm, hw⟩
  have due : 15 ≤ s.time.run - s.pin.entry.lastKeyStamp := hw
  obtain h | h := h
  · exact h hm
  · omega

theorem expireSession_due {s : State} (ho : s.pin.sessionOpen = true) (h : s.pin.sessionRemaining = 0) :
    expireSession s = closeSession s := by simp [expireSession, ho, h]

theorem expireSession_early {s : State} (h : s.pin.sessionOpen = false ∨ 0 < s.pin.sessionRemaining) :
    expireSession s = s := by
  rw [expireSession, if_neg]
  rw [Bool.and_eq_true, decide_eq_true_eq]
  rintro ⟨ho, h0⟩
  obtain h | h := h
  · rw [h] at ho; cases ho
  · omega

theorem expireLockout_due {s : State} (hm : s.pin.matcher = .lockout) (h : s.pin.timer = 0) :
    expireLockout s = s.putPin { s.pin with matcher := .idle } := by
  rw [expireLockout, if_pos ⟨hm, h⟩]

theorem expireLockout_early {s : State} (h : s.pin.matcher ≠ .lockout ∨ 0 < s.pin.timer) :
    expireLockout s = s := by
  rw [expireLockout, if_neg]
  rintro ⟨hm, h0⟩
  obtain h | h := h
  · exact h hm
  · omega

/-- Settles O51: each timer's row is its piece of work, which acts where the timer has run out and else leaves the
state. -/
theorem timersRunOut : Obligations.TimersRunOut := by
  unfold Obligations.TimersRunOut
  intro s hr
  have row : ∀ f : State → State, carried (whileRunning f s) = .next (f s) := fun _ => carried_running hr
  refine ⟨fun o => ⟨fun hs he => ?_, fun h => ?_⟩, fun o n hb => ⟨fun hv hw => ?_, fun h => ?_⟩, fun ho h0 => ?_,
    fun h => ?_, fun hm h0 => ?_, fun h => ?_, fun room => ⟨fun hm hw => ?_, fun hm hw => ?_⟩, fun h => ?_,
    fun h => ?_⟩
  · obtain ⟨spent, judged⟩ := expireUntilTime_spends hr (o := o) ⟨hs, he⟩
    exact ⟨_, row _, spent, judged, (expireUntilTime_within o s).frame⟩
  · refine (row _).trans (congrArg _ (expireUntilTime_of_not fun ⟨hs, e, he, reached⟩ => ?_))
    obtain hu | hn := h
    · exact hs hu
    · rw [hn e he] at reached
      cases reached
  · exact ⟨_, row _, by rw [expirePending_due hb hv hw]; exact evaluate_upToDate o s hr,
      by rw [expirePending_due hb hv hw]; exact evaluate_settles hr hb hw, (expirePending_within o s).frame⟩
  · exact (row _).trans (congrArg _ (expirePending_early hb h))
  · refine ⟨_, row _, ?_, ?_, (expireSession_within s).frame⟩
    · rw [expireSession_due ho h0, closeSession_pin, if_pos ho]
    · rw [expireSession_due ho h0]
      exact closeSession_noted hr ho
  · exact (row _).trans (congrArg _ (expireSession_early h))
  · exact ⟨_, rfl, by rw [expireLockout_due hm h0]; rfl, (expireLockout_within s).frame⟩
  · exact congrArg Host.Outcome.next (expireLockout_early h)
  · exact ⟨_, row _, by rw [wholeEntryLimit_due hm hw]; exact endEntry_ending room .., (wholeEntryLimit_within s).frame⟩
  · exact ⟨_, row _, by rw [interKeyLimit_due hm hw]; exact endEntry_ending room .., (interKeyLimit_within s).frame⟩
  · exact (row _).trans (congrArg _ (wholeEntryLimit_early h))
  · exact (row _).trans (congrArg _ (interKeyLimit_early h))

end Sys2Proof.Machine
end

section
/-! PROOF. UNBIND_SERVICE and BIND_PROFILE (R27, R28): what their owners answer, put through their rows. -/

namespace Sys2Proof.Machine

open Sys2Proof

/-! ### What a command finds at its owner, and what its row leaves -/

/-- A command reaches its owner with the command unit and the session changed only. -/
theorem atOwner_eq (c : Command) (s : State) :
    ∃ (unit : CommandUnit) (pin : PinAuthority), atOwner c s = { s with command := unit, pin := pin } := by
  unfold atOwner slideSession
  split_ifs
  exacts [⟨_, _, rfl⟩, ⟨_, _, rfl⟩, ⟨_, _, rfl⟩]

@[simp] theorem atOwner_context (c : Command) (s : State) (o : Output) : (atOwner c s).context o = s.context o := by
  obtain ⟨unit, pin, h⟩ := atOwner_eq c s
  rw [h]
  rfl

@[simp] theorem atOwner_profile (c : Command) (s : State) (n : Fin 8) : (atOwner c s).profile n = s.profile n := by
  obtain ⟨unit, pin, h⟩ := atOwner_eq c s
  rw [h]
  rfl

@[simp] theorem atOwner_entry (c : Command) (s : State) (n : Fin 64) : (atOwner c s).entry n = s.entry n := by
  obtain ⟨unit, pin, h⟩ := atOwner_eq c s
  rw [h]
  rfl

@[simp] theorem atOwner_time (c : Command) (s : State) : (atOwner c s).time = s.time := by
  obtain ⟨unit, pin, h⟩ := atOwner_eq c s
  rw [h]

@[simp] theorem atOwner_image (c : Command) (s : State) : (atOwner c s).image = s.image := by
  obtain ⟨unit, pin, h⟩ := atOwner_eq c s
  rw [h]

theorem atOwner_running {s : State} (h : Running s) (c : Command) : Running (atOwner c s) := by
  obtain ⟨unit, pin, e⟩ := atOwner_eq c s
  rw [e]
  exact h

theorem OutputContext.eq_of {a b : OutputContext} (hp : a.profile = b.profile) (hs : a.service = b.service)
    (hv : a.verdict = b.verdict) (hr : a.reason = b.reason) (hd : a.pendingSince = b.pendingSince)
    (hst : a.stack = b.stack) : a = b := by
  cases a
  cases b
  simp_all

/-- An output context stands where none of its parts is named. -/
theorem Frame.context {ps : List Part} {s t : State} (f : Frame ps s t) {o : Output}
    (hp : Part.profileBinding o ∉ ps) (hs : Part.serviceBinding o ∉ ps) (hv : Part.verdict o ∉ ps)
    (hd : Part.pendingSince o ∉ ps) (hst : Part.stack o ∉ ps) : t.context o = s.context o := by
  obtain ⟨verdict, reason⟩ := f (.verdict o) hv
  exact OutputContext.eq_of (f (.profileBinding o) hp) (f (.serviceBinding o) hs) verdict reason
    (f (.pendingSince o) hd) (f (.stack o) hst)

section
variable {s u t : State} (f : Frame (ringParts s) u t)
include f

/-- The end of a take is about the command unit only. -/
theorem ring_context (o : Output) : t.context o = u.context o :=
  f.context (by simp) (by simp) (by simp) (by simp) (by simp)

theorem ring_profile (n : Fin 8) : t.profile n = u.profile n := f (.profile n) (by simp)

theorem ring_entry (n : Fin 64) : t.entry n = u.entry n := f (.entry n) (by simp)

theorem ring_upToDate {o : Output} (h : UpToDate u o) : UpToDate t o :=
  h.congr (ring_context f o) (f.time (by simp)) (ring_profile f) (ring_entry f)

theorem ring_noted {k : NoticeKind} {subj : Nat} (h : Noted k subj u) : Noted k subj t :=
  h.frame f (by simp) (by simp) (by simp)

end

/-- Any command that is not privileged is ready on a ready ring. -/
theorem ready_of_public {i : Instr} {c : Command} {s : State} (hi : commandOf i = some c)
    (h : privileged c s = false) (hr : RingReady s) : Ready i s := by
  refine ⟨hr, fun d hd hp => ?_⟩
  rw [hi] at hd
  cases hd
  rw [h] at hp
  cases hp

/-! ### UNBIND_SERVICE (R27) -/

theorem evaluate_context (o : Output) (s : State) :
    ((evaluate o s).context o).service = (s.context o).service
      ∧ ((evaluate o s).context o).profile = (s.context o).profile
      ∧ ((evaluate o s).context o).pendingSince = (s.context o).pendingSince
      ∧ ((evaluate o s).context o).stack = (s.context o).stack := by
  have f := (evaluate_within o s).frame
  exact ⟨f (.serviceBinding o) (by simp), f (.profileBinding o) (by simp), f (.pendingSince o) (by simp),
    f (.stack o) (by simp)⟩

theorem unbindService_of_none {s : State} {o : Output} (h : (s.context o).service = none) :
    unbindService o s = evaluate o s := by
  simp only [unbindService, h]

/-- R27: what the unbind writes, before the evaluation. -/
def unboundService (o : Output) (n : Fin 64) (s : State) : State :=
  (lowerBind (some n) s).putContext o
    { s.context o with service := none, stack := spendStack endsWithBinding (s.context o).stack }

theorem unbindService_of_some {s : State} {o : Output} {n : Fin 64} (h : (s.context o).service = some n) :
    unbindService o s = evaluate o (unboundService o n s) := by
  simp only [unbindService, h]
  rfl

theorem unboundService_frame (o : Output) (n : Fin 64) (s : State) :
    Frame [.serviceBinding o, .stack o, .entry n] s (unboundService o n s) := by
  have lowered : Frame [.serviceBinding o, .stack o, .entry n] s (lowerBind (some n) s) :=
    (changeEntry_within n _ s).frame.mono (by simp)
  have written : Within [.serviceBinding o, .stack o, .entry n] (lowerBind (some n) s) (unboundService o n s) :=
    within_context (.inr rfl) (.inl (by simp)) (.inr ⟨rfl, rfl⟩) (.inr rfl) (.inl (by simp)) (spendStack_law _)
  exact lowered.trans written.frame

theorem unbindService_frame {s : State} {o : Output} {n : Fin 64} (h : (s.context o).service = some n) :
    Frame ([.serviceBinding o, .stack o, .entry n] ++ judgedParts o) s (unbindService o s) := by
  rw [unbindService_of_some h]
  exact ((unboundService_frame o n s).mono fun p hp => List.mem_append_left _ hp).trans
    ((evaluate_within o _).frame.mono fun p hp => List.mem_append_right _ hp)

/-- R27: the output leaves the entry, whose count falls, and the entries that end with the binding are spent. -/
theorem unbindService_leaves {s : State} {o : Output} {n : Fin 64} (hr : Running s)
    (h : (s.context o).service = some n) :
    ((unbindService o s).context o).service = none
      ∧ (unbindService o s).entry n = (s.entry n).map (fun e => { e with bindCount := e.bindCount - 1 })
      ∧ SpentIn endsWithBinding (s.context o).stack ((unbindService o s).context o).stack
      ∧ UpToDate (unbindService o s) o := by
  rw [unbindService_of_some h]
  obtain ⟨service, -, -, stack⟩ := evaluate_context o (unboundService o n s)
  have entry : (evaluate o (unboundService o n s)).entry n = (unboundService o n s).entry n :=
    (evaluate_within o _).frame (.entry n) (by simp)
  refine ⟨?_, ?_, ?_, evaluate_upToDate o _ hr⟩
  · rw [service, unboundService, context_putContext_self]
  · rw [entry]
    exact entry_putEntry_self ..
  · rw [stack, unboundService, context_putContext_self]
    exact spentIn_spendStack ..

theorem unbindService_row {s : State} (output : Byte) (hr : RingReady s) :
    (3 ≤ output.toNat → Refuses (.unbindService output) .badField s)
      ∧ ∀ o, outputCode o = output.toNat →
        ((s.context o).service = none →
          ∃ t, Ends (.unbindService output) (.done .doneOk []) (judgedParts o) s t ∧ UpToDate t o)
        ∧ ∀ n, (s.context o).service = some n →
          ∃ t, Ends (.unbindService output) (.done .doneOk [])
              ([.serviceBinding o, .stack o, .entry n] ++ judgedParts o) s t
            ∧ (t.context o).service = none
            ∧ t.entry n = (s.entry n).map (fun e => { e with bindCount := e.bindCount - 1 })
            ∧ SpentIn endsWithBinding (s.context o).stack (t.context o).stack
            ∧ UpToDate t o := by
  have ready : Ready (.unbindService output) s := ready_of_public rfl rfl hr
  have lasting : Part.sessionRemaining ∉ commandParts (.bindService output true 0 0 0) :=
    remaining_notMem_commandParts _ (by simp) (by simp) (by simp) (by simp)
  have running : Running (atOwner (.bindService output true 0 0 0) s) := atOwner_running hr.1 _
  refine ⟨fun h => refuses_of_obey rfl ready (by simp) lasting ?_, fun o ho => ⟨fun h => ?_, fun n h => ?_⟩⟩
  · show obeyUnbindService output _ = _
    rw [obeyUnbindService, outputOf_none h]
  all_goals
    have owner : obey s.command.pointer (.bindService output true 0 0 0) (atOwner (.bindService output true 0 0 0) s)
        = (unbindService o (atOwner (.bindService output true 0 0 0) s), .done .doneOk []) := by
      show obeyUnbindService output _ = _
      rw [obeyUnbindService, outputOf_code ho]
      rfl
  · have unbound : unbindService o (atOwner (.bindService output true 0 0 0) s) = _ :=
      unbindService_of_none (by rw [atOwner_context]; exact h)
    obtain ⟨t, ends, f⟩ := ends_of_obey rfl ready (by simp) lasting owner
      (unbound ▸ (evaluate_within o _).frame)
    exact ⟨t, ends, ring_upToDate f (unbound ▸ evaluate_upToDate o _ running)⟩
  · have bound : ((atOwner (.bindService output true 0 0 0) s).context o).service = some n := by
      rw [atOwner_context]; exact h
    obtain ⟨service, entry, spent, judged⟩ := unbindService_leaves running bound
    rw [atOwner_entry] at entry
    rw [atOwner_context] at spent
    obtain ⟨t, ends, f⟩ := ends_of_obey rfl ready (by simp) lasting owner (unbindService_frame bound)
    rw [← ring_context f] at service spent
    exact ⟨t, ends, service, (ring_entry f n).trans entry, spent, ring_upToDate f judged⟩

/-! ### BIND_PROFILE (R28) -/

theorem profileSlotOf_val {b : Byte} {n : Fin 8} (h : n.val = b.toNat) : profileSlotOf b = some n := by
  have lt : b.toNat < 8 := h ▸ n.isLt
  rw [profileSlotOf, dif_pos lt]
  exact congrArg some (Fin.ext h.symm)

theorem profileSlotOf_none {b : Byte} (h : 8 ≤ b.toNat) : profileSlotOf b = none :=
  dif_neg (Nat.not_lt.2 h)

theorem profileBindingOf_slot {b : Byte} {n : Fin 8} (h : n.val = b.toNat) :
    profileBindingOf b = some (some n) := by
  have ne : b ≠ 0xFF := fun e => by
    subst e
    have : n.val = 255 := h
    omega
  rw [profileBindingOf, if_neg ne, profileSlotOf_val h]
  rfl

theorem profileBindingOf_none {b : Byte} (h : 8 ≤ b.toNat) (ne : b ≠ 0xFF) : profileBindingOf b = none := by
  rw [profileBindingOf, if_neg ne, profileSlotOf_none h]
  rfl

theorem setBinding_frame (o : Output) (b : Option (Fin 8)) (s : State) :
    Frame (.profileBinding o :: judgedParts o) s (setBinding o b s) := by
  have written : Within [.profileBinding o] s (s.putContext o { s.context o with profile := b }) :=
    within_context (.inl (by simp)) (.inr rfl) (.inr ⟨rfl, rfl⟩) (.inr rfl) (.inr rfl) id
  exact (written.frame.mono (by simp)).trans ((evaluate_within o _).frame.mono fun p hp => .tail _ hp)

/-- R28: the output takes the binding and is evaluated. -/
theorem setBinding_binds {s : State} (hr : Running s) (o : Output) (b : Option (Fin 8)) :
    ((setBinding o b s).context o).profile = b ∧ UpToDate (setBinding o b s) o := by
  refine ⟨?_, evaluate_upToDate o _ hr⟩
  obtain ⟨-, profile, -, -⟩ := evaluate_context o (s.putContext o { s.context o with profile := b })
  exact profile.trans (by rw [context_putContext_self])

theorem bindProfile_row {s : State} {output profile : Byte} (hr : Ready (.bindProfile output profile) s) :
    (3 ≤ output.toNat ∨ (8 ≤ profile.toNat ∧ profile ≠ 0xFF) → Refuses (.bindProfile output profile) .badField s)
      ∧ ∀ o, outputCode o = output.toNat →
        (profile = 0xFF →
          ∃ t, Ends (.bindProfile output profile) (.done .doneOk []) (.profileBinding o :: judgedParts o) s t
            ∧ (t.context o).profile = none ∧ (t.context o).verdict = .unsupervised)
        ∧ ∀ n : Fin 8, n.val = profile.toNat →
          ((s.profile n).state = .empty → Refuses (.bindProfile output profile) .noSuch s)
          ∧ ((s.profile n).state ≠ .empty →
            ∃ t, Ends (.bindProfile output profile) (.done .doneOk []) (.profileBinding o :: judgedParts o) s t
              ∧ (t.context o).profile = some n ∧ UpToDate t o) := by
  have lasting : Part.sessionRemaining ∉ commandParts (.bindProfile output profile) :=
    remaining_notMem_commandParts _ (by simp) (by simp) (by simp) (by simp)
  have binds : ∀ (o : Output) (b : Option (Fin 8)),
      obeyBindProfile output profile (atOwner (.bindProfile output profile) s)
        = complete false [] (setBinding o b (atOwner (.bindProfile output profile) s)) →
      ∃ t, Ends (.bindProfile output profile) (.done .doneOk []) (.profileBinding o :: judgedParts o) s t
        ∧ (t.context o).profile = b ∧ UpToDate t o := fun o b owner => by
    obtain ⟨bound, judged⟩ := setBinding_binds (atOwner_running hr.1.1 (.bindProfile output profile)) o b
    obtain ⟨t, ends, f⟩ := ends_of_obey (c := .bindProfile output profile) rfl hr (by simp) lasting owner
      (setBinding_frame o b _)
    exact ⟨t, ends, by rw [ring_context f]; exact bound, ring_upToDate f judged⟩
  have refused : ∀ outcome, obeyBindProfile output profile (atOwner (.bindProfile output profile) s)
      = refuse outcome (atOwner (.bindProfile output profile) s) → Refuses (.bindProfile output profile) outcome s :=
    fun outcome owner => refuses_of_obey (c := .bindProfile output profile) rfl hr (by simp) lasting owner
  refine ⟨fun h => refused _ ?_, fun o ho => ⟨fun h => ?_, fun n hn => ⟨fun h => refused _ ?_, fun h => ?_⟩⟩⟩
  · unfold obeyBindProfile
    obtain h | ⟨h, ne⟩ := h
    · rw [outputOf_none h]
    · rw [profileBindingOf_none h ne]
      cases outputOf output <;> rfl
  · obtain ⟨t, ends, bound, judged⟩ := binds o none (by
      rw [obeyBindProfile, outputOf_code ho, profileBindingOf, if_pos h])
    exact ⟨t, ends, bound, (judged.unsupervised bound).1⟩
  · rw [obeyBindProfile, outputOf_code ho, profileBindingOf_slot hn]
    exact if_pos (by rw [atOwner_profile]; exact h)
  · refine binds o (some n) ?_
    rw [obeyBindProfile, outputOf_code ho, profileBindingOf_slot hn]
    exact if_neg (by rw [atOwner_profile]; exact h)

/-- Settles O31: the two rows. -/
theorem unbindServiceAndBindProfile : Obligations.UnbindServiceAndBindProfile := by
  unfold Obligations.UnbindServiceAndBindProfile
  intro s
  exact ⟨fun output hr => unbindService_row output hr, fun i output profile hi hr => by
    subst hi
    exact bindProfile_row hr⟩

end Sys2Proof.Machine
end

section
/-! PROOF. SET_PROFILE_STATE (R29, R57 to R60, R68, R69, R78): settlements, what each change of state does to the
record and to the outputs bound to it. -/

namespace Sys2Proof.Machine

open Sys2Proof

/-! ### Settlements (R57 to R59) -/

theorem rolledOver_eq (p : Profile) (day : Nat) : p.rolledOver day = rolledAccount p day := by
  unfold Profile.rolledOver rolledAccount Profile.carried
  cases p.allowance <;> rfl

theorem noteExhaustion_profile (n : Fin 8) (p : Profile) (s : State) (m : Fin 8) :
    (noteExhaustion n p s).profile m = s.profile m := (noteExhaustion_within n p s).frame (.profile m) (by simp)

/-- What each settlement makes of a record. -/
theorem settledAccount_keep {p : Profile} {day : Nat} (h : p.settlement day = .keep) : settledAccount p day = p := by
  unfold Profile.settlement at h
  split at h
  · next hs => simp [settledAccount, hs]
  · cases h
  · cases h
  · next b hs hb =>
    split_ifs at h with h1 h2
    obtain rfl : b = day := by omega
    cases p
    simp_all [settledAccount]
  · next hs hb => simp [settledAccount, hs, hb]

theorem settledAccount_adopt {p : Profile} {day : Nat} (h : p.settlement day = .adopt) :
    settledAccount p day = { p with budgetDay := some day } := by
  unfold Profile.settlement at h
  split at h
  · cases h
  · next hs hb => simp [settledAccount, hs, hb]
  · next hs hb => simp [settledAccount, hs, hb]
  · next b hs hb =>
    split_ifs at h with h1 h2
    simp [settledAccount, hs, hb, h1]
  · cases h

theorem settledAccount_roll {p : Profile} {day : Nat} (h : p.settlement day = .roll) :
    settledAccount p day = p.rolledOver day := by
  unfold Profile.settlement at h
  split at h
  · cases h
  · cases h
  · cases h
  · next b hs hb =>
    split_ifs at h with h1 h2
    simp [settledAccount, hs, hb, h1, rolledOver_eq]
  · cases h

/-- R57 to R59: the record of a slot after its settlement. -/
theorem settleProfile_profile (n : Fin 8) (day : Nat) (s : State) :
    (settleProfile n day s).profile n = settledAccount (s.profile n) day := by
  unfold settleProfile
  split
  · next h => rw [settledAccount_keep h]
  · next h => rw [settledAccount_adopt h, profile_putProfile_self]
  · next h =>
    rw [settledAccount_roll h, evaluateProfile, evaluateWhere_profile, noteExhaustion_profile, rollOver,
      raise_profile, profile_putProfile_self]

theorem settleProfile_profile_ne {n m : Fin 8} (h : m ≠ n) (day : Nat) (s : State) :
    (settleProfile n day s).profile m = s.profile m :=
  (settleProfile_within n day s).frame (.profile m) (by simpa using h)

/-- R57: every record is settled once. -/
theorem settleAll_profile (day : Nat) (s : State) (n : Fin 8) :
    (settleAll day s).profile n = settledAccount (s.profile n) day := by
  suffices ∀ (l : List (Fin 8)) (t : State), l.Nodup →
      (l.foldl (fun t n => settleProfile n day t) t).profile n
        = if n ∈ l then settledAccount (t.profile n) day else t.profile n by
    rw [settleAll, this allProfiles s (List.nodup_finRange 8), if_pos (show n ∈ allProfiles from List.mem_finRange n)]
  intro l
  induction l with
  | nil => simp
  | cons m l ih =>
    intro t hl
    obtain ⟨fresh, rest⟩ := List.nodup_cons.1 hl
    rw [List.foldl_cons, ih _ rest]
    by_cases h : n = m
    · subst h
      simp [fresh, settleProfile_profile]
    · simp [h, settleProfile_profile_ne h]

/-! ### Changes of state (R60, R68, R69, R78) -/

section
variable {s : State} {n : Fin 8} {new : ProfileState}

theorem changeProfileState_of_same (h : (s.profile n).state = new) : changeProfileState n new s = s := by
  subst h
  cases hs : (s.profile n).state <;> simp [changeProfileState, hs]

/-- R68: an EMPTY slot opens an account. -/
theorem changeProfileState_opens (h : (s.profile n).state = .empty) (hn : new ≠ .empty) :
    changeProfileState n new s = noteExhaustion n (s.profile n)
      (s.putProfile n ((s.profile n).openedAccount new s.time.profileDay)) := by
  cases new with
  | empty => exact absurd rfl hn
  | active | suspended => simp [changeProfileState, h]

/-- R69: a slot becomes EMPTY. -/
theorem changeProfileState_empties (h : (s.profile n).state ≠ .empty) :
    changeProfileState n .empty s = emptyProfile n s := by
  cases hs : (s.profile n).state with
  | empty => exact absurd hs h
  | active | suspended => simp [changeProfileState, hs]

theorem changeProfileState_suspends (h : (s.profile n).state = .active) :
    changeProfileState n .suspended s = s.putProfile n { s.profile n with state := .suspended } := by
  simp [changeProfileState, h]

/-- R60: a SUSPENDED slot resumes. -/
theorem changeProfileState_resumes (h : (s.profile n).state = .suspended) :
    changeProfileState n .active s = resumeProfile n s := by
  simp [changeProfileState, h]

end

theorem resumeProfile_profile (n : Fin 8) (s : State) :
    (resumeProfile n s).profile n
      = if s.time.profileDay.isSome = true then
          settledAccount { s.profile n with state := .active } (s.time.profileDay.getD 0)
        else { s.profile n with state := .active } := by
  unfold resumeProfile
  cases hd : s.time.profileDay with
  | none => simp
  | some day => simp [settleProfile_profile]

theorem resumeProfile_frame (n : Fin 8) (s : State) : Frame (.profile n :: allJudged) s (resumeProfile n s) := by
  have active := (putProfile_frame n { s.profile n with state := .active } s).mono
    (qs := .profile n :: allJudged) (by simp)
  unfold resumeProfile
  split
  · exact active.trans (settleProfile_within ..).frame
  · exact active

/-- R78: the record of a slot that stays in use. -/
theorem changeProfileState_profile {s : State} {n : Fin 8} {new : ProfileState}
    (h : (s.profile n).state ≠ .empty) (hn : new ≠ .empty) :
    (changeProfileState n new s).profile n
      = if (s.profile n).state = .suspended ∧ new = .active ∧ s.time.profileDay.isSome = true then
          settledAccount { s.profile n with state := .active } (s.time.profileDay.getD 0)
        else { s.profile n with state := new } := by
  by_cases same : (s.profile n).state = new
  · rw [changeProfileState_of_same same, if_neg, ← same]
    rintro ⟨hs, ha, -⟩
    rw [ha, hs] at same
    cases same
  · cases hs : (s.profile n).state with
    | empty => exact absurd hs h
    | active =>
      cases new with
      | empty => exact absurd rfl hn
      | active => exact absurd hs same
      | suspended => rw [changeProfileState_suspends hs, profile_putProfile_self, if_neg (by simp)]
    | suspended =>
      cases new with
      | empty => exact absurd rfl hn
      | active => simp only [changeProfileState_resumes hs, resumeProfile_profile, true_and]
      | suspended => exact absurd hs same

/-- R78: unless a slot in use becomes EMPTY, its record is all that a change of state touches but for notices and
verdicts. -/
theorem changeProfileState_frame {s : State} {n : Fin 8} {new : ProfileState}
    (h : new ≠ .empty ∨ (s.profile n).state = .empty) :
    Frame (.profile n :: allJudged) s (changeProfileState n new s) := by
  by_cases same : (s.profile n).state = new
  · rw [changeProfileState_of_same same]
    exact .refl _ s
  · by_cases he : (s.profile n).state = .empty
    · rw [changeProfileState_opens he (fun e => same (he.trans e.symm))]
      exact ((putProfile_frame n _ s).mono (by simp)).trans ((noteExhaustion_within ..).frame.mono (by simp))
    · have hn := h.resolve_right he
      cases hs : (s.profile n).state with
      | empty => exact absurd hs he
      | active =>
        cases new with
        | empty => exact absurd rfl hn
        | active => exact absurd hs same
        | suspended => rw [changeProfileState_suspends hs]; exact (putProfile_frame n _ s).mono (by simp)
      | suspended =>
        cases new with
        | empty => exact absurd rfl hn
        | active => rw [changeProfileState_resumes hs]; exact resumeProfile_frame n s
        | suspended => exact absurd hs same

/-! ### Notices (R51) -/

/-- R30: an evaluation takes back no notice. -/
theorem Noted.evaluate {s : State} {k : NoticeKind} {subj : Nat} (h : Noted k subj s) (o : Output) :
    Noted k subj (evaluate o s) := by
  have warned : ∀ {t : State} (r : Verdict × Reason), Noted k subj t → Noted k subj (warnBudget o r t) :=
    fun {t} r ht => by
      unfold warnBudget
      split
      · split
        · exact ht.raise ..
        · exact ht
      · exact ht
  have told : ∀ r, Noted k subj (warnBudget o r (toldVerdict o r s)) := fun r =>
    warned r (Noted.raise (s := s.putContext o _) h ..)
  unfold Machine.evaluate
  split_ifs
  · exact h
  · exact h
  · by_cases hv : (s.context o).verdict = (judge s o).1
    · rw [changeVerdict_of_same hv]; exact told _
    · rw [changeVerdict_of_new hv]; exact (told _).recomputeLamp

theorem Noted.evaluateWhere {s : State} {k : NoticeKind} {subj : Nat} (h : Noted k subj s)
    (chosen : OutputContext → Bool) : Noted k subj (evaluateWhere chosen s) :=
  List.foldlRecOn allOutputs _ h fun t ht o _ => by
    split
    exacts [ht.evaluate o, ht]

/-- R51, R68: an account opened with nothing left is exhausted at once. -/
theorem changeProfileState_notes {s : State} (hr : Running s) {n : Fin 8} {new : ProfileState}
    (h : (s.profile n).state = .empty) (hn : new ≠ .empty) (ha : (s.profile n).allowance = some 0) :
    Noted .budgetExhausted n.val (changeProfileState n new s) := by
  have opened : ((s.profile n).openedAccount new s.time.profileDay).exhausted = true := by
    simp [Profile.exhausted, Profile.openedAccount, hn, ha]
  have before : (s.profile n).exhausted = false := by simp [Profile.exhausted, h]
  rw [changeProfileState_opens h hn, noteExhaustion, profile_putProfile_self, opened, before]
  exact noted_raise (s := s.putProfile n _) hr ..

/-! ### The row -/

/-- What the row's owner does to a slot, with the evaluation that follows. -/
def restated (n : Fin 8) (new : ProfileState) (s : State) : State := evaluateProfile n (changeProfileState n new s)

theorem restated_profile (n : Fin 8) (new : ProfileState) (s : State) :
    (restated n new s).profile n = (changeProfileState n new s).profile n := evaluateWhere_profile ..

theorem changeProfileState_within_parts (n : Fin 8) (new : ProfileState) (s : State) :
    Frame (.profile n :: everyProfileBinding ++ allJudged) s (changeProfileState n new s) := by
  by_cases h : new ≠ .empty ∨ (s.profile n).state = .empty
  · exact (changeProfileState_frame h).mono (by simp)
  · obtain ⟨hn, hs⟩ := not_or.1 h
    rw [not_not.1 hn, changeProfileState_empties hs]
    exact ((putProfile_frame n _ s).mono (by simp)).trans
      ((unbindProfile_within n _).frame.mono fun p hp => .tail _ hp)

theorem restated_frame (n : Fin 8) (new : ProfileState) (s : State) :
    Frame (.profile n :: everyProfileBinding ++ allJudged) s (restated n new s) :=
  (changeProfileState_within_parts n new s).trans ((evaluateProfile_within n _).frame.mono
    fun _ hp => List.mem_append_right _ hp)

theorem restated_binding (n : Fin 8) (new : ProfileState) (s : State) (o : Output) :
    ((restated n new s).context o).profile = ((changeProfileState n new s).context o).profile :=
  (evaluateProfile_within n _).frame (.profileBinding o) (by simp)

theorem restated_upToDate {s : State} (hr : Running s) (n : Fin 8) (new : ProfileState) :
    BoundUpToDate n (restated n new s) := fun o ho => by
  have running : Running (changeProfileState n new s) :=
    (changeProfileState_within_parts n new s .systemReset (by simp)).trans hr
  refine evaluateWhere_upToDate (keptByEvaluation_profile n) _ running o ?_
  rw [restated_binding] at ho
  simpa using ho

theorem emptyProfile_profile (n : Fin 8) (s : State) : (emptyProfile n s).profile n = .default := by
  have kept : (unbindProfile n (s.putProfile n .default)).profile n = (s.putProfile n .default).profile n :=
    (unbindProfile_within n _).frame (.profile n) (by simp)
  rw [emptyProfile, kept, profile_putProfile_self]

/-- R29: an output bound to a slot that becomes EMPTY is UNSUPERVISED. -/
theorem restated_unbinds {s : State} (hr : Running s) {n : Fin 8} (h : (s.profile n).state ≠ .empty) {o : Output}
    (ho : (s.context o).profile = some n) :
    ((restated n .empty s).context o).profile = none
      ∧ ((restated n .empty s).context o).verdict = .unsupervised := by
  obtain ⟨unbound, judged⟩ := unbindProfile_bound (s := s.putProfile n .default) hr ho
  have stands : (restated n .empty s).context o = (unbindProfile n (s.putProfile n .default)).context o := by
    rw [restated, changeProfileState_empties h, emptyProfile]
    exact evaluateWhere_context_of_not _ o (by simp [unbound])
  rw [stands]
  exact ⟨unbound, (judged.unsupervised unbound).1⟩

/-- R29, R78: every other binding stands. -/
theorem restated_keepsBinding {s : State} {n : Fin 8} {new : ProfileState} {o : Output}
    (h : new ≠ .empty ∨ (s.profile n).state = .empty ∨ (s.context o).profile ≠ some n) :
    ((restated n new s).context o).profile = (s.context o).profile := by
  rw [restated_binding]
  by_cases used : new ≠ .empty ∨ (s.profile n).state = .empty
  · exact changeProfileState_frame used (.profileBinding o) (by simp)
  · obtain ⟨hn, hs⟩ := not_or.1 used
    have ho := (h.resolve_left hn).resolve_left hs
    rw [not_not.1 hn, changeProfileState_empties hs, emptyProfile, unbindProfile_unbound]
    · rfl
    · exact ho

theorem profileStateOf_code {b : Byte} {st : ProfileState} (h : profileStateCode st = b.toNat) :
    profileStateOf b = some st := by
  unfold profileStateOf
  rw [← h]
  cases st <;> rfl

theorem profileStateOf_none {b : Byte} (h : 3 ≤ b.toNat) : profileStateOf b = none := by
  unfold profileStateOf
  split
  · omega
  · omega
  · omega
  · rfl

theorem profileData_congr {s t : State} {n : Fin 8} (h : t.profile n = s.profile n) :
    profileData n t = profileData n s := by
  simp only [profileData, h]

theorem onProfile_slot {profile : Byte} {n : Fin 8} (hn : n.val = profile.toNat)
    (act : Fin 8 → State → State × Response) (s : State) :
    onProfile profile act s = if s.image.operation.importsInto n then refuse .busy s else act n s := by
  simp only [onProfile, profileSlotOf_val hn]

/-- What the row of SET_PROFILE_STATE leaves of what its owner does. -/
theorem setProfileState_ends {s : State} {p new : Byte} (hr : Ready (.setProfileState p new) s) {n : Fin 8}
    (hn : n.val = p.toNat) (idle : s.image.operation.importsInto n = false) {st : ProfileState}
    (hst : profileStateCode st = new.toNat) :
    ∃ t, Ends (.setProfileState p new) (.done .doneOk (profileData n t))
        (.profile n :: everyProfileBinding ++ allJudged) s t
      ∧ Frame (ringParts s) (restated n st (atOwner (.setProfileState p new) s)) t := by
  have lasting : Part.sessionRemaining ∉ commandParts (.setProfileState p new) :=
    remaining_notMem_commandParts _ (by simp) (by simp) (by simp) (by simp)
  have owner : obey s.command.pointer (.setProfileState p new) (atOwner (.setProfileState p new) s)
      = complete false (profileData n (restated n st (atOwner (.setProfileState p new) s)))
        (restated n st (atOwner (.setProfileState p new) s)) := by
    show obeySetProfileState p new _ = _
    rw [obeySetProfileState, onProfile_slot hn, if_neg (by simp [idle])]
    simp only [profileStateOf_code hst]
    rfl
  obtain ⟨t, ends, f⟩ := ends_of_obey rfl hr (by simp) lasting owner (restated_frame n st _)
  refine ⟨t, ?_, f⟩
  rw [profileData_congr (ring_profile f n)]
  exact ends

/-- Settles O34: the row is what its owner does to the slot, told for each pair of states. -/
theorem profileStatesChange : Obligations.ProfileStatesChange := by
  unfold Obligations.ProfileStatesChange
  rintro s _ p new rfl hr
  have refused : ∀ outcome, obeySetProfileState p new (atOwner (.setProfileState p new) s)
      = refuse outcome (atOwner (.setProfileState p new) s) → Refuses (.setProfileState p new) outcome s :=
    fun outcome owner => refuses_of_obey (c := .setProfileState p new) rfl hr (by simp)
      (remaining_notMem_commandParts _ (by simp) (by simp) (by simp) (by simp)) owner
  refine ⟨fun h => refused _ ?_, fun n hn => ⟨fun h => refused _ ?_, fun idle => ⟨fun h => refused _ ?_,
    fun st hst => ?_⟩⟩⟩
  · simp only [obeySetProfileState, onProfile, profileSlotOf_none h]
  · rw [obeySetProfileState, onProfile_slot hn, if_pos (by simp [h])]
  · rw [obeySetProfileState, onProfile_slot hn, if_neg (by simp [idle])]
    simp only [profileStateOf_none h]
  · obtain ⟨t, ends, f⟩ := setProfileState_ends hr hn idle hst
    have running : Running (atOwner (.setProfileState p new) s) := atOwner_running hr.1.1 _
    have record := (ring_profile f n).trans (restated_profile n st _)
    refine ⟨t, ends, fun o ho => ?judged, fun h hs => ?same, fun h hs => ⟨?opened, fun ha => ?noted⟩,
      fun h hs => ?used, fun h hs => ?emptied, fun o ho => ?bindings⟩
    case judged =>
      rw [ring_context f] at ho
      exact ring_upToDate f (restated_upToDate running n st o ho)
    case same =>
      rw [record, changeProfileState_of_same (by rw [atOwner_profile, h, hs]), atOwner_profile]
    case opened =>
      rw [record, changeProfileState_opens (by rw [atOwner_profile]; exact h) hs, noteExhaustion_profile,
        profile_putProfile_self, atOwner_profile, atOwner_time]
      rfl
    case noted =>
      exact ring_noted f ((changeProfileState_notes running (by rw [atOwner_profile]; exact h) hs
        (by rw [atOwner_profile]; exact ha)).evaluateWhere _)
    case used =>
      rw [record, changeProfileState_profile (by rw [atOwner_profile]; exact h) hs, atOwner_profile, atOwner_time]
    case emptied =>
      subst hs
      refine ⟨?_, fun o ho => ?_⟩
      · rw [record, changeProfileState_empties (by rw [atOwner_profile]; exact h), emptyProfile_profile]
      · rw [ring_context f]
        exact restated_unbinds running (by rw [atOwner_profile]; exact h) (by rw [atOwner_context]; exact ho)
    case bindings =>
      rw [ring_context f, restated_keepsBinding, atOwner_context]
      rw [atOwner_profile, atOwner_context]
      exact ho

end Sys2Proof.Machine
end

section
/-! PROOF. BIND_SERVICE (R26, R126, R134): the entry that the output takes, and what is left of the one it had. -/

namespace Sys2Proof.Machine

open Sys2Proof

/-! ### The entry of a key (R123, R126) -/

/-- R123: the entry that holds the key is the one found. -/
theorem ensureEntry_of_held {k : ServiceKey} {s : State} {f : Entry} {m : Fin 64} (h : s.entry m = some f)
    (hk : f.key = k) : (ensureEntry k s).2 = s := by
  cases hf : findKey s k with
  | some n => rw [ensureEntry_of_found hf]
  | none => exact absurd hk (findKey_none hf h)

/-- R126: a key that no entry holds gets a new entry. -/
theorem ensureEntry_of_new {k : ServiceKey} {s : State} (h : ∀ m f, s.entry m = some f → f.key ≠ k) :
    (ensureEntry k s).2.entry (ensureEntry k s).1 = some (newEntry k s.time.run) := by
  cases hf : findKey s k with
  | some n =>
    obtain ⟨e, he, hk⟩ := findKey_holds hf
    exact absurd hk (h n e he)
  | none => rw [ensureEntry_of_missing hf, entry_putEntry_self]

theorem ensureEntry_entry_ne {k : ServiceKey} {s : State} {m : Fin 64} (h : m ≠ (ensureEntry k s).1) :
    (ensureEntry k s).2.entry m = s.entry m :=
  (ensureEntry_within k s).frame (.entry m) (by simpa using h)

/-- R126: no entry with an output bound to it and another key gives up its slot. -/
theorem ensureEntry_ne_bound {k : ServiceKey} {s : State} (law : Tallied s.services s) {m : Fin 64} {e : Entry}
    (he : s.entry m = some e) (hk : e.key ≠ k) (h0 : e.bindCount ≠ 0) : (ensureEntry k s).1 ≠ m := by
  rintro rfl
  cases hf : findKey s k with
  | some n =>
    obtain ⟨e', he', hk'⟩ := findKey_holds hf
    rw [ensureEntry_of_found hf] at he
    rw [he] at he'
    cases he'
    exact hk hk'
  | none =>
    rw [ensureEntry_of_missing hf] at he
    by_cases full : ∀ m, s.entry m ≠ none
    · obtain ⟨m, hm⟩ := exists_unbound s.services
      obtain ⟨f, hf⟩ := Option.ne_none_iff_exists'.1 (full m)
      obtain ⟨v, hv, v0, -⟩ := placeFor_victim full hf (by rw [law.counted m f hf, hm]; rfl)
      rw [he] at hv
      cases hv
      exact h0 v0
    · push Not at full
      obtain ⟨m, hm⟩ := full
      rw [(placeFor_free hm).1] at he
      cases he

/-! ### The bind (R26, R134) -/

/-- An output that is bound to a slot is counted in the entry of that slot. -/
theorem Tallied.bound {s : State} (law : Tallied s.services s) {o : Output} {n : Fin 64}
    (h : (s.context o).service = some n) : ∃ e, s.entry n = some e ∧ e.bindCount ≠ 0 := by
  have binds : bindersOf s.services n ≠ [] := fun none_bound => bindersOf_eq_nil.1 none_bound o h
  obtain ⟨e, he⟩ := Option.ne_none_iff_exists'.1 fun free => binds (law.free n free)
  exact ⟨e, he, by rw [law.counted n e he]; exact fun h0 => binds (List.length_eq_zero_iff.1 h0)⟩

theorem boundKey_eq_some {s : State} {o : Output} {k : ServiceKey} :
    s.boundKey o = some k ↔ ∃ n e, (s.context o).service = some n ∧ s.entry n = some e ∧ e.key = k := by
  simp only [State.boundKey, State.boundEntry, Option.map_eq_some_iff, Option.bind_eq_some_iff]
  exact ⟨fun ⟨e, ⟨n, hn, he⟩, hk⟩ => ⟨n, e, hn, he, hk⟩, fun ⟨n, e, hn, he, hk⟩ => ⟨e, ⟨n, hn, he⟩, hk⟩⟩

/-- R26, R126, R134: an output has been bound to a key, whose entry `e` stands in slot `n`. -/
structure ServiceTaken (o : Output) (k : ServiceKey) (s t : State) (n : Fin 64) (e : Entry) : Prop where
  service : (t.context o).service = some n
  entry : t.entry n = some e
  key : e.key = k
  touched : e.lastTouch = s.time.run
  judged : UpToDate t o
  placed : PlacedAt s k n
  created : (∀ m f, s.entry m = some f → f.key ≠ k) →
    e.present = .none ∧ e.following = none ∧ e.version = none ∧ e.lastId = none ∧ e.bindCount = 1
  again : s.boundKey o = some k → (s.context o).service = some n
    ∧ (s.entry n).map (·.bindCount) = some e.bindCount
    ∧ (t.context o).pendingSince = (s.context o).pendingSince
    ∧ (t.context o).stack = (s.context o).stack ∧ (∀ m, m ≠ n → t.entry m = s.entry m)
    ∧ ∀ f, s.entry n = some f → e = { f with lastTouch := s.time.run }
  moved : s.boundKey o ≠ some k → (t.context o).pendingSince = s.time.run
    ∧ SpentIn endsWithBinding (s.context o).stack (t.context o).stack
    ∧ (∀ m, m ≠ n → t.entry m
        = if (s.context o).service = some m then
            (s.entry m).map (fun f => { f with bindCount := f.bindCount - 1 })
          else s.entry m)
    ∧ ∀ f, s.entry n = some f → f.key = k → e = { f with bindCount := f.bindCount + 1, lastTouch := s.time.run }

theorem bindService_same {s : State} {o : Output} {k : ServiceKey} {n : Fin 64}
    (hn : (s.context o).service = some n) (hk : s.boundKey o = some k) :
    bindService o k s = (n, evaluate o (touch n s)) := by
  simp [bindService, hn, hk]

theorem bindService_moved {s : State} {o : Output} {k : ServiceKey} (hk : s.boundKey o ≠ some k) :
    bindService o k s = ((ensureEntry k s).1,
      bindOutput o (ensureEntry k s).1 (lowerBind (s.context o).service (ensureEntry k s).2)) := by
  unfold bindService
  split
  · next h => exact absurd (of_decide_eq_true h) hk
  · rfl

theorem evaluate_entry (o : Output) (s : State) (m : Fin 64) : (evaluate o s).entry m = s.entry m :=
  (evaluate_within o s).frame (.entry m) (by simp)

theorem touch_entry (n m : Fin 64) (s : State) :
    (touch n s).entry m
      = if m = n then (s.entry n).map (fun e => { e with lastTouch := s.time.run }) else s.entry m :=
  entry_putEntry ..

/-- A rebind to the same key touches the entry. -/
theorem serviceTaken_same {s : State} (hr : Running s) (law : RatingLaw s) {o : Output} {k : ServiceKey}
    (hk : s.boundKey o = some k) : ∃ e, ServiceTaken o k s (bindService o k s).2 (bindService o k s).1 e := by
  obtain ⟨n, f, hn, hf, rfl⟩ := boundKey_eq_some.1 hk
  obtain ⟨distinct, -, -⟩ := law
  rw [bindService_same hn hk]
  obtain ⟨service, -, pending, stack⟩ := evaluate_context o (touch n s)
  have entry : ∀ m, (evaluate o (touch n s)).entry m = (touch n s).entry m := evaluate_entry o _
  refine ⟨{ f with lastTouch := s.time.run }, ⟨service.trans hn, ?_, rfl, rfl, evaluate_upToDate o _ hr,
    ⟨fun m g hg hgk => distinct n m f g hf hg hgk.symm, fun new => absurd rfl (new n f hf)⟩,
    fun new => absurd rfl (new n f hf), fun _ => ⟨hn, by rw [hf]; rfl, pending, stack, fun m hm => ?_,
      fun g hg => ?_⟩, fun h => absurd hk h⟩⟩
  · rw [entry, touch_entry, if_pos rfl, hf]
    rfl
  · rw [entry, touch_entry, if_neg hm]
  · rw [hf] at hg
    cases hg
    rfl

theorem lowerBind_entry (held : Option (Fin 64)) (s : State) (m : Fin 64) :
    (lowerBind held s).entry m
      = if held = some m then (s.entry m).map (fun f => { f with bindCount := f.bindCount - 1 }) else s.entry m := by
  cases held with
  | none => rfl
  | some n =>
    simp only [lowerBind, changeEntry, entry_putEntry, Option.some.injEq]
    by_cases h : m = n
    · rw [if_pos h, if_pos h.symm, h]
    · rw [if_neg h, if_neg (Ne.symm h)]

theorem bindOutput_entry (o : Output) (n m : Fin 64) (s : State) :
    (bindOutput o n s).entry m = if m = n then
      (s.entry n).map (fun e => { e with bindCount := e.bindCount + 1, lastTouch := s.time.run })
    else s.entry m := by
  have written : (bindOutput o n s).entry m = (touch n (raiseBind n s)).entry m := evaluate_entry o _ m
  rw [written, touch_entry]
  simp only [raiseBind, changeEntry, entry_putEntry_self]
  split
  · rw [Option.map_map]
    rfl
  · next h => exact entry_putEntry_ne s _ h

theorem bindOutput_context (o : Output) (n : Fin 64) (s : State) :
    ((bindOutput o n s).context o).service = some n
      ∧ ((bindOutput o n s).context o).pendingSince = s.time.run
      ∧ ((bindOutput o n s).context o).stack = spendStack endsWithBinding (s.context o).stack := by
  obtain ⟨service, -, pending, stack⟩ := evaluate_context o
    ((touch n (raiseBind n s)).putContext o { s.context o with
      service := some n, pendingSince := s.time.run, stack := spendStack endsWithBinding (s.context o).stack })
  refine ⟨service.trans ?_, pending.trans ?_, stack.trans ?_⟩ <;> rw [context_putContext_self]

/-- The state in which the output takes the entry of the key: made, with the count of the entry before it lowered. -/
def beforeBinding (o : Output) (k : ServiceKey) (s : State) : State :=
  lowerBind (s.context o).service (ensureEntry k s).2

theorem beforeBinding_frame (o : Output) (k : ServiceKey) (s : State) :
    Frame everyEntry s (beforeBinding o k s) :=
  ((ensureEntry_within k s).frame.mono (by simpa using entry_mem_everyEntry _)).trans (lowerBind_within ..).frame

theorem beforeBinding_context (o : Output) (k : ServiceKey) (s : State) :
    (beforeBinding o k s).context o = s.context o := by
  have f := beforeBinding_frame o k s
  exact f.context (by simp [everyEntry]) (by simp [everyEntry]) (by simp [everyEntry]) (by simp [everyEntry])
    (by simp [everyEntry])

theorem beforeBinding_run (o : Output) (k : ServiceKey) (s : State) :
    (beforeBinding o k s).time.run = s.time.run := beforeBinding_frame o k s .run (by simp [everyEntry])

theorem beforeBinding_running {s : State} (hr : Running s) (o : Output) (k : ServiceKey) :
    Running (beforeBinding o k s) := (beforeBinding_frame o k s .systemReset (by simp [everyEntry])).trans hr

/-- Any other bind counts the output in the entry of the key, and no longer in the one it had. -/
theorem serviceTaken_moved {s : State} (hr : Running s) (law : RatingLaw s) {o : Output} {k : ServiceKey}
    (hk : s.boundKey o ≠ some k) : ∃ e, ServiceTaken o k s (bindService o k s).2 (bindService o k s).1 e := by
  have tallied := (ratingLaw_iff s).1 law
  have row : bindService o k s = ((ensureEntry k s).1, bindOutput o (ensureEntry k s).1 (beforeBinding o k s)) :=
    bindService_moved hk
  have apart : (s.context o).service ≠ some (ensureEntry k s).1 := fun held => by
    obtain ⟨e, he, h0⟩ := tallied.bound held
    exact ensureEntry_ne_bound tallied he (fun key => hk (boundKey_eq_some.2 ⟨_, e, held, he, key⟩)) h0 rfl
  obtain ⟨f, hf, hfk⟩ := ensureEntry_entry k s
  have taken : (beforeBinding o k s).entry (ensureEntry k s).1 = some f := by
    rw [beforeBinding, lowerBind_entry, if_neg apart, hf]
  obtain ⟨service, pending, stack⟩ := bindOutput_context o (ensureEntry k s).1 (beforeBinding o k s)
  rw [beforeBinding_run] at pending
  rw [beforeBinding_context] at stack
  refine ⟨{ f with bindCount := f.bindCount + 1, lastTouch := s.time.run }, ?_⟩
  rw [row]
  refine ⟨service, ?_, hfk, rfl, evaluate_upToDate o _ (beforeBinding_running hr o k),
    ensureEntry_placedAt tallied.distinct k, fun new => ?_, fun h => absurd h hk,
    fun _ => ⟨pending, stack ▸ spentIn_spendStack .., fun m hm => ?_, fun g hg hgk => ?_⟩⟩
  · rw [bindOutput_entry, if_pos rfl, taken, beforeBinding_run]
    rfl
  · rw [ensureEntry_of_new new] at hf
    cases hf
    exact ⟨rfl, rfl, rfl, rfl, rfl⟩
  · rw [bindOutput_entry, if_neg hm, beforeBinding, lowerBind_entry, ensureEntry_entry_ne hm]
  · rw [ensureEntry_of_held hg hgk, hg] at hf
    cases hf
    rfl

theorem bindService_taken {s : State} (hr : Running s) (law : RatingLaw s) (o : Output) (k : ServiceKey) :
    ∃ e, ServiceTaken o k s (bindService o k s).2 (bindService o k s).1 e := by
  by_cases hk : s.boundKey o = some k
  exacts [serviceTaken_same hr law hk, serviceTaken_moved hr law hk]

/-! ### The row -/

theorem atOwner_boundKey (c : Command) (s : State) (o : Output) : (atOwner c s).boundKey o = s.boundKey o := by
  obtain ⟨unit, pin, h⟩ := atOwner_eq c s
  rw [h]
  rfl

theorem atOwner_ratingLaw {s : State} (h : RatingLaw s) (c : Command) : RatingLaw (atOwner c s) := by
  obtain ⟨unit, pin, e⟩ := atOwner_eq c s
  rw [e]
  exact h

theorem atOwner_placedAt {c : Command} {s : State} {k : ServiceKey} {n : Fin 64} (h : PlacedAt (atOwner c s) k n) :
    PlacedAt s k n := by
  simpa only [PlacedAt, atOwner_entry] using h

/-- What the owner does to the output and the table is what the row does. -/
theorem ServiceTaken.ofOwner {o : Output} {k : ServiceKey} {c : Command} {s u t : State} {n : Fin 64} {e : Entry}
    (h : ServiceTaken o k (atOwner c s) u n e) (f : Frame (ringParts s) u t) : ServiceTaken o k s t n e := by
  obtain ⟨service, entry, key, touched, judged, placed, created, again, moved⟩ := h
  simp only [atOwner_context, atOwner_entry, atOwner_boundKey, atOwner_time, ← ring_context f, ← ring_entry f]
    at service entry touched created again moved
  exact ⟨service, entry, key, touched, ring_upToDate f judged, atOwner_placedAt placed, created, again, moved⟩

/-- Settles O30: the owner's bind, put through its row. -/
theorem bindServiceBindsTheOutput : Obligations.BindServiceBindsTheOutput := by
  unfold Obligations.BindServiceBindsTheOutput
  rintro _ output network stream service s rfl hr law
  have ready : Ready (.bindService output network stream service) s := ready_of_public rfl rfl hr
  have lasting : Part.sessionRemaining ∉ commandParts (.bindService output false network stream service) :=
    remaining_notMem_commandParts _ (by simp) (by simp) (by simp) (by simp)
  refine ⟨fun h => refuses_of_obey rfl ready (by simp) lasting ?_, fun o k ho hk => ?_⟩
  · show obeyBindService output _ _ = _
    rw [obeyBindService, outputOf_none h]
  · subst hk
    obtain ⟨e, taken⟩ := bindService_taken
      (atOwner_running hr.1 (.bindService output false network stream service)) (atOwner_ratingLaw law _) o
      ⟨network, stream, service⟩
    have owner : obey s.command.pointer (.bindService output false network stream service)
        (atOwner (.bindService output false network stream service) s)
        = complete false
          (nat8 (bindService o ⟨network, stream, service⟩
            (atOwner (.bindService output false network stream service) s)).1.val)
          (bindService o ⟨network, stream, service⟩
            (atOwner (.bindService output false network stream service) s)).2 := by
      show obeyBindService output _ _ = _
      rw [obeyBindService, outputOf_code ho]
    obtain ⟨t, ends, f⟩ := ends_of_obey rfl ready (by simp) lasting owner (bindService_within o _ _).frame
    obtain ⟨bound, entry, key, touched, judged, placed, created, again, moved⟩ := taken.ofOwner f
    exact ⟨_, e, t, ends, bound, entry, key, touched, judged, placed, created, again, moved⟩

end Sys2Proof.Machine
end

section
/-! PROOF. The second event (R139, R141, R150, R173, R174): what each piece of its work does to the time base and to
the activity flags. -/

namespace Sys2Proof.Machine

open Sys2Proof

/-! ### The profile day (R150) -/

theorem advances_iff (t : TimeBase) :
    t.advances = true ↔ t.source ≠ .unset ∧ ∀ p, t.profileDay = some p → p < t.computedDay := by
  unfold TimeBase.advances
  cases t.profileDay <;> simp [TimeBase.isSet]

/-- R150: a comparison makes the profile day the greater of the two while time is set. -/
theorem compareDay_dayAfter (s : State) : (compareDay s).time.profileDay = dayAfter s.time := by
  rw [compareDay_profileDay]
  unfold dayAfter
  by_cases hs : s.time.source = .unset
  · rw [if_pos hs, if_neg fun h => ((advances_iff _).1 h).1 hs]
  · rw [if_neg hs]
    cases hd : s.time.profileDay with
    | none =>
      rw [if_pos ((advances_iff _).2 ⟨hs, by simp [hd]⟩)]
      simp
    | some p =>
      split
      · next h =>
        have lt := ((advances_iff _).1 h).2 p hd
        rw [Option.getD_some, max_eq_right lt.le]
      · next h =>
        have ge : s.time.computedDay ≤ p := Nat.le_of_not_lt fun lt => h ((advances_iff _).2 ⟨hs, fun q hq => by
          rw [hd] at hq; cases hq; exact lt⟩)
        rw [Option.getD_some, max_eq_left ge]

/-- R150: a comparison is about the profile day only. -/
theorem compareDay_time (s : State) : (compareDay s).time = { s.time with profileDay := dayAfter s.time } := by
  have f := (compareDay_within s).frame
  obtain ⟨source, day, second⟩ := f .wall (by simp [everyProfile])
  have run : (compareDay s).time.run = s.time.run := f .run (by simp [everyProfile])
  have offset : (compareDay s).time.offset = s.time.offset := f .offset (by simp [everyProfile])
  have dayStart : (compareDay s).time.dayStart = s.time.dayStart := f .dayStart (by simp [everyProfile])
  have profileDay := compareDay_dayAfter s
  cases ht : (compareDay s).time
  rw [ht] at source day second run offset dayStart profileDay
  simp only at source day second run offset dayStart profileDay
  subst source day second run offset dayStart profileDay
  rfl

theorem computedDay_withDay (t : TimeBase) (d : Option Nat) :
    ({ t with profileDay := d } : TimeBase).computedDay = t.computedDay := rfl

/-- R150: a second comparison changes nothing. -/
theorem dayAfter_dayAfter (t : TimeBase) : dayAfter { t with profileDay := dayAfter t } = dayAfter t := by
  unfold dayAfter
  by_cases hs : t.source = .unset
  · simp [hs]
  · simp [hs, computedDay_withDay]

theorem advanceDay_profile (day : Nat) (s : State) (n : Fin 8) :
    (advanceDay day s).profile n = settledAccount (s.profile n) day := by
  have cleared : ∀ t, (clearFailures t).profile n = t.profile n := fun _ => rfl
  rw [advanceDay, cleared, settleAll_profile]
  rfl

/-- R57: what a comparison does to a record. -/
theorem compareDay_profile (s : State) (n : Fin 8) :
    (compareDay s).profile n
      = if (compareDay s).time.profileDay = s.time.profileDay then s.profile n
        else settledAccount (s.profile n) ((compareDay s).time.profileDay.getD 0) := by
  rw [compareDay_profileDay]
  unfold compareDay
  split
  · next h =>
    have moved : some s.time.computedDay ≠ s.time.profileDay := fun e =>
      absurd (((advances_iff _).1 h).2 _ e.symm) (lt_irrefl _)
    rw [if_neg moved, advanceDay_profile, Option.getD_some]
  · rw [if_pos rfl]

/-! ### The pieces of work -/

theorem mem_secondParts (p : Part) :
    p ∈ secondParts ↔ p ∈ [Part.run, .wall, .promotions, .lockoutTimer] ∨ p ∈ dayParts ∨ p ∈ everyActivity
      ∨ p ∈ everyEntry ∨ p ∈ consequenceParts ∨ p ∈ sessionParts ∨ p ∈ endingParts := by
  simp only [List.mem_append, or_assoc]

theorem judged_in_all (o : Output) : ∀ p ∈ judgedParts o, p ∈ allJudged := by cases o <;> decide

/-- R139: whatever is done at a second event touches the parts of a second event. -/
theorem doWork_frame (w : SecondWork) (s : State) : Frame secondParts s (doWork w s) := by
  have day : ∀ p ∈ dayParts, p ∈ secondParts := fun p hp => (mem_secondParts p).2 (.inr (.inl hp))
  have all : ∀ p ∈ allJudged, p ∈ secondParts := fun p hp => day p (mem_dayParts_judged p hp)
  have judged : ∀ o, ∀ p ∈ judgedParts o, p ∈ secondParts := fun o p hp => all p (judged_in_all o p hp)
  have consequence : ∀ p ∈ consequenceParts, p ∈ secondParts := fun p hp =>
    (mem_secondParts p).2 (.inr (.inr (.inr (.inr (.inl hp)))))
  have ending : ∀ p ∈ endingParts, p ∈ secondParts := fun p hp =>
    (mem_secondParts p).2 (.inr (.inr (.inr (.inr (.inr (.inr hp))))))
  cases w with
  | dayComparison => exact (compareDay_within s).frame.mono day
  | sample =>
    refine (sample_within s).frame.mono fun p hp => ?_
    rcases List.mem_append.1 hp with hp | hp
    · rcases List.mem_append.1 hp with hp | hp
      · exact day p (List.mem_append_left _ (List.mem_append_right _ hp))
      · exact (mem_secondParts p).2 (.inr (.inr (.inl hp)))
    · exact all p hp
  | evaluation o => exact (evaluateIfSupervised_within o s).frame.mono (judged o)
  | promotion n =>
    refine (promoteOnce_within n s).frame.mono fun p hp => ?_
    rcases List.mem_cons.1 hp with rfl | hp
    · exact (mem_secondParts _).2 (.inl (by simp))
    · rcases List.mem_cons.1 hp with rfl | hp
      · exact (mem_secondParts _).2 (.inr (.inr (.inr (.inl (entry_mem_everyEntry n)))))
      · exact consequence p hp
  | untilTimeExpiry o =>
    refine (expireUntilTime_within o s).frame.mono fun p hp => ?_
    rcases List.mem_cons.1 hp with rfl | hp
    · exact consequence _ (List.mem_append_left _ (List.mem_append_left _ (by cases o <;> simp)))
    · exact judged o p hp
  | pendingLimitExpiry o => exact (expirePending_within o s).frame.mono (judged o)
  | sessionExpiry =>
    exact (expireSession_within s).frame.mono fun p hp =>
      (mem_secondParts p).2 (.inr (.inr (.inr (.inr (.inr (.inl hp))))))
  | lockoutExpiry => exact (expireLockout_within s).frame.mono fun p hp => ending p (by simp_all)
  | wholeEntryLimit => exact (wholeEntryLimit_within s).frame.mono ending
  | interKeyLimit => exact (interKeyLimit_within s).frame.mono ending

/-- No work but the comparison is about the time base. -/
theorem doWork_time {w : SecondWork} (h : w ≠ .dayComparison) (s : State) : (doWork w s).time = s.time := by
  cases w with
  | dayComparison => exact absurd rfl h
  | sample => exact (sample_within s).frame.time (by decide)
  | evaluation o => exact (evaluateIfSupervised_within o s).frame.time (by cases o <;> decide)
  | promotion n => exact (promoteOnce_within n s).frame.time (by simp)
  | untilTimeExpiry o => exact (expireUntilTime_within o s).frame.time (by cases o <;> decide)
  | pendingLimitExpiry o => exact (expirePending_within o s).frame.time (by cases o <;> decide)
  | sessionExpiry => exact (expireSession_within s).frame.time (by decide)
  | lockoutExpiry => exact (expireLockout_within s).frame.time (by decide)
  | wholeEntryLimit => exact (wholeEntryLimit_within s).frame.time (by decide)
  | interKeyLimit => exact (interKeyLimit_within s).frame.time (by decide)

/-- R150: after work that holds the comparison the profile day is compared. -/
theorem doAll_time (work : List SecondWork) (s : State) :
    (doAll work s).time
      = if .dayComparison ∈ work then { s.time with profileDay := dayAfter s.time } else s.time := by
  induction work generalizing s with
  | nil => rfl
  | cons w work ih =>
    rw [doAll, List.foldl_cons]
    refine (ih (doWork w s)).trans ?_
    by_cases hw : w = .dayComparison
    · subst hw
      have compared : (doWork .dayComparison s).time = _ := compareDay_time s
      simp [compared, dayAfter_dayAfter]
    · simp [doWork_time hw, Ne.symm hw]

/-- No work but the sample is about the activity flags. -/
theorem doWork_activity {w : SecondWork} (h : w ≠ .sample) (s : State) (o : Output) :
    (doWork w s).lanes.activity.get o = s.lanes.activity.get o := by
  have aside : ∀ {ps : List Part} {t : State}, Frame ps s t → Part.activity o ∉ ps →
      t.lanes.activity.get o = s.lanes.activity.get o := fun f hm => f (.activity o) hm
  cases w with
  | dayComparison => exact aside (compareDay_within s).frame (by simp [everyProfile])
  | sample => exact absurd rfl h
  | evaluation o => exact aside (evaluateIfSupervised_within o s).frame (by simp)
  | promotion n => exact aside (promoteOnce_within n s).frame (by simp)
  | untilTimeExpiry o => exact aside (expireUntilTime_within o s).frame (by simp)
  | pendingLimitExpiry o => exact aside (expirePending_within o s).frame (by simp)
  | sessionExpiry => exact aside (expireSession_within s).frame (by simp)
  | lockoutExpiry => exact aside (expireLockout_within s).frame (by simp)
  | wholeEntryLimit => exact aside (wholeEntryLimit_within s).frame (by simp)
  | interKeyLimit => exact aside (interKeyLimit_within s).frame (by simp)

theorem sample_activity (s : State) (o : Output) : (sample s).lanes.activity.get o = false := by
  cases o <;> rfl

/-- R53: after work that holds the sample no flag stands. -/
theorem doAll_activity (work : List SecondWork) (s : State) (o : Output)
    (h : .sample ∈ work ∨ s.lanes.activity.get o = false) : (doAll work s).lanes.activity.get o = false := by
  induction work generalizing s with
  | nil => exact h.resolve_left (by simp)
  | cons w work ih =>
    rw [doAll, List.foldl_cons]
    refine ih (doWork w s) ?_
    by_cases hw : w = .sample
    · subst hw
      exact .inr (sample_activity s o)
    · rw [doWork_activity hw]
      exact h.imp_left fun hm => (List.mem_cons.1 hm).resolve_left (Ne.symm hw)

theorem coreWork_in_order {w : SecondWork} (h : w ∈ coreWork) (order : List SecondWork) : w ∈ workOrder order := by
  by_cases ho : w ∈ order
  · exact List.mem_append_left _ (List.mem_dedup.2 ho)
  · exact List.mem_append_right _ (List.mem_filter.2 ⟨h, by simpa using ho⟩)

theorem doAll_frame (work : List SecondWork) (s : State) : Frame secondParts s (doAll work s) := by
  induction work generalizing s with
  | nil => exact .refl _ s
  | cons w work ih => exact (doWork_frame w s).trans (ih _)

theorem tick_frame (s : State) : Frame secondParts s (tick s) := by
  refine (tick_within s).frame.mono fun p hp => (mem_secondParts p).2 ?_
  simp only [List.mem_cons, List.not_mem_nil, or_false] at hp
  obtain rfl | rfl | rfl | rfl | rfl := hp
  iterate 3 · exact .inl (by simp)
  · exact .inr (.inr (.inr (.inr (.inr (.inl (by simp))))))
  · exact .inl (by simp)

/-! ### The second event in the plain order -/

theorem workOrder_nil : workOrder [] = coreWork := by decide

/-- R41, R53, R150: the comparison, the sample and the evaluations, one after another. -/
theorem doAll_coreWork (s : State) : doAll coreWork s = evaluateSupervised (sample (compareDay s)) := rfl

theorem evaluateSupervised_upToDate {s : State} (hr : Running s) : SupervisedUpToDate (evaluateSupervised s) :=
  fun o ho => by
    refine evaluateWhere_upToDate keptByEvaluation_supervised s hr o ?_
    rwa [show ((evaluateSupervised s).context o).profile = (s.context o).profile from
      (evaluateSupervised_within s).frame (.profileBinding o) (by simp)] at ho

/-- What the comparison, the sample and the evaluations leave alone. -/
theorem coreWork_frame (s : State) :
    Frame (dayParts ++ everyActivity) s (doAll coreWork s) := by
  have sampled : ∀ p ∈ everyProfile ++ everyActivity ++ allJudged, p ∈ dayParts ++ everyActivity := fun p hp => by
    rcases List.mem_append.1 hp with hp | hp
    · rcases List.mem_append.1 hp with hp | hp
      · exact List.mem_append_left _ (List.mem_append_left _ (List.mem_append_right _ hp))
      · exact List.mem_append_right _ hp
    · exact List.mem_append_left _ (mem_dayParts_judged p hp)
  rw [doAll_coreWork]
  exact (((compareDay_within s).frame.mono fun p hp => List.mem_append_left _ hp).trans
    ((sample_within _).frame.mono sampled)).trans
    ((evaluateSupervised_within _).frame.mono fun p hp => List.mem_append_left _ (mem_dayParts_judged p hp))

/-- Settles O48: the work of the event is done in any order on the advanced time base; what is asserted of the
plain order is read off its one chain of work. -/
theorem secondEventAdvancesTime : Obligations.SecondEventAdvancesTime := by
  unfold Obligations.SecondEventAdvancesTime
  intro order s finished
  have event : secondEvent order s = doAll (workOrder order) (tick s) := by rw [secondEvent, finished]
  have time : (secondEvent order s).time = { (tick s).time with profileDay := dayAfter (tick s).time } := by
    rw [event, doAll_time, if_pos (coreWork_in_order (by decide) order)]
  refine ⟨secondEvent order s, rfl, ?_, by rw [time]; rfl, ?_, by rw [time]; rfl, ?_, fun o => ?_, fun plain => ?_⟩
  · rw [event]
    exact (tick_frame s).trans (doAll_frame _ _)
  · rw [time]
    show ((if s.time.isSet then s.time.wallAfterSecond.1 else s.time.day),
      (if s.time.isSet then s.time.wallAfterSecond.2 else s.time.second)) = _
    by_cases hs : s.time.source = .unset
    · simp [TimeBase.isSet, hs]
    · simp [TimeBase.isSet, hs, TimeBase.wallAfterSecond]
  · rw [time]
    rfl
  · rw [event]
    exact doAll_activity _ _ o (.inl (coreWork_in_order (by decide) order))
  · subst plain
    rw [workOrder_nil] at event
    have f := coreWork_frame (tick s)
    rw [← event] at f
    have remaining : (secondEvent [] s).pin.sessionRemaining = (tick s).pin.sessionRemaining :=
      f .sessionRemaining (by simp [everyProfile])
    have timer : (secondEvent [] s).pin.timer = (tick s).pin.timer := f .lockoutTimer (by simp [everyProfile])
    obtain ⟨due, -⟩ := f .promotions (by simp [everyProfile])
    refine ⟨timer, remaining, due.trans ?_, fun n => ⟨?_, ?_⟩, fun hr => ?_⟩
    · by_cases hs : s.time.source = .unset <;> simp [tick, RatingTable.owing, TimeBase.isSet, TimeBase.ticked, hs]
      rfl
    · rw [compareDay_profile, compareDay_time, time]
      rfl
    · rw [event, doAll_coreWork]
      exact evaluateWhere_profile ..
    · rw [event, doAll_coreWork]
      refine evaluateSupervised_upToDate ?_
      have running : Running (tick s) := hr
      exact ((sample_within _).frame .systemReset (by simp [everyProfile])).trans
        (((compareDay_within _).frame .systemReset (by simp [everyProfile])).trans running)

end Sys2Proof.Machine
end

section
/-! PROOF. The completion of a parse (R116, R118, R119): the intake after it, and the record's effect for each kind
of record. -/

namespace Sys2Proof.Machine

open Sys2Proof

/-! ### The intake (R116, R118) -/

/-- What the completion of a parse changes in the intake itself. -/
abbrev dequeueParts : List Part := [.intakeQueue, .flow] ++ everySection

theorem sectionWindow_resumed (s : State) (w : Fin 4) :
    (resumeIntake s).sectionWindow w
      = { s.sectionWindow w with context := (s.sectionWindow w).context.resumed } := by
  simp only [resumeIntake, changeContexts, State.sectionWindow, mapped_section]

/-- The oldest record has left the queue, and the next parse begins. -/
def withoutOldest (s : State) : State :=
  { s with intake := { s.intake with
      queue := s.intake.queue.tail, parsing := !s.intake.queue.tail.isEmpty } }

theorem dequeue_of_low {s : State} (hf : s.intake.flow = .halted)
    (h : s.intake.queue.tail.length ≤ s.intake.resumeLevel) : dequeue s = resumeIntake (withoutOldest s) :=
  if_pos ⟨hf, h⟩

theorem dequeue_of_not_low {s : State}
    (h : ¬ (s.intake.flow = .halted ∧ s.intake.queue.tail.length ≤ s.intake.resumeLevel)) :
    dequeue s = withoutOldest s := if_neg h

theorem dequeue_eq (s : State) : ∃ i, dequeue s = { s with intake := i } := by
  by_cases h : s.intake.flow = .halted ∧ s.intake.queue.tail.length ≤ s.intake.resumeLevel
  · exact ⟨_, dequeue_of_low h.1 h.2⟩
  · exact ⟨_, dequeue_of_not_low h⟩

theorem dequeue_queue (s : State) :
    (dequeue s).intake.queue = s.intake.queue.tail
      ∧ (dequeue s).intake.parsing = !s.intake.queue.tail.isEmpty := by
  by_cases h : s.intake.flow = .halted ∧ s.intake.queue.tail.length ≤ s.intake.resumeLevel
  · rw [dequeue_of_low h.1 h.2]
    exact ⟨rfl, rfl⟩
  · rw [dequeue_of_not_low h]
    exact ⟨rfl, rfl⟩

theorem dequeue_levels (s : State) :
    (dequeue s).intake.haltLevel = s.intake.haltLevel ∧ (dequeue s).intake.resumeLevel = s.intake.resumeLevel := by
  by_cases h : s.intake.flow = .halted ∧ s.intake.queue.tail.length ≤ s.intake.resumeLevel
  · rw [dequeue_of_low h.1 h.2]
    exact ⟨rfl, rfl⟩
  · rw [dequeue_of_not_low h]
    exact ⟨rfl, rfl⟩

theorem dequeue_frame (s : State) : Frame dequeueParts s (dequeue s) := by
  obtain ⟨i, h⟩ := dequeue_eq s
  have levels := dequeue_levels s
  rw [h] at levels ⊢
  intro p hp
  have same := p.same_refl s
  cases p
  case intakeQueue | flow => simp at hp
  case sectionWindow w => exact absurd (List.mem_append_right _ (section_mem w)) hp
  case intakeLevels => exact levels
  all_goals exact same

/-! ### The effect of a record, by its code (R119) -/

section
variable {s : State} {r : QueuedRecord}

theorem applyRecord_other (h1 : r.code ≠ 0xC1) (h2 : r.code ≠ 0xC2) (h3 : r.code ≠ 0xC3) :
    applyRecord r s = s := by
  have not_code : ∀ {c : Byte}, r.code ≠ c → r.code.toNat ≠ c.toNat := fun ne e =>
    ne (BitVec.eq_of_toNat_eq e)
  unfold applyRecord
  split
  · next h => exact absurd h (not_code h1)
  · next h => exact absurd h (not_code h2)
  · next h => exact absurd h (not_code h3)
  · rfl

theorem applyRecord_malformed (h : (r.code = 0xC1 ∧ readService s.rating.schemes r.body = none)
    ∨ (r.code = 0xC2 ∧ readTime r.body = none) ∨ (r.code = 0xC3 ∧ readOffset r.body = none)) :
    applyRecord r s = badBody r s := by
  obtain ⟨hc, hb⟩ | ⟨hc, hb⟩ | ⟨hc, hb⟩ := h
  all_goals
    unfold applyRecord
    rw [hc]
    simp only [hb]
    rfl

theorem applyRecord_time (hc : r.code = 0xC2) {day second : Nat} (hb : readTime r.body = some (day, second)) :
    applyRecord r s = takeBroadcastTime day second s := by
  unfold applyRecord
  rw [hc]
  simp only [hb]
  rfl

theorem applyRecord_offset (hc : r.code = 0xC3) {offset : Int} (hb : readOffset r.body = some offset) :
    applyRecord r s = takeOffset offset s := by
  unfold applyRecord
  rw [hc]
  simp only [hb]
  rfl

theorem applyRecord_declared (hc : r.code = 0xC1) {d : ServiceSection}
    (hb : readService s.rating.schemes r.body = some d) (hd : d.key.network = 0xFFFF) : applyRecord r s = s := by
  unfold applyRecord
  rw [hc]
  simp only [hb, hd, if_true]
  rfl

theorem applyRecord_section (hc : r.code = 0xC1) {d : ServiceSection}
    (hb : readService s.rating.schemes r.body = some d) (hd : d.key.network ≠ 0xFFFF) :
    applyRecord r s = takeSection d s := by
  unfold applyRecord
  rw [hc]
  simp only [hb, hd, if_false]
  rfl

end

/-! ### Stacks spent twice, and output by output (R96, R99, R100) -/

theorem dropSpent_map_dropSpent {g : Override → Override} (hg : ∀ e : Override, e.tag = .spent → (g e).tag = .spent)
    (l : List Override) : dropSpent ((dropSpent l).map g) = dropSpent (l.map g) := by
  induction l with
  | nil => rfl
  | cons x l ih =>
    by_cases hx : x.tag = .spent
    · have dropped : ∀ (y : Override) (k : List Override), y.tag = .spent → dropSpent (y :: k) = dropSpent k :=
        fun y k hy => List.dropWhile_cons_of_pos (by simpa using hy)
      rw [dropped x l hx, ih, List.map_cons, dropped _ _ (hg x hx)]
    · rw [show dropSpent (x :: l) = x :: l from List.dropWhile_cons_of_neg (by simpa using hx)]

/-- Spending on a second condition what is left after a first is spending on either. -/
theorem spendStack_spendStack (c d : Override → Bool) (stack : List Override) :
    spendStack d (spendStack c stack) = spendStack (fun e => c e || d e) stack := by
  unfold spendStack
  rw [dropSpent_map_dropSpent, List.map_map]
  · refine congrArg (fun g => dropSpent (stack.map g)) (funext fun e => ?_)
    cases hc : c e <;> simp [hc]
  · intro e he
    split
    · rfl
    · exact he

theorem spendOn_context_ne {o o' : Output} (h : o' ≠ o) (cond : Override → Bool) (s : State) :
    (spendOn o cond s).context o' = s.context o' := context_putContext_ne _ _ h

theorem spendOn_stack (o : Output) (cond : Override → Bool) (s : State) :
    ((spendOn o cond s).context o).stack = spendStack cond (s.context o).stack := by
  rw [spendOn, context_putContext_self]

/-- R99: the reached entries of each stack are spent. -/
theorem spendReached_stack (s : State) (o : Output) :
    ((spendReached s).context o).stack
      = spendStack (fun e => e.reached s.time.localSeconds) (s.context o).stack := by
  refine inTurn (f := fun t o => spendReachedOn o t) (C := fun t => t.time = s.time)
    (P := fun t o => (t.context o).stack = spendStack (fun e => e.reached s.time.localSeconds) (s.context o).stack)
    rfl (fun _ _ h => h) (fun t o o' ne => spendOn_context_ne ne _ t) (fun t o ht hc => ?_)
    (fun t o o' ne _ hp => ?_) o
  · rw [spendReachedOn, spendOn_stack, ht, hc]
  · rw [spendReachedOn, spendOn_context_ne ne]
    exact hp

/-- R100: each stack is settled. -/
theorem settleStacks_stack (s : State) (o : Output) :
    ((settleStacks s).context o).stack = settleStack s.time.localSeconds (s.context o).stack := by
  refine inTurn
    (f := fun t o => t.putContext o { t.context o with
      stack := settleStack t.time.localSeconds (t.context o).stack })
    (C := fun t => t.time = s.time)
    (P := fun t o => (t.context o).stack = settleStack s.time.localSeconds (s.context o).stack)
    rfl (fun _ _ h => h) (fun t o o' ne => context_putContext_ne t _ ne) (fun t o ht hc => ?_)
    (fun t o o' ne _ hp => ?_) o
  · rw [context_putContext_self, ht, hc]
  · rw [context_putContext_ne t _ ne]
    exact hp

theorem expireUntilTime_context_ne {o o' : Output} (h : o' ≠ o) (s : State) :
    (expireUntilTime o s).context o' = s.context o' := by
  by_cases hr : EndReached s o
  · rw [expireUntilTime_of_reached hr, evaluate_context_ne h, spendReachedOn, spendOn_context_ne h]
  · rw [expireUntilTime_of_not hr]

theorem expireUntilTime_time (o : Output) (s : State) : (expireUntilTime o s).time = s.time :=
  (expireUntilTime_within o s).frame.time (by cases o <;> decide)

theorem endReached_congr {s t : State} {o : Output} (ht : t.time = s.time) (hc : t.context o = s.context o) :
    EndReached t o ↔ EndReached s o := by
  simp only [EndReached, ht, hc]

/-- R99: an output's reached ends have been met in the later state. -/
def EndsMetAt (s t : State) (o : Output) : Prop :=
  (EndReached s o →
    (t.context o).stack = spendStack (fun e => e.reached s.time.localSeconds) (s.context o).stack)
  ∧ (¬ EndReached s o → (t.context o).stack = (s.context o).stack)

theorem expireUntilTime_meets (s : State) (o : Output) : EndsMetAt s (expireUntilTime o s) o := by
  refine ⟨fun h => ?_, fun h => by rw [expireUntilTime_of_not h]⟩
  obtain ⟨-, -, -, stack⟩ := evaluate_context o (spendReachedOn o s)
  rw [expireUntilTime_of_reached h, stack, spendReachedOn, spendOn_stack]

theorem meetEnds_meets (s : State) (o : Output) : EndsMetAt s (meetEnds s) o := by
  refine inTurn (f := fun t o => expireUntilTime o t) (C := fun t => t.time = s.time) (P := fun t o => EndsMetAt s t o)
    rfl (fun t o h => (expireUntilTime_time o t).trans h) (fun t o o' ne => expireUntilTime_context_ne ne t)
    (fun t o ht hc => ?_) (fun t o o' ne _ hp => ?_) o
  · have met := expireUntilTime_meets t o
    rwa [EndsMetAt, endReached_congr ht hc, hc, ht] at met
  · rwa [EndsMetAt, expireUntilTime_context_ne ne]

/-- R99: ends met at one local time and spent at a later one are those reached at either. -/
theorem spendStack_meetEnds {s : State} (hs : s.time.source ≠ .unset) (o : Output) (later : Nat) :
    spendStack (fun e => e.reached later) ((meetEnds s).context o).stack
      = spendStack (fun e => e.reached s.time.localSeconds || e.reached later) (s.context o).stack := by
  obtain ⟨met, stands⟩ := meetEnds_meets s o
  by_cases h : EndReached s o
  · rw [met h, spendStack_spendStack]
  · rw [stands h]
    refine congrArg dropSpent (List.map_congr_left fun e he => ?_)
    have early : e.reached s.time.localSeconds = false :=
      Bool.eq_false_of_not_eq_true fun hr => h ⟨hs, e, he, hr⟩
    simp only [early, Bool.false_or]

/-- While time is UNSET there is no end to meet. -/
theorem meetEnds_unset {s : State} (hs : s.time.source = .unset) : meetEnds s = s := by
  have still : ∀ o, expireUntilTime o s = s := fun o => expireUntilTime_of_not fun h => h.1 hs
  simp only [meetEnds, allOutputs, List.foldl_cons, List.foldl_nil, still]

/-! ### Settings of time (R142, R143, R145) -/

theorem SupervisedUpToDate.congr {s t : State} (h : SupervisedUpToDate s)
    (hc : ∀ o, t.context o = s.context o) (ht : t.time = s.time) (hp : ∀ n, t.profile n = s.profile n)
    (he : ∀ n, t.entry n = s.entry n) : SupervisedUpToDate t := fun o ho =>
  (h o (by rwa [hc] at ho)).congr (hc o) ht hp he

/-- R42, R150: the comparison, and the evaluation of the supervised outputs that follows a setting. -/
theorem evaluatedAfterDay {s : State} (hr : Running s) :
    (evaluateSupervised (compareDay s)).time = { s.time with profileDay := dayAfter s.time }
      ∧ (∀ o, ((evaluateSupervised (compareDay s)).context o).stack = (s.context o).stack)
      ∧ SupervisedUpToDate (evaluateSupervised (compareDay s)) := by
  have compared := (compareDay_within s).frame
  have judged := (evaluateSupervised_within (compareDay s)).frame
  refine ⟨(judged.time (by simp)).trans (compareDay_time s), fun o => ?_,
    evaluateSupervised_upToDate ((compared .systemReset (by simp [everyProfile])).trans hr)⟩
  exact (judged (.stack o) (by simp)).trans (compared (.stack o) (by simp [everyProfile]))

/-- The stacks at a setting of wall time: met, or settled at the first setting (R99, R100). -/
def wallSpent (day second : Nat) (source : TimeSource) (offset : Int) (s : State) : State :=
  if s.time.isSet then spendReached { s with time := s.time.withWall day second source offset }
  else settleStacks { s with time := s.time.withWall day second source offset }

theorem replaceWall_eq (day second : Nat) (source : TimeSource) (offset : Int) (s : State) :
    replaceWall day second source offset s
      = noteTimeStep s.time (evaluateSupervised (compareDay (wallSpent day second source offset s))) := rfl

theorem wallSpent_time (day second : Nat) (source : TimeSource) (offset : Int) (s : State) :
    (wallSpent day second source offset s).time = s.time.withWall day second source offset := by
  unfold wallSpent
  split
  · exact (spendReached_within _).frame.time (by simp)
  · exact (settleStacks_within _).frame.time (by simp)

theorem wallSpent_running {s : State} (hr : Running s) (day second : Nat) (source : TimeSource) (offset : Int) :
    Running (wallSpent day second source offset s) := by
  unfold wallSpent
  split
  · exact ((spendReached_within _).frame .systemReset (by simp)).trans hr
  · exact ((settleStacks_within _).frame .systemReset (by simp)).trans hr

/-- R143: the time base, the stacks and the supervised outputs after a replacement of wall time. -/
theorem replaceWall_sets {s : State} (hr : Running s) (day second : Nat) (source : TimeSource) (offset : Int) :
    (replaceWall day second source offset s).time
        = { s.time.withWall day second source offset with
            profileDay := dayAfter (s.time.withWall day second source offset) }
      ∧ (∀ o, ((replaceWall day second source offset s).context o).stack
          = ((wallSpent day second source offset s).context o).stack)
      ∧ SupervisedUpToDate (replaceWall day second source offset s) := by
  obtain ⟨time, stood, judged⟩ := evaluatedAfterDay (wallSpent_running hr day second source offset)
  rw [wallSpent_time] at time
  rw [replaceWall_eq]
  generalize evaluateSupervised (compareDay (wallSpent day second source offset s)) = u at time stood judged
  have noted := (noteTimeStep_within s.time u).frame
  have context : ∀ o, (noteTimeStep s.time u).context o = u.context o := fun o =>
    noted.context (by simp) (by simp) (by simp) (by simp) (by simp)
  have same : (noteTimeStep s.time u).time = u.time := noted.time (by simp)
  exact ⟨same.trans time, fun o => by rw [context, stood], judged.congr context same
    (fun n => noted (.profile n) (by simp)) (fun n => noted (.entry n) (by simp))⟩

/-- R99, R100: the stacks after the ends met and a setting of wall time. -/
theorem setWall_stack (day second : Nat) (source : TimeSource) (offset : Int) {s : State} (hr : Running s)
    (o : Output) :
    (s.time.source ≠ .unset → ((setWall day second source offset s).context o).stack
        = spendStack (fun e => e.reached s.time.localSeconds
            || e.reached (s.time.withWall day second source offset).localSeconds) (s.context o).stack)
      ∧ (s.time.source = .unset → ((setWall day second source offset s).context o).stack
        = settleStack (s.time.withWall day second source offset).localSeconds (s.context o).stack) := by
  have running : Running (meetEnds s) := ((meetEnds_within s).frame .systemReset (by simp)).trans hr
  obtain ⟨-, stood, -⟩ := replaceWall_sets running day second source offset
  rw [setWall, stood, wallSpent, meetEnds_time]
  refine ⟨fun hs => ?_, fun hs => ?_⟩
  · rw [if_pos ((isSet_iff _).2 hs), spendReached_stack]
    exact spendStack_meetEnds hs o _
  · rw [if_neg (mt (isSet_iff _).1 (not_not.2 hs)), settleStacks_stack, meetEnds_unset hs]
    rfl

/-- R142: a broadcast time that differs sets wall time. -/
theorem takeBroadcastTime_sets {s : State} (hr : Running s) {day second : Nat}
    (h : s.time.source ≠ .broadcast ∨ 2 < apart s.time.wallCount (day * 86400 + second)) :
    (takeBroadcastTime day second s).time
        = { s.time.withWall day second .broadcast s.time.offset with
            profileDay := dayAfter (s.time.withWall day second .broadcast s.time.offset) }
      ∧ EndsMet s (takeBroadcastTime day second s) ∧ SupervisedUpToDate (takeBroadcastTime day second s) := by
  have apart : ¬ (s.time.source = .broadcast
      ∧ apart s.time.wallCount (day * Config.secondsPerDay + second) ≤ 2) := fun ⟨hs, hle⟩ =>
    h.elim (fun ne => ne hs) fun lt => absurd hle (Nat.not_le.2 lt)
  have running : Running (meetEnds s) := ((meetEnds_within s).frame .systemReset (by simp)).trans hr
  obtain ⟨time, -, judged⟩ := replaceWall_sets running day second .broadcast s.time.offset
  rw [meetEnds_time] at time
  rw [takeBroadcastTime, if_neg apart]
  have wall : (setWall day second .broadcast s.time.offset s).time = _ := time
  refine ⟨wall, fun o => ?_, judged⟩
  rw [wall]
  obtain ⟨set, unset⟩ := setWall_stack day second .broadcast s.time.offset hr o
  exact ⟨set, unset⟩

theorem takeBroadcastTime_near {s : State} {day second : Nat} (hs : s.time.source = .broadcast)
    (h : apart s.time.wallCount (day * 86400 + second) ≤ 2) : takeBroadcastTime day second s = s :=
  if_pos ⟨hs, h⟩

theorem takeOffset_same {s : State} {offset : Int} (h : s.time.offset = offset) : takeOffset offset s = s :=
  if_pos h

theorem takeOffset_of_set {s : State} {offset : Int} (h : s.time.offset ≠ offset) (hs : s.time.source ≠ .unset) :
    takeOffset offset s = evaluateSupervised (compareDay (spendReached
      { meetEnds s with time := { (meetEnds s).time with offset := offset } })) := by
  rw [takeOffset, if_neg h, replaceOffset, if_pos]
  rwa [meetEnds_time, isSet_iff]

theorem takeOffset_of_unset {s : State} {offset : Int} (h : s.time.offset ≠ offset) (hs : s.time.source = .unset) :
    takeOffset offset s = evaluateSupervised { s with time := { s.time with offset := offset } } := by
  rw [takeOffset, if_neg h, meetEnds_unset hs, replaceOffset, if_neg]
  rw [isSet_iff]
  exact not_not.2 hs

/-- R145: the profile day, the stacks and the supervised outputs after a differing offset. -/
theorem takeOffset_sets {s : State} (hr : Running s) {offset : Int} (h : s.time.offset ≠ offset) :
    (takeOffset offset s).time
        = { s.time with offset := offset, profileDay := dayAfter { s.time with offset := offset } }
      ∧ (s.time.source ≠ .unset → EndsMet s (takeOffset offset s))
      ∧ (s.time.source = .unset → ∀ o, ((takeOffset offset s).context o).stack = (s.context o).stack)
      ∧ SupervisedUpToDate (takeOffset offset s) := by
  by_cases hs : s.time.source = .unset
  · rw [takeOffset_of_unset h hs]
    have judged := (evaluateSupervised_within { s with time := { s.time with offset := offset } }).frame
    refine ⟨(judged.time (by simp)).trans ?_, fun hu => absurd hs hu, fun _ o => judged (.stack o) (by simp),
      evaluateSupervised_upToDate hr⟩
    simp [dayAfter, hs]
  · rw [takeOffset_of_set h hs]
    have spent := (spendReached_within
      { meetEnds s with time := { (meetEnds s).time with offset := offset } }).frame
    have running : Running (spendReached { meetEnds s with time := { (meetEnds s).time with offset := offset } }) :=
      (spent .systemReset (by simp)).trans (((meetEnds_within s).frame .systemReset (by simp)).trans hr)
    obtain ⟨time, stood, judged⟩ := evaluatedAfterDay running
    have written : (spendReached { meetEnds s with time := { (meetEnds s).time with offset := offset } }).time
        = { s.time with offset := offset } := (spent.time (by simp)).trans (by rw [meetEnds_time])
    rw [written] at time
    refine ⟨time, fun _ o => ⟨fun _ => ?_, fun hu => absurd hu hs⟩, fun hu => absurd hu hs, judged⟩
    rw [time, stood, spendReached_stack, meetEnds_time]
    exact spendStack_meetEnds hs o _

/-! ### The consequences of a new version (R37, R128 to R130) -/

section
variable {e : Entry} {d : ServiceSection}

theorem installed_present_some {p : Event} (h : d.present = some p) :
    (e.installed d).present = .current p ∧ (e.installed d).lastId = some p.id := by
  simp [Entry.installed, h]

theorem installed_present_none (h : d.present = none) :
    (e.installed d).present = .none ∧ (e.installed d).lastId = e.lastId := by
  simp [Entry.installed, h]

/-- R129: another event id than the last is an event change. -/
theorem consequence_event {p : Event} {old : Half} (hp : d.present = some p) (ho : e.lastId = some old)
    (ne : old ≠ p.id) : consequence e (e.installed d) = .event old p.id := by
  simp [consequence, (installed_present_some hp).1, ho, ne]

theorem consequence_ne_event (h : ∀ p old, d.present = some p → e.lastId = some old → old = p.id) (a b : Half) :
    consequence e (e.installed d) ≠ .event a b := by
  cases hp : d.present with
  | none =>
    simp only [consequence, (installed_present_none hp).1]
    cases e.present <;> simp
  | some p =>
    simp only [consequence, (installed_present_some hp).1]
    cases ho : e.lastId with
    | none => simp
    | some old =>
      have same := h p old hp ho
      cases e.present with
      | current x =>
        simp only [same, ne_eq, not_true, if_false]
        split <;> simp
      | ended x => simp [same]
      | none => simp [same]

/-- R37: the current event is lost where the new version has no present event. -/
theorem consequence_lost_iff :
    consequence e (e.installed d) = .lost ↔ d.present = none ∧ e.present.currentEvent.isSome = true := by
  cases hp : d.present with
  | none =>
    simp only [consequence, (installed_present_none hp).1]
    cases e.present <;> simp [Present.currentEvent]
  | some p =>
    simp only [consequence, (installed_present_some hp).1]
    cases e.lastId with
    | none => simp
    | some old =>
      simp only [reduceCtorEq, false_and, iff_false]
      split
      · simp
      · split
        · split <;> simp
        · simp

/-- R129: where nothing follows the rating stands. -/
theorem consequence_nothing (h : consequence e (e.installed d) = .nothing) :
    e.present.currentEvent.map (·.rating) = (e.installed d).present.currentEvent.map (·.rating) := by
  cases hp : d.present with
  | none =>
    rw [(installed_present_none hp).1]
    simp only [consequence, (installed_present_none hp).1] at h
    cases he : e.present with
    | current x => simp [he] at h
    | ended x => simp [he] at h
    | none => rfl
  | some p =>
    rw [(installed_present_some hp).1]
    simp only [consequence, (installed_present_some hp).1] at h
    cases ho : e.lastId with
    | none => simp [ho] at h
    | some old =>
      simp only [ho] at h
      split_ifs at h
      split at h
      · next x hx =>
        split_ifs at h with rating
        rw [hx]
        exact congrArg some rating
      · cases h

end

/-! ### Consequences carried out (R37, R97, R129, R130) -/

/-- R97: the EVENT_END entries of the outputs bound to the entry are spent. -/
theorem spendEventEnd_stack (n : Fin 64) (s : State) (o : Output) :
    ((spendEventEnd n s).context o).stack
      = if (s.context o).service = some n then spendStack endsWithEvent (s.context o).stack
        else (s.context o).stack := by
  refine inTurn
    (f := fun t o => if (t.context o).service = some n then spendOn o endsWithEvent t else t) (C := fun _ => True)
    (P := fun t o => (t.context o).stack
      = if (s.context o).service = some n then spendStack endsWithEvent (s.context o).stack
        else (s.context o).stack)
    trivial (fun _ _ h => h) (fun t o o' ne => ?_) (fun t o _ hc => ?_) (fun t o o' ne _ hp => ?_) o
  · split
    · exact spendOn_context_ne ne _ t
    · rfl
  · simp only [hc]
    split
    · rw [spendOn_stack, hc]
    · rw [hc]
  · split
    · rw [spendOn_context_ne ne]
      exact hp
    · exact hp

/-- R37: the outputs bound to the entry wait from now. -/
theorem markPending_since (n : Fin 64) (s : State) (o : Output) :
    ((markPending n s).context o).pendingSince
      = if (s.context o).service = some n then s.time.run else (s.context o).pendingSince := by
  refine inTurn
    (f := fun t o => if (t.context o).service = some n then
      t.putContext o { t.context o with pendingSince := t.time.run } else t)
    (C := fun t => t.time = s.time)
    (P := fun t o => (t.context o).pendingSince
      = if (s.context o).service = some n then s.time.run else (s.context o).pendingSince)
    rfl (fun t o h => ?_) (fun t o o' ne => ?_) (fun t o ht hc => ?_) (fun t o o' ne _ hp => ?_) o
  · split
    · exact h
    · exact h
  · split
    · exact context_putContext_ne t _ ne
    · rfl
  · simp only [hc]
    split
    · rw [context_putContext_self, ht]
    · rw [hc]
  · split
    · rw [context_putContext_ne t _ ne]
      exact hp
    · exact hp

theorem carryOut_service (n : Fin 64) (cause : ChangeCause) (c : Consequence) (s : State) (o : Output) :
    ((carryOut n cause c s).context o).service = (s.context o).service :=
  (carryOut_within n cause c s).frame (.serviceBinding o) (by simp)

theorem evaluateEntry_upToDate {s : State} (hr : Running s) {n : Fin 64} {o : Output}
    (h : (s.context o).service = some n) : UpToDate (evaluateEntry n s) o :=
  evaluateWhere_upToDate (keptByEvaluation_entry n) s hr o (by simpa using h)

/-- R43: any consequence evaluates the outputs bound to the entry. -/
theorem carryOut_upToDate {s : State} (hr : Running s) {n : Fin 64} {cause : ChangeCause} {c : Consequence}
    (hc : c ≠ .nothing) {o : Output} (h : (s.context o).service = some n) : UpToDate (carryOut n cause c s) o := by
  cases c with
  | event a b =>
    have f := (((spendEventEnd_within n s).mono (qs := consequenceParts) (by simp)).trans
      ((noteEventChange_within n a b cause _).mono (by simp))).frame
    exact evaluateEntry_upToDate ((f .systemReset (by simp)).trans hr)
      ((f (.serviceBinding o) (by simp)).trans h)
  | lost =>
    have f := (markPending_within n s).frame
    exact evaluateEntry_upToDate ((f .systemReset (by simp)).trans hr)
      ((f (.serviceBinding o) (by simp)).trans h)
  | evaluated => exact evaluateEntry_upToDate hr h
  | nothing => exact absurd rfl hc

theorem carryOut_stack_event (n : Fin 64) (cause : ChangeCause) (a b : Half) (s : State) (o : Output) :
    ((carryOut n cause (.event a b) s).context o).stack
      = if (s.context o).service = some n then spendStack endsWithEvent (s.context o).stack
        else (s.context o).stack := by
  have noted := (noteEventChange_within n a b cause (spendEventEnd n s)).frame (.stack o) (by simp)
  have judged := (evaluateEntry_within n (noteEventChange n a b cause (spendEventEnd n s))).frame (.stack o) (by simp)
  exact judged.trans (noted.trans (spendEventEnd_stack n s o))

theorem carryOut_stack {n : Fin 64} {cause : ChangeCause} {c : Consequence} (h : ∀ a b, c ≠ .event a b) (s : State)
    (o : Output) : ((carryOut n cause c s).context o).stack = (s.context o).stack := by
  cases c with
  | event a b => exact absurd rfl (h a b)
  | lost =>
    exact ((evaluateEntry_within n _).frame (.stack o) (by simp)).trans
      ((markPending_within n s).frame (.stack o) (by simp))
  | evaluated => exact (evaluateEntry_within n s).frame (.stack o) (by simp)
  | nothing => rfl

theorem carryOut_since (n : Fin 64) (cause : ChangeCause) (c : Consequence) (s : State) (o : Output) :
    ((carryOut n cause c s).context o).pendingSince
      = if (s.context o).service = some n ∧ c = .lost then s.time.run else (s.context o).pendingSince := by
  cases c with
  | event a b =>
    have f := (((spendEventEnd_within n s).mono (qs := everyStack ++ allJudged) (by simp)).trans
      ((noteEventChange_within n a b cause _).mono (by simp))).trans ((evaluateEntry_within n _).mono (by simp))
    rw [if_neg (by simp)]
    exact f.frame (.pendingSince o) (by simp)
  | lost =>
    have judged := (evaluateEntry_within n (markPending n s)).frame (.pendingSince o) (by simp)
    exact (judged.trans (markPending_since n s o)).trans (by simp)
  | evaluated =>
    rw [if_neg (by simp)]
    exact (evaluateEntry_within n s).frame (.pendingSince o) (by simp)
  | nothing => rw [if_neg (by simp)]; rfl

/-- R129: an event change of a bound entry is noted. -/
theorem carryOut_noted {s : State} (hr : Running s) {n : Fin 64} {e : Entry} (he : s.entry n = some e)
    (h0 : 0 < e.bindCount) (cause : ChangeCause) (a b : Half) :
    Noted .eventChange n.val (carryOut n cause (.event a b) s) := by
  have spent := (spendEventEnd_within n s).frame
  have entry : (spendEventEnd n s).entry n = some e := (spent (.entry n) (by simp)).trans he
  refine Noted.evaluateWhere ?_ _
  rw [noteEventChange, entry]
  simp only [h0, if_true]
  exact noted_raise ((spent .systemReset (by simp)).trans hr) ..

theorem replaceEntry_entry (n : Fin 64) (e f : Entry) (cause : ChangeCause) (s : State) :
    (replaceEntry n e f cause s).entry n = some f :=
  ((carryOut_within n cause _ _).frame (.entry n) (by simp)).trans (entry_putEntry_self ..)

/-! ### A section taken (R126 to R130) -/

/-- The table with the entry of the section's key made and touched. -/
def sectionTouched (d : ServiceSection) (s : State) : State :=
  touch (ensureEntry d.key s).1 (ensureEntry d.key s).2

theorem sectionTouched_frame (d : ServiceSection) (s : State) :
    Frame [.entry (ensureEntry d.key s).1] s (sectionTouched d s) :=
  (ensureEntry_within d.key s).frame.trans (touch_within _ _).frame

theorem sectionTouched_context (d : ServiceSection) (s : State) (o : Output) :
    (sectionTouched d s).context o = s.context o :=
  (sectionTouched_frame d s).context (by simp) (by simp) (by simp) (by simp) (by simp)

theorem ensureEntry_run (k : ServiceKey) (s : State) : (ensureEntry k s).2.time.run = s.time.run :=
  (ensureEntry_within k s).frame .run (by simp)

theorem sectionTouched_entry {d : ServiceSection} {s : State} {e : Entry}
    (h : (ensureEntry d.key s).2.entry (ensureEntry d.key s).1 = some e) :
    (sectionTouched d s).entry (ensureEntry d.key s).1 = some { e with lastTouch := s.time.run } := by
  rw [sectionTouched, touch_entry, if_pos rfl, h, ensureEntry_run]
  rfl

theorem takeSection_of_same {d : ServiceSection} {s : State} {e : Entry}
    (h : (sectionTouched d s).entry (ensureEntry d.key s).1 = some e) (hv : e.version = some d.version) :
    takeSection d s = sectionTouched d s := by
  unfold sectionTouched at h
  simp only [takeSection, h, hv, if_true]
  rfl

theorem takeSection_of_new {d : ServiceSection} {s : State} {e : Entry}
    (h : (sectionTouched d s).entry (ensureEntry d.key s).1 = some e) (hv : e.version ≠ some d.version) :
    takeSection d s
      = replaceEntry (ensureEntry d.key s).1 e (e.installed d) .bySection (sectionTouched d s) := by
  unfold sectionTouched at h
  simp only [takeSection, h, hv, if_false]
  rfl

/-- What a new version makes of an entry `f` that was held, and of the outputs bound to it (R37, R128, R129). -/
structure SectionInstalled (d : ServiceSection) (s t : State) (n : Fin 64) (f e : Entry) : Prop where
  count : e.bindCount = f.bindCount
  keptId : d.present = none → e.lastId = f.lastId
  newId : ∀ p, d.present = some p → e.lastId = some p.id
  noted : ∀ p, d.present = some p → ∀ old, f.lastId = some old → old ≠ p.id → 0 < f.bindCount →
    Noted .eventChange n.val t
  spent : ∀ p, d.present = some p → ∀ old, f.lastId = some old → old ≠ p.id →
    ∀ o, (s.context o).service = some n →
      SpentIn endsWithEvent (s.context o).stack (t.context o).stack ∧ UpToDate t o
  stands : (∀ p old, d.present = some p → f.lastId = some old → old = p.id) →
    ∀ o, (t.context o).stack = (s.context o).stack
  since : ∀ o, (t.context o).pendingSince
    = if (s.context o).service = some n ∧ d.present = none ∧ f.present.currentEvent.isSome = true then s.time.run
      else (s.context o).pendingSince

/-- R126 to R130: a section has been taken into the entry `e` of its key in slot `n`. -/
structure SectionTaken (d : ServiceSection) (s t : State) (n : Fin 64) (e : Entry) : Prop where
  entry : t.entry n = some e
  key : e.key = d.key
  touched : e.lastTouch = s.time.run
  version : e.version = some d.version
  created : (∀ m f, s.entry m = some f → f.key ≠ d.key) → e.bindCount = 0 ∧ e.lastId = d.present.map (·.id)
  installed : (∀ f, s.entry n = some f → f.key = d.key → f.version ≠ some d.version) →
    e.following = d.following ∧ e.present = (e.installed d).present
  same : ∀ f, s.entry n = some f → f.key = d.key → f.version = some d.version →
    e = { f with lastTouch := s.time.run } ∧ Frame [.entry n] s t
  rated : ∀ f, s.entry n = some f → f.key = d.key →
    f.present.currentEvent.map (·.rating) ≠ e.present.currentEvent.map (·.rating) →
      ∀ o, (t.context o).service = some n → UpToDate t o
  renewed : ∀ f, s.entry n = some f → f.key = d.key → f.version ≠ some d.version → SectionInstalled d s t n f e

/-- The new version installed in an entry that was held. -/
theorem replaceEntry_installs {d : ServiceSection} {s m : State} {n : Fin 64} {f : Entry} (hr : Running m)
    (hc : ∀ o, m.context o = s.context o) (ht : m.time.run = s.time.run) :
    SectionInstalled d s (replaceEntry n f (f.installed d) .bySection m) n f (f.installed d) := by
  have context : ∀ e o, (m.putEntry n e).context o = s.context o := fun _ o => hc o
  have running : Running (m.putEntry n (some (f.installed d))) := hr
  refine ⟨rfl, fun hp => (installed_present_none hp).2, fun p hp => (installed_present_some hp).2,
    fun p hp old ho ne h0 => ?_, fun p hp old ho ne o hb => ?_, fun same o => ?_, fun o => ?_⟩
  · rw [replaceEntry, consequence_event hp ho ne]
    exact carryOut_noted running (entry_putEntry_self ..) h0 ..
  · rw [replaceEntry, consequence_event hp ho ne]
    refine ⟨?_, carryOut_upToDate running (by simp) (by rw [context]; exact hb)⟩
    rw [carryOut_stack_event, context, if_pos hb]
    exact spentIn_spendStack ..
  · rw [replaceEntry, carryOut_stack (fun a b => consequence_ne_event same a b), context]
  · rw [replaceEntry, carryOut_since, context]
    exact if_congr (and_congr_right fun _ => consequence_lost_iff) ht rfl

/-- A touch is not about what a new version changes. -/
theorem SectionInstalled.ofTouched {d : ServiceSection} {s t : State} {n : Fin 64} {f e : Entry} {stamp : Nat}
    (h : SectionInstalled d s t n { f with lastTouch := stamp } e) : SectionInstalled d s t n f e := by
  obtain ⟨count, keptId, newId, noted, spent, stands, since⟩ := h
  exact ⟨count, keptId, newId, noted, spent, stands, since⟩

theorem takeSection_taken {s : State} (hr : Running s) (d : ServiceSection) :
    ∃ e, SectionTaken d s (takeSection d s) (ensureEntry d.key s).1 e := by
  obtain ⟨f, hf, hk⟩ := ensureEntry_entry d.key s
  have entry := sectionTouched_entry hf
  have running : Running (sectionTouched d s) := (sectionTouched_frame d s .systemReset (by simp)).trans hr
  have held : ∀ g, s.entry (ensureEntry d.key s).1 = some g → g.key = d.key → f = g := fun g hg hgk => by
    rw [ensureEntry_of_held hg hgk, hg] at hf
    exact (Option.some.inj hf).symm
  have created : (∀ m g, s.entry m = some g → g.key ≠ d.key) → f = newEntry d.key s.time.run := fun new =>
    Option.some.inj (hf.symm.trans (ensureEntry_of_new new))
  by_cases hv : f.version = some d.version
  · have old : ∃ m g, s.entry m = some g ∧ g.key = d.key := by
      by_contra none_held
      push Not at none_held
      rw [created none_held] at hv
      cases hv
    have slot : s.entry (ensureEntry d.key s).1 = some f := by
      obtain ⟨m, g, hg, hgk⟩ := old
      rwa [ensureEntry_of_held hg hgk] at hf
    rw [takeSection_of_same entry hv]
    refine ⟨{ f with lastTouch := s.time.run }, entry, hk, rfl, hv, fun new => absurd hk (new _ f slot),
      fun differs => absurd hv (differs f slot hk), fun g hg hgk _ => ?_, fun g hg hgk rating => ?_,
      fun g hg hgk differs => ?_⟩
    · rw [← held g hg hgk]
      exact ⟨rfl, sectionTouched_frame d s⟩
    · rw [← held g hg hgk] at rating
      exact absurd rfl rating
    · rw [← held g hg hgk] at differs
      exact absurd hv differs
  · rw [takeSection_of_new entry hv]
    refine ⟨Entry.installed { f with lastTouch := s.time.run } d, replaceEntry_entry .., hk, rfl, rfl,
      fun new => ?_, fun _ => ⟨rfl, rfl⟩, fun g hg hgk same => ?_, fun g hg hgk rating o ho => ?_,
      fun g hg hgk _ => ?_⟩
    · rw [created new]
      refine ⟨rfl, ?_⟩
      cases hp : d.present with
      | none => exact (installed_present_none hp).2
      | some p => exact (installed_present_some hp).2
    · rw [← held g hg hgk] at same
      exact absurd same hv
    · rw [← held g hg hgk] at rating
      rw [replaceEntry] at ho ⊢
      rw [carryOut_service] at ho
      exact carryOut_upToDate (s := (sectionTouched d s).putEntry _ _) running
        (fun nothing => rating (consequence_nothing nothing)) ho
    · rw [← held g hg hgk]
      exact (replaceEntry_installs running (sectionTouched_context d s)
        (sectionTouched_frame d s .run (by simp))).ofTouched

/-! ### What the end of a parse leaves -/

theorem dequeue_context (s : State) (o : Output) : (dequeue s).context o = s.context o := by
  obtain ⟨i, h⟩ := dequeue_eq s
  rw [h]
  rfl

theorem dequeue_time (s : State) : (dequeue s).time = s.time := by
  obtain ⟨i, h⟩ := dequeue_eq s
  rw [h]

theorem dequeue_entry (s : State) (n : Fin 64) : (dequeue s).entry n = s.entry n := by
  obtain ⟨i, h⟩ := dequeue_eq s
  rw [h]
  rfl

theorem dequeue_profile (s : State) (n : Fin 8) : (dequeue s).profile n = s.profile n := by
  obtain ⟨i, h⟩ := dequeue_eq s
  rw [h]
  rfl

theorem dequeue_upToDate {s : State} {o : Output} (h : UpToDate s o) : UpToDate (dequeue s) o :=
  h.congr (dequeue_context s o) (dequeue_time s) (dequeue_profile s) (dequeue_entry s)

theorem dequeue_supervised {s : State} (h : SupervisedUpToDate s) : SupervisedUpToDate (dequeue s) :=
  h.congr (dequeue_context s) (dequeue_time s) (dequeue_profile s) (dequeue_entry s)

theorem dequeue_noted {s : State} {k : NoticeKind} {subj : Nat} (h : Noted k subj s) :
    Noted k subj (dequeue s) := by
  obtain ⟨i, e⟩ := dequeue_eq s
  rw [e]
  exact h

theorem dequeue_endsMet {s u : State} (h : EndsMet s u) : EndsMet s (dequeue u) := by
  simpa only [EndsMet, dequeue_context, dequeue_time] using h

/-- The parts of the effect and those of the intake. -/
theorem dequeue_after {ps : List Part} {s u : State} (f : Frame ps s u) :
    Frame (dequeueParts ++ ps) s (dequeue u) :=
  (f.mono fun _ hp => List.mem_append_right _ hp).trans
    ((dequeue_frame u).mono fun _ hp => List.mem_append_left _ hp)

theorem SectionInstalled.dequeue {d : ServiceSection} {s u : State} {n : Fin 64} {f e : Entry}
    (h : SectionInstalled d s u n f e) : SectionInstalled d s (Machine.dequeue u) n f e := by
  obtain ⟨count, keptId, newId, noted, spent, stands, since⟩ := h
  refine ⟨count, keptId, newId, fun p hp old ho ne h0 => dequeue_noted (noted p hp old ho ne h0),
    fun p hp old ho ne o hb => ?_, fun same o => ?_, fun o => ?_⟩
  · obtain ⟨spentStack, judged⟩ := spent p hp old ho ne o hb
    exact ⟨by rwa [dequeue_context], dequeue_upToDate judged⟩
  · rw [dequeue_context, stands same]
  · rw [dequeue_context, since]

/-! ### The row -/

theorem completeParse_of_record {s : State} (hp : s.intake.parsing = true) {r : QueuedRecord}
    {rest : List QueuedRecord} (hq : s.intake.queue = r :: rest) : completeParse s = dequeue (applyRecord r s) := by
  simp only [completeParse, hp, hq]

theorem completeParse_idle {s : State} (h : s.intake.parsing = false ∨ s.intake.queue = []) :
    completeParse s = s := by
  unfold completeParse
  split
  · next hp hq =>
    obtain h | h := h
    · rw [h] at hp; cases hp
    · rw [h] at hq; cases hq
  · rfl

/-- A record's effect is not about the intake. -/
theorem applyRecord_intake (r : QueuedRecord) (s : State) :
    (applyRecord r s).intake.queue = s.intake.queue ∧ (applyRecord r s).intake.flow = s.intake.flow
      ∧ (applyRecord r s).intake.resumeLevel = s.intake.resumeLevel
      ∧ ∀ w, (applyRecord r s).sectionWindow w = s.sectionWindow w := by
  have f := (applyRecord_within r s).frame
  obtain ⟨queue, -⟩ := f .intakeQueue (by simp [everyProfile, everyEntry])
  obtain ⟨-, resume⟩ := f .intakeLevels (by simp [everyProfile, everyEntry])
  exact ⟨queue, f .flow (by simp [everyProfile, everyEntry]), resume,
    fun w => f (.sectionWindow w) (by simp [everyProfile, everyEntry])⟩

/-- R116: the resume test after the record has left. -/
theorem completeParse_resumes {s : State} {r : QueuedRecord} {rest : List QueuedRecord}
    (hq : s.intake.queue = r :: rest) :
    (s.intake.flow = .halted → rest.length ≤ s.intake.resumeLevel →
        (dequeue (applyRecord r s)).intake.flow = .flowing
        ∧ ∀ w, (dequeue (applyRecord r s)).sectionWindow w
            = { s.sectionWindow w with context := (s.sectionWindow w).context.resumed })
      ∧ (s.intake.flow = .flowing ∨ s.intake.resumeLevel < rest.length →
        (dequeue (applyRecord r s)).intake.flow = s.intake.flow
        ∧ ∀ w, (dequeue (applyRecord r s)).sectionWindow w = s.sectionWindow w) := by
  obtain ⟨queue, flow, resume, sections⟩ := applyRecord_intake r s
  have tail : (applyRecord r s).intake.queue.tail = rest := by rw [queue, hq]; rfl
  refine ⟨fun hf hle => ?_, fun h => ?_⟩
  · rw [dequeue_of_low (flow.trans hf) (by rw [tail, resume]; exact hle)]
    refine ⟨rfl, fun w => ?_⟩
    rw [sectionWindow_resumed, ← sections w]
    rfl
  · rw [dequeue_of_not_low]
    · exact ⟨flow, sections⟩
    · rw [flow, tail, resume]
      rintro ⟨hf, hle⟩
      obtain h | h := h
      · rw [h] at hf; cases hf
      · omega

theorem resumed_eq (c : IntakeContext) : c.resumed = if c = .shed then .seeking none else c := by
  cases c <;> rfl

theorem badBody_noted {s : State} (hr : Running s) (r : QueuedRecord) :
    Noted .intakeFormat r.window.val (badBody r s) := noted_raise hr ..

/-- Settles O47: the record's effect by its kind, then what its leaving does to the intake. -/
theorem parseAppliesTheOldestRecord : Obligations.ParseAppliesTheOldestRecord := by
  unfold Obligations.ParseAppliesTheOldestRecord
  intro s hr
  have row : exec .parseCompletion s = .next (completeParse s) := carried_running hr
  refine ⟨fun h => by rw [row, completeParse_idle h], fun r rest base hp hq hbase => ?_⟩
  subst hbase
  rw [row, completeParse_of_record hp hq]
  obtain ⟨queue, parsing⟩ := dequeue_queue (applyRecord r s)
  rw [(applyRecord_intake r s).1, hq] at queue parsing
  obtain ⟨resumes, stays⟩ := completeParse_resumes hq
  have untouched : ∀ {u : State}, u = s → Frame dequeueParts s (dequeue u) := fun e => e ▸ dequeue_frame s
  refine ⟨_, rfl, queue, parsing, fun hf hle => ?resumed, stays, fun h1 h2 h3 => ?other, fun h => ?malformed,
    fun day second hc hb => ⟨fun hs hle => ?near, fun h => ?time⟩,
    fun offset hc hb => ?offset, fun d hc hb => ⟨fun hd => ?declared, fun hd law => ?taken⟩⟩
  case resumed =>
    obtain ⟨flow, sections⟩ := resumes hf hle
    exact ⟨flow, fun w => by rw [sections, resumed_eq]⟩
  case other => exact untouched (applyRecord_other h1 h2 h3)
  case malformed =>
    rw [applyRecord_malformed h]
    exact ⟨dequeue_noted (badBody_noted hr r), dequeue_after (raise_within ..).frame⟩
  case near => exact untouched ((applyRecord_time hc hb).trans (takeBroadcastTime_near hs hle))
  case time =>
    obtain ⟨time, met, judged⟩ := takeBroadcastTime_sets hr h
    obtain ⟨dayBound, secondBound⟩ := readTime_bounds hb
    rw [applyRecord_time hc hb, dequeue_time, time]
    refine ⟨rfl, rfl, rfl, rfl, dequeue_endsMet met, dequeue_supervised judged,
      dequeue_after (takeBroadcastTime_within day second s dayBound secondBound).frame⟩
  case offset =>
    rw [applyRecord_offset hc hb]
    by_cases same : s.time.offset = offset
    · rw [takeOffset_same same, dequeue_time]
      exact ⟨same, fun _ => dequeue_frame s, fun ne => absurd same ne⟩
    · obtain ⟨time, met, stood, judged⟩ := takeOffset_sets hr same
      obtain ⟨low, high⟩ := readOffset_bounds hb
      rw [dequeue_time, time]
      exact ⟨rfl, fun e => absurd e same, fun _ => ⟨rfl, fun hs => dequeue_endsMet (met hs),
        fun hs o => by rw [dequeue_context, stood hs], dequeue_supervised judged,
        dequeue_after (takeOffset_within offset s low high).frame⟩⟩
  case declared => exact untouched (applyRecord_declared hc hb hd)
  case taken =>
    rw [applyRecord_section hc hb hd]
    obtain ⟨distinct, -, -⟩ := law
    obtain ⟨e, entry, key, touched, version, created, installed, same, rated, renewed⟩ := takeSection_taken hr d
    refine ⟨_, e, (dequeue_entry ..).trans entry, key, touched, version,
      dequeue_after (takeSection_within d s).frame, ensureEntry_placedAt distinct d.key, created, installed,
      fun f hf hk => ⟨fun hv => ?_, fun rating o ho => ?_, fun hv => ?_⟩⟩
    · obtain ⟨eq, frame⟩ := same f hf hk hv
      exact ⟨eq, dequeue_after frame⟩
    · rw [dequeue_context] at ho
      exact dequeue_upToDate (rated f hf hk rating o ho)
    · obtain ⟨count, keptId, newId, noted, spent, stands, since⟩ := (renewed f hf hk hv).dequeue
      exact ⟨count, keptId, fun p hp => ⟨newId p hp, fun old ho ne => ⟨noted p hp old ho ne, spent p hp old ho ne⟩⟩,
        stands, since⟩

end Sys2Proof.Machine
end

section
/-! PROOF. Grants and staged actions (R62, R63, R92, R93, R167): the checks at the take, and what GRANT_TIME does. -/

namespace Sys2Proof.Machine

open Sys2Proof

/-! ### A privileged command without authority (R180) -/

theorem refuses_without_authority {i : Instr} {c : Command} {s : State} (hi : commandOf i = some c)
    (hr : RingReady s) (hc : c ≠ .factoryClear) (hp : privileged c s = true) (ha : authority s = false) :
    Refuses i .notAuthorised s := by
  have judged : judgeCommand s.command.pointer c (markTaken c s) = refuse .notAuthorised (markTaken c s) :=
    judgeCommand_refused _ _ _ ((privileged_markTaken c c s).trans hp) ha
  have row : exec i s = .next (hostPosts c s) := by rw [exec_host hi, whileRunning_eq hr.1]
  have unit := (hostPosts_took c s hr hc).1
  rw [judged] at unit
  have posted := hostPosts_eq c s hr
  rw [judged] at posted
  have closed : s.pin.sessionOpen = false := not_authority (by simp [ha])
  refine ⟨hostPosts c s, row, c, hi, ⟨unit, ?_⟩, ?_⟩
  · rw [posted]
    exact ((markTaken_frame c s).trans (takeEnd_frame s _ _)).mono fun p hp => List.mem_append_left _ hp
  · rw [posted, slidRemaining, closed, Bool.and_false]
    rfl

/-! ### The checks of a grant (R62 steps 1 to 5) -/

theorem checkGrant_badSlot {profile : Byte} (h : 8 ≤ profile.toNat) (minutes : Half) (s : State) :
    checkGrant profile minutes s = .error .badField := by
  rw [checkGrant, profileSlotOf_none h]

section
variable {profile : Byte} {minutes : Half} {s : State} {n : Fin 8} (hn : n.val = profile.toNat)
include hn

theorem checkGrant_slot :
    checkGrant profile minutes s
      = if s.image.operation.importsInto n then .error .busy
        else if (s.profile n).state = .empty then .error .noSuch
        else if minutes.toNat = 0 then .error .badField
        else .ok (n, clampTo 720 minutes.toNat) := by
  rw [checkGrant, profileSlotOf_val hn]

theorem checkGrant_importing (h : s.image.operation.importsInto n = true) :
    checkGrant profile minutes s = .error .busy := by
  rw [checkGrant_slot hn, if_pos h]

variable (idle : s.image.operation.importsInto n = false)
include idle

theorem checkGrant_empty (h : (s.profile n).state = .empty) : checkGrant profile minutes s = .error .noSuch := by
  rw [checkGrant_slot hn, if_neg (by simp [idle]), if_pos h]

variable (used : (s.profile n).state ≠ .empty)
include used

theorem checkGrant_nothing (h : minutes.toNat = 0) : checkGrant profile minutes s = .error .badField := by
  rw [checkGrant_slot hn, if_neg (by simp [idle]), if_neg used, if_pos h]

theorem checkGrant_ok (h : minutes.toNat ≠ 0) :
    checkGrant profile minutes s = .ok (n, min 720 minutes.toNat, decide (720 < minutes.toNat)) := by
  rw [checkGrant_slot hn, if_neg (by simp [idle]), if_neg used, if_neg h, clampTo]
  split
  · next far => simp [far, Nat.min_eq_left far.le]
  · next near => simp [near, Nat.min_eq_right (Nat.le_of_not_lt near)]

end

/-! ### The grant (R62 steps 6 to 8, R63) -/

/-- R42: the outputs bound to a slot hold, after their evaluation, what the tests decide. -/
theorem evaluateProfile_upToDate {s : State} (hr : Running s) (n : Fin 8) : BoundUpToDate n (evaluateProfile n s) :=
  fun o ho => by
    refine evaluateWhere_upToDate (keptByEvaluation_profile n) s hr o ?_
    rw [show ((evaluateProfile n s).context o).profile = (s.context o).profile from
      (evaluateProfile_within n s).frame (.profileBinding o) (by simp)] at ho
    simpa using ho

theorem afterGrant_eq {m : Nat} (h : m ≤ 720) (p : Profile) : p.afterGrant m = grantedAccount p m := by
  rw [grantedAccount, Nat.min_eq_right h]
  rfl

theorem grantedAccount_clamp (p : Profile) (m : Nat) : grantedAccount p (min 720 m) = grantedAccount p m := by
  simp [grantedAccount]

theorem grant_granted {m : Nat} (h : m ≤ 720) (n : Fin 8) (s : State) :
    (grant n m s).profile n = grantedAccount (s.profile n) m := by
  rw [grant_profile, afterGrant_eq h]

/-- R51: minutes granted leave no account exhausted. -/
theorem afterGrant_notExhausted {m : Nat} (h : m ≠ 0) (p : Profile) : (p.afterGrant m).exhausted = false := by
  have left : (p.afterGrant m).remaining ≠ 0 := by
    simp only [Profile.afterGrant, Config.quartersPerDay, Config.quartersPerMinute]
    omega
  simp [Profile.exhausted, left]

theorem exhausted_iff {p : Profile} (h : p.state ≠ .empty) :
    p.exhausted = true ↔ p.allowance.isSome = true ∧ p.remaining = 0 := by
  simp [Profile.exhausted, h]

section
variable {s : State} {n : Fin 8} {m : Nat}

/-- R63: a grant to an exhausted account evaluates the slot's outputs. -/
theorem grant_of_exhausted (hm : m ≠ 0) (h : (s.profile n).exhausted = true) :
    grant n m s = evaluateProfile n (s.putProfile n ((s.profile n).afterGrant m)) := by
  simp [grant, h, afterGrant_notExhausted hm]

/-- R63: any other grant evaluates nothing (log 16). -/
theorem grant_of_left (h : (s.profile n).exhausted = false) :
    grant n m s = s.putProfile n ((s.profile n).afterGrant m) := by
  simp [grant, h]

variable (hm : m ≠ 0) (used : (s.profile n).state ≠ .empty)
include hm used

theorem grant_frame :
    Frame (.profile n
        :: (if (s.profile n).allowance.isSome = true ∧ (s.profile n).remaining = 0 then allJudged else []))
      s (grant n m s) := by
  split
  · next h =>
    rw [grant_of_exhausted hm ((exhausted_iff used).2 h)]
    exact ((putProfile_frame n _ s).mono (by simp)).trans
      ((evaluateProfile_within n _).frame.mono fun p hp => .tail _ hp)
  · next h =>
    rw [grant_of_left (Bool.eq_false_iff.2 (mt (exhausted_iff used).1 h))]
    exact putProfile_frame n _ s

theorem grant_upToDate (hr : Running s) (h : (s.profile n).allowance.isSome = true ∧ (s.profile n).remaining = 0) :
    BoundUpToDate n (grant n m s) := by
  rw [grant_of_exhausted hm ((exhausted_iff used).2 h)]
  exact evaluateProfile_upToDate (by exact hr) n

end

/-! ### The row of GRANT_TIME -/

theorem obeyGrantTime_refused {profile : Byte} {m : Half} {s : State} {outcome : CommandOutcome}
    (h : checkGrant profile m s = .error outcome) : obeyGrantTime profile m s = refuse outcome s := by
  rw [obeyGrantTime, h]

theorem obeyGrantTime_granted {profile : Byte} {m : Half} {s : State} {n : Fin 8} {g : Nat} {clamped : Bool}
    (h : checkGrant profile m s = .ok (n, g, clamped)) :
    obeyGrantTime profile m s = complete clamped (grantData n (grant n g s)) (grant n g s) := by
  rw [obeyGrantTime, h]

theorem grantTime_granted {s : State} {profile : Byte} {m : Half} {n : Fin 8} (hr : Ready (.grantTime profile m) s)
    (hn : n.val = profile.toNat) (idle : s.image.operation.importsInto n = false)
    (used : (s.profile n).state ≠ .empty) (hm : m.toNat ≠ 0) :
    ∃ t, Ends (.grantTime profile m)
        (.done (doneOr (decide (720 < m.toNat)))
          (nat32 (grantedAccount (s.profile n) m.toNat).remaining
            ++ nat16 (grantedAccount (s.profile n) m.toNat).granted))
        (.profile n
          :: (if (s.profile n).allowance.isSome = true ∧ (s.profile n).remaining = 0 then allJudged else [])) s t
      ∧ t.profile n = grantedAccount (s.profile n) m.toNat
      ∧ ((s.profile n).allowance.isSome = true → (s.profile n).remaining = 0 → BoundUpToDate n t) := by
  have owner := obeyGrantTime_granted (s := atOwner (.grantTime profile m) s)
    (checkGrant_ok hn (by rw [atOwner_image]; exact idle) (by rw [atOwner_profile]; exact used) hm)
  have used' : ((atOwner (.grantTime profile m) s).profile n).state ≠ .empty := by rw [atOwner_profile]; exact used
  have some_minutes : min 720 m.toNat ≠ 0 := by omega
  have record : (grant n (min 720 m.toNat) (atOwner (.grantTime profile m) s)).profile n
      = grantedAccount (s.profile n) m.toNat := by
    rw [grant_granted (Nat.min_le_left ..), grantedAccount_clamp, atOwner_profile]
  have frame := grant_frame some_minutes used'
  rw [atOwner_profile] at frame
  rw [grantData, record] at owner
  obtain ⟨t, ends, f⟩ := ends_of_obey (c := .grantTime profile m) rfl hr (by simp)
    (remaining_notMem_commandParts _ (by simp) (by simp) (by simp) (by simp)) owner frame
  refine ⟨t, ends, (ring_profile f n).trans record, fun limited spent o ho => ?_⟩
  rw [ring_context f] at ho
  exact ring_upToDate f (grant_upToDate some_minutes used' (atOwner_running hr.1.1 _)
    (by rw [atOwner_profile]; exact ⟨limited, spent⟩) o ho)

/-- Settles O32: the checks give the refusals, and the grant the rest. -/
theorem grantTimeAddsMinutes : Obligations.GrantTimeAddsMinutes := by
  unfold Obligations.GrantTimeAddsMinutes
  rintro _ profile m s rfl hr
  refine ⟨refuses_without_authority (c := .grantTime profile m) rfl hr (by simp) rfl, fun ha => ?_⟩
  have ready : Ready (.grantTime profile m) s := ⟨hr, fun _ _ _ => ha⟩
  have refused : ∀ outcome, checkGrant profile m (atOwner (.grantTime profile m) s) = .error outcome →
      Refuses (.grantTime profile m) outcome s := fun outcome h =>
    refuses_of_obey (c := .grantTime profile m) rfl ready (by simp)
      (remaining_notMem_commandParts _ (by simp) (by simp) (by simp) (by simp)) (obeyGrantTime_refused h)
  refine ⟨fun h => refused _ (checkGrant_badSlot h ..), fun n hn => ⟨fun h => refused _ ?_, fun idle =>
    ⟨fun h => refused _ ?_, fun used => ⟨fun h => refused _ ?_, grantTime_granted ready hn idle used⟩⟩⟩⟩
  · exact checkGrant_importing hn (by rw [atOwner_image]; exact h)
  · exact checkGrant_empty hn (by rw [atOwner_image]; exact idle) (by rw [atOwner_profile]; exact h)
  · exact checkGrant_nothing hn (by rw [atOwner_image]; exact idle) (by rw [atOwner_profile]; exact used) h

end Sys2Proof.Machine
end

section
/-! PROOF. The checks of a staged action (R62, R92, R93, R167). -/

namespace Sys2Proof.Machine

open Sys2Proof

/-! ### The end of a push (R93, R103 step 3) -/

/-- R93: an end is reached: time is set, and local time is not before it. -/
def EndPassed (t : TimeBase) (endTime : Nat) : Prop := t.source ≠ .unset ∧ endTime ≤ t.localSeconds

/-- R93: a CURFEW_WAIVE whose end lies more than a day ahead while time is set. -/
def waivesTooFar (t : TimeBase) (kind : OverrideKind) (endTime : Nat) : Bool :=
  decide (kind = .curfewWaive ∧ t.source ≠ .unset ∧ t.localSeconds + 86400 < endTime)

theorem waivesTooFar_iff {t : TimeBase} {kind : OverrideKind} {endTime : Nat} :
    waivesTooFar t kind endTime = true
      ↔ kind = .curfewWaive ∧ t.source ≠ .unset ∧ t.localSeconds + 86400 < endTime := decide_eq_true_iff

theorem fitEnd_passed {t : TimeBase} {endTime : Nat} (h : EndPassed t endTime) (kind : OverrideKind) :
    fitEnd t kind endTime = none := by
  obtain ⟨set, le⟩ := h
  simp [fitEnd, TimeBase.isSet, set, le]

theorem fitEnd_ahead {t : TimeBase} {endTime : Nat} (h : ¬ EndPassed t endTime) (kind : OverrideKind) :
    fitEnd t kind endTime
      = some (if waivesTooFar t kind endTime = true then t.localSeconds + 86400 else endTime,
          waivesTooFar t kind endTime) := by
  unfold fitEnd
  by_cases set : t.source = .unset
  · simp [TimeBase.isSet, waivesTooFar, set]
  · have ahead : ¬ endTime ≤ t.localSeconds := fun le => h ⟨set, le⟩
    rw [if_neg (by simp [TimeBase.isSet, set]), if_neg ahead]
    by_cases far : kind = .curfewWaive ∧ t.localSeconds + 86400 < endTime
    · rw [if_pos far, waivesTooFar_iff.2 ⟨far.1, set, far.2⟩, if_pos rfl]
    · have near : waivesTooFar t kind endTime = false :=
        Bool.eq_false_iff.2 fun w => far ⟨(waivesTooFar_iff.1 w).1, (waivesTooFar_iff.1 w).2.2⟩
      rw [if_neg far, near]
      rfl

/-! ### The checks of a push (R92 steps 1 to 5) -/

theorem overrideKindOf_some {b : Byte} {k : OverrideKind} :
    overrideKindOf b = some k ↔ overrideKindCode k = b.toNat := by
  unfold overrideKindOf
  constructor
  · intro h
    split at h
    all_goals first | (cases h; symm; assumption) | cases h
  · intro h
    rw [← h]
    cases k <;> rfl

theorem overrideScopeOf_some {b : Byte} {sc : OverrideScope} :
    overrideScopeOf b = some sc ↔ overrideScopeCode sc = b.toNat := by
  unfold overrideScopeOf
  constructor
  · intro h
    split at h
    all_goals first | (cases h; symm; assumption) | cases h
  · intro h
    rw [← h]
    cases sc <;> rfl

theorem kindAndScope_some {kind scope : Byte} {k : OverrideKind} {sc : OverrideScope} :
    kindAndScope kind scope = some (k, sc)
      ↔ overrideKindCode k = kind.toNat ∧ overrideScopeCode sc = scope.toNat ∧ scopeAllowed k sc = true := by
  rw [← overrideKindOf_some, ← overrideScopeOf_some]
  unfold kindAndScope
  cases overrideKindOf kind with
  | none => simp
  | some k' =>
    cases overrideScopeOf scope with
    | none => simp
    | some sc' =>
      simp only [Option.some.injEq]
      split
      · next allowed =>
        simp only [Option.some.injEq, Prod.mk.injEq]
        exact ⟨fun ⟨hk, hs⟩ => ⟨hk, hs, hk ▸ hs ▸ allowed⟩, fun ⟨hk, hs, _⟩ => ⟨hk, hs⟩⟩
      · next forbidden =>
        simp only [reduceCtorEq, false_iff]
        exact fun ⟨hk, hs, allowed⟩ => forbidden (hk ▸ hs ▸ allowed)

/-- R90: the codes of the kinds with the scopes they may take. -/
theorem scopeAllowed_codes {k : OverrideKind} {sc : OverrideScope} (h : scopeAllowed k sc = true) :
    (overrideKindCode k, overrideScopeCode sc) ∈ [(0, 0), (1, 2), (1, 1), (2, 2), (3, 3), (3, 2)] := by
  revert h
  cases k <;> cases sc <;> decide

theorem kindAndScope_unpaired {kind scope : Byte}
    (h : (kind.toNat, scope.toNat) ∉ [(0, 0), (1, 2), (1, 1), (2, 2), (3, 3), (3, 2)]) :
    kindAndScope kind scope = none := by
  cases paired : kindAndScope kind scope with
  | none => rfl
  | some p =>
    obtain ⟨hk, hs, allowed⟩ := kindAndScope_some.1 paired
    exact absurd (hk ▸ hs ▸ scopeAllowed_codes allowed) h

/-- R90: whether a kind is about a service. -/
def OverrideKind.allows (k : OverrideKind) : Prop := k = .allowEvent ∨ k = .allowService

theorem captureSubject_missing {s : State} {o : Output} {k : OverrideKind}
    (h : (k.allows ∧ s.boundKey o = none) ∨ (k = .allowEvent ∧ s.currentEvent o = none)) :
    captureSubject s o k = none := by
  obtain ⟨rfl | rfl, absent⟩ | ⟨rfl, absent⟩ := h
  · simp [captureSubject, absent]
  · simp [captureSubject, absent]
  · cases key : s.boundKey o <;> simp [captureSubject, absent, key]

theorem captureSubject_captured {s : State} {o : Output} {k : OverrideKind} (hk : k.allows → s.boundKey o ≠ none)
    (he : k = .allowEvent → s.currentEvent o ≠ none) :
    captureSubject s o k
      = some (if k = .allowEvent ∨ k = .allowService then s.boundKey o else none,
          if k = .allowEvent then (s.currentEvent o).map (·.id) else none) := by
  cases k with
  | allowEvent =>
    obtain ⟨key, hkey⟩ := Option.ne_none_iff_exists'.1 (hk (.inl rfl))
    obtain ⟨event, hevent⟩ := Option.ne_none_iff_exists'.1 (he rfl)
    simp [captureSubject, hkey, hevent]
  | allowService =>
    obtain ⟨key, hkey⟩ := Option.ne_none_iff_exists'.1 (hk (.inr rfl))
    simp [captureSubject, hkey]
  | curfewWaive | forceBlock => simp [captureSubject]

/-- R92 step 5: the end that UNTIL_TIME names is no time of day, or it is reached. -/
theorem checkEnd_refused {t : TimeBase} {scope : OverrideScope} {day : Half} {second : Word} (kind : OverrideKind)
    (hs : scope = .untilTime) (h : 86399 < second.toNat ∨ EndPassed t (day.toNat * 86400 + second.toNat)) :
    checkEnd t kind scope day second = none := by
  rw [checkEnd, if_pos hs]
  split
  · rfl
  · next inDay => rw [fitEnd_passed (h.resolve_left inDay)]; rfl

/-- R92 step 5: the end that a push stores. -/
theorem checkEnd_fits {t : TimeBase} {scope : OverrideScope} {day : Half} {second : Word} (kind : OverrideKind)
    {clamped : Bool} (hc : clamped = (decide (scope = .untilTime)
      && waivesTooFar t kind (day.toNat * 86400 + second.toNat)))
    (h : scope = .untilTime → second.toNat ≤ 86399 ∧ ¬ EndPassed t (day.toNat * 86400 + second.toNat)) :
    checkEnd t kind scope day second
      = some (if scope = .untilTime then
            some (if clamped = true then t.localSeconds + 86400 else day.toNat * 86400 + second.toNat)
          else none, clamped) := by
  subst hc
  unfold checkEnd
  by_cases hs : scope = .untilTime
  · obtain ⟨inDay, ahead⟩ := h hs
    rw [if_pos hs, if_neg (Nat.not_lt.2 inDay), fitEnd_ahead ahead, if_pos hs]
    simp [hs]
  · simp [hs]

theorem checkPush_badField {output kind scope : Byte} {day : Half} {second : Word} {s : State}
    (h : 3 ≤ output.toNat ∨ kindAndScope kind scope = none) :
    checkPush output kind scope day second s = .error .badField := by
  unfold checkPush
  obtain h | h := h
  · rw [outputOf_none h]
  · rw [h]
    cases outputOf output <;> rfl

section
variable {output kind scope : Byte} {day : Half} {second : Word} {s : State} {o : Output} {k : OverrideKind}
  {sc : OverrideScope} (ho : outputOf output = some o) (paired : kindAndScope kind scope = some (k, sc))
include ho paired

theorem checkPush_noSuch (h : captureSubject s o k = none) :
    checkPush output kind scope day second s = .error .noSuch := by
  simp only [checkPush, ho, paired, h]

variable {key : Option ServiceKey} {event : Option Half} (captured : captureSubject s o k = some (key, event))
include captured

theorem checkPush_full (h : 4 ≤ (s.context o).stack.length) :
    checkPush output kind scope day second s = .error .stackFull := by
  simp only [checkPush, ho, paired, captured]
  exact if_pos h

variable (room : (s.context o).stack.length < 4)
include room

theorem checkPush_badEnd (h : checkEnd s.time k sc day second = none) :
    checkPush output kind scope day second s = .error .badField := by
  have hasRoom : ¬ Config.stackDepth ≤ (s.context o).stack.length := Nat.not_le.2 room
  simp only [checkPush, ho, paired, captured, if_neg hasRoom, h]

theorem checkPush_ok {endTime : Option Nat} {clamped : Bool}
    (h : checkEnd s.time k sc day second = some (endTime, clamped)) :
    checkPush output kind scope day second s = .ok ⟨o, k, sc, endTime, key, event, clamped⟩ := by
  have hasRoom : ¬ Config.stackDepth ≤ (s.context o).stack.length := Nat.not_le.2 room
  simp only [checkPush, ho, paired, captured, if_neg hasRoom, h]

end

/-! ### A staged action (R167) -/

section
variable {output profile staged : Byte} {m : Half} {kind scope : Byte} {day : Half} {second : Word} {s : State}

theorem checkStaged_other (h : 2 ≤ staged.toNat) :
    checkStaged output profile staged m kind scope day second s = .error .badField := by
  unfold checkStaged
  split
  · omega
  · omega
  · rfl

theorem checkStaged_grant :
    checkStaged output profile 0 m kind scope day second s
      = (checkGrant profile m s).map (fun g => .grant g.1 g.2.1 g.2.2) := rfl

theorem checkStaged_push :
    checkStaged output profile 1 m kind scope day second s
      = (checkPush output kind scope day second s).map .push := rfl

end

/-- Settles O40: the checks of a grant and of a push, each in its order. -/
theorem stagedActionsAreChecked : Obligations.StagedActionsAreChecked := by
  unfold Obligations.StagedActionsAreChecked
  rintro output profile staged m kind scope day second s r at_ rfl rfl
  refine ⟨checkStaged_other, ?grant, ?push⟩
  case grant =>
    rintro rfl
    rw [checkStaged_grant]
    refine ⟨fun h => ?_, fun n hn => ⟨fun h => ?_, fun idle => ⟨fun h => ?_, fun used =>
      ⟨fun h => ?_, fun h => ?_⟩⟩⟩⟩
    · rw [checkGrant_badSlot h]; rfl
    · rw [checkGrant_importing hn h]; rfl
    · rw [checkGrant_empty hn idle h]; rfl
    · rw [checkGrant_nothing hn idle used h]; rfl
    · rw [checkGrant_ok hn idle used h]; rfl
  case push =>
    rintro rfl
    rw [checkStaged_push]
    refine ⟨fun h => ?_, fun o k sc ho hk hsc allowed => ?_⟩
    · rw [checkPush_badField (h.imp_right kindAndScope_unpaired)]; rfl
    · have named := outputOf_code ho
      have paired := kindAndScope_some.2 ⟨hk, hsc, allowed⟩
      refine ⟨fun h => ?_, fun hkey hevent => ?_⟩
      · rw [checkPush_noSuch named paired (captureSubject_missing h)]; rfl
      · have captured := captureSubject_captured hkey hevent
        refine ⟨fun h => ?_, fun room => ⟨fun hs h => ?_, fun h => ?_⟩⟩
        · rw [checkPush_full named paired captured h]; rfl
        · rw [checkPush_badEnd named paired captured room (checkEnd_refused k hs h)]; rfl
        · have ahead : sc = .untilTime → second.toNat ≤ 86399
              ∧ ¬ EndPassed s.time (day.toNat * 86400 + second.toNat) := fun hs =>
            ⟨(h hs).1, fun ⟨set, le⟩ => absurd ((h hs).2 set) (Nat.not_lt.2 le)⟩
          refine ⟨decide (sc = .untilTime) && waivesTooFar s.time k (day.toNat * 86400 + second.toNat), ?_, ?_⟩
          · rw [Bool.and_eq_true, waivesTooFar_iff, decide_eq_true_eq]
          · rw [checkPush_ok named paired captured room (checkEnd_fits k rfl ahead)]; rfl

end Sys2Proof.Machine
end

section
/-! PROOF. The sample and the settlement of the accounts (R53 to R55, R57 to R59, R51): what each slot's work does to
its own account, and what it leaves to the other slots. -/

namespace Sys2Proof.Machine

open Sys2Proof

/-! ### Work on one slot, as another slot sees it -/

/-- What work on other slots leaves to a slot: its record, and what was told and evaluated of it. -/
structure LeavesSlot (n : Fin 8) (s t : State) : Prop where
  running : t.systemReset = s.systemReset
  profile : t.profile n = s.profile n
  judged : BoundUpToDate n s → BoundUpToDate n t
  noted : ∀ k subj, Noted k subj s → Noted k subj t

theorem LeavesSlot.refl (n : Fin 8) (s : State) : LeavesSlot n s s := ⟨rfl, rfl, id, fun _ _ => id⟩

theorem LeavesSlot.trans {n : Fin 8} {s t u : State} (h : LeavesSlot n s t) (k : LeavesSlot n t u) : LeavesSlot n s u :=
  ⟨k.running.trans h.running, k.profile.trans h.profile, k.judged ∘ h.judged,
    fun kind subj => k.noted kind subj ∘ h.noted kind subj⟩

theorem LeavesSlot.foldl {n : Fin 8} {α : Type} {f : State → α → State} {l : List α}
    (h : ∀ a ∈ l, ∀ s, LeavesSlot n s (f s a)) (s : State) : LeavesSlot n s (l.foldl f s) :=
  List.foldlRecOn l f (LeavesSlot.refl n s) fun t ht a ha => ht.trans (h a ha t)

/-- R30: the decision about an output reads no record but that of its own slot. -/
theorem judge_putProfile {s : State} {o : Output} {m : Fin 8} (h : (s.context o).profile ≠ some m) (p : Profile) :
    judge (s.putProfile m p) o = judge s o := by
  unfold judge
  rw [show (s.putProfile m p).context o = s.context o from rfl]
  cases bound : (s.context o).profile with
  | none => rfl
  | some n =>
    have other : n ≠ m := fun e => h (bound.trans (congrArg some e))
    simp only [profile_putProfile_ne s p other]
    rfl

theorem putProfile_leavesSlot {n m : Fin 8} (h : m ≠ n) (p : Profile) (s : State) :
    LeavesSlot n s (s.putProfile m p) := by
  refine ⟨rfl, profile_putProfile_ne s p h.symm, fun judged o ho => ?_, fun _ _ => id⟩
  have bound : (s.context o).profile = some n := ho
  have other : (s.context o).profile ≠ some m := by simp [bound, h.symm]
  exact (judged o bound).trans (judge_putProfile other p).symm

theorem raise_leavesSlot (n : Fin 8) (k : NoticeKind) (subj : Nat) (d : List Byte) (s : State) :
    LeavesSlot n s (raise k subj d s) := by
  refine ⟨raise_systemReset .., raise_profile .., fun judged o ho => ?_, fun _ _ h => h.raise ..⟩
  rw [State.context, raise_outputs] at ho
  refine (judged o ho).frame (raise_within k subj d s).frame (fun p hp hm => judged_disjoint hp (o' := o) ?_) (by simp)
  exact List.mem_cons_of_mem _ (List.mem_append_left _ hm)

/-- R30: an output that holds what the tests decide holds it through the evaluations of all outputs. -/
theorem UpToDate.evaluate {s : State} {o : Output} (h : UpToDate s o) (o' : Output) : UpToDate (evaluate o' s) o := by
  by_cases same : o = o'
  · subst same
    rwa [evaluate_eq_self o s h]
  · exact h.evaluate_other same

theorem evaluate_leavesSlot (n : Fin 8) (o : Output) (s : State) : LeavesSlot n s (evaluate o s) := by
  have f := (evaluate_within o s).frame
  refine ⟨f .systemReset (by simp), f (.profile n) (by simp), fun judged o' ho => ?_, fun _ _ h => h.evaluate o⟩
  have binding : ((evaluate o s).context o').profile = (s.context o').profile := f (.profileBinding o') (by simp)
  exact (judged o' (binding ▸ ho)).evaluate o

theorem evaluateProfile_leavesSlot (n m : Fin 8) (s : State) : LeavesSlot n s (evaluateProfile m s) :=
  LeavesSlot.foldl (fun o _ t => by
    split
    exacts [evaluate_leavesSlot n o t, .refl n t]) s

theorem noteExhaustion_leavesSlot (n m : Fin 8) (p : Profile) (s : State) : LeavesSlot n s (noteExhaustion m p s) := by
  unfold noteExhaustion
  split
  exacts [raise_leavesSlot .., .refl n s]

theorem clearActivity_leavesSlot (n : Fin 8) (s : State) : LeavesSlot n s (clearActivity s) :=
  ⟨rfl, rfl, fun judged => judged, fun _ _ => id⟩

/-- Work on all slots is, for one of them, work on others, its own, and work on others. -/
theorem allProfiles_foldl_leavesSlot {f : Fin 8 → State → State} {n : Fin 8}
    (h : ∀ m, m ≠ n → ∀ s, LeavesSlot n s (f m s)) (s : State) :
    ∃ u, LeavesSlot n s u ∧ LeavesSlot n (f n u) (allProfiles.foldl (fun t m => f m t) s) := by
  obtain ⟨before, after, split⟩ := List.append_of_mem (show n ∈ allProfiles from List.mem_finRange n)
  have distinct : (before ++ n :: after).Nodup := split ▸ List.nodup_finRange 8
  obtain ⟨fresh_after, fresh_before⟩ : n ∉ after ∧ n ∉ before := by
    simp only [List.nodup_append, List.nodup_cons, List.mem_cons] at distinct
    exact ⟨distinct.2.1.1, fun hm => distinct.2.2 n hm n (.inl rfl) rfl⟩
  refine ⟨before.foldl (fun t m => f m t) s, .foldl (fun m hm => h m fun e => fresh_before (e ▸ hm)) s, ?_⟩
  rw [split, List.foldl_append, List.foldl_cons]
  exact .foldl (fun m hm => h m fun e => fresh_after (e ▸ hm)) _

/-! ### The sample (R53 to R55) -/

theorem chargeProfile_leavesSlot {n m : Fin 8} (h : m ≠ n) (r : Nat) (s : State) :
    LeavesSlot n s (chargeProfile m r s) := by
  have charged := putProfile_leavesSlot h ((s.profile m).afterCharge r) s
  simp only [chargeProfile]
  split
  · exact (charged.trans (raise_leavesSlot ..)).trans (evaluateProfile_leavesSlot ..)
  · exact charged

theorem sampleProfile_leavesSlot (seen : State) {n m : Fin 8} (h : m ≠ n) (s : State) :
    LeavesSlot n s (sampleProfile seen m s) := by
  unfold sampleProfile
  split
  · split
    · exact chargeProfile_leavesSlot h ..
    · exact .refl n s
  · exact .refl n s

/-- The sample is, for one slot, its own charge among the work on others. -/
theorem sample_leavesSlot (n : Fin 8) (s : State) :
    ∃ u, LeavesSlot n s u ∧ LeavesSlot n (sampleProfile s n u) (sample s) := by
  obtain ⟨u, before, after⟩ := allProfiles_foldl_leavesSlot (fun m hm t => sampleProfile_leavesSlot s (n := n) hm t) s
  exact ⟨u, before, after.trans (clearActivity_leavesSlot ..)⟩

section
variable {s : State} {n : Fin 8}

theorem chargeRate_unwatched (h : watchingSet s n = []) : chargeRate s n = none := by
  rw [chargeRate, h]
  rfl

/-- R54: the rate of the charge is the greatest content rate of the outputs watched. -/
theorem chargeRate_greatest {r : Nat}
    (attained : ∃ o ∈ watchingSet s n, contentRate (s.profile n) (s.currentEvent o) = r)
    (bound : ∀ o ∈ watchingSet s n, contentRate (s.profile n) (s.currentEvent o) ≤ r) : chargeRate s n = some r := by
  rw [chargeRate, List.max?_eq_some_iff]
  exact ⟨List.mem_map.2 attained, fun b hb => by
    obtain ⟨o, ho, rfl⟩ := List.mem_map.1 hb
    exact bound o ho⟩

/-- R53: a slot that is not ACTIVE, or that nobody watches, is not charged. -/
theorem sample_uncharged (h : (s.profile n).state ≠ .active ∨ watchingSet s n = []) :
    (sample s).profile n = s.profile n := by
  obtain ⟨u, before, after⟩ := sample_leavesSlot n s
  have idle : sampleProfile s n u = u := by
    unfold sampleProfile
    split
    · next active => rw [chargeRate_unwatched (h.resolve_left fun ne => ne active)]
    · rfl
  rw [after.profile, idle, before.profile]

variable (active : (s.profile n).state = .active) {r : Nat} (rate : chargeRate s n = some r)
include active rate

theorem sampleProfile_charges (u : State) : sampleProfile s n u = chargeProfile n r u := by
  rw [sampleProfile, if_pos active, rate]

/-- R54: an ACTIVE slot that is watched is charged once. -/
theorem sample_charged : (sample s).profile n = (s.profile n).afterCharge r := by
  obtain ⟨u, before, after⟩ := sample_leavesSlot n s
  rw [after.profile, sampleProfile_charges active rate, chargeProfile_profile, if_pos rfl, before.profile]

/-- R55: a charge that takes the last of a limited account is told, and the slot's outputs are evaluated. -/
theorem sample_exhausts (hr : Running s) (limited : (s.profile n).allowance.isSome = true)
    (left : 0 < (s.profile n).remaining) (spent : (s.profile n).remaining ≤ r) :
    Noted .budgetExhausted n.val (sample s) ∧ BoundUpToDate n (sample s) := by
  obtain ⟨u, before, after⟩ := sample_leavesSlot n s
  have running : Running u := before.running.trans hr
  have exhausts : (((u.profile n).afterCharge r).exhausted && !(u.profile n).exhausted) = true := by
    rw [before.profile]
    simp [Profile.exhausted, Profile.afterCharge, active, limited, left.ne', Nat.sub_eq_zero_of_le spent]
  rw [sampleProfile_charges active rate] at after
  have told : chargeProfile n r u
      = evaluateProfile n (raiseExhausted n (u.putProfile n ((u.profile n).afterCharge r))) := if_pos exhausts
  rw [told] at after
  refine ⟨after.noted _ _ (Noted.evaluateWhere ?_ _), after.judged (evaluateProfile_upToDate ?_ n)⟩
  · exact noted_raise (s := u.putProfile n _) running ..
  · exact (raise_systemReset ..).trans running

end

/-- R50: no content rate is above 8. -/
theorem contentRate_le {s : State} (h : ProfileLaw s) (n : Fin 8) (e : Option Event) :
    contentRate (s.profile n) e ≤ 8 := by
  obtain ⟨⟨-, -, -, -, -, rates, -⟩, -⟩ := h.1 n
  exact rates _

/-! ### The settlement (R57 to R59) -/

theorem settleProfile_leavesSlot (day : Nat) {n m : Fin 8} (h : m ≠ n) (s : State) :
    LeavesSlot n s (settleProfile m day s) := by
  unfold settleProfile
  split
  · exact .refl n s
  · exact putProfile_leavesSlot h ..
  · exact (((putProfile_leavesSlot h ((s.profile m).rolledOver day) s).trans (raise_leavesSlot ..)).trans
      (noteExhaustion_leavesSlot ..)).trans (evaluateProfile_leavesSlot ..)

theorem settlement_roll_iff (p : Profile) (day : Nat) :
    p.settlement day = .roll ↔ p.state = .active ∧ ∃ b, p.budgetDay = some b ∧ b < day := by
  unfold Profile.settlement
  split
  · next hs => simp [hs]
  · next hs hb => simp [hb]
  · next hs hb => simp [hb]
  · next b hs hb => split_ifs <;> simp_all
  · next hs hb => simp [hs]

/-- R58, R59: a rollover is told, and the slot's outputs are evaluated. -/
theorem settleProfile_rolls {s : State} {n : Fin 8} {day : Nat} (hr : Running s)
    (h : (s.profile n).settlement day = .roll) :
    Noted .rollover n.val (settleProfile n day s) ∧ BoundUpToDate n (settleProfile n day s) := by
  have rolled : settleProfile n day s = evaluateProfile n (noteExhaustion n (s.profile n) (rollOver n day s)) := by
    rw [settleProfile, h]
  have running : Running (rollOver n day s) := (raise_systemReset ..).trans hr
  have told : Noted .rollover n.val (rollOver n day s) := noted_raise (s := s.putProfile n _) hr ..
  have exhaustion := noteExhaustion_leavesSlot n n (s.profile n) (rollOver n day s)
  rw [rolled]
  exact ⟨(exhaustion.noted _ _ told).evaluateWhere _, evaluateProfile_upToDate (exhaustion.running.trans running) n⟩

theorem settleAll_rolls {s : State} {n : Fin 8} {day : Nat} (hr : Running s)
    (h : (s.profile n).settlement day = .roll) :
    Noted .rollover n.val (settleAll day s) ∧ BoundUpToDate n (settleAll day s) := by
  obtain ⟨u, before, after⟩ :=
    allProfiles_foldl_leavesSlot (fun m hm t => settleProfile_leavesSlot day (n := n) (m := m) hm t) s
  obtain ⟨told, judged⟩ := settleProfile_rolls (before.running.trans hr)
    ((congrArg (Profile.settlement · day) before.profile).trans h)
  exact ⟨after.noted _ _ told, after.judged judged⟩

/-- R57: no slot is due to roll over. -/
def NoneRolls (day : Nat) (s : State) : Prop := ∀ n, (s.profile n).settlement day ≠ .roll

/-- R57: a record is settled once: none rolls over a second time. -/
theorem settledAccount_settled (p : Profile) (day : Nat) : (settledAccount p day).settlement day ≠ .roll := by
  cases h : p.settlement day with
  | keep => rw [settledAccount_keep h, h]; simp
  | adopt =>
    rw [settledAccount_adopt h, Ne, settlement_roll_iff]
    simp
  | roll =>
    rw [settledAccount_roll h, Ne, settlement_roll_iff]
    simp [Profile.rolledOver]

theorem settleProfile_noneRolls {s : State} {day : Nat} (h : NoneRolls day s) (n : Fin 8) :
    Within everyProfile s (settleProfile n day s) ∧ NoneRolls day (settleProfile n day s) := by
  refine ⟨?_, fun m => ?_⟩
  · unfold settleProfile
    split
    · exact .refl _ s
    · next adopts =>
      exact within_profile (profile_mem_everyProfile n) fun k => withBudgetDay_ok k (settlement_adopt adopts) _
    · next rolls => exact absurd rolls (h n)
  · by_cases same : m = n
    · subst same
      rw [settleProfile_profile]
      exact settledAccount_settled _ _
    · rw [settleProfile_profile_ne same]
      exact h m

/-- Settles O49: each slot's own work, with what the work on the others leaves of it. -/
theorem accountsAreChargedAndSettled : Obligations.AccountsAreChargedAndSettled := by
  unfold Obligations.AccountsAreChargedAndSettled
  refine ⟨fun s n watched hw => ?sampled, fun s n day => ⟨settleAll_profile day s n, fun active behind hr => ?rolled,
    fun current => ?still⟩⟩
  case sampled =>
    obtain rfl : watched = watchingSet s n := hw
    refine ⟨sample_activity s, sample_uncharged, fun r active attained greatest => ?_⟩
    have rate := chargeRate_greatest attained greatest
    refine ⟨sample_charged active rate, fun law => ?_, fun limited left spent hr =>
      sample_exhausts active rate hr limited left spent⟩
    obtain ⟨o, -, rfl⟩ := attained
    exact contentRate_le law ..
  case rolled => exact settleAll_rolls hr ((settlement_roll_iff ..).2 ⟨active, behind⟩)
  case still =>
    refine (Within.foldlWith (NoneRolls day) (fun t m h => settleProfile_noneRolls h m) allProfiles s fun m => ?_).frame
    rw [Ne, settlement_roll_iff]
    rintro ⟨active, b, held, behind⟩
    exact absurd behind (Nat.not_lt.2 (current m active b held))

end Sys2Proof.Machine
end

section
/-! PROOF. Keys (R64, R103, R169 to R171, R174): the room that an entry's end needs, what each key does, the judgement
of a PIN and of a change of PIN, and the staged action that a match executes. -/

namespace Sys2Proof.Machine

open Sys2Proof

/-! ### Room for RELEASE_KEYS (R161, R164) -/

/-- R161, R164: the queue takes one more message, and another first should that be a LAMP. -/
def RoomToRelease (s : State) : Prop :=
  s.panel.queue.length < 3 ∨ (s.panel.queue.length < 4 ∧ s.panel.queue.any Message.isLamp = true)

theorem RoomToRelease.lt {s : State} (h : RoomToRelease s) : s.panel.queue.length < 4 :=
  h.elim (fun lt => lt.trans (by decide)) And.left

theorem RoomToRelease.congr {s t : State} (h : RoomToRelease s) (e : t.panel = s.panel) : RoomToRelease t := by
  unfold RoomToRelease
  rwa [e]

theorem any_isLamp_relamp (q : List Message) (l : Lamp) :
    (q.map (fun m => if m.isLamp then Message.lamp l else m)).any Message.isLamp = q.any Message.isLamp := by
  rw [List.any_map]
  congr 1
  funext m
  simp only [Function.comp_apply]
  split
  · next lamp => rw [lamp, isLamp_lamp]
  · rfl

/-- R164: at most one LAMP is queued, however often the lamp state is handed over. -/
theorem RoomToRelease.handLamp {s : State} (h : RoomToRelease s) (l : Lamp) : RoomToRelease (handLamp l s) := by
  unfold Machine.handLamp offerLamp offerMessage
  split_ifs with recorded queued room
  · exact h
  · refine h.imp (fun lt => ?_) fun ⟨lt, lamp⟩ => ⟨?_, ?_⟩
    · simpa using lt
    · simpa using lt
    · simpa only [any_isLamp_relamp] using lamp
  · have few : s.panel.queue.length < 3 := h.resolve_right fun full => queued full.2
    refine .inr ⟨?_, by simp⟩
    simp only [List.length_append, List.length_singleton]
    omega
  · exact h

theorem RoomToRelease.evaluate {s : State} (h : RoomToRelease s) (o : Output) : RoomToRelease (evaluate o s) := by
  have told : ∀ r, RoomToRelease (warnBudget o r (toldVerdict o r s)) := fun r =>
    h.congr ((warnBudget_panel ..).trans (toldVerdict_panel ..))
  unfold Machine.evaluate
  split_ifs
  · exact h
  · exact h
  · by_cases same : (s.context o).verdict = (judge s o).1
    · rw [changeVerdict_of_same same]
      exact told _
    · rw [changeVerdict_of_new same]
      exact (told _).handLamp _

theorem RoomToRelease.evaluateProfile {s : State} (h : RoomToRelease s) (n : Fin 8) :
    RoomToRelease (evaluateProfile n s) :=
  List.foldlRecOn allOutputs _ h fun t ht o _ => by
    split
    exacts [ht.evaluate o, ht]

theorem RoomToRelease.openSession {s : State} (h : RoomToRelease s) : RoomToRelease (openSession s) := by
  unfold Machine.openSession
  simp only
  split
  · exact h
  · refine RoomToRelease.handLamp ?_ _
    exact h

theorem RoomToRelease.executeStaged {s : State} (h : RoomToRelease s) (a : Staged) :
    RoomToRelease (executeStaged a s).1 := by
  cases a with
  | grant n m clamped =>
    simp only [Machine.executeStaged, executeGrant, grant]
    split_ifs
    · exact h
    · exact h
    · exact RoomToRelease.evaluateProfile (s := s.putProfile n _) h n
    · exact h
  | push q =>
    simp only [Machine.executeStaged, executePush]
    split_ifs
    · exact h
    · exact h
    · split
      · exact h
      · exact RoomToRelease.evaluate (s := s.putContext q.output _) h q.output

/-! ### The end of an entry (R168) -/

/-- R168: an ending touches the entry, the key FIFO and the transmit queue. -/
theorem endEntry_frame (outcome : CommandOutcome) (data : List Byte) (s : State) :
    Frame endingParts s (endEntry outcome data s) := by
  refine Frame.trans (t := State.putPanel _ _) ?_ ((offerMessage_within .releaseKeys rfl _).frame.mono (by simp))
  intro p hp
  have same := p.same_refl s
  cases p
  case matcher | pinEntry | keyFifo => simp at hp
  all_goals exact same

theorem endEntry_data (outcome : CommandOutcome) (data : List Byte) (s : State) :
    (endEntry outcome data s).pin.entry.outcomeData = data := by
  unfold endEntry offerMessage
  simp only
  split <;> rfl

theorem endEntry_failures (outcome : CommandOutcome) (data : List Byte) (s : State) :
    (endEntry outcome data s).pin.failures = s.pin.failures ∧ (endEntry outcome data s).pin.step = s.pin.step :=
  endEntry_frame outcome data s .failures (by simp)

theorem endEntry_remaining (outcome : CommandOutcome) (data : List Byte) (s : State) :
    (endEntry outcome data s).pin.sessionRemaining = s.pin.sessionRemaining :=
  endEntry_frame outcome data s .sessionRemaining (by simp)

theorem endEntry_stored (outcome : CommandOutcome) (data : List Byte) (s : State) :
    (endEntry outcome data s).pin.stored = s.pin.stored := endEntry_frame outcome data s .storedPin (by simp)

theorem endEntry_profile (outcome : CommandOutcome) (data : List Byte) (s : State) (n : Fin 8) :
    (endEntry outcome data s).profile n = s.profile n := endEntry_frame outcome data s (.profile n) (by simp)

theorem endEntry_context (outcome : CommandOutcome) (data : List Byte) (s : State) (o : Output) :
    (endEntry outcome data s).context o = s.context o :=
  (endEntry_frame outcome data s).context (by simp) (by simp) (by simp) (by simp) (by simp)

theorem Noted.endEntry {s : State} {k : NoticeKind} {subj : Nat} (h : Noted k subj s) (outcome : CommandOutcome)
    (data : List Byte) : Noted k subj (endEntry outcome data s) :=
  h.frame (endEntry_frame outcome data s) (by simp) (by simp) (by simp)

theorem UpToDate.endEntry {s : State} {o : Output} (h : UpToDate s o) (outcome : CommandOutcome) (data : List Byte) :
    UpToDate (endEntry outcome data s) o :=
  h.congr (endEntry_context ..) ((endEntry_frame outcome data s).time (by decide)) (endEntry_profile _ _ s)
    fun n => endEntry_frame outcome data s (.entry n) (by simp)

/-- R169: an entry goes on with a FIFO, or it has ended. -/
def GoesOnOrEnds (fifo : List Key) (t : State) : Prop :=
  (t.pin.matcher = .collecting ∧ t.panel.fifo = fifo) ∨ ∃ outcome, Ending outcome t

theorem goesOn_raise {s : State} {fifo : List Key} (hm : s.pin.matcher = .collecting) (hf : s.panel.fifo = fifo)
    (k : NoticeKind) (subj : Nat) (d : List Byte) : GoesOnOrEnds fifo (raise k subj d s) :=
  .inl ⟨by rw [raise_pin, hm], by rw [raise_panel, hf]⟩

theorem ends_endEntry {s : State} {fifo : List Key} (room : s.panel.queue.length < 4) (outcome : CommandOutcome)
    (data : List Byte) : GoesOnOrEnds fifo (endEntry outcome data s) := .inr ⟨outcome, endEntry_ending room ..⟩

/-! ### A staged push at its execution (R103) -/

theorem movedOn_iff (q : StagedPush) (s : State) : q.movedOn s = true ↔ SubjectMoved q s := by
  unfold StagedPush.movedOn SubjectMoved
  cases q.kind <;> simp [or_iff_not_imp_left]

/-- R103 step 3: the end of a staged push is reached. -/
def StagedPush.tooLate (q : StagedPush) (s : State) : Prop :=
  s.time.source ≠ .unset ∧ ∃ at_, q.endTime = some at_ ∧ at_ ≤ s.time.localSeconds

/-- R103 step 3: the end of a staged push is moved to a day ahead. -/
def StagedPush.endMoved (q : StagedPush) (s : State) : Bool := q.endTime.any (waivesTooFar s.time q.kind)

theorem endMoved_iff (q : StagedPush) (s : State) :
    q.endMoved s = true ↔ q.kind = .curfewWaive ∧ s.time.source ≠ .unset
      ∧ ∃ at_, q.endTime = some at_ ∧ s.time.localSeconds + 86400 < at_ := by
  unfold StagedPush.endMoved
  cases q.endTime <;> simp [waivesTooFar_iff]

theorem fittedEnd_late {q : StagedPush} {s : State} (h : q.tooLate s) : q.fittedEnd s = none := by
  obtain ⟨set, at_, ends, le⟩ := h
  simp only [StagedPush.fittedEnd, ends, fitEnd_passed ⟨set, le⟩, Option.map_none]

theorem fittedEnd_ahead {q : StagedPush} {s : State} (h : ¬ q.tooLate s) :
    q.fittedEnd s
      = some (if q.endMoved s = true then some (s.time.localSeconds + 86400) else q.endTime, q.endMoved s) := by
  unfold StagedPush.fittedEnd StagedPush.endMoved
  cases ends : q.endTime with
  | none => rfl
  | some at_ =>
    have ahead : ¬ EndPassed s.time at_ := fun ⟨set, le⟩ => h ⟨set, at_, ends, le⟩
    simp only [fitEnd_ahead ahead, Option.map_some, Option.any_some]
    split <;> rfl

section
variable {q : StagedPush} {s : State}

/-- R103: the refusals of a staged push, in their order. -/
theorem executePush_refused {outcome : CommandOutcome}
    (h : (SubjectMoved q s ∧ outcome = .noSuch)
      ∨ (¬ SubjectMoved q s ∧ 4 ≤ (s.context q.output).stack.length ∧ outcome = .stackFull)
      ∨ (¬ SubjectMoved q s ∧ (s.context q.output).stack.length < 4 ∧ q.tooLate s ∧ outcome = .badField)) :
    executePush q s = (s, outcome, []) := by
  unfold executePush
  obtain ⟨moved, rfl⟩ | ⟨stays, full, rfl⟩ | ⟨stays, room, late, rfl⟩ := h
  · rw [if_pos ((movedOn_iff q s).2 moved)]
  · rw [if_neg (mt (movedOn_iff q s).1 stays)]
    exact if_pos full
  · have hasRoom : ¬ Config.stackDepth ≤ (s.context q.output).stack.length := Nat.not_le.2 room
    simp only [if_neg (mt (movedOn_iff q s).1 stays), if_neg hasRoom, fittedEnd_late late]

theorem executePush_pushed (stays : ¬ SubjectMoved q s) (room : (s.context q.output).stack.length < 4)
    (ahead : ¬ q.tooLate s) {last : Option Nat}
    (hl : last = if q.endMoved s = true then some (s.time.localSeconds + 86400) else q.endTime) :
    executePush q s
      = (pushEntry q.output (q.entry last .staged) s, doneOr (q.clamped || q.endMoved s),
          pushData q.output (q.entry last .staged) (pushEntry q.output (q.entry last .staged) s)) := by
  have hasRoom : ¬ Config.stackDepth ≤ (s.context q.output).stack.length := Nat.not_le.2 room
  subst hl
  simp only [executePush, if_neg (mt (movedOn_iff q s).1 stays), if_neg hasRoom, fittedEnd_ahead ahead]

theorem pushEntry_stack (o : Output) (e : Override) (s : State) :
    ((pushEntry o e s).context o).stack = e :: (s.context o).stack := by
  obtain ⟨-, -, -, stack⟩ := evaluate_context o (s.putContext o { s.context o with stack := e :: (s.context o).stack })
  exact stack.trans (by rw [context_putContext_self])

end

theorem executeGrant_refused {s : State} {n : Fin 8} {m : Nat} {clamped : Bool} {outcome : CommandOutcome}
    (h : (s.image.operation.importsInto n = true ∧ outcome = .busy)
      ∨ (s.image.operation.importsInto n = false ∧ (s.profile n).state = .empty ∧ outcome = .noSuch)) :
    executeGrant n m clamped s = (s, outcome, []) := by
  obtain ⟨importing, rfl⟩ | ⟨idle, empty, rfl⟩ := h
  · rw [executeGrant, if_pos importing]
  · rw [executeGrant, if_neg (by simp [idle]), if_pos empty]

theorem executeGrant_granted {s : State} {n : Fin 8} {m : Nat} {clamped : Bool}
    (idle : s.image.operation.importsInto n = false) (used : (s.profile n).state ≠ .empty) :
    executeGrant n m clamped s = (grant n m s, doneOr clamped, grantData n (grant n m s)) := by
  rw [executeGrant, if_neg (by simp [idle]), if_neg used]

/-! ### A match (R64, R103, R170, R174) -/

/-- R170: a match takes back the failures counted. -/
def forgiven (s : State) : State := s.putPin { s.pin with failures := 0 }

theorem forgiven_frame (s : State) : Frame [.failures] s (forgiven s) := by
  intro p hp
  have same := p.same_refl s
  cases p
  case failures => simp at hp
  all_goals exact same

section
variable {s : State} (room : RoomToRelease s)

theorem pinMatched_session (h : s.pin.entry.purpose = .session) :
    pinMatched s = endEntry .doneOk [] (openSession (forgiven s)) := by
  simp only [pinMatched, h]
  rfl

theorem pinMatched_staged {a : Staged} (h : s.pin.entry.purpose ≠ .session) (ha : s.pin.entry.staged = some a) :
    pinMatched s = endEntry (executeStaged a (forgiven s)).2.1 (executeStaged a (forgiven s)).2.2
      (executeStaged a (forgiven s)).1 := by
  unfold pinMatched
  rw [ha]
  cases hp : s.pin.entry.purpose with
  | session => exact absurd hp h
  | grant | pinChange => rfl

theorem pinMatched_unstaged (h : s.pin.entry.purpose ≠ .session) (ha : s.pin.entry.staged = none) :
    pinMatched s = endEntry .doneOk [] (forgiven s) := by
  unfold pinMatched
  rw [ha]
  cases hp : s.pin.entry.purpose with
  | session => exact absurd hp h
  | grant | pinChange => rfl

include room

/-- R170: a match ends the entry, with no failures counted. -/
theorem pinMatched_ends : (pinMatched s).pin.failures = 0 ∧ ∃ outcome, Ending outcome (pinMatched s) := by
  have clear : RoomToRelease (forgiven s) := room
  have ending : ∀ {u : State} {outcome data}, pinMatched s = endEntry outcome data u → u.pin.failures = 0 →
      RoomToRelease u → (pinMatched s).pin.failures = 0 ∧ ∃ outcome, Ending outcome (pinMatched s) :=
    fun h failures left => by
      rw [h]
      exact ⟨(endEntry_failures ..).1.trans failures, _, endEntry_ending left.lt ..⟩
  by_cases hp : s.pin.entry.purpose = .session
  · exact ending (pinMatched_session hp) (by rw [openSession_pin]; rfl) clear.openSession
  · cases ha : s.pin.entry.staged with
    | none => exact ending (pinMatched_unstaged hp ha) rfl clear
    | some a => exact ending (pinMatched_staged hp ha) (by rw [executeStaged_pin]; rfl) (clear.executeStaged a)

/-- R174: a matched SESSION entry opens the session at its full length. -/
theorem pinMatched_opens (h : s.pin.entry.purpose = .session) :
    (pinMatched s).pin.sessionOpen = true ∧ Ending .doneOk (pinMatched s)
      ∧ (pinMatched s).pin.sessionRemaining = s.pin.sessionLength := by
  have clear : RoomToRelease (forgiven s) := room
  rw [pinMatched_session h]
  rw [endEntry_session, endEntry_remaining, openSession_pin]
  exact ⟨rfl, endEntry_ending clear.openSession.lt .., rfl⟩

/-- R64, R103: a staged action that is refused leaves all but the failures and the ending. -/
theorem pinMatched_refuses {a : Staged} {outcome : CommandOutcome} (hp : s.pin.entry.purpose = .grant)
    (ha : s.pin.entry.staged = some a) (h : executeStaged a (forgiven s) = (forgiven s, outcome, [])) :
    Ending outcome (pinMatched s) ∧ (pinMatched s).pin.entry.outcomeData = []
      ∧ Frame (.failures :: endingParts) s (pinMatched s) := by
  rw [pinMatched_staged (by simp [hp]) ha, h]
  simp only
  exact ⟨endEntry_ending (s := forgiven s) room.lt .., endEntry_data .., ((forgiven_frame s).mono (by simp)).trans
    ((endEntry_frame _ _ _).mono fun p hp => .tail _ hp)⟩

/-- R64: a staged grant. -/
theorem pinMatched_grants {n : Fin 8} {m : Nat} {clamped : Bool} (hp : s.pin.entry.purpose = .grant)
    (ha : s.pin.entry.staged = some (.grant n m clamped)) (idle : s.image.operation.importsInto n = false)
    (used : (s.profile n).state ≠ .empty) (hm : m ≤ 720) :
    Ending (doneOr clamped) (pinMatched s) ∧ (pinMatched s).profile n = grantedAccount (s.profile n) m
      ∧ (pinMatched s).pin.entry.outcomeData
        = nat32 ((pinMatched s).profile n).remaining ++ nat16 ((pinMatched s).profile n).granted := by
  have executed : executeStaged (.grant n m clamped) (forgiven s)
      = (grant n m (forgiven s), doneOr clamped, grantData n (grant n m (forgiven s))) :=
    executeGrant_granted idle used
  have left : RoomToRelease (grant n m (forgiven s)) := by
    have after := RoomToRelease.executeStaged (s := forgiven s) room (.grant n m clamped)
    rwa [executed] at after
  rw [pinMatched_staged (by simp [hp]) ha, executed]
  refine ⟨endEntry_ending left.lt .., ?_, ?_⟩
  · rw [endEntry_profile, grant_granted hm]
    rfl
  · rw [endEntry_data, endEntry_profile]
    rfl

/-- R103: a staged push. -/
theorem pinMatched_pushes {q : StagedPush} (hr : Running s) (hp : s.pin.entry.purpose = .grant)
    (ha : s.pin.entry.staged = some (.push q)) (stays : ¬ SubjectMoved q s)
    (depth : (s.context q.output).stack.length < 4) (ahead : ¬ q.tooLate s) {last : Option Nat}
    (hl : last = if q.endMoved s = true then some (s.time.localSeconds + 86400) else q.endTime) :
    Ending (doneOr (q.clamped || q.endMoved s)) (pinMatched s)
      ∧ ((pinMatched s).context q.output).stack = q.entry last .staged :: (s.context q.output).stack
      ∧ UpToDate (pinMatched s) q.output
      ∧ (pinMatched s).pin.entry.outcomeData = pushData q.output (q.entry last .staged) (pinMatched s) := by
  have executed : executeStaged (.push q) (forgiven s)
      = (pushEntry q.output (q.entry last .staged) (forgiven s), doneOr (q.clamped || q.endMoved s),
          pushData q.output (q.entry last .staged) (pushEntry q.output (q.entry last .staged) (forgiven s))) :=
    executePush_pushed (s := forgiven s) stays depth ahead hl
  have left := RoomToRelease.executeStaged (s := forgiven s) room (.push q)
  have stack := pushEntry_stack q.output (q.entry last .staged) (forgiven s)
  have judged : UpToDate (pushEntry q.output (q.entry last .staged) (forgiven s)) q.output :=
    evaluate_upToDate q.output _ hr
  have ends := pinMatched_staged (by simp [hp]) ha
  rw [executed] at left ends
  simp only at left ends
  rw [ends]
  generalize pushEntry q.output (q.entry last .staged) (forgiven s) = pushed at left stack judged
  refine ⟨endEntry_ending left.lt .., ?_, judged.endEntry .., (endEntry_data ..).trans ?_⟩
  · rw [endEntry_context, stack]
    rfl
  · simp only [pushData, endEntry_context]

end

/-! ### A mismatch (R170, R173) -/

section
variable {s : State}

theorem pinMismatched_early (h : s.pin.failures + 1 < 3) :
    pinMismatched s = raise .pinMismatch 0 []
      (s.putPin { s.pin with failures := s.pin.failures + 1, entry := s.pin.entry.cleared }) := by
  simp only [pinMismatched]
  rw [if_pos h]

theorem pinMismatched_third (h : 3 ≤ s.pin.failures + 1) :
    pinMismatched s = endEntry .lockedOut []
      (raise .pinLockout 0 (nat16 (60 * 2 ^ s.pin.step) ++ nat8 s.pin.step)
        (s.putPin { s.pin with failures := 0, step := min 4 (s.pin.step + 1), timer := 60 * 2 ^ s.pin.step })) := by
  simp only [pinMismatched]
  rw [if_neg (Nat.not_lt.2 h)]

/-- R170: a mismatch before the third is counted, and the entry starts over. -/
theorem pinMismatched_counts (hr : Running s) (h : s.pin.failures + 1 < 3) :
    (pinMismatched s).pin = { s.pin with failures := s.pin.failures + 1, entry := s.pin.entry.cleared }
      ∧ Noted .pinMismatch 0 (pinMismatched s) := by
  rw [pinMismatched_early h]
  refine ⟨raise_pin .., noted_raise ?_ ..⟩
  exact hr

/-- R170, R173: the third mismatch begins a lockout. -/
theorem pinMismatched_locksOut (hr : Running s) (room : s.panel.queue.length < 4) (h : 3 ≤ s.pin.failures + 1) :
    Ending .lockedOut (pinMismatched s) ∧ Noted .pinLockout 0 (pinMismatched s) ∧ (pinMismatched s).pin.failures = 0
      ∧ (pinMismatched s).pin.timer = 60 * 2 ^ s.pin.step ∧ (pinMismatched s).pin.step = min 4 (s.pin.step + 1) := by
  rw [pinMismatched_third h]
  set locked := raise .pinLockout 0 (nat16 (60 * 2 ^ s.pin.step) ++ nat8 s.pin.step)
    (s.putPin { s.pin with failures := 0, step := min 4 (s.pin.step + 1), timer := 60 * 2 ^ s.pin.step }) with hl
  have pin : locked.pin
      = { s.pin with failures := 0, step := min 4 (s.pin.step + 1), timer := 60 * 2 ^ s.pin.step } := raise_pin ..
  have panel : locked.panel = s.panel := raise_panel ..
  have told : Noted .pinLockout 0 locked := noted_raise (by exact hr) ..
  obtain ⟨failures, step⟩ := endEntry_failures .lockedOut [] locked
  have timer : (endEntry .lockedOut [] locked).pin.timer = locked.pin.timer :=
    endEntry_frame _ _ _ .lockoutTimer (by simp)
  refine ⟨endEntry_ending (by rw [panel]; exact room) .., told.endEntry .., ?_, ?_, ?_⟩
  · rw [failures, pin]
  · rw [timer, pin]
  · rw [step, pin]

end

/-! ### A change of PIN (R171) -/

section
variable {s : State}

/-- R171: a first collection that is too short or overlong starts over. -/
theorem judgePinChange_short (h : s.pin.entry.firstCollection = none)
    (bad : s.pin.entry.overlong = true ∨ s.pin.entry.buffer.length < 4) :
    judgePinChange s = raise .pinMismatch 0 [] (changePinEntry PinEntry.cleared s) := by
  simp only [judgePinChange, h]
  rw [if_pos (by simpa using bad)]

/-- R171: a first collection of 4 to 8 digits is kept. -/
theorem judgePinChange_first (h : s.pin.entry.firstCollection = none) (whole : s.pin.entry.overlong = false)
    (long : 4 ≤ s.pin.entry.buffer.length) :
    judgePinChange s = changePinEntry (fun e => { e with firstCollection := some e.buffer, buffer := [] }) s := by
  simp only [judgePinChange, h]
  rw [if_neg (by simp [whole, long])]

variable {first : List Digit} (h : s.pin.entry.firstCollection = some first)
include h

/-- R171: a second collection that differs starts over with the first (both marks cleared: log 26). -/
theorem judgePinChange_differs (bad : s.pin.entry.overlong = true ∨ s.pin.entry.buffer ≠ first) :
    judgePinChange s
      = raise .pinMismatch 0 [] (changePinEntry (fun e => { e.cleared with firstCollection := none }) s) := by
  simp only [judgePinChange, h]
  rw [if_pos (by simpa using bad)]

/-- R171: an equal second collection is stored under authority. -/
theorem judgePinChange_equal (whole : s.pin.entry.overlong = false) (equal : s.pin.entry.buffer = first) :
    judgePinChange s
      = if authority s then endEntry .doneOk [] (s.putPin { s.pin with stored := some first })
        else endEntry .notAuthorised [] s := by
  simp only [judgePinChange, h]
  rw [if_neg (by simp [whole, equal]), equal]

end

/-- R171: a change of PIN counts no failure. -/
theorem judgePinChange_failures (s : State) : (judgePinChange s).pin.failures = s.pin.failures := by
  unfold judgePinChange
  simp only
  split
  · split
    · rw [raise_pin]; rfl
    · rfl
  · split
    · rw [raise_pin]; rfl
    · split
      all_goals exact (endEntry_failures ..).1

/-- R171: an OK of a PIN_CHANGE entry goes on, or ends it. -/
theorem judgePinChange_goesOnOrEnds {s : State} (hm : s.pin.matcher = .collecting) (room : s.panel.queue.length < 4) :
    GoesOnOrEnds s.panel.fifo (judgePinChange s) := by
  unfold judgePinChange
  simp only
  split
  · split
    · exact goesOn_raise (s := changePinEntry _ s) hm rfl ..
    · exact .inl ⟨hm, rfl⟩
  · split
    · exact goesOn_raise (s := changePinEntry _ s) hm rfl ..
    · split
      · refine ends_endEntry ?_ ..
        exact room
      · exact ends_endEntry room ..

/-! ### OK (R169) -/

section
variable {s : State}

theorem okKey_damaged (h : s.pin.entry.damaged = true) :
    okKey s = raise .pinDamaged 0 [] (changePinEntry PinEntry.cleared s) := if_pos h

variable (whole : s.pin.entry.damaged = false)
include whole

theorem okKey_empty (h : s.pin.entry.buffer = []) : okKey s = s := by
  rw [okKey, if_neg (by simp [whole]), if_pos (by simp [h])]

variable (typed : s.pin.entry.buffer ≠ [])
include typed

theorem okKey_pinChange (h : s.pin.entry.purpose = .pinChange) : okKey s = judgePinChange s := by
  rw [okKey, if_neg (by simp [whole]), if_neg (by simp [typed])]
  simp only [h]

theorem okKey_pin (h : s.pin.entry.purpose ≠ .pinChange) :
    okKey s = if pinMatches s.pin then pinMatched s else pinMismatched s := by
  rw [okKey, if_neg (by simp [whole]), if_neg (by simp [typed])]
  cases hp : s.pin.entry.purpose with
  | pinChange => exact absurd hp h
  | session | grant => simp only

theorem okKey_match (h : s.pin.entry.purpose ≠ .pinChange) (stored : s.pin.stored = some s.pin.entry.buffer)
    (short : s.pin.entry.overlong = false) : okKey s = pinMatched s := by
  rw [okKey_pin whole typed h, if_pos (by simp [pinMatches, stored, short])]

theorem okKey_mismatch (h : s.pin.entry.purpose ≠ .pinChange)
    (bad : s.pin.stored ≠ some s.pin.entry.buffer ∨ s.pin.entry.overlong = true) : okKey s = pinMismatched s := by
  rw [okKey_pin whole typed h, if_neg]
  rw [pinMatches, Bool.and_eq_true, decide_eq_true_eq]
  rintro ⟨short, stored⟩
  obtain differs | overlong := bad
  · exact differs stored
  · simp [overlong] at short

end

/-- R170: a mismatch goes on, or ends in a lockout. -/
theorem pinMismatched_goesOnOrEnds {s : State} (hm : s.pin.matcher = .collecting) (room : s.panel.queue.length < 4) :
    GoesOnOrEnds s.panel.fifo (pinMismatched s) := by
  by_cases h : s.pin.failures + 1 < 3
  · rw [pinMismatched_early h]
    refine goesOn_raise ?_ ?_ ..
    exacts [hm, rfl]
  · rw [pinMismatched_third (Nat.not_lt.1 h)]
    exact ends_endEntry (by rw [raise_panel]; exact room) ..

theorem okKey_goesOnOrEnds {s : State} (hm : s.pin.matcher = .collecting) (room : RoomToRelease s) :
    GoesOnOrEnds s.panel.fifo (okKey s) := by
  cases damaged : s.pin.entry.damaged with
  | true =>
    rw [okKey_damaged damaged]
    exact goesOn_raise (s := changePinEntry _ s) hm rfl ..
  | false =>
    by_cases typed : s.pin.entry.buffer = []
    · rw [okKey_empty damaged typed]
      exact .inl ⟨hm, rfl⟩
    · by_cases purpose : s.pin.entry.purpose = .pinChange
      · rw [okKey_pinChange damaged typed purpose]
        exact judgePinChange_goesOnOrEnds hm room.lt
      · rw [okKey_pin damaged typed purpose]
        split
        · exact .inr (pinMatched_ends room).2
        · exact pinMismatched_goesOnOrEnds hm room.lt

/-! ### The keys (R169) -/

/-- R169: the state in which the oldest key is acted on: it is removed, and the entry is stamped. -/
def keyRemoved (rest : List Key) (s : State) : State :=
  changePinEntry (fun e => { e with lastKeyStamp := s.time.run }) (s.putPanel { s.panel with fifo := rest })

theorem keyRemoved_frame (rest : List Key) (s : State) : Frame [.keyFifo, .pinEntry] s (keyRemoved rest s) := by
  intro p hp
  have same := p.same_refl s
  cases p
  case keyFifo | pinEntry => simp at hp
  all_goals exact same

theorem takeKey_collecting {s : State} {k : Key} {rest : List Key} (hm : s.pin.matcher = .collecting)
    (hf : s.panel.fifo = k :: rest) : takeKey s = actOnKey k (keyRemoved rest s) := by
  simp only [takeKey, hm, hf]
  rfl

theorem digitOf_code {code : Byte} {d : Digit} (h : code.toNat = 0x30 + d.val) : digitOf code = some d := by
  have digit : 0x30 ≤ code.toNat ∧ code.toNat ≤ 0x39 := by omega
  rw [digitOf, dif_pos digit]
  exact congrArg some (Fin.ext (by simp only [h]; omega))

theorem digitOf_other {code : Byte} (h : code.toNat < 0x30 ∨ 0x39 < code.toNat) : digitOf code = none :=
  dif_neg (by omega)

section
variable {k : Key} {s : State}

theorem actOnKey_flagged (h : k.flagged = true) :
    actOnKey k s = changePinEntry (fun e => { e with damaged := true }) s := if_pos h

variable (clean : k.flagged = false)
include clean

theorem actOnKey_digit {d : Digit} (h : k.code.toNat = 0x30 + d.val) :
    actOnKey k s = changePinEntry (fun e => e.withDigit d) s := by
  rw [actOnKey, if_neg (by simp [clean]), digitOf_code h]

theorem actOnKey_back (h : k.code = 0x08) :
    actOnKey k s = changePinEntry (fun e => { e with buffer := e.buffer.dropLast }) s := by
  rw [actOnKey, if_neg (by simp [clean]), h]
  rfl

theorem actOnKey_cancel (h : k.code = 0x1B) : actOnKey k s = endEntry .cancelled [] s := by
  rw [actOnKey, if_neg (by simp [clean]), h]
  rfl

theorem actOnKey_ok (h : k.code = 0x0D) : actOnKey k s = okKey s := by
  rw [actOnKey, if_neg (by simp [clean]), h]
  rfl

theorem actOnKey_other (back : k.code ≠ 0x08) (cancel : k.code ≠ 0x1B) (ok : k.code ≠ 0x0D)
    (h : k.code.toNat < 0x30 ∨ 0x39 < k.code.toNat) : actOnKey k s = s := by
  rw [actOnKey, if_neg (by simp [clean]), digitOf_other h]
  split
  · next digit => cases digit
  · next code => exact absurd (BitVec.eq_of_toNat_eq code) back
  · next code => exact absurd (BitVec.eq_of_toNat_eq code) cancel
  · next code => exact absurd (BitVec.eq_of_toNat_eq code) ok
  · rfl

end

/-- R169: after a key the entry goes on, or it has ended. -/
theorem actOnKey_goesOnOrEnds {k : Key} {s : State} (hm : s.pin.matcher = .collecting) (room : RoomToRelease s) :
    GoesOnOrEnds s.panel.fifo (actOnKey k s) := by
  unfold actOnKey
  split
  · exact .inl ⟨hm, rfl⟩
  · split
    · exact .inl ⟨hm, rfl⟩
    · exact .inl ⟨hm, rfl⟩
    · exact ends_endEntry room.lt ..
    · exact okKey_goesOnOrEnds hm room
    · exact .inl ⟨hm, rfl⟩

/-- The data of a staged push are its depth, the end stored and its origin (log 52). -/
theorem pushData_staged (q : StagedPush) (last : Option Nat) (below : List Override) (t : State) :
    (t.context q.output).stack = q.entry last .staged :: below → pushData q.output (q.entry last .staged) t
      = nat8 (below.length + 1)
        ++ (match last with
          | some u => localField u
          | none => [])
        ++ nat8 1 := fun h => by
  rw [pushData, h]
  rfl

/-- Settles O57: the key taken is acted on as its code says, and OK is judged by purpose. -/
theorem keysAreTaken : Obligations.KeysAreTaken := by
  unfold Obligations.KeysAreTaken
  intro s k rest e hr hm hf he few
  have taken : exec .keyTaken s = .next (actOnKey k (keyRemoved rest s)) := by
    rw [← takeKey_collecting hm hf, ← whileRunning_eq (f := takeKey) hr]
    rfl
  have frame : Frame keyParts s (actOnKey k (keyRemoved rest s)) :=
    takeKey_collecting hm hf ▸ (takeKey_within s).frame
  have removed := keyRemoved_frame rest s
  have room : RoomToRelease (keyRemoved rest s) := .inl few
  have running : Running (keyRemoved rest s) := hr
  have collecting : (keyRemoved rest s).pin.matcher = .collecting := hm
  have goesOn := actOnKey_goesOnOrEnds (k := k) collecting room
  obtain rfl : e = (keyRemoved rest s).pin.entry := he
  refine ⟨_, taken, frame, fun going => ?fifo, fun ended => ?ended, fun flagged => ?flagged, fun clean =>
    ⟨fun d digit => ?digit, fun back => ?back, fun cancel => ?cancel, fun b c o other => ?other,
      fun ok damaged => ?damaged, fun ok whole empty => ?empty, fun ok whole typed => ⟨fun purpose =>
        ⟨fun stored short => ?matched, fun bad => ⟨fun early => ?early, fun third => ?third⟩⟩,
        fun purpose => ⟨?failures, fun none => ⟨fun bad => ?short, fun neat long => ?first⟩,
          fun first held => ⟨fun bad => ?differs, fun neat equal => ?equal⟩⟩⟩⟩⟩
  case fifo =>
    obtain ⟨-, hfifo⟩ | ⟨outcome, matcher, -⟩ := goesOn
    · exact hfifo
    · rw [matcher] at going
      cases going
  case ended => exact goesOn.resolve_left fun going => ended going.1
  case flagged => rw [actOnKey_flagged flagged]; exact ⟨hm, rfl⟩
  case digit => rw [actOnKey_digit clean digit]; exact ⟨hm, rfl⟩
  case back => rw [actOnKey_back clean back]; exact ⟨hm, rfl⟩
  case cancel =>
    rw [actOnKey_cancel clean cancel]
    exact ⟨endEntry_ending room.lt .., (endEntry_failures ..).1⟩
  case other => rw [actOnKey_other clean b c o other]; exact ⟨hm, rfl⟩
  case damaged =>
    rw [actOnKey_ok clean ok, okKey_damaged damaged, raise_pin]
    exact ⟨hm, rfl, rfl, noted_raise (by exact hr) ..⟩
  case empty => rw [actOnKey_ok clean ok, okKey_empty whole empty]; exact ⟨hm, rfl⟩
  case matched =>
    rw [actOnKey_ok clean ok, okKey_match whole typed purpose stored short]
    obtain ⟨failures, outcome, ending⟩ := pinMatched_ends room
    refine ⟨failures, ending.1, fun session => pinMatched_opens room session,
      fun n m clamped grant staged idle used least => pinMatched_grants room grant staged idle used least,
      fun n m clamped grant staged outcome refused => ?_, fun q reached push staged late => ⟨fun outcome refused => ?_,
        fun stays depth ahead => ?_⟩⟩
    · obtain ⟨ending, data, f⟩ := pinMatched_refuses room grant staged (executeGrant_refused refused)
      exact ⟨ending, data, (removed.mono (by simp)).trans f⟩
    · obtain ⟨ending, data, f⟩ := pinMatched_refuses room push staged (executePush_refused (refused.imp_right
        (·.imp_right fun ⟨stays, depth, is, named⟩ => ⟨stays, depth, late.1 is, named⟩)))
      exact ⟨ending, data, (removed.mono (by simp)).trans f⟩
    · have inTime : ¬ q.tooLate s := fun h => by simp [late.2 h] at ahead
      obtain ⟨ending, stack, judged, data⟩ := pinMatched_pushes room running push staged stays depth inTime rfl
      exact ⟨q.endMoved s, _, endMoved_iff q s, rfl, ending, stack, judged, data.trans (pushData_staged _ _ _ _ stack)⟩
  case early =>
    rw [actOnKey_ok clean ok, okKey_mismatch whole typed purpose bad]
    obtain ⟨after, told⟩ := pinMismatched_counts running early
    rw [after]
    exact ⟨rfl, hm, rfl, told⟩
  case third =>
    rw [actOnKey_ok clean ok, okKey_mismatch whole typed purpose bad]
    exact pinMismatched_locksOut running room.lt third
  case failures =>
    rw [actOnKey_ok clean ok, okKey_pinChange whole typed purpose, judgePinChange_failures]
    rfl
  all_goals rw [actOnKey_ok clean ok, okKey_pinChange whole typed purpose]
  case short =>
    rw [judgePinChange_short none bad, raise_pin]
    exact ⟨rfl, hm, noted_raise (by exact hr) ..⟩
  case first =>
    rw [judgePinChange_first none neat long]
    exact ⟨rfl, hm⟩
  case differs =>
    rw [judgePinChange_differs held bad, raise_pin]
    exact ⟨rfl, hm, noted_raise (by exact hr) ..⟩
  case equal =>
    rw [judgePinChange_equal held neat equal, show authority (keyRemoved rest s) = authority s from rfl]
    refine ⟨fun ha => ?_, fun ha => ?_⟩
    · rw [if_pos ha]
      exact ⟨endEntry_stored .., endEntry_ending (by exact room.lt) .., endEntry_session ..⟩
    · rw [if_neg (by simp [ha])]
      exact ⟨endEntry_stored .., endEntry_ending room.lt ..⟩

end Sys2Proof.Machine
end

section
/-! PROOF. Profile images (R80, R84, R85, section 12.5): where each field of an image lies, and what is read back
from it. -/

namespace Sys2Proof.Machine

open Sys2Proof

/-! ### Fields laid out one behind the other -/

/-- The fields of a list with the offset at which each lies when they are laid out from an offset on. -/
def laidFrom (offset : Nat) : List (List Byte) → List (Nat × List Byte)
  | [] => []
  | field :: rest => (offset, field) :: laidFrom (offset + field.length) rest

theorem holds_between (before field after : List Byte) : Holds (before ++ (field ++ after)) before.length field := by
  simp [Holds]

/-- A record made of fields holds each at its offset. -/
theorem holdsAll_laidFrom (fields : List (List Byte)) (before : List Byte) :
    HoldsAll (before ++ fields.flatten) (laidFrom before.length fields) := by
  induction fields generalizing before with
  | nil => simp [HoldsAll, laidFrom]
  | cons field rest ih =>
    intro f hf
    rw [laidFrom, List.mem_cons] at hf
    obtain rfl | hf := hf
    · exact holds_between before field rest.flatten
    · have := ih (before ++ field)
      rw [List.length_append, List.append_assoc] at this
      exact this f hf

section
variable {record field : List Byte} {i : Nat} (h : Holds record i field)
include h

/-- A byte of a field that a record holds is a byte of the record. -/
theorem byteAt_of_holds {k : Nat} (hk : k < field.length) : byteAt record (i + k) = byteAt field k := by
  obtain ⟨-, part⟩ := h
  have same : (record[i + k]?) = field[k]? := by
    rw [← List.getElem?_drop, ← List.getElem?_take_of_lt hk, part]
  simp only [byteAt, List.getD_eq_getElem?_getD, same]

theorem halfAt_of_holds {k : Nat} (hk : k + 1 < field.length) : halfAt record (i + k) = halfAt field k := by
  rw [halfAt, Nat.add_assoc, byteAt_of_holds h (by omega), byteAt_of_holds h hk, halfAt]

theorem wordAt_of_holds {k : Nat} (hk : k + 3 < field.length) : wordAt record (i + k) = wordAt field k := by
  simp only [wordAt, Nat.add_assoc]
  rw [byteAt_of_holds h (by omega), byteAt_of_holds h (by omega), byteAt_of_holds h (by omega), byteAt_of_holds h hk]

end

section
variable {record : List Byte} {i n : Nat}

theorem byteAt_nat8 (h : Holds record i (nat8 n)) : byteAt record i = BitVec.ofNat 8 n :=
  byteAt_of_holds (k := 0) h Nat.zero_lt_one

theorem halfAt_nat16 (h : Holds record i (nat16 n)) : halfAt record i = BitVec.ofNat 16 n :=
  (halfAt_of_holds (k := 0) h Nat.one_lt_two).trans (le16_bytes16 _)

theorem wordAt_bytes32 {x : Word} (h : Holds record i (bytes32 x)) : wordAt record i = x :=
  (wordAt_of_holds (k := 0) h (Nat.lt_succ_self 3)).trans (le32_bytes32 x)

end


/-! ### The layout of an image (section 12.5) -/

theorem nat8_length (n : Nat) : (nat8 n).length = 1 := rfl

theorem nat16_length (n : Nat) : (nat16 n).length = 2 := rfl

theorem nat32_length (n : Nat) : (nat32 n).length = 4 := rfl

theorem bytes32_length (x : Word) : (bytes32 x).length = 4 := rfl

theorem curfewField_length (w : Option Curfew) : (curfewField w).length = 5 := by cases w <;> rfl

theorem allowanceField_length (a : Option Nat) : (allowanceField a).length = 2 := by cases a <;> rfl

theorem dayField4_length (d : Option Nat) : (dayField4 d).length = 4 := by cases d <;> rfl

/-- The fields of an image in their order. -/
def imageFields (salt : BitVec 64) (p : Profile) : List (List Byte) :=
  [nat8 1, nat8 (profileStateCode p.state), nat8 (ceilingCode p.ceiling).1, nat8 (ceilingCode p.ceiling).2,
    [p.blockMask], nat8 (policyCode p.unrated), nat8 (policyCode p.scheme), nat8 (policyCode p.absent),
    nat8 p.pendingLimit, nat8 0, allowanceField p.allowance, nat16 p.carryCap, nat16 p.lead,
    nat8 p.rates[0], nat8 p.rates[1], nat8 p.rates[2], nat8 p.rates[3],
    curfewField p.curfews[0], curfewField p.curfews[1], curfewField p.curfews[2], nat8 0,
    nat32 p.remaining, nat32 p.charged, nat16 p.granted, nat16 0, dayField4 p.budgetDay, List.replicate 8 0,
    bytes32 (imageCheck salt (profileBody p))]

theorem profileImage_eq (salt : BitVec 64) (p : Profile) : profileImage salt p = (imageFields salt p).flatten := by
  unfold profileImage imageFields
  generalize bytes32 (imageCheck salt (profileBody p)) = check
  unfold profileBody
  simp only [List.flatten_cons, List.flatten_nil, List.append_assoc, List.append_nil]

/-- Section 12.5: where an image holds each field of its record. -/
theorem profileImage_holds (salt : BitVec 64) (p : Profile) :
    HoldsAll (profileImage salt p)
      [(0, nat8 1), (1, nat8 (profileStateCode p.state)), (2, nat8 (ceilingCode p.ceiling).1),
        (3, nat8 (ceilingCode p.ceiling).2), (4, [p.blockMask]), (5, nat8 (policyCode p.unrated)),
        (6, nat8 (policyCode p.scheme)), (7, nat8 (policyCode p.absent)), (8, nat8 p.pendingLimit), (9, nat8 0),
        (10, allowanceField p.allowance), (12, nat16 p.carryCap), (14, nat16 p.lead),
        (16, nat8 p.rates[0]), (17, nat8 p.rates[1]), (18, nat8 p.rates[2]), (19, nat8 p.rates[3]),
        (20, curfewField p.curfews[0]), (25, curfewField p.curfews[1]), (30, curfewField p.curfews[2]), (35, nat8 0),
        (36, nat32 p.remaining), (40, nat32 p.charged), (44, nat16 p.granted), (46, nat16 0),
        (48, dayField4 p.budgetDay), (52, List.replicate 8 0), (60, bytes32 (imageCheck salt (profileBody p)))] := by
  have laid := holdsAll_laidFrom (imageFields salt p) []
  rw [List.nil_append, ← profileImage_eq] at laid
  simpa only [laidFrom, imageFields, nat8_length, nat16_length, nat32_length, bytes32_length, curfewField_length,
    allowanceField_length, dayField4_length, List.length_cons, List.length_nil, List.length_replicate,
    Nat.reduceAdd] using laid

theorem profileBody_length (p : Profile) : (profileBody p).length = 60 := by
  unfold profileBody
  simp only [nat8_length, nat16_length, nat32_length, curfewField_length, allowanceField_length, dayField4_length,
    List.length_append, List.length_cons, List.length_nil, List.length_replicate]

theorem profileImage_length (salt : BitVec 64) (p : Profile) : (profileImage salt p).length = 64 := by
  rw [profileImage, List.length_append, profileBody_length]
  rfl

theorem profileImage_sealed (salt : BitVec 64) (p : Profile) : imageSealed salt (profileImage salt p) = true := by
  have body : (profileImage salt p).take 60 = profileBody p := List.take_left' (profileBody_length p)
  have check : wordAt (profileImage salt p) 60 = imageCheck salt (profileBody p) := by
    have held := profileImage_holds salt p (60, bytes32 (imageCheck salt (profileBody p))) (by simp)
    exact wordAt_bytes32 held
  have format : byteAt (profileImage salt p) 0 = 0x01 := by
    have held := profileImage_holds salt p (0, nat8 1) (by simp)
    exact byteAt_nat8 held
  rw [imageSealed, body, check, format]
  simp

/-! ### Reading the fields back (R84) -/

section
variable {w hi n : Nat} (h : n ≤ hi) (fits : hi < 2 ^ w)
include h fits

theorem toNat_ofNat_of_le : (BitVec.ofNat w n).toNat = n := by
  rw [BitVec.toNat_ofNat, Nat.mod_eq_of_lt (h.trans_lt fits)]

/-- R84: a number in its limit reads back. -/
theorem atMost_ofNat : atMost hi (BitVec.ofNat w n).toNat = some n := by
  rw [toNat_ofNat_of_le h fits, atMost, if_pos h]

/-- R85: a number in its limit is not clamped. -/
theorem min_ofNat : min hi (BitVec.ofNat w n).toNat = n := by
  rw [toNat_ofNat_of_le h fits, Nat.min_eq_right h]

end

theorem imageState_code {st : ProfileState} (h : st ≠ .empty) :
    imageState (BitVec.ofNat 8 (profileStateCode st)) = some st := by
  cases st with
  | empty => exact absurd rfl h
  | active | suspended => rfl

theorem policyOf_code (p : Policy) : policyOf (BitVec.ofNat 8 (policyCode p)) = some p := by
  cases p <;> rfl

theorem imageCeiling_code {c : Ceiling} (h : ∀ a, c = .age a → a ≤ 21) :
    imageCeiling (BitVec.ofNat 8 (ceilingCode c).1) (BitVec.ofNat 8 (ceilingCode c).2) = some c := by
  cases c with
  | age a =>
    show (atMost 21 (BitVec.ofNat 8 a).toNat).map Ceiling.age = _
    rw [atMost_ofNat (h a rfl) (by decide)]
    rfl
  | opened | closed => rfl

theorem imageAllowance_field {a : Option Nat} (h : ∀ n, a = some n → n ≤ 1440) :
    imageAllowance (halfAt (allowanceField a) 0) = some a := by
  cases a with
  | none => rfl
  | some n =>
    have le := h n rfl
    have limited : BitVec.ofNat 16 n ≠ 0xFFFF := by bv_omega
    have read : halfAt (allowanceField (some n)) 0 = BitVec.ofNat 16 n := le16_bytes16 _
    rw [read, imageAllowance, if_neg limited, atMost_ofNat le (by decide)]
    rfl

theorem imageDay_field {d : Option Nat} (h : ∀ n, d = some n → n ≤ 65535) :
    imageDay (wordAt (dayField4 d) 0) = some d := by
  cases d with
  | none => rfl
  | some n =>
    have le := h n rfl
    have set : BitVec.ofNat 32 n ≠ 0xFFFFFFFF := by bv_omega
    have read : wordAt (dayField4 (some n)) 0 = BitVec.ofNat 32 n := le32_bytes32 _
    rw [read, imageDay, if_neg set, atMost_ofNat le (by decide)]
    rfl

/-- The seven day flags of a mask stand behind the bit that marks a held window. -/
theorem markedDays {days : Byte} (h : days.toNat < 128) :
    (days ||| 0x80).getLsbD 7 = true ∧ (days ||| 0x80) &&& 0x7F = days := by
  have all : ∀ d : Byte, d.toNat < 128 → (d ||| 0x80).getLsbD 7 = true ∧ (d ||| 0x80) &&& 0x7F = d := by decide
  exact all days h

/-- R76, R84: a curfew slot that an image holds reads back. -/
theorem imageCurfew_of_holds {image : List Byte} {i : Nat} {w : Option Curfew} (held : Holds image i (curfewField w))
    (h : ∀ x, w = some x → x.legal) : imageCurfew image i = some w := by
  have len := curfewField_length w
  have days := byteAt_of_holds (k := 0) held (by omega)
  have first := halfAt_of_holds (k := 1) held (by omega)
  have last := halfAt_of_holds (k := 3) held (by omega)
  rw [Nat.add_zero] at days
  rw [imageCurfew, days, first, last]
  cases w with
  | none => rfl
  | some w =>
    obtain ⟨some_day, seven, start_le, end_le, differ⟩ := h w rfl
    obtain ⟨marked, same⟩ := markedDays seven
    have first : (halfAt (curfewField (some w)) 1).toNat = w.startMinute :=
      (congrArg BitVec.toNat (le16_bytes16 _)).trans (toNat_ofNat_of_le start_le (by decide))
    have last : (halfAt (curfewField (some w)) 3).toNat = w.endMinute :=
      (congrArg BitVec.toNat (le16_bytes16 _)).trans (toNat_ofNat_of_le end_le (by decide))
    have mask : byteAt (curfewField (some w)) 0 = w.days ||| 0x80 := rfl
    have legal : legalWindow (w.days ||| 0x80) w.startMinute w.endMinute = true := by
      simp only [legalWindow, same, decide_eq_true_eq]
      exact ⟨some_day, start_le, end_le, differ⟩
    simp only [mask, first, last, marked, legal, same, if_true]

/-! ### The image of a record (R80, R84, R85) -/

section
variable {p : Profile} (legal : p.inRange) (salt : BitVec 64)
include legal

theorem imageRates_profileImage : imageRates (profileImage salt p) = some p.rates := by
  obtain ⟨-, -, -, -, -, rates, -⟩ := legal
  have four : #v[p.rates[0], p.rates[1], p.rates[2], p.rates[3]] = p.rates := by
    ext i hi
    interval_cases i <;> rfl
  have held := profileImage_holds salt p
  rw [imageRates,
    byteAt_nat8 (held (16, nat8 p.rates[0]) (by simp)), atMost_ofNat (n := p.rates[0]) (rates 0) (by decide),
    byteAt_nat8 (held (17, nat8 p.rates[1]) (by simp)), atMost_ofNat (n := p.rates[1]) (rates 1) (by decide),
    byteAt_nat8 (held (18, nat8 p.rates[2]) (by simp)), atMost_ofNat (n := p.rates[2]) (rates 2) (by decide),
    byteAt_nat8 (held (19, nat8 p.rates[3]) (by simp)), atMost_ofNat (n := p.rates[3]) (rates 3) (by decide)]
  exact congrArg some four

theorem imageCurfews_profileImage : imageCurfews (profileImage salt p) = some p.curfews := by
  obtain ⟨-, -, -, -, -, -, windows, -⟩ := legal
  have three : #v[p.curfews[0], p.curfews[1], p.curfews[2]] = p.curfews := by
    ext1 i hi
    interval_cases i <;> rfl
  have held := profileImage_holds salt p
  rw [imageCurfews, imageCurfew_of_holds (held (20, curfewField p.curfews[0]) (by simp)) (windows 0),
    imageCurfew_of_holds (held (25, curfewField p.curfews[1]) (by simp)) (windows 1),
    imageCurfew_of_holds (held (30, curfewField p.curfews[2]) (by simp)) (windows 2)]
  exact congrArg some three

/-- R85: nothing of a record in its ranges is clamped. -/
theorem imageClamped_profileImage : imageClamped (profileImage salt p) = false := by
  obtain ⟨-, -, -, -, -, -, -, remaining, charged, granted⟩ := legal
  have held := profileImage_holds salt p
  rw [imageClamped, wordAt_bytes32 (held (36, nat32 p.remaining) (by simp)),
    wordAt_bytes32 (held (40, nat32 p.charged) (by simp)), halfAt_nat16 (held (44, nat16 p.granted) (by simp))]
  simp only [Config.quartersPerDay, BitVec.toNat_ofNat, decide_eq_false_iff_not] at *
  omega

/-- R84: the record of an image reads back. -/
theorem imageRecord_profileImage (used : p.state ≠ .empty) (day : ∀ b, p.budgetDay = some b → b ≤ 65535) :
    imageRecord (profileImage salt p) = some p := by
  have rates := imageRates_profileImage legal salt
  have curfews := imageCurfews_profileImage legal salt
  obtain ⟨age, limit, allowance, cap, lead, -, -, remaining, charged, granted⟩ := legal
  have held := profileImage_holds salt p
  have state : imageState (byteAt (profileImage salt p) 1) = some p.state := by
    rw [byteAt_nat8 (held (1, nat8 (profileStateCode p.state)) (by simp)), imageState_code used]
  have ceiling : imageCeiling (byteAt (profileImage salt p) 2) (byteAt (profileImage salt p) 3) = some p.ceiling := by
    rw [byteAt_nat8 (held (2, nat8 (ceilingCode p.ceiling).1) (by simp)),
      byteAt_nat8 (held (3, nat8 (ceilingCode p.ceiling).2) (by simp)), imageCeiling_code age]
  have mask : byteAt (profileImage salt p) 4 = p.blockMask :=
    byteAt_of_holds (k := 0) (held (4, [p.blockMask]) (by simp)) Nat.zero_lt_one
  have unrated : policyOf (byteAt (profileImage salt p) 5) = some p.unrated := by
    rw [byteAt_nat8 (held (5, nat8 (policyCode p.unrated)) (by simp)), policyOf_code]
  have scheme : policyOf (byteAt (profileImage salt p) 6) = some p.scheme := by
    rw [byteAt_nat8 (held (6, nat8 (policyCode p.scheme)) (by simp)), policyOf_code]
  have absent : policyOf (byteAt (profileImage salt p) 7) = some p.absent := by
    rw [byteAt_nat8 (held (7, nat8 (policyCode p.absent)) (by simp)), policyOf_code]
  have limit : atMost 60 (byteAt (profileImage salt p) 8).toNat = some p.pendingLimit := by
    rw [byteAt_nat8 (held (8, nat8 p.pendingLimit) (by simp)), atMost_ofNat limit (by decide)]
  have allowance : imageAllowance (halfAt (profileImage salt p) 10) = some p.allowance := by
    rw [halfAt_of_holds (k := 0) (held (10, allowanceField p.allowance) (by simp)) (by simp [allowanceField_length]),
      imageAllowance_field allowance]
  have cap : atMost 720 (halfAt (profileImage salt p) 12).toNat = some p.carryCap := by
    rw [halfAt_nat16 (held (12, nat16 p.carryCap) (by simp)), atMost_ofNat cap (by decide)]
  have lead : atMost 900 (halfAt (profileImage salt p) 14).toNat = some p.lead := by
    rw [halfAt_nat16 (held (14, nat16 p.lead) (by simp)), atMost_ofNat lead (by decide)]
  have remaining : min Config.quartersPerDay (wordAt (profileImage salt p) 36).toNat = p.remaining := by
    rw [wordAt_bytes32 (held (36, nat32 p.remaining) (by simp)), min_ofNat remaining (by decide)]
  have charged : min Config.quartersPerDay (wordAt (profileImage salt p) 40).toNat = p.charged := by
    rw [wordAt_bytes32 (held (40, nat32 p.charged) (by simp)), min_ofNat charged (by decide)]
  have granted : min 1440 (halfAt (profileImage salt p) 44).toNat = p.granted := by
    rw [halfAt_nat16 (held (44, nat16 p.granted) (by simp)), min_ofNat granted (by decide)]
  have day : imageDay (wordAt (profileImage salt p) 48) = some p.budgetDay := by
    rw [wordAt_of_holds (k := 0) (held (48, dayField4 p.budgetDay) (by simp)) (by simp [dayField4_length]),
      imageDay_field day]
  rw [imageRecord, state, ceiling, mask, unrated, scheme, absent, limit, allowance, cap, lead, rates, curfews,
    remaining, charged, granted, day]
  rfl

end

/-! ### What is read from an image (R84) -/

theorem imageDay_le {w : Word} {d : Option Nat} (h : imageDay w = some d) : ∀ b, d = some b → b ≤ 65535 := by
  rintro b rfl
  unfold imageDay at h
  split at h
  · cases h
  · obtain ⟨n, hn, e⟩ := Option.map_eq_some_iff.1 h
    cases e
    exact atMost_le hn

theorem imageRecord_day {image : List Byte} {p : Profile} (h : imageRecord image = some p) :
    imageDay (wordAt image 48) = some p.budgetDay := by
  simp only [imageRecord, Option.bind_eq_bind, Option.bind_eq_some_iff, Option.some.injEq] at h
  obtain ⟨_, -, _, -, _, -, _, -, _, -, _, -, _, -, _, -, _, -, _, -, _, -, day, read, rfl⟩ := h
  exact read

theorem readImage_some {salt : BitVec 64} {image : List Byte} {p : Profile} :
    readImage salt image = some p
      ↔ wordAt image 60 = imageCheck salt (image.take 60) ∧ byteAt image 0 = 0x01 ∧ imageRecord image = some p := by
  simp only [readImage, imageSealed, Option.ite_none_right_eq_some, Bool.and_eq_true, decide_eq_true_eq, and_assoc]

/-- Settles O36: the fields of an image lie where they are read, and each reads back; what is read passed the seal
and the limits of its fields. -/
theorem imageRoundTrip : Obligations.ImageRoundTrip := by
  unfold Obligations.ImageRoundTrip
  refine fun salt => ⟨fun p legal used day => ⟨profileImage_length salt p, ?_, imageClamped_profileImage legal salt⟩,
    fun image p read => ?_⟩
  · rw [readImage, if_pos (profileImage_sealed salt p), imageRecord_profileImage legal salt used day]
  · obtain ⟨check, format, record⟩ := readImage_some.1 read
    obtain ⟨⟨legal, -⟩, used⟩ := readImage_ok read
    exact ⟨check, format, legal, used, imageDay_le (imageRecord_day record)⟩

end Sys2Proof.Machine
end

section
/-! PROOF. SET_PROFILE_LIMITS, SET_PROFILE_TIME, SET_CURFEW and CURFEW_CLEAR (R65, R66, R73 to R77): the checks they
share, the operands they clamp, and the record they write. -/

namespace Sys2Proof.Machine

open Sys2Proof

/-! ### What the profile commands share (R51, R73) -/

/-- R51: an account that passes into exhaustion is told. -/
theorem noteExhaustion_noted {s : State} {n : Fin 8} {before : Profile} (hr : Running s)
    (after : (s.profile n).exhausted = true) (left : before.exhausted = false) :
    Noted .budgetExhausted n.val (noteExhaustion n before s) := by
  rw [noteExhaustion, after, left]
  exact noted_raise hr ..

/-- The state that `writeProfile` leaves. -/
def profileWritten (n : Fin 8) (p : Profile) (s : State) : State :=
  evaluateProfile n (noteExhaustion n (s.profile n) (s.putProfile n p))

theorem writeProfile_eq (n : Fin 8) (p : Profile) (clamped : Bool) (s : State) :
    writeProfile n p clamped s
      = (profileWritten n p s, .done (doneOr clamped) (profileData n (profileWritten n p s))) := rfl

theorem profileWritten_frame (n : Fin 8) (p : Profile) (s : State) :
    Frame (.profile n :: allJudged) s (profileWritten n p s) :=
  (((putProfile_frame n p s).mono (by simp)).trans ((noteExhaustion_within ..).frame.mono (by simp))).trans
    ((evaluateProfile_within n _).frame.mono fun _ hp => .tail _ hp)

theorem profileWritten_noted {s : State} (hr : Running s) {n : Fin 8} {p : Profile} (after : p.exhausted = true)
    (left : (s.profile n).exhausted = false) : Noted .budgetExhausted n.val (profileWritten n p s) :=
  (noteExhaustion_noted (s := s.putProfile n p) hr (by rwa [profile_putProfile_self]) left).evaluateWhere _

theorem profileWritten_upToDate {s : State} (hr : Running s) (n : Fin 8) (p : Profile) :
    BoundUpToDate n (profileWritten n p s) :=
  evaluateProfile_upToDate
    (((noteExhaustion_within n (s.profile n) (s.putProfile n p)).frame .systemReset (by simp)).trans hr) n

section
variable {i : Instr} {c : Command} {s : State} (hi : commandOf i = some c) (hr : Ready i s)
  (lasting : Part.sessionRemaining ∉ commandParts c)
include hi hr lasting

theorem profileCommand_refused {outcome : CommandOutcome}
    (owner : obey s.command.pointer c (atOwner c s) = refuse outcome (atOwner c s)) : Refuses i outcome s :=
  refuses_of_obey hi hr (fun e => lasting (by rw [e]; decide)) lasting owner

/-- R73: what the row of a profile command leaves where its owner writes the record. -/
theorem profileCommand_writes {n : Fin 8} {p : Profile} {clamped : Bool}
    (owner : obey s.command.pointer c (atOwner c s) = writeProfile n p clamped (atOwner c s)) :
    ∃ t, Ends i (.done (doneOr clamped) (profileData n t)) (.profile n :: allJudged) s t
      ∧ t.profile n = p
      ∧ (p.exhausted = true → (s.profile n).exhausted = false → Noted .budgetExhausted n.val t)
      ∧ BoundUpToDate n t := by
  have running := atOwner_running hr.1.1 c
  obtain ⟨t, ends, f⟩ := ends_of_obey hi hr (fun e => lasting (by rw [e]; decide)) lasting
    (owner.trans (writeProfile_eq ..)) (profileWritten_frame n p (atOwner c s))
  refine ⟨t, ?_, (ring_profile f n).trans (writeProfile_profile n p clamped _), fun after left => ?_, fun o ho => ?_⟩
  · rw [profileData_congr (ring_profile f n)]
    exact ends
  · exact ring_noted f (profileWritten_noted running after (by rwa [atOwner_profile]))
  · rw [ring_context f] at ho
    exact ring_upToDate f (profileWritten_upToDate running n p o ho)

/-- R73: the checks that every profile command makes first. -/
theorem profileCommand_row {p : Byte} {act : Fin 8 → State → State × Response} {done : Fin 8 → Prop}
    (owner : ∀ u, obey s.command.pointer c u = onProfile p act u)
    (acts : ∀ n, obey s.command.pointer c (atOwner c s) = act n (atOwner c s) → done n) :
    (8 ≤ p.toNat → Refuses i .badField s)
      ∧ ∀ n : Fin 8, n.val = p.toNat →
        (s.image.operation.importsInto n = true → Refuses i .busy s)
        ∧ (s.image.operation.importsInto n = false → done n) := by
  refine ⟨fun h => ?bad, fun n hn => ⟨fun h => ?busy, fun idle => acts n ?taken⟩⟩
  case bad =>
    refine profileCommand_refused hi hr lasting ?_
    rw [owner, onProfile, profileSlotOf_none h]
  case busy =>
    refine profileCommand_refused hi hr lasting ?_
    rw [owner, onProfile_slot hn, atOwner_image, if_pos h]
  case taken => rw [owner, onProfile_slot hn, atOwner_image, if_neg (by simp [idle])]

end

/-! ### Operands (R74, R75, R77, R187) -/

theorem clampTo_eq (hi n : Nat) : clampTo hi n = (min hi n, decide (hi < n)) := by
  unfold clampTo
  split
  · next far => simp [far, Nat.min_eq_left far.le]
  · next near => simp [near, Nat.min_eq_right (Nat.le_of_not_lt near)]

theorem policyOf_named {b : Byte} (h : b.toNat < 2) : policyOf b = some (if b = 0 then .allow else .block) := by
  have all : ∀ b : Byte, b.toNat < 2 → policyOf b = some (if b = 0 then .allow else .block) := by decide
  exact all b h

theorem policyOf_none {b : Byte} (h : 2 ≤ b.toNat) : policyOf b = none := by
  unfold policyOf
  split
  · omega
  · omega
  · rfl

theorem ceilingOf_named {kind : Byte} (h : kind.toNat < 3) (age : Byte) :
    ceilingOf kind age = some (if kind = 0 then .age (min 21 age.toNat) else if kind = 1 then .opened else .closed,
          decide (kind = 0 ∧ 21 < age.toNat)) := by
  obtain rfl | rfl | rfl : kind = 0 ∨ kind = 1 ∨ kind = 2 := by bv_omega
  · show (if 21 < age.toNat then some (Ceiling.age 21, true) else some (Ceiling.age age.toNat, false)) = _
    split
    · next far => simp [far, Nat.min_eq_left far.le]
    · next near => simp [near, Nat.min_eq_right (Nat.le_of_not_lt near)]
  · rfl
  · rfl

theorem ceilingOf_none {kind : Byte} (h : 3 ≤ kind.toNat) (age : Byte) : ceilingOf kind age = none := by
  unfold ceilingOf
  split
  · omega
  · omega
  · omega
  · rfl

theorem clampedAllowance_eq (a : Half) :
    clampedAllowance a
      = (if a = 0xFFFF then none else some (min 1440 a.toNat), decide (a ≠ 0xFFFF ∧ 1440 < a.toNat)) := by
  unfold clampedAllowance allowanceOf
  by_cases unlimited : a = 0xFFFF
  · subst unlimited
    rfl
  · simp only [unlimited, if_false, clampTo_eq, ne_eq, not_false_eq_true, true_and]

theorem curfewSlotOf_val {b : Byte} {c : Fin 3} (h : c.val = b.toNat) : curfewSlotOf b = some c := by
  have lt : b.toNat < 3 := h ▸ c.isLt
  rw [curfewSlotOf, dif_pos lt]
  exact congrArg some (Fin.ext h.symm)

theorem curfewSlotOf_none {b : Byte} (h : 3 ≤ b.toNat) : curfewSlotOf b = none := dif_neg (Nat.not_lt.2 h)

theorem adjustedRemaining_eq (old new : Option Nat) (remaining charged : Nat) :
    adjustedRemaining old new remaining charged = remainingAfter old new remaining charged := by
  cases old <;> cases new <;> rfl

/-- R77: a window that is not legal. -/
theorem legalWindow_false {days : Byte} {st en : Nat}
    (h : days &&& 0x7F = 0 ∨ 1439 < st ∨ 1439 < en ∨ en = st) : legalWindow days st en = false := by
  rw [legalWindow, decide_eq_false_iff_not]
  rintro ⟨some_day, start_le, end_le, differ⟩
  obtain none | late | late | same := h
  exacts [some_day none, start_le.not_gt late, end_le.not_gt late, differ same]

/-! ### The rows -/

/-- Settles O33: the checks in their order, and the record written with its operands clamped. -/
theorem profileSettingsAndCurfewsAreWritten : Obligations.ProfileSettingsAndCurfewsAreWritten := by
  unfold Obligations.ProfileSettingsAndCurfewsAreWritten
  refine fun s => ⟨?limits, ?time, ?curfews⟩
  case limits =>
    rintro _ p kind age mask unrated scheme absent limit rfl hr
    have lasting := remaining_notMem_commandParts (.setProfileLimits p kind age mask unrated scheme absent limit)
      (by simp) (by simp) (by simp) (by simp)
    refine profileCommand_row rfl hr lasting (fun _ => rfl) fun n owner =>
      ⟨fun bad => profileCommand_refused rfl hr lasting (owner.trans ?_), fun hk hu hs ha => ?_⟩
    · split
      · next ceiling u sc ab hc hu hs ha =>
        obtain bad | bad | bad | bad := bad
        · cases (ceilingOf_none bad age).symm.trans hc
        · cases (policyOf_none bad).symm.trans hu
        · cases (policyOf_none bad).symm.trans hs
        · cases (policyOf_none bad).symm.trans ha
      · rfl
    · simp only [ceilingOf_named hk, policyOf_named hu, policyOf_named hs, policyOf_named ha, clampTo_eq,
        ← Bool.decide_or, atOwner_profile] at owner
      obtain ⟨t, ends, record, -, judged⟩ := profileCommand_writes rfl hr lasting owner
      exact ⟨t, ends, record, judged⟩
  case time =>
    rintro _ p a k lead r0 r1 r2 r3 allowance rfl hr named
    have lasting := remaining_notMem_commandParts (.setProfileTime p a k lead r0 r1 r2 r3)
      (by simp) (by simp) (by simp) (by simp)
    refine profileCommand_row rfl hr lasting (fun _ => rfl) fun n owner => ?_
    simp only [clampedAllowance_eq, clampTo_eq, ← Bool.decide_or, or_assoc, ← named, atOwner_profile,
      Profile.withTime, adjustedRemaining_eq] at owner
    obtain ⟨t, ends, record, noted, judged⟩ := profileCommand_writes rfl hr lasting owner
    exact ⟨t, ends, record, fun after => noted (record ▸ after), judged⟩
  case curfews =>
    rintro i p c days st en clear hi hr
    cases clear with
    | true =>
      obtain rfl : i = .curfewClear p c := hi
      have lasting := remaining_notMem_commandParts (.setCurfew p c true 0 0 0) (by simp) (by simp) (by simp) (by simp)
      refine profileCommand_row rfl hr lasting (fun _ => rfl) fun n owner =>
        ⟨fun bad => profileCommand_refused rfl hr lasting (owner.trans ?_), fun slot hs => ⟨fun _ => ?_, nofun⟩⟩
      · simp only [curfewSlotOf_none bad]
      · simp only [curfewSlotOf_val hs, atOwner_profile] at owner
        obtain ⟨t, ends, record, -, judged⟩ := profileCommand_writes rfl hr lasting owner
        exact ⟨t, ends, record, judged⟩
    | false =>
      obtain rfl : i = .setCurfew p c days st en := hi
      have lasting := remaining_notMem_commandParts (.setCurfew p c false days st en)
        (by simp) (by simp) (by simp) (by simp)
      refine profileCommand_row rfl hr lasting (fun _ => rfl) fun n owner =>
        ⟨fun bad => profileCommand_refused rfl hr lasting (owner.trans ?_), fun slot hs => ⟨nofun, fun _ =>
          ⟨fun bad => profileCommand_refused rfl hr lasting (owner.trans ?_),
            fun some_day start_le end_le differ => ?_⟩⟩⟩
      · simp only [curfewSlotOf_none bad]
      · simp only [curfewSlotOf_val hs, legalWindow_false bad, Bool.false_eq_true, if_false]
      · have legal : legalWindow days st.toNat en.toNat = true :=
          decide_eq_true ⟨some_day, start_le, end_le, differ⟩
        simp only [curfewSlotOf_val hs, legal, if_true, atOwner_profile] at owner
        obtain ⟨t, ends, record, -, judged⟩ := profileCommand_writes rfl hr lasting owner
        exact ⟨t, ends, record, judged⟩

end Sys2Proof.Machine
end

section
/-! PROOF. EXPORT_PROFILE and IMPORT_PROFILE (R79, R81 to R87): their beginnings at the take, and their completions. -/

namespace Sys2Proof.Machine

open Sys2Proof

/-! ### The import area at the take (R3, R83) -/

/-- A byte other than the one written reads as before, whatever form the shadow is in. -/
theorem Memory.read_write_ne (m : Memory) {a x : Nat} (h : x ≠ a) (b : Byte) : (m.write a b).read x = m.read x := by
  have cell : ∀ t : Memory, (Memory.cell a b t).read x = t.read x := fun t => by
    unfold Memory.cell
    split
    · rfl
    · rw [Memory.read, if_neg h.symm]
  induction m with
  | nil => exact cell []
  | cons c t ih =>
    obtain ⟨k, v⟩ := c
    unfold Memory.write
    split_ifs with before same
    · exact cell _
    · rw [cell, Memory.read, if_neg (same ▸ h.symm)]
    · rw [Memory.read, Memory.read, ih]

theorem Memory.read_writeRun_outside (m : Memory) {a x : Nat} (bytes : List (Byte × Bool))
    (h : x < a ∨ a + bytes.length ≤ x) : (m.writeRun a bytes).read x = m.read x := by
  induction bytes generalizing m a with
  | nil => rfl
  | cons c t ih =>
    obtain ⟨b, en⟩ := c
    simp only [List.length_cons] at h
    rw [Memory.writeRun, ih _ (by omega)]
    split
    · exact m.read_write_ne (by omega) b
    · rfl

theorem Memory.readRun_congr {m m' : Memory} {a n : Nat} (h : ∀ x, a ≤ x → x < a + n → m.read x = m'.read x) :
    m.readRun a n = m'.readRun a n := by
  induction n generalizing a with
  | zero => rfl
  | succ n ih =>
    have rest := ih (a := a + 1) fun x low high => h x (by omega) (by omega)
    rw [Memory.readRun, Memory.readRun, h a (by omega) (by omega), rest]

theorem atOwner_shadow (c : Command) (s : State) :
    (atOwner c s).command.shadow
      = s.command.shadow.writeRun (32 * s.command.pointer.val) ((hostRecord c s).map (fun b => (b, true))) := by
  rw [atOwner_command]
  rfl

/-- R83: the record of a command lies before the import area, which is as it stood at the take. -/
theorem atOwner_importArea (c : Command) (s : State) :
    importArea (atOwner c s) = s.command.shadow.readRun 0x200 64 := by
  have slot := s.command.pointer.isLt
  rw [importArea, atOwner_shadow]
  refine Memory.readRun_congr fun x low _ => Memory.read_writeRun_outside _ _ (.inr ?_)
  rw [List.length_map, hostRecord_length]
  omega

/-! ### The beginning of an operation (R81, R83) -/

theorem imageBusy_eq {s : State} : imageBusy s = true ↔ s.image.operation ≠ .idle := decide_eq_true_iff

/-- The image unit begins an operation. -/
def beginImage (op : ImageOperation) (s : State) : State := { s with image := { s.image with operation := op } }

theorem beginImage_frame (op : ImageOperation) (s : State) : Frame [.imageOperation] s (beginImage op s) := by
  intro p hp
  have same := p.same_refl s
  cases p
  case imageOperation => simp at hp
  all_goals exact same

section
variable {p : Byte} {slot : Fin 16} {s : State} {n : Fin 8}

theorem obeyExportProfile_badSlot (h : 8 ≤ p.toNat) : obeyExportProfile p slot s = refuse .badField s := by
  rw [obeyExportProfile, profileSlotOf_none h]

theorem obeyImportProfile_badSlot (h : 8 ≤ p.toNat) : obeyImportProfile p slot s = refuse .badField s := by
  rw [obeyImportProfile, profileSlotOf_none h]

variable (hn : n.val = p.toNat)
include hn

theorem obeyExportProfile_slot :
    obeyExportProfile p slot s
      = if imageBusy s then refuse .busy s
        else if (s.profile n).state = .empty then refuse .noSuch s
        else (beginImage (.exporting n slot (s.profile n)) s, .long) := by
  rw [obeyExportProfile, profileSlotOf_val hn]
  rfl

theorem obeyImportProfile_slot :
    obeyImportProfile p slot s
      = if imageBusy s then refuse .busy s
        else (beginImage (.importing n slot (importArea s)) s, .long) := by
  rw [obeyImportProfile, profileSlotOf_val hn]
  rfl

end

/-- The row of a command that begins an operation of the image unit. -/
theorem imageCommand_begins {i : Instr} {c : Command} {s : State} {op : ImageOperation} (hi : commandOf i = some c)
    (hr : Ready i s) (hc : c ≠ .factoryClear) (lasting : Part.sessionRemaining ∉ commandParts c)
    (owner : obey s.command.pointer c (atOwner c s) = (beginImage op (atOwner c s), .long)) :
    ∃ t, Ends i .long [.imageOperation] s t ∧ t.image.operation = op := by
  obtain ⟨t, ends, f⟩ := ends_of_obey hi hr hc lasting owner (beginImage_frame op _)
  exact ⟨t, ends, f .imageOperation (by simp)⟩

theorem exportProfile_row {s : State} {p : Byte} (ring : RingReady s) :
    (8 ≤ p.toNat → Refuses (.exportProfile p) .badField s)
      ∧ ∀ n : Fin 8, n.val = p.toNat →
        (s.image.operation ≠ .idle → Refuses (.exportProfile p) .busy s)
        ∧ (s.image.operation = .idle →
          ((s.profile n).state = .empty → Refuses (.exportProfile p) .noSuch s)
          ∧ ((s.profile n).state ≠ .empty →
            ∃ t, Ends (.exportProfile p) .long [.imageOperation] s t
              ∧ t.image.operation = .exporting n s.command.pointer (s.profile n))) := by
  have hr : Ready (.exportProfile p) s := ready_of_public (c := .exportProfile p) rfl rfl ring
  have lasting := remaining_notMem_commandParts (.exportProfile p) (by simp) (by simp) (by simp) (by simp)
  have refused : ∀ outcome, obeyExportProfile p s.command.pointer (atOwner (.exportProfile p) s)
      = refuse outcome (atOwner (.exportProfile p) s) → Refuses (.exportProfile p) outcome s :=
    fun outcome owner => refuses_of_obey (c := .exportProfile p) rfl hr (by simp) lasting owner
  refine ⟨fun bad => refused _ (obeyExportProfile_badSlot bad), fun n hn => ⟨fun busy => refused _ ?_, fun idle =>
    ⟨fun vacant => refused _ ?_, fun used => imageCommand_begins (c := .exportProfile p) rfl hr (by simp) lasting ?_⟩⟩⟩
  · rw [obeyExportProfile_slot hn, if_pos (imageBusy_eq.2 (by rwa [atOwner_image]))]
  · rw [obeyExportProfile_slot hn, if_neg (by simp [imageBusy_eq, idle]), if_pos (by rwa [atOwner_profile])]
  · refine (obeyExportProfile_slot hn).trans ?_
    rw [if_neg (by simp [imageBusy_eq, idle]), if_neg (by rwa [atOwner_profile]), atOwner_profile]

theorem importProfile_row {s : State} {p : Byte} (hr : Ready (.importProfile p) s) :
    (8 ≤ p.toNat → Refuses (.importProfile p) .badField s)
      ∧ ∀ n : Fin 8, n.val = p.toNat →
        (s.image.operation ≠ .idle → Refuses (.importProfile p) .busy s)
        ∧ (s.image.operation = .idle →
          ∃ t, Ends (.importProfile p) .long [.imageOperation] s t
            ∧ t.image.operation = .importing n s.command.pointer (s.command.shadow.readRun 0x200 64)) := by
  have lasting := remaining_notMem_commandParts (.importProfile p) (by simp) (by simp) (by simp) (by simp)
  have refused : ∀ outcome, obeyImportProfile p s.command.pointer (atOwner (.importProfile p) s)
      = refuse outcome (atOwner (.importProfile p) s) → Refuses (.importProfile p) outcome s :=
    fun outcome owner => refuses_of_obey (c := .importProfile p) rfl hr (by simp) lasting owner
  refine ⟨fun bad => refused _ (obeyImportProfile_badSlot bad), fun n hn => ⟨fun busy => refused _ ?_, fun idle =>
    imageCommand_begins (c := .importProfile p) rfl hr (by simp) lasting ?_⟩⟩
  · rw [obeyImportProfile_slot hn, if_pos (imageBusy_eq.2 (by rwa [atOwner_image]))]
  · refine (obeyImportProfile_slot hn).trans ?_
    rw [if_neg (by simp [imageBusy_eq, idle]), atOwner_importArea]

/-! ### Completions (R82, R84 to R87) -/

/-- R179: an event after which no command waits at the pointer takes none. -/
theorem runRing_quiet {s : State} (h : (s.slot s.command.pointer).state ≠ .posted) : runRing s = s :=
  runRing_stop (by rw [takeable_at rfl rfl, if_neg fun e => h e.1])

/-- R181: what completes a long command posts no slot. -/
theorem finished_quiet {s u : State} {ps : List Part} (h : (s.slot s.command.pointer).state ≠ .posted)
    (f : Frame ps s u) (hp : Part.pointer ∉ ps) (hs : ∀ n, Part.slot n ∉ ps) (q : Fin 16) (outcome : CommandOutcome)
    (data : List Byte) : runRing (u.finishResult q outcome data) = u.finishResult q outcome data := by
  refine runRing_quiet ?_
  have pointer : (u.finishResult q outcome data).command.pointer = s.command.pointer := f .pointer hp
  have slot : u.slot s.command.pointer = s.slot s.command.pointer := f (.slot _) (hs _)
  rwa [pointer, slot_finishResult_state, slot]

theorem finishResult_slot_self (s : State) (q : Fin 16) (outcome : CommandOutcome) (data : List Byte) :
    (s.finishResult q outcome data).slot q
      = { s.slot q with result := { (s.slot q).result with state := .done, outcome := outcome, data := data } } :=
  slot_putResult_self ..

/-- R82: the image unit after EXPORT_PROFILE has come to its end. -/
def imageExported (snapshot : Profile) (s : State) : State :=
  { s with image := ⟨.idle, some (profileImage s.inputs.salt snapshot)⟩ }

theorem imageExported_frame (snapshot : Profile) (s : State) :
    Frame [.imageOperation, .imageBuffer] s (imageExported snapshot s) := by
  intro p hp
  have same := p.same_refl s
  cases p
  case imageOperation | imageBuffer => simp at hp
  all_goals exact same

theorem completeExport_eq (n : Fin 8) (slot : Fin 16) (snapshot : Profile) (s : State) :
    completeExport n slot snapshot s
      = (imageExported snapshot s).finishResult slot .doneOk [BitVec.ofNat 8 n.val] := rfl

theorem settleInstalled_profile (n : Fin 8) (s : State) :
    (settleInstalled n s).profile n = s.time.profileDay.elim (s.profile n) (settledAccount (s.profile n)) := by
  unfold settleInstalled
  cases s.time.profileDay with
  | none => rfl
  | some day =>
    simp only [Option.elim_some]
    split
    · next keeps => rw [settledAccount_keep keeps]
    · next adopts => rw [settledAccount_adopt adopts, profile_putProfile_self]
    · next rolls => rw [settledAccount_roll rolls, rollOver, raise_profile, profile_putProfile_self]

section
variable (n : Fin 8) (p : Profile) (s : State)

theorem noteInstalledExhaustion_profile (m : Fin 8) : (noteInstalledExhaustion n s).profile m = s.profile m :=
  (noteInstalledExhaustion_within n s).frame (.profile m) (by simp)

/-- R85, R86: the record that an import installs. -/
theorem installImage_profile :
    (installImage n p s).profile n = s.time.profileDay.elim p (settledAccount p) := by
  rw [installImage, evaluateProfile, evaluateWhere_profile, noteInstalledExhaustion_profile, settleInstalled_profile,
    profile_putProfile_self, putProfile_time]

variable {s} (hr : Running s)
include hr

theorem settleInstalled_running : Running (settleInstalled n (s.putProfile n p)) :=
  ((settleInstalled_within n (s.putProfile n p)).frame .systemReset (by simp)).trans hr

/-- R87: an installed account that is exhausted is told. -/
theorem installImage_noted (h : ((installImage n p s).profile n).exhausted = true) :
    Noted .budgetExhausted n.val (installImage n p s) := by
  rw [installImage, evaluateProfile, evaluateWhere_profile, noteInstalledExhaustion_profile] at h
  refine Noted.evaluateWhere ?_ _
  rw [noteInstalledExhaustion, if_pos h]
  exact noted_raise (settleInstalled_running n p hr) ..

/-- R87: the outputs of the slot are evaluated. -/
theorem installImage_upToDate : BoundUpToDate n (installImage n p s) :=
  evaluateProfile_upToDate
    (((noteInstalledExhaustion_within n _).frame .systemReset (by simp)).trans (settleInstalled_running n p hr)) n

end

section
variable {s : State}

theorem completeImport_bad {target : Fin 8} {slot : Fin 16} {image : List Byte}
    (h : readImage s.inputs.salt image = none) :
    completeImport target slot image s = (imageIdle s).finishResult slot .badImage [] := by
  simp only [completeImport, h]

theorem completeImport_read {target : Fin 8} {slot : Fin 16} {image : List Byte} {p : Profile}
    (h : readImage s.inputs.salt image = some p) :
    completeImport target slot image s
      = (imageIdle (installImage target p s)).finishResult slot (doneOr (imageClamped image))
          (profileData target (installImage target p s)) := by
  simp only [completeImport, h]
  rfl

theorem exec_exportCompletion (hr : Running s) {n : Fin 8} {slot : Fin 16} {snapshot : Profile}
    (h : s.image.operation = .exporting n slot snapshot) :
    exec .exportCompletion s = .next (runRing (completeExport n slot snapshot s)) := by
  refine (carried_running hr).trans ?_
  rw [exportCompletes, h]

theorem exec_importCompletion (hr : Running s) {n : Fin 8} {slot : Fin 16} {image : List Byte}
    (h : s.image.operation = .importing n slot image) :
    exec .importCompletion s = .next (runRing (completeImport n slot image s)) := by
  refine (carried_running hr).trans ?_
  rw [importCompletes, h]

/-- Log 11: a completion without its operation changes nothing. -/
theorem exec_completion_idle (hr : Running s) (h : s.image.operation = .idle) :
    exec .exportCompletion s = .next s ∧ exec .importCompletion s = .next s := by
  constructor
  · refine (carried_running hr).trans ?_
    rw [exportCompletes, h]
  · refine (carried_running hr).trans ?_
    rw [importCompletes, h]

end

/-- Settles O35: the rows of the two commands, and each completion with a ring that takes nothing after it. -/
theorem imageOperationsBeginAndComplete : Obligations.ImageOperationsBeginAndComplete := by
  unfold Obligations.ImageOperationsBeginAndComplete
  refine ⟨fun s p => ⟨exportProfile_row, importProfile_row⟩, fun s ⟨running, quiet⟩ =>
    ⟨fun n slot snapshot h => ?exported, fun n slot image h => ⟨fun bad => ?refused, fun p read => ?installed⟩,
      exec_completion_idle running⟩⟩
  case exported =>
    have row := exec_exportCompletion running h
    rw [completeExport_eq, finished_quiet quiet (imageExported_frame snapshot s) (by simp) (by simp)] at row
    exact ⟨_, row, rfl, finishResult_slot_self .., (completeExport_within n slot snapshot s).frame⟩
  case refused =>
    have row := exec_importCompletion running h
    rw [completeImport_bad bad, finished_quiet quiet (imageIdle_within s).frame (by simp) (by simp)] at row
    refine ⟨_, row, rfl, finishResult_slot_self .., ?_⟩
    exact ((imageIdle_within s).frame.mono (by simp)).trans ((finishResult_within ..).frame.mono (by simp))
  case installed =>
    have row := exec_importCompletion running h
    have done := (completeImport_within n slot image s).frame
    have installed := (installImage_within n p (readImage_ok read).1 s).frame
    have idle := (installed.mono (qs := .imageOperation :: .profile n :: allJudged) (fun _ hp => .tail _ hp)).trans
      ((imageIdle_within (installImage n p s)).frame.mono (by simp))
    rw [completeImport_read read] at row done
    rw [finished_quiet quiet idle (by simp) (by simp)] at row
    refine ⟨_, row, rfl, ?_, ?_, installImage_noted n p running, fun o ho => ?_, done⟩
    · refine (installImage_profile n p s).trans ?_
      cases s.time.profileDay <;> rfl
    · rw [finishResult_slot_self, show (imageIdle (installImage n p s)).slot slot = s.slot slot from
        idle (.slot slot) (by simp)]
      rfl
    · exact (installImage_upToDate n p running o ho).congr rfl rfl (fun _ => rfl) fun _ => rfl

end Sys2Proof.Machine
end

section
/-! PROOF. The command ring (R177 to R181): a post is captured and waits, a take leaves the other slots' posts, and
the completions after which the ring goes on. -/

namespace Sys2Proof.Machine

open Sys2Proof

/-! ### Posts (R3, R178) -/

/-- R3, R178: a whole record written to a slot, with the toggle that the slot expects, is captured, and the ring
goes on. -/
def recordPosted (p : Fin 16) (record : List Byte) (s : State) : State :=
  (copyToShadow (32 * p.val) (record.map (fun b => (b, true))) s).putSlot p
    { s.slot p with state := .posted, captured := some record }

theorem snoopControl_record {s : State} {p : Fin 16} {record : List Byte} (h : ShadowLaw s)
    (len : record.length = 32) (toggle : recordToggle record = (s.slot p).expected) :
    snoopControl (s.inputs.commandBase + 32 * p.val) (record.map (fun b => (b, true))) s
      = runRing (recordPosted p record s) := by
  have hp := p.isLt
  have part : partWithin s.inputs.commandBase Config.commandWindowSize (s.inputs.commandBase + 32 * p.val)
      (record.map (fun b => (b, true))) = some (s.inputs.commandBase + 32 * p.val, record.map (fun b => (b, true))) :=
    partWithin_inside (fun e => by simp [List.map_eq_nil_iff.1 e] at len) (by omega)
      (by simp only [List.length_map, len, Config.commandWindowSize]; omega)
  have read_back : shadowRecord (copyToShadow (32 * p.val) (record.map (fun b => (b, true))) s) p = record := by
    have := Memory.readRun_writeRun h.1 (32 * p.val) record
    rwa [len] at this
  rw [snoopControl_inside part, Nat.add_sub_cancel_left, snoopWindow, postedBy_record len]
  simp only [List.foldl_cons, List.foldl_nil, postSlot, read_back]
  exact congrArg runRing (if_pos toggle)

theorem recordPosted_slot (p : Fin 16) (record : List Byte) (s : State) :
    (recordPosted p record s).slot p = { s.slot p with state := .posted, captured := some record } :=
  slot_putSlot_self ..

theorem recordPosted_frame (p : Fin 16) (record : List Byte) (s : State) :
    Frame [.shadow, .slot p] s (recordPosted p record s) :=
  ((copyToShadow_frame _ _ s).mono (by simp)).trans (within_slot (by simp)).frame

/-- R3: the shadow after a record is written to a slot. -/
theorem recordPosted_read {s : State} (h : ShadowLaw s) (p : Fin 16) {record : List Byte} (len : record.length = 32)
    (a : Nat) :
    (recordPosted p record s).command.shadow.read a
      = if 32 * p.val ≤ a ∧ a < 32 * p.val + 32 then byteAt record (a - 32 * p.val)
        else s.command.shadow.read a := by
  show (s.command.shadow.writeRun _ _).read a = _
  rw [Memory.read_writeRun h.1]
  by_cases low : 32 * p.val ≤ a
  · by_cases high : a < 32 * p.val + 32
    · have lt : a - 32 * p.val < record.length := by omega
      rw [if_pos low, if_pos ⟨low, high⟩, List.getElem?_map, List.getElem?_eq_getElem lt, byteAt,
        List.getD_eq_getElem _ _ lt]
      rfl
    · rw [if_pos low, if_neg fun in_slot => high in_slot.2,
        List.getElem?_eq_none (by simp only [List.length_map]; omega)]
  · rw [if_neg low, if_neg fun in_slot => low in_slot.1]

/-- R178: the row of a control write that is a whole record with the toggle its slot expects. -/
theorem exec_record {s : State} {p : Fin 16} {record : List Byte} (hr : Running s) (h : ShadowLaw s)
    (len : record.length = 32) (fits : s.inputs.commandBase + Config.commandWindowSize ≤ Config.addressSpace)
    (toggle : recordToggle record = (s.slot p).expected) :
    exec (.controlWriteBurst (BitVec.ofNat 32 (s.inputs.commandBase + 32 * p.val)) (record.map (fun b => (b, true)))) s
      = .next (runRing (recordPosted p record (s.putOut
          (.writeToMemory .control (s.inputs.commandBase + 32 * p.val) (record.map (fun b => (b, true))))))) := by
  have hp := p.isLt
  simp only [Config.commandWindowSize, Config.addressSpace] at fits
  have start : (BitVec.ofNat 32 (s.inputs.commandBase + 32 * p.val)).toNat = s.inputs.commandBase + 32 * p.val := by
    rw [BitVec.toNat_ofNat, Nat.mod_eq_of_lt (by omega)]
  have burst : burstOk (BitVec.ofNat 32 (s.inputs.commandBase + 32 * p.val))
      (record.map (fun b => (b, true))).length = true := by
    simp only [burstOk, start, List.length_map, len, Config.addressSpace, decide_eq_true_eq]
    omega
  refine (ifBurst_running hr burst).trans (congrArg _ ?_)
  rw [start]
  exact snoopControl_record (s := s.putOut _) h len toggle

/-! ### What a command leaves of the slots (R179, R180) -/

/-- Every slot's toggle, state and captured record stand. -/
def PostsStand (s t : State) : Prop :=
  ∀ n, (t.slot n).expected = (s.slot n).expected ∧ (t.slot n).state = (s.slot n).state
    ∧ (t.slot n).captured = (s.slot n).captured

theorem PostsStand.of_slots {s t : State} (h : ∀ n, t.slot n = s.slot n) : PostsStand s t := fun n => by
  rw [h n]
  exact ⟨rfl, rfl, rfl⟩

theorem PostsStand.trans {s t u : State} (h : PostsStand s t) (k : PostsStand t u) : PostsStand s u := fun n =>
  ⟨(k n).1.trans (h n).1, (k n).2.1.trans (h n).2.1, (k n).2.2.trans (h n).2.2⟩

/-- R88, R176: FACTORY_CLEAR may answer another slot, but leaves its post. -/
theorem factoryClear_postsStand (s : State) : PostsStand s (obeyFactoryClear s).1 := fun n => by
  rw [obeyFactoryClear_eq, factoryCleared_slot, cancelImage_slot]
  exact ⟨rfl, rfl, rfl⟩

theorem obey_postsStand (slot : Fin 16) (c : Command) (s : State) : PostsStand s (obey slot c s).1 := by
  by_cases clears : c = .factoryClear
  · subst clears
    exact factoryClear_postsStand s
  · exact .of_slots fun n => (obey_within slot c s).frame (.slot n) (slot_notMem_commandParts c clears n)

theorem judgeCommand_postsStand (slot : Fin 16) (c : Command) (s : State) : PostsStand s (judgeCommand slot c s).1 := by
  unfold judgeCommand
  split
  · split
    · have slid : PostsStand s (slideSession s) :=
        .of_slots fun n => (slideSession_within s).frame (.slot n) (by simp)
      exact slid.trans (obey_postsStand _ _ _)
    · exact .of_slots fun _ => rfl
  · exact obey_postsStand _ _ _

theorem judgeRecord32_postsStand (slot : Fin 16) (record : List Byte) (s : State) :
    PostsStand s (judgeRecord32 slot record s).1 := by
  unfold judgeRecord32
  split
  · exact .of_slots fun _ => rfl
  · exact judgeCommand_postsStand _ _ _

/-! ### The take (R179 to R181) -/

/-- R179 steps 1 and 2: the slot at the pointer is TAKEN, and expects the other toggle. -/
def slotTaken (s : State) : State :=
  s.putSlot s.command.pointer
    { s.slot s.command.pointer with
      expected := !(s.slot s.command.pointer).expected, state := .taken, captured := none }

theorem privileged_slotTaken (c : Command) (s : State) : privileged c (slotTaken s) = privileged c s := by
  cases c <;> rfl

/-- R180: the refusals of a taken record. -/
theorem judgeRecord32_refused {s : State} {record : List Byte} {outcome : CommandOutcome}
    (h : (Command.decode record = none ∧ outcome = .badCode)
      ∨ ∃ c, Command.decode record = some c ∧ privileged c s = true ∧ authority s = false ∧ outcome = .notAuthorised) :
    judgeRecord32 s.command.pointer record (slotTaken s) = refuse outcome (slotTaken s) := by
  obtain ⟨unknown, rfl⟩ | ⟨c, known, priv, auth, rfl⟩ := h
  · rw [judgeRecord32, unknown]
  · rw [judgeRecord32, known]
    exact judgeCommand_refused _ _ _ ((privileged_slotTaken c s).trans priv) auth

section
variable (record : List Byte) (s : State)

theorem takeRecord_eq :
    takeRecord record s = advancePointer
      ((judgeRecord32 s.command.pointer record (slotTaken s)).1.putResult s.command.pointer
        (resultAt record (judgeRecord32 s.command.pointer record (slotTaken s)).2)) := rfl

theorem takeRecord_slot (n : Fin 16) :
    (takeRecord record s).slot n
      = if n = s.command.pointer then
          { (judgeRecord32 s.command.pointer record (slotTaken s)).1.slot s.command.pointer with
            result := resultAt record (judgeRecord32 s.command.pointer record (slotTaken s)).2 }
        else (judgeRecord32 s.command.pointer record (slotTaken s)).1.slot n := slot_putResult ..

theorem takeRecord_pointer : (takeRecord record s).command.pointer = s.command.pointer + 1 :=
  congrArg (· + 1) (judgeRecord32_same (p := .pointer) rfl s.command.pointer record (slotTaken s))

/-- R179 to R181: the slot at the pointer after its take. -/
theorem takeRecord_slot_self :
    (takeRecord record s).slot s.command.pointer
      = ⟨!(s.slot s.command.pointer).expected, .taken, none,
          resultAt record (judgeRecord32 s.command.pointer record (slotTaken s)).2⟩ := by
  obtain ⟨expected, state, captured⟩ :=
    judgeRecord32_postsStand s.command.pointer record (slotTaken s) s.command.pointer
  have before : (slotTaken s).slot s.command.pointer = { s.slot s.command.pointer with
      expected := !(s.slot s.command.pointer).expected, state := .taken, captured := none } := slot_putSlot_self ..
  simp only [takeRecord_slot, if_true, expected, state, captured, before]

/-- R179: the posts of the other slots wait on. -/
theorem takeRecord_slot_other {n : Fin 16} (h : n ≠ s.command.pointer) :
    ((takeRecord record s).slot n).expected = (s.slot n).expected
      ∧ ((takeRecord record s).slot n).state = (s.slot n).state
      ∧ ((takeRecord record s).slot n).captured = (s.slot n).captured := by
  have stand := judgeRecord32_postsStand s.command.pointer record (slotTaken s) n
  have before : (slotTaken s).slot n = s.slot n := slot_putSlot_ne s _ h
  rw [takeRecord_slot, if_neg h]
  rwa [before] at stand

/-- R179, R180: a take changes the pointer, its slot, and what the judging of its record changes. -/
theorem takeRecord_frame {ps : List Part}
    (judged : Frame ps (slotTaken s) (judgeRecord32 s.command.pointer record (slotTaken s)).1) :
    Frame (.pointer :: .slot s.command.pointer :: ps) s (takeRecord record s) := by
  have before : Frame (.pointer :: .slot s.command.pointer :: ps) s (slotTaken s) := (within_slot (by simp)).frame
  have answered (u : State) (r : ResultRecord) :
      Frame (.pointer :: .slot s.command.pointer :: ps) u (u.putResult s.command.pointer r) :=
    (within_slot (by simp)).frame
  rw [takeRecord_eq]
  exact (before.trans (judged.mono fun _ hp => .tail _ (.tail _ hp))).trans ((answered _ _).trans fun p hp =>
    advancePointer_same (fun e => hp (by simp [e])) _)

variable {record s}

/-- R180: a refused record changes nothing but its slot and the pointer. -/
theorem takeRecord_refused {outcome : CommandOutcome}
    (h : judgeRecord32 s.command.pointer record (slotTaken s) = refuse outcome (slotTaken s)) :
    ((takeRecord record s).slot s.command.pointer).result
        = ⟨.done, byteAt record 0, recordToggle record, outcome, []⟩
      ∧ Frame [.pointer, .slot s.command.pointer] s (takeRecord record s) := by
  refine ⟨?_, takeRecord_frame record s (by rw [h]; exact .refl _ _)⟩
  rw [takeRecord_slot_self, h]
  rfl

end

/-- R181: the result record at a take echoes code and toggle, and is not IDLE. -/
theorem resultAt_echoes (record : List Byte) (r : Response) :
    (resultAt record r).code = byteAt record 0 ∧ (resultAt record r).toggle = recordToggle record
      ∧ (resultAt record r).state ≠ .idle := by
  cases r with
  | done | long => exact ⟨rfl, rfl, nofun⟩

/-! ### Completions (R82, R84) -/

/-- R84 to R87: whatever the image, the import's slot is answered. -/
theorem completeImport_done (target : Fin 8) (slot : Fin 16) (image : List Byte) (s : State) :
    ((completeImport target slot image s).slot slot).result.state = .done := by
  cases read : readImage s.inputs.salt image with
  | none => rw [completeImport_bad read, finishResult_slot_self]
  | some p => rw [completeImport_read read, finishResult_slot_self]

/-- Settles O19: the post, the stop of the ring, one take of it, and the events after which it goes on. -/
theorem postsWaitAndAreTakenInRingOrder : Obligations.PostsWaitAndAreTakenInRingOrder := by
  unfold Obligations.PostsWaitAndAreTakenInRingOrder
  refine fun s running => ⟨fun p record shadow len fits toggle => ?posted, fun waits => ?stopped,
    fun record t posted free captured ht => ?taken, fun n slot snapshot h => ?exported, fun n slot image h => ?imported,
    carried_running running, fun w => carried_running running⟩
  case posted =>
    exact ⟨_, exec_record running shadow len fits toggle, recordPosted_slot .., rfl,
      recordPosted_read (s := s.putOut _) shadow p len,
      ((putOut_within _ s).frame.mono (by simp)).trans ((recordPosted_frame p record _).mono (by simp))⟩
  case stopped =>
    refine runRing_stop ?_
    rw [takeable_at rfl rfl, if_neg]
    rintro ⟨posted, free⟩
    exact waits.elim (· posted) free
  case taken =>
    subst ht
    have slot := takeRecord_slot_self record s
    obtain ⟨code, toggle, told⟩ :=
      resultAt_echoes record (judgeRecord32 s.command.pointer record (slotTaken s)).2
    refine ⟨runRing_take ?_, takeRecord_pointer record s, congrArg (·.expected) slot, congrArg (·.state) slot,
      congrArg (·.captured) slot, (congrArg (·.result.code) slot).trans code,
      (congrArg (·.result.toggle) slot).trans toggle,
      fun idle => told ((congrArg (·.result.state) slot).symm.trans idle),
      fun n hn => takeRecord_slot_other record s hn, fun outcome h => takeRecord_refused (judgeRecord32_refused h),
      fun c known => takeRecord_frame record s ?_⟩
    · rw [takeable_at rfl rfl, if_pos ⟨posted, free⟩, captured]
    · rw [judgeRecord32, known]
      exact (judgeCommand_within ..).frame
  case exported =>
    refine ⟨_, exec_exportCompletion running h, ?_, ?_, (completeExport_within ..).frame⟩ <;>
      rw [completeExport_eq, finishResult_slot_self]
  case imported =>
    exact ⟨_, exec_importCompletion running h, completeImport_done .., (completeImport_within ..).frame⟩

end Sys2Proof.Machine
end

section
/-! PROOF. PUSH_OVERRIDE, POP_OVERRIDE and CLEAR_OVERRIDES (R90, R92 to R95): each writes one stack and evaluates its
output, after the checks of its row. -/

namespace Sys2Proof.Machine

open Sys2Proof

/-! ### One stack written (R92, R94, R95) -/

/-- A stack is replaced and its output evaluated, as every command about a stack does. -/
def restacked (o : Output) (stack : List Override) (s : State) : State :=
  evaluate o (s.putContext o { s.context o with stack := stack })

theorem pushEntry_eq (o : Output) (e : Override) (s : State) :
    pushEntry o e s = restacked o (e :: (s.context o).stack) s := rfl

theorem popStack_eq (o : Output) (s : State) :
    popStack o s = restacked o (dropSpent (s.context o).stack.tail) s := rfl

theorem clearStack_eq (o : Output) (s : State) : clearStack o s = restacked o [] s := rfl

theorem restacked_stack (o : Output) (stack : List Override) (s : State) :
    ((restacked o stack s).context o).stack = stack := by
  obtain ⟨-, -, -, kept⟩ := evaluate_context o (s.putContext o { s.context o with stack := stack })
  exact kept.trans (by rw [context_putContext_self])

theorem restacked_frame {o : Output} {stack : List Override} {s : State}
    (law : stackLaw (s.context o).stack → stackLaw stack) :
    Frame (.stack o :: judgedParts o) s (restacked o stack s) :=
  ((within_stack law).andThen (evaluate_within o _) (by simp) (by simp)).frame

/-- The row of a command whose owner writes one stack. -/
theorem ends_of_restacked {i : Instr} {c : Command} {s : State} {o : Output} {stack : List Override} {r : Response}
    (hi : commandOf i = some c) (hr : Ready i s) (lasting : Part.sessionRemaining ∉ commandParts c)
    (law : stackLaw (s.context o).stack → stackLaw stack)
    (owner : obey s.command.pointer c (atOwner c s) = (restacked o stack (atOwner c s), r)) :
    ∃ t, Ends i r (.stack o :: judgedParts o) s t ∧ (t.context o).stack = stack ∧ UpToDate t o := by
  obtain ⟨t, ends, f⟩ := ends_of_obey hi hr (fun e => lasting (by rw [e]; decide)) lasting owner
    (restacked_frame (by rwa [atOwner_context]))
  refine ⟨t, ends, by rw [ring_context f, restacked_stack], ring_upToDate f ?_⟩
  exact evaluate_upToDate o _ (atOwner_running hr.1.1 c)

/-! ### PUSH_OVERRIDE (R92, R93) -/

theorem atOwner_currentEvent (c : Command) (s : State) (o : Output) :
    (atOwner c s).currentEvent o = s.currentEvent o := by
  obtain ⟨unit, pin, h⟩ := atOwner_eq c s
  rw [h]
  rfl

/-- R92: the checks of a push are not about the command unit or the session. -/
theorem checkPush_atOwner (c : Command) (output kind scope : Byte) (day : Half) (second : Word) (s : State) :
    checkPush output kind scope day second (atOwner c s) = checkPush output kind scope day second s := by
  obtain ⟨unit, pin, h⟩ := atOwner_eq c s
  rw [h]
  rfl

/-- R89, R92: the data of a push are the depth, the end stored and the origin (log 52). -/
theorem pushData_restacked (o : Output) (e : Override) (below : List Override) (s : State) :
    pushData o e (restacked o (e :: below) s)
      = nat8 (below.length + 1)
        ++ (match e.endTime with
          | some u => localField u
          | none => [])
        ++ nat8 (overrideOriginCode e.origin) := by
  rw [pushData, restacked_stack]
  rfl

section
variable {output kind scope : Byte} {day : Half} {second : Word} {s : State}
  (hr : Ready (.pushOverride output kind scope day second) s)
include hr

theorem pushOverride_refused {outcome : CommandOutcome}
    (h : checkPush output kind scope day second s = .error outcome) :
    Refuses (.pushOverride output kind scope day second) outcome s := by
  refine refuses_of_obey (c := .pushOverride output kind scope day second) rfl hr (by simp)
    (remaining_notMem_commandParts _ (by simp) (by simp) (by simp) (by simp)) ?_
  show obeyPushOverride .. = _
  rw [obeyPushOverride, checkPush_atOwner, h]

/-- R92 steps 6 and 7: a push that passes its checks puts its entry on top. -/
theorem pushOverride_pushed {p : StagedPush} (h : checkPush output kind scope day second s = .ok p)
    {e : Override} (he : e = p.entry p.endTime .session) :
    ∃ t, Ends (.pushOverride output kind scope day second)
        (.done (doneOr p.clamped)
          (nat8 ((s.context p.output).stack.length + 1)
            ++ (match e.endTime with
              | some u => localField u
              | none => [])
            ++ nat8 0))
        (.stack p.output :: judgedParts p.output) s t
      ∧ (t.context p.output).stack = e :: (s.context p.output).stack ∧ UpToDate t p.output := by
  subst he
  refine ends_of_restacked (c := .pushOverride output kind scope day second) rfl hr
    (remaining_notMem_commandParts _ (by simp) (by simp) (by simp) (by simp))
    (fun _ => cons_law (checkPush_room h) rfl) ?_
  show obeyPushOverride .. = _
  rw [obeyPushOverride, checkPush_atOwner, h]
  simp only [complete, pushEntry_eq, pushData_restacked, atOwner_context]
  rfl

end

/-! ### POP_OVERRIDE and CLEAR_OVERRIDES (R94, R95) -/

theorem popOverride_row {output : Byte} {s : State} (hr : Ready (.popOverride output) s) :
    (3 ≤ output.toNat → Refuses (.popOverride output) .badField s)
      ∧ ∀ o, outputCode o = output.toNat →
        ((s.context o).stack = [] → Refuses (.popOverride output) .emptyStack s)
        ∧ ∀ top below, (s.context o).stack = top :: below →
          ∃ t, Ends (.popOverride output)
              (.done .doneOk
                (nat8 (below.length + 1 - (t.context o).stack.length) ++ nat8 (t.context o).stack.length))
              (.stack o :: judgedParts o) s t
            ∧ (t.context o).stack = below.dropWhile (fun e => decide (e.tag = .spent))
            ∧ UpToDate t o := by
  have lasting : Part.sessionRemaining ∉ commandParts (.popOverride output) :=
    remaining_notMem_commandParts _ (by simp) (by simp) (by simp) (by simp)
  refine ⟨fun h => refuses_of_obey rfl hr (by simp) lasting ?bad, fun o ho =>
    ⟨fun empty => refuses_of_obey rfl hr (by simp) lasting ?empty, fun top below held => ?popped⟩⟩
  case bad =>
    show obeyPopOverride .. = _
    rw [obeyPopOverride, outputOf_none h]
  case empty =>
    show obeyPopOverride .. = _
    simp only [obeyPopOverride, outputOf_code ho, atOwner_context, empty, List.isEmpty_nil, if_true]
  case popped =>
    obtain ⟨t, ends, stack, judged⟩ := ends_of_restacked (c := .popOverride output) (o := o)
      (stack := dropSpent below) rfl hr lasting (fun law => by simpa only [held, List.tail_cons] using pop_law law) (by
        show obeyPopOverride .. = _
        simp only [obeyPopOverride, outputOf_code ho, popStack_eq, restacked_stack, atOwner_context, held,
          List.isEmpty_cons, Bool.false_eq_true, if_false, List.tail_cons, List.length_cons, complete, doneOr]
        rfl)
    exact ⟨t, by rw [stack]; exact ends, stack, judged⟩

theorem clearOverrides_row {output : Byte} {s : State} (hr : Ready (.clearOverrides output) s) :
    (3 ≤ output.toNat → Refuses (.clearOverrides output) .badField s)
      ∧ ∀ o, outputCode o = output.toNat →
        ∃ t, Ends (.clearOverrides output) (.done .doneOk (nat8 (s.context o).stack.length))
            (.stack o :: judgedParts o) s t
          ∧ (t.context o).stack = [] ∧ UpToDate t o := by
  have lasting : Part.sessionRemaining ∉ commandParts (.clearOverrides output) :=
    remaining_notMem_commandParts _ (by simp) (by simp) (by simp) (by simp)
  refine ⟨fun h => refuses_of_obey rfl hr (by simp) lasting ?bad, fun o ho =>
    ends_of_restacked rfl hr lasting (fun _ => nil_law) ?cleared⟩
  case bad =>
    show obeyClearOverrides .. = _
    rw [obeyClearOverrides, outputOf_none h]
  case cleared =>
    show obeyClearOverrides .. = _
    simp only [obeyClearOverrides, outputOf_code ho, atOwner_context, clearStack_eq]
    rfl

/-- Settles O37: the checks of a push in their order, and what each row writes on its stack. -/
theorem overridesArePushedPoppedAndCleared : Obligations.OverridesArePushedPoppedAndCleared := by
  unfold Obligations.OverridesArePushedPoppedAndCleared
  refine fun s => ⟨?pushes, fun output => ⟨popOverride_row, clearOverrides_row⟩⟩
  rintro _ output kind scope day second at_ rfl hr rfl
  refine ⟨fun bad => pushOverride_refused hr (checkPush_badField (bad.imp_right kindAndScope_unpaired)),
    fun o k sc ho hk hsc allowed => ?_⟩
  have named := outputOf_code ho
  have paired := kindAndScope_some.2 ⟨hk, hsc, allowed⟩
  refine ⟨fun missing => pushOverride_refused hr (checkPush_noSuch named paired (captureSubject_missing missing)),
    fun hkey hevent => ?_⟩
  have captured := captureSubject_captured hkey hevent
  refine ⟨fun full => pushOverride_refused hr (checkPush_full named paired captured full), fun room =>
    ⟨fun hs bad => pushOverride_refused hr
      (checkPush_badEnd named paired captured room (checkEnd_refused k hs bad)), fun good => ?_⟩⟩
  have ahead : sc = .untilTime → second.toNat ≤ 86399
      ∧ ¬ EndPassed s.time (day.toNat * 86400 + second.toNat) := fun hs =>
    ⟨(good hs).1, fun ⟨set, le⟩ => absurd ((good hs).2 set) (Nat.not_lt.2 le)⟩
  obtain ⟨t, ends, stack, judged⟩ := pushOverride_pushed hr
    (checkPush_ok named paired captured room (checkEnd_fits k rfl ahead)) rfl
  refine ⟨_, t, _, ends, stack, rfl, rfl, rfl, rfl, rfl, rfl, ?_, rfl, judged⟩
  rw [Bool.and_eq_true, waivesTooFar_iff, decide_eq_true_eq]

end Sys2Proof.Machine
end

section
/-! PROOF. SET_TIME and SET_DAY_START (R99, R100, R143, R144, R150, R151): the settlement that a new profile day
brings, the setting of wall time, and the day-start minute. -/

namespace Sys2Proof.Machine

open Sys2Proof

/-! ### Settlement where the profile day changed (R150, R152) -/

/-- R57, R152: where the profile day is another, no failure is counted and every record has been settled. -/
def SettledOnAdvance (s t : State) : Prop :=
  s.time.profileDay ≠ t.time.profileDay →
    t.pin.failures = 0 ∧ t.pin.step = 0
      ∧ ∀ n, t.profile n = settledAccount (s.profile n) (t.time.profileDay.getD 0)

theorem SettledOnAdvance.frame {ps : List Part} {s t u : State} (h : SettledOnAdvance s t) (f : Frame ps t u)
    (hd : Part.profileDay ∉ ps) (hf : Part.failures ∉ ps) (hp : ∀ n, Part.profile n ∉ ps) :
    SettledOnAdvance s u := by
  have day : u.time.profileDay = t.time.profileDay := f .profileDay hd
  obtain ⟨failures, step⟩ := f .failures hf
  intro moved
  rw [day] at moved ⊢
  obtain ⟨noFailures, noStep, settled⟩ := h moved
  exact ⟨failures.trans noFailures, step.trans noStep, fun n => (f (.profile n) (hp n)).trans (settled n)⟩

/-- What stood between the earlier state and the comparison is not about the day or the records. -/
theorem SettledOnAdvance.ofBefore {s u t : State} (h : SettledOnAdvance u t)
    (day : u.time.profileDay = s.time.profileDay) (profile : ∀ n, u.profile n = s.profile n) :
    SettledOnAdvance s t := by
  simpa only [SettledOnAdvance, day, profile] using h

/-- R150: a comparison raises an advance exactly where it changes the profile day. -/
theorem advances_iff_dayAfter (t : TimeBase) : t.advances = true ↔ dayAfter t ≠ t.profileDay := by
  rw [advances_iff, dayAfter]
  by_cases hs : t.source = .unset
  · simp [hs]
  · cases hd : t.profileDay with
    | none => simp [hs]
    | some p => simp [hs]

theorem compareDay_still {s : State} (h : ¬ s.time.advances = true) : compareDay s = s := if_neg h

theorem compareDay_settles (s : State) : SettledOnAdvance s (compareDay s) := by
  intro moved
  have advanced : compareDay s = advanceDay s.time.computedDay s :=
    if_pos (by_contra fun still => moved (by rw [compareDay_still still]))
  refine ⟨by rw [advanced]; rfl, by rw [advanced]; rfl, fun n => ?_⟩
  rw [compareDay_profile, if_neg moved.symm]

theorem evaluatedAfterDay_settles (s : State) : SettledOnAdvance s (evaluateSupervised (compareDay s)) :=
  (compareDay_settles s).frame (evaluateSupervised_within _).frame (by simp) (by simp) (by simp)

/-! ### The setting of wall time (R143) -/

/-- R143 step 5: a first setting, and a move by more than 2 seconds, are noted. -/
theorem noteTimeStep_noted {before : TimeBase} {s : State} (hr : Running s)
    (h : before.source = .unset ∨ 2 < apart before.wallCount s.time.wallCount) :
    Noted .timeStep 0 (noteTimeStep before s) := by
  have stepped : (!before.isSet || decide (2 < apart before.wallCount s.time.wallCount)) = true := by
    simpa [TimeBase.isSet] using h
  rw [noteTimeStep, if_pos stepped]
  exact noted_raise hr ..

section
variable (day second : Nat) (source : TimeSource) (offset : Int)

theorem wallSpent_profile (s : State) (n : Fin 8) :
    (wallSpent day second source offset s).profile n = s.profile n := by
  unfold wallSpent
  split
  · exact (spendReached_within _).frame (.profile n) (by simp)
  · exact (settleStacks_within _).frame (.profile n) (by simp)

theorem setWall_settles (s : State) : SettledOnAdvance s (setWall day second source offset s) := by
  rw [setWall, replaceWall_eq]
  have compared := (evaluatedAfterDay_settles (wallSpent day second source offset (meetEnds s))).frame
    (noteTimeStep_within (meetEnds s).time _).frame (by simp) (by simp) (by simp)
  refine compared.ofBefore ?_ fun n => ?_
  · rw [wallSpent_time, meetEnds_time]
    rfl
  · rw [wallSpent_profile]
    exact (meetEnds_within s).frame (.profile n) (by simp)

variable {s : State} (hr : Running s)
include hr

/-- R99, R100, R143: the time base, the stacks and the supervised outputs after a setting of wall time. -/
theorem setWall_sets :
    (setWall day second source offset s).time
        = { s.time.withWall day second source offset with
            profileDay := dayAfter (s.time.withWall day second source offset) }
      ∧ EndsMet s (setWall day second source offset s) ∧ SupervisedUpToDate (setWall day second source offset s) := by
  have running : Running (meetEnds s) := ((meetEnds_within s).frame .systemReset (by simp)).trans hr
  obtain ⟨time, -, judged⟩ := replaceWall_sets running day second source offset
  rw [meetEnds_time] at time
  have wall : (setWall day second source offset s).time = _ := time
  refine ⟨wall, fun o => ?_, judged⟩
  rw [wall]
  obtain ⟨set, unset⟩ := setWall_stack day second source offset hr o
  exact ⟨set, unset⟩

theorem setWall_noted
    (h : s.time.source = .unset
      ∨ 2 < apart s.time.wallCount (setWall day second source offset s).time.wallCount) :
    Noted .timeStep 0 (setWall day second source offset s) := by
  have running := wallSpent_running (s := meetEnds s)
    (((meetEnds_within s).frame .systemReset (by simp)).trans hr) day second source offset
  rw [setWall, replaceWall_eq, meetEnds_time] at h ⊢
  rw [(noteTimeStep_within _ _).frame.time (by simp)] at h
  refine noteTimeStep_noted ?_ h
  exact ((evaluateSupervised_within _).frame .systemReset (by simp)).trans
    (((compareDay_within _).frame .systemReset (by simp [everyProfile])).trans running)

end

/-! ### The day-start minute (R151) -/

/-- R151: the day-start minute written. -/
def withDayStart (minute : Nat) (s : State) : State := { s with time := { s.time with dayStart := minute } }

theorem withDayStart_frame (minute : Nat) (s : State) : Frame [.dayStart] s (withDayStart minute s) := by
  intro p hp
  have same := p.same_refl s
  cases p
  case dayStart => simp at hp
  all_goals exact same

section
variable {minute : Nat} {s : State}

theorem takeDayStart_advances (h : (withDayStart minute s).time.advances = true) :
    takeDayStart minute s = evaluateSupervised (compareDay (withDayStart minute s)) := if_pos h

theorem takeDayStart_still (h : ¬ (withDayStart minute s).time.advances = true) :
    takeDayStart minute s = withDayStart minute s := if_neg h

variable (minute s)

theorem takeDayStart_time :
    (takeDayStart minute s).time
      = { s.time with dayStart := minute, profileDay := dayAfter { s.time with dayStart := minute } } := by
  have compared := compareDay_time (withDayStart minute s)
  by_cases h : (withDayStart minute s).time.advances = true
  · rw [takeDayStart_advances h]
    exact ((evaluateSupervised_within _).frame.time (by simp)).trans compared
  · rw [compareDay_still h] at compared
    rw [takeDayStart_still h]
    exact compared

theorem takeDayStart_settles : SettledOnAdvance s (takeDayStart minute s) := by
  by_cases h : (withDayStart minute s).time.advances = true
  · rw [takeDayStart_advances h]
    exact (evaluatedAfterDay_settles (withDayStart minute s)).ofBefore rfl fun _ => rfl
  · rw [takeDayStart_still h]
    exact fun moved => absurd rfl moved

variable {minute s}

theorem takeDayStart_upToDate (hr : Running s)
    (moved : (takeDayStart minute s).time.profileDay ≠ s.time.profileDay) :
    SupervisedUpToDate (takeDayStart minute s) := by
  rw [takeDayStart_time] at moved
  rw [takeDayStart_advances ((advances_iff_dayAfter _).2 moved)]
  exact evaluateSupervised_upToDate (((compareDay_within _).frame .systemReset (by simp [everyProfile])).trans hr)

theorem takeDayStart_frame (stands : (takeDayStart minute s).time.profileDay = s.time.profileDay) :
    Frame [.dayStart] s (takeDayStart minute s) := by
  rw [takeDayStart_time] at stands
  rw [takeDayStart_still fun h => (advances_iff_dayAfter _).1 h stands]
  exact withDayStart_frame minute s

end

/-! ### The rows -/

section
variable {s u t : State} (f : Frame (ringParts s) u t)
include f

theorem ring_time : t.time = u.time := f.time (by simp)

theorem ring_supervised (h : SupervisedUpToDate u) : SupervisedUpToDate t :=
  h.congr (ring_context f) (ring_time f) (ring_profile f) (ring_entry f)

theorem ring_endsMet {r : State} (h : EndsMet r u) : EndsMet r t := by
  simpa only [EndsMet, ring_context f, ring_time f] using h

theorem ring_settled {r : State} (h : SettledOnAdvance r u) : SettledOnAdvance r t :=
  h.frame f (by simp) (by simp) (by simp)

end

theorem atOwner_endsMet {c : Command} {s t : State} (h : EndsMet (atOwner c s) t) : EndsMet s t := by
  simpa only [EndsMet, atOwner_context, atOwner_time] using h

theorem atOwner_settled {c : Command} {s t : State} (h : SettledOnAdvance (atOwner c s) t) : SettledOnAdvance s t :=
  h.ofBefore (by rw [atOwner_time]) (atOwner_profile c s)

/-- R144: the offset that SET_TIME declares. -/
theorem offsetOf_eq (w : Word) :
    offsetOf w = (max (-780) (min 840 w.toInt), decide (w.toInt < -780 ∨ 840 < w.toInt)) := by
  unfold offsetOf
  split
  · next low => simp only [low, true_or, decide_true, Prod.mk.injEq, and_true]; omega
  · next low =>
    split
    · next high => simp only [high, or_true, decide_true, Prod.mk.injEq, and_true]; omega
    · next high => simp only [low, high, or_self, decide_false, Prod.mk.injEq, and_true]; omega

/-- R144: the setting of wall time that SET_TIME makes. -/
def afterSetTime (day : Half) (second offset : Word) (s : State) : State :=
  setWall day.toNat second.toNat .declared (max (-780) (min 840 offset.toInt)) s

/-- R144: the time base that SET_TIME declares, before the comparison. -/
def declaredTime (day : Half) (second offset : Word) (t : TimeBase) : TimeBase :=
  t.withWall day.toNat second.toNat .declared (max (-780) (min 840 offset.toInt))

theorem obeySetTime_sets {second : Word} (h : second.toNat ≤ 86399) (day : Half) (offset : Word) (s : State) :
    obeySetTime day second offset s
      = (afterSetTime day second offset s,
          .done (doneOr (decide (offset.toInt < -780 ∨ 840 < offset.toInt)))
            (timeData (afterSetTime day second offset s).time)) := by
  rw [obeySetTime, if_neg (Nat.not_lt.2 h), offsetOf_eq]
  rfl

theorem obeySetDayStart_sets (minute : Half) (s : State) :
    obeySetDayStart minute s
      = (takeDayStart (min 1439 minute.toNat) s,
          .done (doneOr (decide (1439 < minute.toNat)))
            (nat16 (takeDayStart (min 1439 minute.toNat) s).time.dayStart
              ++ dayField4 (takeDayStart (min 1439 minute.toNat) s).time.profileDay)) := by
  rw [obeySetDayStart, clampTo_eq]
  rfl

section
variable {day : Half} {second offset : Word} {s : State} (hr : Ready (.setTime day second offset) s)
include hr

theorem setTime_refused (h : 86399 < second.toNat) : Refuses (.setTime day second offset) .badField s := by
  refine refuses_of_obey (c := .setTime day second offset) rfl hr (by simp)
    (remaining_notMem_commandParts _ (by simp) (by simp) (by simp) (by simp)) ?_
  show obeySetTime .. = _
  rw [obeySetTime, if_pos h]

/-- R144: SET_TIME is a setting of wall time to what it declares. -/
theorem setTime_sets (h : second.toNat ≤ 86399) :
    ∃ t, Ends (.setTime day second offset)
        (.done (doneOr (decide (offset.toInt < -780 ∨ 840 < offset.toInt))) (timeData t.time)) settingParts s t
      ∧ t.time = { declaredTime day second offset s.time with
          profileDay := dayAfter (declaredTime day second offset s.time) }
      ∧ SupervisedUpToDate t
      ∧ (s.time.source = .unset ∨ 2 < apart s.time.wallCount t.time.wallCount → Noted .timeStep 0 t)
      ∧ EndsMet s t ∧ SettledOnAdvance s t := by
  have running := atOwner_running hr.1.1 (.setTime day second offset)
  have owner := obeySetTime_sets h day offset (atOwner (.setTime day second offset) s)
  have within := (obeySetTime_within day second offset (atOwner (.setTime day second offset) s)).frame
  rw [owner] at within
  obtain ⟨t, ends, f⟩ := ends_of_obey (c := .setTime day second offset) rfl hr (by simp)
    (remaining_notMem_commandParts _ (by simp) (by simp) (by simp) (by simp)) owner within
  obtain ⟨time, met, judged⟩ := setWall_sets day.toNat second.toNat .declared _ running
  rw [atOwner_time] at time
  refine ⟨t, by rw [ring_time f]; exact ends, (ring_time f).trans time, ring_supervised f judged, fun step => ?_,
    ring_endsMet f (atOwner_endsMet met), ring_settled f (atOwner_settled (setWall_settles _ _ _ _ _))⟩
  rw [ring_time f, ← atOwner_time (.setTime day second offset) s] at step
  exact ring_noted f (setWall_noted _ _ _ _ running step)

end

/-- R151: SET_DAY_START writes the clamped minute and compares the profile day. -/
theorem setDayStart_sets {minute : Half} {s : State} (hr : Ready (.setDayStart minute) s) :
    ∃ t, Ends (.setDayStart minute)
        (.done (doneOr (decide (1439 < minute.toNat))) (nat16 t.time.dayStart ++ dayField4 t.time.profileDay))
        (.dayStart :: dayParts) s t
      ∧ t.time = { s.time with
          dayStart := min 1439 minute.toNat
          profileDay := dayAfter { s.time with dayStart := min 1439 minute.toNat } }
      ∧ (t.time.profileDay = s.time.profileDay → Frame (ringParts s ++ [.dayStart, .sessionRemaining]) s t)
      ∧ (t.time.profileDay ≠ s.time.profileDay → SupervisedUpToDate t)
      ∧ SettledOnAdvance s t := by
  have before := atOwner_frame (.setDayStart minute) s
  obtain ⟨t, ends, f⟩ := ends_of_obey (c := .setDayStart minute) rfl hr (by simp)
    (remaining_notMem_commandParts _ (by simp) (by simp) (by simp) (by simp)) (obeySetDayStart_sets minute _)
    (takeDayStart_within _ _ (Nat.min_le_left ..)).frame
  have time := takeDayStart_time (min 1439 minute.toNat) (atOwner (.setDayStart minute) s)
  rw [atOwner_time] at time
  refine ⟨t, by rw [ring_time f]; exact ends, (ring_time f).trans time, fun stands => ?still, fun moved => ?judged,
    ring_settled f (atOwner_settled (takeDayStart_settles _ _))⟩
  case still =>
    rw [ring_time f, ← atOwner_time (.setDayStart minute) s] at stands
    exact ((before.mono (by simp)).trans ((takeDayStart_frame stands).mono (by simp))).trans
      (f.mono fun _ hp => List.mem_append_left _ hp)
  case judged =>
    rw [ring_time f, ← atOwner_time (.setDayStart minute) s] at moved
    exact ring_supervised f (takeDayStart_upToDate (atOwner_running hr.1.1 _) moved)

/-- Settles O38: the two rows, read field by field off the time base they leave. -/
theorem timeAndDayStartAreSet : Obligations.TimeAndDayStartAreSet := by
  unfold Obligations.TimeAndDayStartAreSet
  refine fun s => ⟨?time, ?dayStart⟩
  case time =>
    rintro _ day second offset rfl hr
    refine ⟨setTime_refused hr, fun h => ?_⟩
    obtain ⟨t, ends, time, judged, noted, met, settled⟩ := setTime_sets hr h
    refine ⟨t, ends, ?_, ?_, ?_, ?_, ?_, judged, noted, met, settled⟩
    all_goals
      rw [time]
      rfl
  case dayStart =>
    rintro _ minute rfl hr
    obtain ⟨t, ends, time, still, judged, settled⟩ := setDayStart_sets hr
    refine ⟨t, ends, ?_, ?_, still, fun moved => ⟨judged moved, settled moved.symm⟩⟩
    all_goals
      rw [time]

end Sys2Proof.Machine
end

section
/-! PROOF. The commands of the section intake (R106, R115 to R117), and the laws of the intake and of the time base
at every step. -/

namespace Sys2Proof.Machine

open Sys2Proof

/-- Settles O9: both laws are laws of one block, which every step keeps. -/
theorem stepKeepsIntakeAndTime : Obligations.StepKeepsIntakeAndTime :=
  fun _ _ h => ⟨step_keeps h .intake, step_keeps h .time⟩

/-! ### What a row's end leaves in the intake and the report unit -/

/-- The report unit stands where none of its parts is named. -/
theorem Frame.report {ps : List Part} {s t : State} (f : Frame ps s t)
    (h : ∀ p ∈ [Part.notices, .flags, .masks, .attentionLevels, .view], p ∉ ps) : t.report = s.report := by
  obtain ⟨queue, attention⟩ := f .notices (h _ (by simp))
  obtain ⟨sticky, lost⟩ := f .flags (h _ (by simp))
  have masks := f .masks (h _ (by simp))
  obtain ⟨level, urgent⟩ := f .attentionLevels (h _ (by simp))
  have view := f .view (h _ (by simp))
  simp only [Part.same] at masks view
  generalize t.report = p at *
  generalize s.report = q at *
  cases p
  cases q
  simp_all

@[simp] theorem atOwner_intake (c : Command) (s : State) : (atOwner c s).intake = s.intake := by
  obtain ⟨unit, pin, h⟩ := atOwner_eq c s
  rw [h]

@[simp] theorem atOwner_report (c : Command) (s : State) : (atOwner c s).report = s.report := by
  obtain ⟨unit, pin, h⟩ := atOwner_eq c s
  rw [h]

@[simp] theorem atOwner_sectionWindow (c : Command) (s : State) (w : Fin 4) :
    (atOwner c s).sectionWindow w = s.sectionWindow w := by
  simp only [State.sectionWindow, atOwner_intake]

/-! ### SET_SECTION_WINDOW (R106) -/

theorem putSectionWindow_frame (w : Fin 4) (x : SectionWindow) (s : State) :
    Frame [.sectionWindow w] s (s.putSectionWindow w x) := by
  intro p hp
  have same := p.same_refl s
  cases p
  case sectionWindow v =>
    have ne : v ≠ w := fun e => hp (by simp [e])
    exact (sectionWindow_putSectionWindow s w v x).trans (if_neg ne)
  all_goals exact same

theorem overlapsSection_iff (w : Fin 4) (base size : Nat) (s : State) :
    overlapsSection w base size s = true ↔
      ∃ v, v ≠ w ∧ (s.sectionWindow v).set = true
        ∧ rangesMeet base size (s.sectionWindow v).base (s.sectionWindow v).size = true := by
  have every : ∀ v : Fin 4, v ∈ allSections := by decide
  simp only [overlapsSection, List.any_eq_true, Bool.and_eq_true, decide_eq_true_eq, and_assoc]
  exact ⟨fun ⟨v, _, h⟩ => ⟨v, h⟩, fun ⟨v, h⟩ => ⟨v, every v, h⟩⟩

theorem freshContext_eq (f : FlowState) : freshContext f = if f = .flowing then .seeking none else .shed := by
  cases f <;> rfl

section
variable {number : Byte} {base size : Word} {u : State}

theorem obeySetSectionWindow_badNumber (h : 4 ≤ number.toNat) :
    obeySetSectionWindow number base size u = refuse .badField u := dif_neg (by omega)

variable {w : Fin 4} (hw : w.val = number.toNat)
include hw

/-- R106: past the check of the number, the window written is the one it names. -/
theorem obeySetSectionWindow_named :
    obeySetSectionWindow number base size u
      = if size.toNat = 0 then complete false [] (u.putSectionWindow w .unset)
        else if !sectionFits base.toNat size.toNat then refuse .badField u
        else if overlapsSection w base.toNat size.toNat u then refuse .overlap u
        else complete false []
          (u.putSectionWindow w ⟨true, base.toNat, size.toNat, freshContext u.intake.flow⟩) := by
  have named : (⟨number.toNat, hw ▸ w.isLt⟩ : Fin 4) = w := Fin.ext hw.symm
  rw [obeySetSectionWindow, dif_pos (hw ▸ w.isLt), named]

theorem obeySetSectionWindow_unset (h : size.toNat = 0) :
    obeySetSectionWindow number base size u = complete false [] (u.putSectionWindow w .unset) := by
  rw [obeySetSectionWindow_named hw, if_pos h]

theorem obeySetSectionWindow_badField (h0 : size.toNat ≠ 0) (h : sectionFits base.toNat size.toNat = false) :
    obeySetSectionWindow number base size u = refuse .badField u := by
  rw [obeySetSectionWindow_named hw, if_neg h0, h]
  rfl

variable (h0 : size.toNat ≠ 0) (h : sectionFits base.toNat size.toNat = true)
include h0 h

theorem obeySetSectionWindow_overlap (hv : overlapsSection w base.toNat size.toNat u = true) :
    obeySetSectionWindow number base size u = refuse .overlap u := by
  rw [obeySetSectionWindow_named hw, if_neg h0, h, hv]
  rfl

theorem obeySetSectionWindow_set (hv : overlapsSection w base.toNat size.toNat u = false) :
    obeySetSectionWindow number base size u
      = complete false [] (u.putSectionWindow w ⟨true, base.toNat, size.toNat, freshContext u.intake.flow⟩) := by
  rw [obeySetSectionWindow_named hw, if_neg h0, h, hv]
  rfl

end

section
variable {number : Byte} {base size : Word} {s : State} (hr : Ready (.setSectionWindow number base size) s)
include hr

theorem setSectionWindow_refused {outcome : CommandOutcome}
    (h : ∀ u : State, (∀ v, u.sectionWindow v = s.sectionWindow v) →
      obeySetSectionWindow number base size u = refuse outcome u) :
    Refuses (.setSectionWindow number base size) outcome s :=
  refuses_of_obey (c := .setSectionWindow number base size) rfl hr (by simp)
    (remaining_notMem_commandParts _ (by simp) (by simp) (by simp) (by simp))
    (h _ (atOwner_sectionWindow _ s))

/-- A section window written by the owner of SET_SECTION_WINDOW is written by its row. -/
theorem setSectionWindow_ends {w : Fin 4} {x : SectionWindow}
    (h : ∀ u : State, (∀ v, u.sectionWindow v = s.sectionWindow v) → u.intake = s.intake →
      obeySetSectionWindow number base size u = complete false [] (u.putSectionWindow w x)) :
    ∃ t, Ends (.setSectionWindow number base size) (.done .doneOk []) [.sectionWindow w] s t
      ∧ t.sectionWindow w = x := by
  obtain ⟨t, ends, done⟩ := ends_of_obey (c := .setSectionWindow number base size) rfl hr (by simp)
    (remaining_notMem_commandParts _ (by simp) (by simp) (by simp) (by simp))
    (h _ (atOwner_sectionWindow _ s) (atOwner_intake _ s)) (putSectionWindow_frame w x _)
  exact ⟨t, ends, (done (.sectionWindow w) (by simp)).trans (sectionWindow_putSectionWindow_self ..)⟩

end

/-- Whether a range overlaps another window is read off the section windows. -/
theorem overlapsSection_congr {s u : State} (h : ∀ v, u.sectionWindow v = s.sectionWindow v) (w : Fin 4)
    (base size : Nat) : overlapsSection w base size u = overlapsSection w base size s := by
  simp only [overlapsSection, h]

/-! ### SET_INTAKE_LEVELS (R115 to R117) -/

theorem clampIn_eq {lo hi : Nat} (h : lo ≤ hi) (n : Nat) :
    clampIn lo hi n = (max lo (min hi n), decide (max lo (min hi n) ≠ n)) := by
  unfold clampIn
  split_ifs with low high
  · simp only [Prod.mk.injEq, Bool.true_eq, decide_eq_true_eq]
    omega
  · simp only [Prod.mk.injEq, Bool.true_eq, decide_eq_true_eq]
    omega
  · simp only [Prod.mk.injEq, Bool.false_eq, decide_eq_false_iff_not]
    omega

theorem halted_eq (c : IntakeContext) : c.halted = if c = .unset then .unset else .shed := by
  cases c <;> rfl

/-- R115: a halt sheds every context but an UNSET one. -/
theorem haltIntake_sectionWindow (s : State) (w : Fin 4) :
    (haltIntake s).sectionWindow w = { s.sectionWindow w with
      context := if (s.sectionWindow w).context = .unset then .unset else .shed } := by
  rw [haltIntake_eq, sectionWindow_raise, ← halted_eq]
  exact mapped_section s.intake _ w

theorem haltIntake_flow (s : State) : (haltIntake s).intake.flow = .halted := by
  rw [haltIntake_eq, raise_intake]

theorem haltIntake_noted {s : State} (h : Running s) : Noted .intakeShed 0xFF (haltIntake s) :=
  noted_raise (s := { s with intake := { s.intake with
    flow := .halted, windows := s.intake.windows.map (fun w => { w with context := w.context.halted }) } }) h ..

/-- The state in which the levels are written and not yet applied. -/
def withLevels (h l : Nat) (s : State) : State :=
  { s with intake := { s.intake with haltLevel := h, resumeLevel := l } }

theorem withLevels_frame (h l : Nat) (s : State) : Frame [.intakeLevels] s (withLevels h l s) := by
  intro p hp
  have same := p.same_refl s
  cases p
  case intakeLevels => simp at hp
  all_goals exact same

theorem obeySetIntakeLevels_eq {halt resume : Byte} {h l : Nat} (hh : h = max 1 (min 8 halt.toNat))
    (hl : l = min (h - 1) resume.toNat) (u : State) :
    obeySetIntakeLevels halt resume u
      = complete (decide (h ≠ halt.toNat ∨ l ≠ resume.toNat)) [] (applyLevels (withLevels h l u)) := by
  have clamped : (decide (h ≠ halt.toNat) || decide (h - 1 < resume.toNat))
      = decide (h ≠ halt.toNat ∨ l ≠ resume.toNat) := by
    rw [← Bool.decide_or, decide_eq_decide]
    omega
  simp only [obeySetIntakeLevels, clampIn_eq (show 1 ≤ 8 by omega), clampTo_eq, ← hh, ← hl, clamped]
  rfl

theorem applyLevels_levelsStand (s : State) :
    (applyLevels s).intake.haltLevel = s.intake.haltLevel
      ∧ (applyLevels s).intake.resumeLevel = s.intake.resumeLevel :=
  applyLevels_frame s .intakeLevels (by decide)

section
variable {s : State}

theorem applyLevels_halts (hf : s.intake.flow = .flowing) (h : s.intake.haltLevel ≤ s.intake.queue.length) :
    applyLevels s = haltIntake s := by
  simp only [applyLevels, hf]
  exact if_pos h

theorem applyLevels_flows (hf : s.intake.flow = .flowing) (h : s.intake.queue.length < s.intake.haltLevel) :
    applyLevels s = s := by
  simp only [applyLevels, hf]
  exact if_neg (Nat.not_le.2 h)

theorem applyLevels_resumes (hf : s.intake.flow = .halted) (h : s.intake.queue.length ≤ s.intake.resumeLevel) :
    applyLevels s = resumeIntake s := by
  simp only [applyLevels, hf]
  exact if_pos h

theorem applyLevels_stays (hf : s.intake.flow = .halted) (h : s.intake.resumeLevel < s.intake.queue.length) :
    applyLevels s = s := by
  simp only [applyLevels, hf]
  exact if_neg (Nat.not_le.2 h)

end

/-- The row of SET_INTAKE_LEVELS leaves what the application of the new levels leaves. -/
theorem setIntakeLevels_ends {halt resume : Byte} {h l : Nat} {s : State}
    (hr : Ready (.setIntakeLevels halt resume) s) (hh : h = max 1 (min 8 halt.toNat))
    (hl : l = min (h - 1) resume.toNat) :
    ∃ t, Ends (.setIntakeLevels halt resume)
        (.done (doneOr (decide (h ≠ halt.toNat ∨ l ≠ resume.toNat))) []) levelParts s t
      ∧ Frame (ringParts s) (applyLevels (withLevels h l (atOwner (.setIntakeLevels halt resume) s))) t := by
  have frame := (withLevels_frame h l (atOwner (.setIntakeLevels halt resume) s)).mono (qs := levelParts) (by simp)
  exact ends_of_obey (c := .setIntakeLevels halt resume) rfl hr (by simp)
    (remaining_notMem_commandParts _ (by simp) (by simp) (by simp) (by simp)) (obeySetIntakeLevels_eq hh hl _)
    (frame.trans (applyLevels_levels _))

/-- Settles O29: the owners' answers, put through their rows. -/
theorem sectionWindowsAndLevels : Obligations.SectionWindowsAndLevels := by
  unfold Obligations.SectionWindowsAndLevels
  refine fun s => ⟨?window, ?levels⟩
  case window =>
    rintro _ number base size rfl hr
    refine ⟨fun h => setSectionWindow_refused hr fun _ _ => obeySetSectionWindow_badNumber h, fun w hw =>
      ⟨fun h0 => setSectionWindow_ends hr fun _ _ _ => obeySetSectionWindow_unset hw h0, fun h0 =>
        ⟨fun bad => ?_, fun hb hs low high fit => ⟨fun meets => ?_, fun apart => ?_⟩⟩⟩⟩
    · have misfit : sectionFits base.toNat size.toNat = false := by
        simp only [sectionFits, Config.addressSpace, decide_eq_false_iff_not]
        omega
      exact setSectionWindow_refused hr fun _ _ => obeySetSectionWindow_badField hw h0 misfit
    all_goals have fits : sectionFits base.toNat size.toNat = true := decide_eq_true ⟨hb, hs, low, high, fit⟩
    · refine setSectionWindow_refused hr fun u same => obeySetSectionWindow_overlap hw h0 fits ?_
      rw [overlapsSection_congr same, overlapsSection_iff]
      exact meets
    · have clear : overlapsSection w base.toNat size.toNat s = false := by
        rw [← Bool.not_eq_true, overlapsSection_iff]
        rintro ⟨v, ne, set, meet⟩
        simp [apart v ne set] at meet
      rw [← freshContext_eq]
      exact setSectionWindow_ends hr fun u same intake =>
        (obeySetSectionWindow_set hw h0 fits ((overlapsSection_congr same ..).trans clear)).trans (by rw [intake])
  case levels =>
    rintro _ halt resume h l rfl hr hh hl
    obtain ⟨t, ends, done⟩ := setIntakeLevels_ends hr hh hl
    have levels := Part.same_trans (p := .intakeLevels) (applyLevels_levelsStand _) (done .intakeLevels (by simp))
    have owner := atOwner_frame (.setIntakeLevels halt resume) s
    have running := atOwner_running hr.1.1 (.setIntakeLevels halt resume)
    have intake := atOwner_intake (.setIntakeLevels halt resume) s
    have report := atOwner_report (.setIntakeLevels halt resume) s
    have sections := atOwner_sectionWindow (.setIntakeLevels halt resume) s
    generalize atOwner (.setIntakeLevels halt resume) s = u at *
    have written := withLevels_frame h l u
    have flow : (withLevels h l u).intake.flow = s.intake.flow := (written .flow (by simp)).trans (by rw [intake])
    have queue : (withLevels h l u).intake.queue = s.intake.queue :=
      (written .intakeQueue (by simp)).1.trans (by rw [intake])
    have window : ∀ w, (withLevels h l u).sectionWindow w = s.sectionWindow w := fun w =>
      (written (.sectionWindow w) (by simp)).trans (sections w)
    refine ⟨t, ends, levels.1, levels.2, fun hf hq => ?halts, fun hf hq => ?resumes, fun still => ?stands⟩
    case halts =>
      rw [applyLevels_halts (flow.trans hf) (by rw [queue]; exact hq)] at done
      refine ⟨(done .flow (by simp)).trans (haltIntake_flow _), ring_noted done (haltIntake_noted running), fun w => ?_⟩
      rw [done (.sectionWindow w) (by simp), haltIntake_sectionWindow, window]
    case resumes =>
      rw [applyLevels_resumes (flow.trans hf) (by rw [queue]; exact hq)] at done
      refine ⟨done .flow (by simp), (done.report (by simp)).trans report, fun w => ?_⟩
      rw [done (.sectionWindow w) (by simp), sectionWindow_resumed, window, resumed_eq]
    case stands =>
      have same : applyLevels (withLevels h l u) = withLevels h l u := by
        obtain ⟨hf, hq⟩ | ⟨hf, hq⟩ := still
        · exact applyLevels_flows (flow.trans hf) (by rw [queue]; exact hq)
        · exact applyLevels_stays (flow.trans hf) (by rw [queue]; exact hq)
      rw [same] at done
      exact ((owner.mono (by simp)).trans (written.mono (by simp))).trans
        (done.mono fun _ hp => List.mem_append_left _ hp)

end Sys2Proof.Machine
end

section
/-! PROOF. What the section intake reads of a window write (R107 to R115): a burst that lies in one window, where a
record begins, and how the bytes of one are assembled and the whole is judged. -/

namespace Sys2Proof.Machine

open Sys2Proof

/-! ### A burst that lies in one window (R107) -/

theorem partWithin_whole {α : Type} {base size start : Nat} {bytes : List α} (hb : base ≤ start)
    (he : start + bytes.length ≤ base + size) (hn : 0 < bytes.length) :
    partWithin base size start bytes = some (start, bytes) := by
  simp only [partWithin, Nat.max_eq_left hb, Nat.min_eq_left he]
  rw [if_pos (by omega), Nat.sub_self, List.drop_zero, Nat.add_sub_cancel_left, List.take_length]

theorem LiesInWindow.congr {s t : State} {w : Fin 4} {start count : Nat} (h : LiesInWindow s w start count)
    (k : SameWindows s t) : LiesInWindow t w start count := by
  obtain ⟨hs, hb, he, others⟩ := h
  obtain ⟨c, hc⟩ := k.held w
  refine ⟨by rw [hc]; exact hs, by rw [hc]; exact hb, by rw [hc]; exact he, fun v hv => ?_⟩
  obtain ⟨d, hd⟩ := k.held v
  rw [hd]
  exact others v hv

/-- A part of a burst that lies in a window lies there too. -/
theorem LiesInWindow.part {s : State} {w : Fin 4} {start count start' count' : Nat}
    (h : LiesInWindow s w start count) (hs : start ≤ start') (he : start' + count' ≤ start + count) :
    LiesInWindow s w start' count' := by
  obtain ⟨set, low, high, others⟩ := h
  refine ⟨set, by omega, by omega, fun v hv hset => ?_⟩
  have apart := others v hv hset
  simp only [rangesMeet, decide_eq_false_iff_not] at apart ⊢
  omega

/-- R107: a burst that lies in one window is that window's write, whole. -/
theorem snoopStream_lies {s : State} {w : Fin 4} {start : Nat} {bytes : List (Byte × Bool)}
    (h : LiesInWindow s w start bytes.length) (hn : 0 < bytes.length) :
    snoopStream start bytes s = takeWindowWrite w start bytes s := by
  obtain ⟨set, low, high, others⟩ := h
  have every : w ∈ allSections := by fin_cases w <;> decide
  obtain ⟨before, after, split⟩ := List.append_of_mem every
  have once : (before ++ w :: after).Nodup := split ▸ by decide
  obtain ⟨-, tail, across⟩ := List.nodup_append.1 once
  have apart : ∀ {t}, SameWindows s t → ∀ v, v ≠ w → ¬ Touches t start bytes v := by
    intro t k v hv touched
    obtain ⟨hset, meets⟩ := (k.touches start bytes v).1 touched
    rw [others v hv hset] at meets
    cases meets
  have own : handWindow start bytes s w = takeWindowWrite w start bytes s := by
    simp only [handWindow, set, if_true, partWithin_whole low high hn]
  rw [snoopStream, split, List.foldl_append, List.foldl_cons,
    handAll_untouched before fun v hv => apart (.refl s) v fun e => across v hv w (by simp) e, own]
  exact handAll_untouched after fun v hv =>
    apart (takeWindowWrite_sameWindows ..) v fun e => (List.nodup_cons.1 tail).1 (e ▸ hv)

theorem burstOk_iff {start : Word} {count : Nat} :
    burstOk start count = true ↔ 1 ≤ count ∧ count ≤ 512 ∧ start.toNat + count ≤ 4294967296 := by
  simp [burstOk, Config.addressSpace]

/-- A part of a legal burst that holds a byte is a legal burst. -/
theorem burstOk_part {start start' : Word} {count count' : Nat} (h : burstOk start count = true)
    (hs : start.toNat ≤ start'.toNat) (he : start'.toNat + count' ≤ start.toNat + count) (hn : 0 < count') :
    burstOk start' count' = true := by
  rw [burstOk_iff] at h ⊢
  omega

/-- R2: the row of a stream write forwards the burst, whatever the intake does with it. -/
theorem streamWrite_row {s : State} {start : Word} {bytes : List (Byte × Bool)} (hr : Running s)
    (hb : burstOk start bytes.length = true) :
    exec (.streamWriteBurst start bytes) s
      = .next ((snoopStream start.toNat bytes s).putOut (.writeToMemory .stream start.toNat bytes)) := by
  rw [← snoopStream_putOut]
  exact ifBurst_running hr hb

theorem streamWrite_lies {s : State} {w : Fin 4} {start : Word} {bytes : List (Byte × Bool)} (hr : Running s)
    (hb : burstOk start bytes.length = true) (h : LiesInWindow s w start.toNat bytes.length) :
    exec (.streamWriteBurst start bytes) s
      = .next ((takeWindowWrite w start.toNat bytes s).putOut (.writeToMemory .stream start.toNat bytes)) := by
  rw [streamWrite_row hr hb, snoopStream_lies h (burstOk_iff.1 hb).1]

theorem putIntakeContext_frame (w : Fin 4) (c : IntakeContext) (s : State) :
    Frame [.sectionWindow w] s (s.putIntakeContext w c) := putSectionWindow_frame w _ s

theorem putOut_frame (x : LaneOut) (s : State) : Frame [.transfers] s (s.putOut x) := (putOut_within x s).frame

theorem raise_frame (k : NoticeKind) (subj : Nat) (d : List Byte) (s : State) : Frame raised s (raise k subj d s) :=
  (raise_within k subj d s).frame

theorem raise_keeps_running {s : State} (h : Running s) (k : NoticeKind) (subj : Nat) (d : List Byte) :
    Running (raise k subj d s) := (raise_frame k subj d s .systemReset (by simp)).trans h

/-! ### Where a record begins (R110) -/

/-- The assembly of a record that begins at an address, none of its bytes held yet. -/
def Assembly.fresh (start : Nat) : Assembly := ⟨start, start, [], none⟩

theorem marksStart_iff {bytes : List (Byte × Bool)} : marksStart bytes = true ↔ BeginsRecord bytes := by
  cases bytes with
  | nil => simp [marksStart, BeginsRecord]
  | cons b rest => simp [marksStart, BeginsRecord, and_comm]

section
variable {w : Fin 4} {start : Nat} {bytes : List (Byte × Bool)} {s : State}

theorem takeWindowWrite_seeking {x : Option Nat} (hc : (s.sectionWindow w).context = .seeking x) :
    takeWindowWrite w start bytes s = seek w x start bytes s := by
  simp only [takeWindowWrite, hc]

theorem takeWindowWrite_assembling {a : Assembly} (hc : (s.sectionWindow w).context = .assembling a) :
    takeWindowWrite w start bytes s = continueAssembly w a start bytes s := by
  simp only [takeWindowWrite, hc]

/-- R111: a write at the expected address, every byte enabled, is read byte by byte. -/
theorem takeWindowWrite_appends {a : Assembly} (hc : (s.sectionWindow w).context = .assembling a)
    (he : start = a.expected) (hen : ∀ b ∈ bytes, b.2 = true) :
    takeWindowWrite w start bytes s = readBytes w .append bytes s := by
  rw [takeWindowWrite_assembling hc]
  exact if_pos ⟨he, List.all_eq_true.2 hen⟩

/-- R112: any other write gives the record up, and is tested as a candidate start. -/
theorem takeWindowWrite_discontinuity {a : Assembly} (hc : (s.sectionWindow w).context = .assembling a)
    (h : start ≠ a.expected ∨ ∃ b ∈ bytes, b.2 = false) :
    takeWindowWrite w start bytes s
      = testCandidate w start bytes
          (raise .intakeFormat w.val (nat32 a.start ++ nat8 1) (s.putIntakeContext w (.seeking none))) := by
  rw [takeWindowWrite_assembling hc]
  refine if_neg fun ⟨he, hen⟩ => ?_
  obtain ne | ⟨b, hb, off⟩ := h
  · exact ne he
  · rw [List.all_eq_true.1 hen b hb] at off
    cases off

theorem testCandidate_begins (h4 : start % 4 = 0) (hb : BeginsRecord bytes) :
    testCandidate w start bytes s
      = readBytes w .append bytes (s.putIntakeContext w (.assembling (.fresh start))) :=
  if_pos ⟨h4, marksStart_iff.2 hb⟩

theorem testCandidate_not (h : start % 4 ≠ 0 ∨ ¬ BeginsRecord bytes) : testCandidate w start bytes s = s := by
  refine if_neg fun ⟨h4, hm⟩ => ?_
  obtain ne | no := h
  · exact ne h4
  · exact no (marksStart_iff.1 hm)

/-- A write that begins a record is read the same by a context that assembles one from its start. -/
theorem takeWindowWrite_fresh (hb : BeginsRecord bytes) :
    takeWindowWrite w start bytes (s.putIntakeContext w (.assembling (.fresh start)))
      = readBytes w .append bytes (s.putIntakeContext w (.assembling (.fresh start))) :=
  takeWindowWrite_appends (a := .fresh start) (by simp) rfl hb.1

theorem takeWindowWrite_candidate (hc : (s.sectionWindow w).context = .seeking none) :
    takeWindowWrite w start bytes s = testCandidate w start bytes s := by
  have held := putIntakeContext_held s w
  rw [hc] at held
  rw [takeWindowWrite_seeking hc, seek, held]

/-- R113: at the successor address held, a record that begins there is read. -/
theorem takeWindowWrite_successor {x : Nat} (hc : (s.sectionWindow w).context = .seeking (some x))
    (hx : start ≤ x) (hb : BeginsRecord (bytes.drop (x - start))) :
    takeWindowWrite w start bytes s = readBytes w .append (bytes.drop (x - start))
      (s.putIntakeContext w (.assembling (.fresh x))) := by
  have covered : x < start + bytes.length := by
    by_contra far
    rw [List.drop_eq_nil_of_le (by omega)] at hb
    cases hb.2
  rw [takeWindowWrite_seeking hc, seek]
  simp only [putIntakeContext_twice]
  exact if_pos ⟨hx, covered, marksStart_iff.2 hb⟩

/-- R113: a write without a record at the successor address is tested as a candidate start. -/
theorem takeWindowWrite_no_successor {x : Nat} (hc : (s.sectionWindow w).context = .seeking (some x))
    (h : x < start ∨ ¬ BeginsRecord (bytes.drop (x - start))) :
    takeWindowWrite w start bytes s = testCandidate w start bytes (s.putIntakeContext w (.seeking none)) := by
  rw [takeWindowWrite_seeking hc]
  refine if_neg fun ⟨hx, _, hm⟩ => ?_
  obtain far | no := h
  · exact absurd hx (Nat.not_le.2 far)
  · exact no (marksStart_iff.1 hm)

end

/-! ### The lengths of a record (R108, R111) -/

theorem totalLength_legal {size : Nat} {bytes : List Byte} (h : LegalLength size (recordLength bytes)) :
    totalLength size bytes = some (recordLength bytes) := by
  simp only [LegalLength, recordLength] at h
  exact if_neg (by omega)

theorem totalLength_illegal {size : Nat} {bytes : List Byte} (h : ¬ LegalLength size (recordLength bytes)) :
    totalLength size bytes = none := by
  simp only [LegalLength, recordLength] at h
  exact if_pos (by omega)

theorem recordLength_append {bytes : List Byte} (h : 4 ≤ bytes.length) (more : List Byte) :
    recordLength (bytes ++ more) = recordLength bytes := by
  have length : halfAt (bytes ++ more) 2 = halfAt bytes 2 := by
    rw [halfAt, halfAt, byteAt_append more (by omega), byteAt_append more (by omega)]
  rw [recordLength, recordLength, length]

/-- What an assembly holds as its total is what its first four bytes give, where the record's length is legal. -/
theorem heldTotal_legal {size : Nat} {bytes more : List Byte} (h : LegalLength size (recordLength (bytes ++ more))) :
    heldTotal size bytes = if bytes.length < 4 then none else some (recordLength (bytes ++ more)) := by
  unfold heldTotal
  split_ifs with few
  · rfl
  · rw [recordLength_append (by omega)] at h ⊢
    exact totalLength_legal h

/-- R108, R111: the expected address goes round the ring with each byte. -/
theorem expected_after {win : SectionWindow} (bytes : List (Byte × Bool)) {x : Nat}
    (hx : x < win.base + win.size) (he : x + bytes.length ≤ win.base + win.size) :
    bytes.foldl (fun x _ => win.wrap (x + 1)) x = ringAddress win (x + bytes.length) := by
  induction bytes generalizing x with
  | nil => exact (if_neg (Nat.ne_of_lt hx)).symm
  | cons b rest ih =>
    rw [List.length_cons] at he
    rw [List.foldl_cons, List.length_cons]
    by_cases last : rest = []
    · subst last
      rfl
    · have more := List.length_pos_iff.2 last
      rw [show win.wrap (x + 1) = x + 1 from if_neg (by omega), ih (by omega) (by omega)]
      congr 1
      omega

/-! ### The bytes of a record (R111, R113) -/

/-- R111: an assembly after bytes with which its record goes on. -/
def Assembly.after (a : Assembly) (win : SectionWindow) (bytes : List (Byte × Bool)) : Assembly :=
  ⟨a.start, bytes.foldl (fun x _ => win.wrap (x + 1)) a.expected, a.bytes ++ bytes.map (·.1),
    heldTotal win.size (a.bytes ++ bytes.map (·.1))⟩

/-- R111: a byte that follows such bytes is appended to the assembly they leave. -/
theorem readBytes_after {w : Fin 4} {a : Assembly} {s : State} {before rest : List (Byte × Bool)} {b : Byte × Bool}
    (hc : (s.sectionWindow w).context = .assembling a)
    (ht : a.total = heldTotal (s.sectionWindow w).size a.bytes)
    (hg : GoesOn (s.sectionWindow w).size (a.bytes ++ before.map (·.1))) {step : Reading × State}
    (hb : appendByte w (a.after (s.sectionWindow w) before) b.1
      (s.putIntakeContext w (.assembling (a.after (s.sectionWindow w) before))) = step) :
    readBytes w .append (before ++ b :: rest) s = readBytes w step.1 rest step.2 := by
  have goes : readBytes w .append (before ++ b :: rest) s = readBytes w .append (b :: rest)
      (s.putIntakeContext w (.assembling (a.after (s.sectionWindow w) before))) := readBytes_goes_on before _ hc ht hg
  rw [goes]
  simp only [readBytes, sectionWindow_putIntakeContext_self, hb]

theorem readBytes_nil (w : Fin 4) (r : Reading) (s : State) : readBytes w r [] s = s := by
  cases r <;> rfl

theorem readBytes_stop (w : Fin 4) (bytes : List (Byte × Bool)) (s : State) : readBytes w .stop bytes s = s := by
  cases bytes <;> rfl

/-- R111: at the fourth byte an illegal length makes the record malformed. -/
theorem appendByte_malformed {w : Fin 4} {a : Assembly} {b : Byte} {s : State} (h3 : a.bytes.length = 3)
    (ht : totalLength (s.sectionWindow w).size (a.bytes ++ [b]) = none) :
    appendByte w a b s = (.stop,
      raise .intakeFormat w.val (nat32 a.start ++ nat8 0) (s.putIntakeContext w (.seeking none))) := by
  simp [appendByte, h3, ht, noteFormat, formatCauseCode]

theorem appendByte_completes {w : Fin 4} {a : Assembly} {b : Byte} {s : State} {n : Nat} (ht : a.total = some n)
    (hl : (a.bytes ++ [b]).length = n) (h4 : n ≠ 4) :
    appendByte w a b s
      = completeRecord w a.start ((s.sectionWindow w).wrap (a.expected + 1)) (a.bytes ++ [b]) s := by
  simp only [appendByte, hl, ht, if_neg h4, if_true]

/-- The completion of a record does not depend on the assembly held. -/
theorem completeRecord_putIntakeContext (w : Fin 4) (start next : Nat) (bytes : List Byte) (c : IntakeContext)
    (s : State) : completeRecord w start next bytes (s.putIntakeContext w c) = completeRecord w start next bytes s := by
  simp only [completeRecord, putIntakeContext_twice, sectionWindow_putIntakeContext_self, SectionWindow.wrap]

section
variable {w : Fin 4} {a : Assembly} {s : State} {all : List Byte}
  (hc : (s.sectionWindow w).context = .assembling a)
include hc

/-- R111: bytes that bring a legal record to its total length complete it, and the rest is read from there. -/
theorem readBytes_completes {first : List (Byte × Bool)} (rest : List (Byte × Bool))
    (hall : all = a.bytes ++ first.map (·.1))
    (ht : a.total = if a.bytes.length < 4 then none else some (recordLength all))
    (legal : LegalLength (s.sectionWindow w).size (recordLength all))
    (more : a.bytes.length < recordLength all) (full : all.length = recordLength all) :
    readBytes w .append (first ++ rest) s
      = readBytes w
          (completeRecord w a.start
            (first.foldl (fun x _ => (s.sectionWindow w).wrap (x + 1)) a.expected) all s).1 rest
          (completeRecord w a.start
            (first.foldl (fun x _ => (s.sectionWindow w).wrap (x + 1)) a.expected) all s).2 := by
  obtain rfl | ⟨before, b, rfl⟩ := List.eq_nil_or_concat' first
  · simp [hall] at full more
    omega
  have long : 10 ≤ recordLength all := legal.1
  have held : all = (a.bytes ++ before.map (·.1)) ++ [b.1] := by simp [hall]
  have count : (a.bytes ++ before.map (·.1)).length + 1 = recordLength all := by rw [← full, held]; simp [Nat.add_assoc]
  have total := totalLength_legal legal
  have early : totalLength (s.sectionWindow w).size (a.bytes ++ before.map (·.1)) = some (recordLength all) := by
    rw [held, totalLength_append _ _ (by omega)] at total
    rw [total, held]
  have start : a.total = heldTotal (s.sectionWindow w).size a.bytes := by
    rw [ht, hall]
    exact (heldTotal_legal (hall ▸ legal)).symm
  have known : (a.after (s.sectionWindow w) before).total = some (recordLength all) := by
    simp only [Assembly.after, heldTotal, early]
    exact if_neg (by omega)
  have last := appendByte_completes (w := w) (b := b.1)
    (s := s.putIntakeContext w (.assembling (a.after (s.sectionWindow w) before))) known
    (by rw [← full, held, Assembly.after]) (by omega)
  rw [List.append_assoc, List.singleton_append, readBytes_after hc start (.inr ⟨_, early, by omega⟩) last,
    completeRecord_putIntakeContext, Assembly.after, ← held, List.foldl_append, sectionWindow_putIntakeContext_self]
  rfl

/-- R111: a write in which the fourth byte tells an illegal length makes the record malformed, and the rest of it
is not read. -/
theorem readBytes_malformed {bytes : List (Byte × Bool)} (hall : all = a.bytes ++ bytes.map (·.1))
    (ht : a.total = if a.bytes.length < 4 then none else some (recordLength all)) (few : a.bytes.length < 4)
    (enough : 4 ≤ all.length) (illegal : ¬ LegalLength (s.sectionWindow w).size (recordLength all)) :
    readBytes w .append bytes s
      = raise .intakeFormat w.val (nat32 a.start ++ nat8 0) (s.putIntakeContext w (.seeking none)) := by
  have counted : all.length = a.bytes.length + bytes.length := by simp [hall]
  obtain ⟨before, b, rest, rfl, short⟩ :
      ∃ before b rest, bytes = before ++ b :: rest ∧ a.bytes.length + before.length = 3 := by
    refine ⟨bytes.take (3 - a.bytes.length), bytes[3 - a.bytes.length]'(by omega),
      bytes.drop (3 - a.bytes.length + 1), ?_, by rw [List.length_take]; omega⟩
    rw [List.getElem_cons_drop, List.take_append_drop]
  have three : (a.bytes ++ before.map (·.1)).length = 3 := by simpa using short
  have first : all = (a.bytes ++ before.map (·.1) ++ [b.1]) ++ rest.map (·.1) := by simp [hall]
  have four : (a.bytes ++ before.map (·.1) ++ [b.1]).length = 4 := by rw [List.length_append, three]; rfl
  rw [first, recordLength_append four.ge] at illegal
  have start : a.total = heldTotal (s.sectionWindow w).size a.bytes := by rw [ht, if_pos few, heldTotal, if_pos few]
  have malformed := totalLength_illegal illegal
  have last := appendByte_malformed (w := w) (a := a.after (s.sectionWindow w) before) (b := b.1)
    (s := s.putIntakeContext w (.assembling (a.after (s.sectionWindow w) before))) three
    (by rw [sectionWindow_putIntakeContext_self]; exact malformed)
  rw [readBytes_after hc start (.inl (by omega)) last, readBytes_stop, putIntakeContext_twice, Assembly.after]

/-- R111: bytes after which the record goes on are held. -/
theorem readBytes_holds {bytes : List (Byte × Bool)} (hall : all = a.bytes ++ bytes.map (·.1))
    (ht : a.total = if a.bytes.length < 4 then none else some (recordLength all))
    (on : all.length < 4 ∨ (LegalLength (s.sectionWindow w).size (recordLength all) ∧ all.length < recordLength all)) :
    readBytes w .append bytes s = s.putIntakeContext w (.assembling
      ⟨a.start, bytes.foldl (fun x _ => (s.sectionWindow w).wrap (x + 1)) a.expected, all,
        if all.length < 4 then none else some (recordLength all)⟩) := by
  have read : GoesOn (s.sectionWindow w).size all ∧ a.total = heldTotal (s.sectionWindow w).size a.bytes
      ∧ heldTotal (s.sectionWindow w).size all = if all.length < 4 then none else some (recordLength all) := by
    obtain few | ⟨legal, short⟩ := on
    · have fewer : a.bytes.length < 4 := by rw [hall, List.length_append] at few; omega
      exact ⟨.inl few, by rw [ht, heldTotal, if_pos fewer, if_pos fewer], by rw [heldTotal, if_pos few, if_pos few]⟩
    · have whole := heldTotal_legal (bytes := all) (more := []) (by rwa [List.append_nil])
      rw [List.append_nil] at whole
      have held := heldTotal_legal (hall ▸ legal)
      rw [← hall] at held
      exact ⟨.inr ⟨_, totalLength_legal legal, short⟩, ht.trans held.symm, whole⟩
  obtain ⟨goes, total, held⟩ := read
  rw [hall] at goes
  have ends := readBytes_goes_on bytes [] hc total goes
  rwa [List.append_nil, readBytes_nil, ← hall, held] at ends

end

end Sys2Proof.Machine
end

section
/-! PROOF. Window writes (R107, R110 to R115): where a record begins in one, how it is assembled, and what becomes of
a complete record. -/

namespace Sys2Proof.Machine

open Sys2Proof

/-! ### A complete record (R113 to R115, R118) -/

/-- The state with a record queued and the parser parsing, before the halt test. -/
def withRecord (r : QueuedRecord) (s : State) : State :=
  { s with intake := { s.intake with queue := s.intake.queue ++ [r], parsing := true } }

theorem withRecord_frame (r : QueuedRecord) (s : State) : Frame [.intakeQueue] s (withRecord r s) := by
  intro p hp
  have same := p.same_refl s
  cases p
  case intakeQueue => simp at hp
  all_goals exact same

theorem queueRecord_flows {s : State} (h : s.intake.queue.length + 1 < s.intake.haltLevel) (r : QueuedRecord) :
    queueRecord r s = withRecord r s := by
  refine if_neg (Nat.not_le.2 ?_)
  simpa using h

theorem queueRecord_halts {s : State} (h : s.intake.haltLevel ≤ s.intake.queue.length + 1) (r : QueuedRecord) :
    queueRecord r s = haltIntake (withRecord r s) := by
  refine if_pos ?_
  simpa using h

section
variable {w : Fin 4} {start n : Nat} {all : List Byte} {s : State} (full : all.length = n)
include full

theorem judgeRecord_wrongCheck (h : crc16 ((all.drop 1).take (n - 3)) ≠ halfAt all (n - 2)) :
    judgeRecord w start all s = raise .intakeCheck w.val (nat32 start) s :=
  if_pos (by simpa [recordChecks, full] using h)

variable (check : crc16 ((all.drop 1).take (n - 3)) = halfAt all (n - 2))
include check

theorem judgeRecord_noRoom (h : poolFree s.intake < n) :
    judgeRecord w start all s = raise .intakeShed w.val (nat16 n ++ nat16 (poolFree s.intake)) s := by
  rw [judgeRecord, if_neg (by simpa [recordChecks, full] using check), full, if_pos h]

theorem judgeRecord_queues (h : n ≤ poolFree s.intake) :
    judgeRecord w start all s
      = queueRecord ⟨w, start, byteAt all 1, (all.drop 4).take (n - 6), n⟩ s := by
  rw [judgeRecord, if_neg (by simpa [recordChecks, full] using check), full, if_neg (Nat.not_lt.2 h), queuedForm, full]

end

/-- R113, R115: a context that seeks still does so after the judging of a record, unless that halts the intake. -/
theorem judgeRecord_context {w : Fin 4} {x : Option Nat} {s : State}
    (hc : (s.sectionWindow w).context = .seeking x) (start : Nat) (bytes : List Byte) :
    ((judgeRecord w start bytes s).sectionWindow w).context = .seeking x
      ∨ ((judgeRecord w start bytes s).sectionWindow w).context = .shed := by
  unfold judgeRecord
  split_ifs
  · exact .inl (by rw [sectionWindow_raise, hc])
  · exact .inl (by rw [sectionWindow_raise, hc])
  · have queued : ((withRecord (queuedForm w start bytes) s).sectionWindow w).context = .seeking x := hc
    by_cases halts : s.intake.haltLevel ≤ s.intake.queue.length + 1
    · rw [queueRecord_halts halts, haltIntake_sectionWindow, queued]
      exact .inr rfl
    · rw [queueRecord_flows (Nat.lt_of_not_le halts), queued]
      exact .inl rfl

/-- R113: the context seeks at the record's successor address, and the record is judged. -/
def afterRecord (w : Fin 4) (start next : Nat) (bytes : List Byte) (s : State) : State :=
  judgeRecord w start bytes
    (s.putIntakeContext w (.seeking (some (ringAddress (s.sectionWindow w) (next + paddingFrom next)))))

theorem completeRecord_state (w : Fin 4) (start next : Nat) (bytes : List Byte) (s : State) :
    (completeRecord w start next bytes s).2 = afterRecord w start next bytes s := rfl

theorem afterRecord_sameWindows (w : Fin 4) (start next : Nat) (bytes : List Byte) (s : State) :
    SameWindows s (afterRecord w start next bytes s) :=
  (putIntakeContext_sameWindows ..).trans (judgeRecord_sameWindows ..)

/-- R113: the rest of the write is read from the successor address on, or not at all where the intake halted. -/
theorem completeRecord_reading (w : Fin 4) (start next : Nat) (bytes : List Byte) (s : State) :
    let t := afterRecord w start next bytes s
    let successor := ringAddress (s.sectionWindow w) (next + paddingFrom next)
    ((t.sectionWindow w).context = .seeking (some successor)
        ∧ (completeRecord w start next bytes s).1 = .skip (paddingFrom next) successor)
      ∨ ((t.sectionWindow w).context = .shed ∧ (completeRecord w start next bytes s).1 = .stop) := by
  intro t successor
  have reading : (completeRecord w start next bytes s).1
      = match (t.sectionWindow w).context with
        | .seeking _ => .skip (paddingFrom next) successor
        | _ => .stop := rfl
  obtain h | h := judgeRecord_context (w := w) (x := some successor)
    (s := s.putIntakeContext w (.seeking (some successor))) (by simp) start bytes
  · exact .inl ⟨h, by rw [reading, show (t.sectionWindow w).context = _ from h]⟩
  · exact .inr ⟨h, by rw [reading, show (t.sectionWindow w).context = _ from h]⟩

/-! ### The rest of a write behind a complete record (R113) -/

section
variable {w : Fin 4} {s : State}

theorem readBytes_skip (n x : Nat) (bytes : List (Byte × Bool)) :
    readBytes w (.skip n x) bytes s = readBytes w (.skip 0 x) (bytes.drop n) s := by
  induction n generalizing bytes with
  | zero => rfl
  | succ n ih =>
    cases bytes with
    | nil => rfl
    | cons b rest => exact ih rest

theorem readBytes_skip_all {n x : Nat} {bytes : List (Byte × Bool)} (h : bytes.length ≤ n) :
    readBytes w (.skip n x) bytes s = s := by
  rw [readBytes_skip, List.drop_eq_nil_of_le h, readBytes_nil]

variable {x : Nat} {y : Option Nat} (hc : (s.sectionWindow w).context = .seeking y) {bytes : List (Byte × Bool)}
include hc

/-- R113: a record that begins at the successor address is read as by a context that assembles one from there. -/
theorem readBytes_successor (hb : BeginsRecord bytes) :
    readBytes w (.skip 0 x) bytes s = readBytes w .append bytes (s.putIntakeContext w (.assembling (.fresh x))) := by
  cases bytes with
  | nil => cases hb.2
  | cons b rest =>
    simp only [readBytes, hc, sectionWindow_putIntakeContext_self, if_pos (marksStart_iff.2 hb)]
    simp [appendByte, Assembly.fresh, putIntakeContext_twice, SectionWindow.wrap]

/-- R113, log 19: where none begins there, no successor address is held any more. -/
theorem readBytes_no_successor (hn : bytes ≠ []) (hb : ¬ BeginsRecord bytes) :
    readBytes w (.skip 0 x) bytes s = s.putIntakeContext w (.seeking none) := by
  cases bytes with
  | nil => exact absurd rfl hn
  | cons b rest => simp only [readBytes, hc, if_neg (marksStart_iff.not.2 hb)]

end

/-- R113: behind a complete record, a rest that ends within the padding is not read. -/
theorem readBytes_rest_padding (w : Fin 4) (start next : Nat) (bytes : List Byte) (s : State)
    {rest : List (Byte × Bool)} (h : rest.length ≤ paddingFrom next) :
    readBytes w (completeRecord w start next bytes s).1 rest (afterRecord w start next bytes s)
      = afterRecord w start next bytes s := by
  obtain ⟨-, reading⟩ | ⟨-, reading⟩ := completeRecord_reading w start next bytes s
  · rw [reading, readBytes_skip_all h]
  · rw [reading, readBytes_stop]

/-- R113: any other rest is taken as a window write of its own by the context as it then stands. -/
theorem readBytes_rest_taken {w : Fin 4} {start next : Nat} {bytes : List Byte} {s : State}
    {rest : List (Byte × Bool)} (h : paddingFrom next < rest.length)
    (hw : next + paddingFrom next < (s.sectionWindow w).base + (s.sectionWindow w).size) :
    readBytes w (completeRecord w start next bytes s).1 rest (afterRecord w start next bytes s)
      = takeWindowWrite w next rest (afterRecord w start next bytes s) := by
  have successor : ringAddress (s.sectionWindow w) (next + paddingFrom next) = next + paddingFrom next :=
    if_neg (Nat.ne_of_lt hw)
  have padded : next + paddingFrom next - next = paddingFrom next := by omega
  obtain ⟨seeks, reading⟩ | ⟨shed, reading⟩ := completeRecord_reading w start next bytes s
  · rw [successor] at seeks reading
    rw [reading, readBytes_skip]
    by_cases begins : BeginsRecord (rest.drop (paddingFrom next))
    · rw [readBytes_successor seeks begins,
        takeWindowWrite_successor seeks (by omega) (by rwa [padded]), padded]
    · have some_left : rest.drop (paddingFrom next) ≠ [] := by
        intro none_left
        have := List.drop_eq_nil_iff.1 none_left
        omega
      rw [readBytes_no_successor seeks some_left begins,
        takeWindowWrite_no_successor seeks (.inr (by rwa [padded])), testCandidate_not]
      by_cases aligned : next % 4 = 0
      · have none : paddingFrom next = 0 := by simp [paddingFrom, aligned]
        rw [none, List.drop_zero] at begins
        exact .inr begins
      · exact .inl aligned
  · rw [reading, readBytes_stop, takeWindowWrite_inactive w _ _ _ (by rw [shed]; rfl)]

/-! ### Where a record begins (R110, R113) -/

theorem LiesInWindow.putIntakeContext {s : State} {w : Fin 4} {start count : Nat} (h : LiesInWindow s w start count)
    (c : IntakeContext) : LiesInWindow (s.putIntakeContext w c) w start count :=
  h.congr (putIntakeContext_sameWindows s w c)

section
variable {s : State} {w : Fin 4} {start : Word} {bytes : List (Byte × Bool)} (hr : Running s)
  (hb : burstOk start bytes.length = true) (hl : LiesInWindow s w start.toNat bytes.length)
include hr hb hl

/-- R110: a candidate start is taken as by a context that assembles a record from there. -/
theorem streamWrite_candidate (hc : (s.sectionWindow w).context = .seeking none) (h4 : start.toNat % 4 = 0)
    (begins : BeginsRecord bytes) :
    exec (.streamWriteBurst start bytes) s
      = exec (.streamWriteBurst start bytes)
          (s.putIntakeContext w (.assembling (.fresh start.toNat))) := by
  rw [streamWrite_lies hr hb hl,
    streamWrite_lies (s := s.putIntakeContext w _) hr hb (hl.putIntakeContext _),
    takeWindowWrite_candidate hc, testCandidate_begins h4 begins, takeWindowWrite_fresh begins]

theorem streamWrite_unread (hc : (s.sectionWindow w).context = .seeking none)
    (h : start.toNat % 4 ≠ 0 ∨ ¬ BeginsRecord bytes) :
    ∃ t, exec (.streamWriteBurst start bytes) s = .next t ∧ Frame [.transfers] s t := by
  refine ⟨_, streamWrite_lies hr hb hl, ?_⟩
  rw [takeWindowWrite_candidate hc, testCandidate_not h]
  exact putOut_frame _ s

/-- R113: from the successor address on, a write that holds a record there is taken so. -/
theorem streamWrite_successor {x : Word} (hc : (s.sectionWindow w).context = .seeking (some x.toNat))
    (hx : start.toNat ≤ x.toNat) (begins : BeginsRecord (bytes.drop (x.toNat - start.toNat))) :
    ∃ t u, exec (.streamWriteBurst start bytes) s = .next t
      ∧ exec (.streamWriteBurst x (bytes.drop (x.toNat - start.toNat)))
          (s.putIntakeContext w (.assembling (.fresh x.toNat))) = .next u
      ∧ t.intake = u.intake ∧ t.report = u.report := by
  have left : 0 < (bytes.drop (x.toNat - start.toNat)).length := by
    refine List.length_pos_iff.2 fun none => ?_
    rw [none] at begins
    cases begins.2
  have ends : x.toNat + (bytes.drop (x.toNat - start.toNat)).length ≤ start.toNat + bytes.length := by
    rw [List.length_drop] at left ⊢
    omega
  refine ⟨_, _, streamWrite_lies hr hb hl,
    streamWrite_lies (s := s.putIntakeContext w _) hr (burstOk_part hb hx ends left)
      ((hl.part hx ends).putIntakeContext _), ?_⟩
  rw [takeWindowWrite_successor hc hx begins, takeWindowWrite_fresh begins]
  exact ⟨rfl, rfl⟩

theorem streamWrite_no_successor {x : Nat} (hc : (s.sectionWindow w).context = .seeking (some x))
    (h : x < start.toNat ∨ ¬ BeginsRecord (bytes.drop (x - start.toNat))) :
    exec (.streamWriteBurst start bytes) s
      = exec (.streamWriteBurst start bytes) (s.putIntakeContext w (.seeking none)) := by
  rw [streamWrite_lies hr hb hl, streamWrite_lies (s := s.putIntakeContext w _) hr hb (hl.putIntakeContext _),
    takeWindowWrite_no_successor hc h, takeWindowWrite_candidate (s := s.putIntakeContext w _) (by simp)]

end

/-- R111, R113: a write that completes a record, and what of it stands behind that record. -/
theorem takeWindowWrite_completes {s : State} {w : Fin 4} {start : Word} {a : Assembly}
    {first rest : List (Byte × Bool)} {all : List Byte} (hc : (s.sectionWindow w).context = .assembling a)
    (he : start.toNat = a.expected) (hen : ∀ b ∈ first ++ rest, b.2 = true) (hl : LiesInWindow s w start.toNat first.length)
    (hall : all = a.bytes ++ first.map (·.1))
    (ht : a.total = if a.bytes.length < 4 then none else some (recordLength all))
    (legal : LegalLength (s.sectionWindow w).size (recordLength all))
    (more : a.bytes.length < recordLength all) (full : all.length = recordLength all) :
    takeWindowWrite w start.toNat (first ++ rest) s
      = readBytes w
          (completeRecord w a.start (ringAddress (s.sectionWindow w) (start.toNat + first.length)) all s).1 rest
          (afterRecord w a.start (ringAddress (s.sectionWindow w) (start.toNat + first.length)) all s) := by
  obtain ⟨-, -, high, -⟩ := hl
  have counted : all.length = a.bytes.length + first.length := by simp [hall]
  rw [takeWindowWrite_appends hc he hen, readBytes_completes hc rest hall ht legal more full, ← he,
    expected_after first (by omega) high]
  rfl

/-- Settles O15: a candidate start, a successor address, and the rest behind a complete record. -/
theorem seekingContextsFindRecords : Obligations.SeekingContextsFindRecords := by
  unfold Obligations.SeekingContextsFindRecords
  intro s w start bytes hr hb hl
  refine ⟨fun hc => ⟨streamWrite_candidate hr hb hl hc, streamWrite_unread hr hb hl hc⟩, fun x hc =>
    ⟨streamWrite_successor hr hb hl hc, streamWrite_no_successor hr hb hl hc⟩, ?_⟩
  rintro a first rest middle all - - hc he rfl hen hm hall more ht legal full left
  have some_first : 0 < first.length := by
    have counted : all.length = a.bytes.length + first.length := by simp [hall]
    omega
  have some_rest := List.length_pos_iff.2 left
  rw [List.length_append] at hb hl
  have lies_first : LiesInWindow s w start.toNat first.length := hl.part le_rfl (by omega)
  have lies_rest : LiesInWindow s w middle.toNat rest.length := hl.part (by omega) (by omega)
  have inside : middle.toNat + rest.length ≤ (s.sectionWindow w).base + (s.sectionWindow w).size := lies_rest.2.2.1
  have next : ringAddress (s.sectionWindow w) (start.toNat + first.length) = middle.toNat := by
    rw [← hm]
    exact if_neg (by omega)
  have whole := takeWindowWrite_completes hc he hen lies_first hall ht legal more full
  have part := takeWindowWrite_completes (rest := []) hc he
    (fun b h => hen b (List.mem_append_left _ (by simpa using h))) lies_first hall ht legal more full
  have running : Running (takeWindowWrite w start.toNat first s) :=
    ((takeWindowWrite_within ..).frame .systemReset (by decide)).trans hr
  rw [next] at whole part
  rw [List.append_nil, readBytes_nil] at part
  rw [part] at running
  have row := streamWrite_lies hr (start := start) (bytes := first ++ rest) (by simpa using hb) (by simpa using hl)
  have first_row := streamWrite_lies hr (burstOk_part hb le_rfl (by omega) some_first) lies_first
  rw [whole] at row
  rw [part] at first_row
  have lies_after := lies_rest.congr (afterRecord_sameWindows w a.start middle.toNat all s)
  have rest_row := streamWrite_lies (s := (afterRecord w a.start middle.toNat all s).putOut
    (.writeToMemory .stream start.toNat first)) running (burstOk_part hb (by omega) (by omega) some_rest) lies_after
  refine ⟨_, _, row, first_row, fun short => ?_, fun long => ⟨_, rest_row, ?_⟩⟩
  · rw [readBytes_rest_padding w _ _ _ _ short]
    exact ⟨rfl, rfl⟩
  · rw [readBytes_rest_taken long (by omega), takeWindowWrite_putOut]
    exact ⟨rfl, rfl⟩

/-! ### Assembly (R111 to R115) -/

theorem Frame.putOut {ps : List Part} {s t : State} (f : Frame ps s t) (x : LaneOut) :
    Frame (.transfers :: ps) s (t.putOut x) :=
  (f.mono fun _ hp => .tail _ hp).trans ((putOut_frame x t).mono (by simp))

/-- R112: a write off the expected address, or with a byte not enabled, is taken by a context that seeks, the
discontinuity noted. -/
theorem streamWrite_discontinuity {s : State} {w : Fin 4} {start : Word} {bytes : List (Byte × Bool)} {a : Assembly}
    (hr : Running s) (hb : burstOk start bytes.length = true) (hl : LiesInWindow s w start.toNat bytes.length)
    (hc : (s.sectionWindow w).context = .assembling a)
    (h : start.toNat ≠ a.expected ∨ ∃ b ∈ bytes, b.2 = false) :
    exec (.streamWriteBurst start bytes) s
      = exec (.streamWriteBurst start bytes)
          (raise .intakeFormat w.val (nat32 a.start ++ nat8 1) (s.putIntakeContext w (.seeking none))) := by
  have lies := hl.congr ((putIntakeContext_sameWindows s w (.seeking none)).trans
    (raise_sameWindows .intakeFormat w.val (nat32 a.start ++ nat8 1) _))
  rw [streamWrite_lies hr hb hl,
    streamWrite_lies (s := raise _ _ _ _) (raise_keeps_running (s := s.putIntakeContext w _) hr ..) hb lies,
    takeWindowWrite_discontinuity hc h, takeWindowWrite_candidate (s := raise _ _ _ _)
      (by rw [sectionWindow_raise, sectionWindow_putIntakeContext_self])]

/-- A raised notice behind a change of one context, as the burst's row leaves it. -/
theorem raised_after_context {s : State} (w : Fin 4) (c : IntakeContext) (k : NoticeKind) (d : List Byte)
    (x : LaneOut) :
    ((raise k w.val d (s.putIntakeContext w c)).putOut x).sectionWindow w = { s.sectionWindow w with context := c }
      ∧ ((raise k w.val d (s.putIntakeContext w c)).putOut x).report = (raise k w.val d s).report
      ∧ Frame (.transfers :: .sectionWindow w :: raised) s ((raise k w.val d (s.putIntakeContext w c)).putOut x) := by
  refine ⟨?_, raise_report_congr (s := s) (t := s.putIntakeContext w c) rfl rfl rfl k w.val d, Frame.putOut ?_ x⟩
  · rw [sectionWindow_putOut, sectionWindow_raise, sectionWindow_putIntakeContext_self]
  · exact ((putIntakeContext_frame w c s).mono (by simp)).trans ((raise_frame _ _ _ _).mono (by simp))

/-- R114, R118: a queued record, where the count stays below H. -/
theorem queued_flows {s : State} {w : Fin 4} (y : Option Nat) (r : QueuedRecord) (x : LaneOut)
    (h : s.intake.queue.length + 1 < s.intake.haltLevel) :
    ((queueRecord r (s.putIntakeContext w (.seeking y))).putOut x).sectionWindow w
        = { s.sectionWindow w with context := .seeking y }
      ∧ Frame [.transfers, .sectionWindow w, .intakeQueue] s
          ((queueRecord r (s.putIntakeContext w (.seeking y))).putOut x) := by
  rw [queueRecord_flows (s := s.putIntakeContext w _) h]
  refine ⟨?_, Frame.putOut ?_ x⟩
  · rw [sectionWindow_putOut, withRecord_frame _ _ (.sectionWindow w) (by simp), sectionWindow_putIntakeContext_self]
  · exact ((putIntakeContext_frame w _ s).mono (by simp)).trans ((withRecord_frame _ _).mono (by simp))

theorem queueRecord_queue (r : QueuedRecord) (s : State) :
    (queueRecord r s).intake.queue = s.intake.queue ++ [r] ∧ (queueRecord r s).intake.parsing = true := by
  by_cases halts : s.intake.haltLevel ≤ s.intake.queue.length + 1
  · rw [queueRecord_halts halts]
    exact haltIntake_levels _ .intakeQueue (by decide)
  · rw [queueRecord_flows (Nat.lt_of_not_le halts)]
    exact ⟨rfl, rfl⟩

/-- R115: a queued record that brings the count to H halts the intake. -/
theorem queued_halts {s : State} {w : Fin 4} {a : Assembly} (hc : (s.sectionWindow w).context = .assembling a)
    (y : Option Nat) (r : QueuedRecord) (x : LaneOut) (h : s.intake.haltLevel ≤ s.intake.queue.length + 1) :
    let t := (queueRecord r (s.putIntakeContext w (.seeking y))).putOut x
    t.intake.flow = .halted
      ∧ t.report = (raise .intakeShed 0xFF (nat8 t.intake.queue.length
          ++ nat16 (t.intake.queue.map (·.total)).sum) s).report
      ∧ (∀ v, t.sectionWindow v = { s.sectionWindow v with
          context := if (s.sectionWindow v).context = .unset then .unset else .shed })
      ∧ Frame (.transfers :: intakeParts) s t := by
  have queue := (queueRecord_queue r (s.putIntakeContext w (.seeking y))).1
  intro t
  have queue' : t.intake.queue = s.intake.queue ++ [r] := queue
  have halts : t = (haltIntake (withRecord r (s.putIntakeContext w (.seeking y)))).putOut x :=
    congrArg (State.putOut · x) (queueRecord_halts (s := s.putIntakeContext w _) h r)
  rw [queue', halts]
  refine ⟨haltIntake_flow _, ?report, fun v => ?window, Frame.putOut ?frame x⟩
  case report =>
    rw [putOut_report, haltIntake_eq]
    refine raise_report_congr (s := s) ?_ ?_ ?_ _ _ _ <;> rfl
  case window =>
    rw [sectionWindow_putOut, haltIntake_sectionWindow, withRecord_frame _ _ (.sectionWindow v) (by simp),
      sectionWindow_putIntakeContext]
    by_cases own : v = w
    · subst own
      simp [hc]
    · rw [if_neg own]
  case frame =>
    exact (((putIntakeContext_frame w _ s).mono (section_sub w)).trans ((withRecord_frame _ _).mono (by simp))).trans
      (haltIntake_frame _)

/-- R113 to R115: what becomes of a complete record, with which the write ends. -/
theorem streamWrite_completes {s : State} {w : Fin 4} {start : Word} {bytes : List (Byte × Bool)} {a : Assembly}
    {all : List Byte} (hr : Running s) (hb : burstOk start bytes.length = true)
    (hl : LiesInWindow s w start.toNat bytes.length) (hc : (s.sectionWindow w).context = .assembling a)
    (he : start.toNat = a.expected) (hen : ∀ b ∈ bytes, b.2 = true) (hall : all = a.bytes ++ bytes.map (·.1))
    (ht : a.total = if a.bytes.length < 4 then none else some (recordLength all))
    (legal : LegalLength (s.sectionWindow w).size (recordLength all))
    (more : a.bytes.length < recordLength all) (full : all.length = recordLength all) :
    exec (.streamWriteBurst start bytes) s
      = .next ((afterRecord w a.start (ringAddress (s.sectionWindow w) (start.toNat + bytes.length)) all s).putOut
          (.writeToMemory .stream start.toNat bytes)) := by
  have taken := takeWindowWrite_completes (rest := []) hc he (by simpa using hen) hl hall ht legal more full
  rw [List.append_nil, readBytes_nil] at taken
  rw [streamWrite_lies hr hb hl, taken]

theorem streamWrite_running {s : State} (hr : Running s) (start : Word) (bytes : List (Byte × Bool)) :
    Running ((snoopStream start.toNat bytes s).putOut (.writeToMemory .stream start.toNat bytes)) := by
  have snooped : (snoopStream start.toNat bytes s).systemReset = s.systemReset :=
    (snoopStream_within start.toNat bytes s).frame .systemReset (by decide)
  rw [Running, putOut_systemReset, snooped]
  exact hr

/-- R107: a burst cut where no window's part is cut, as its two parts. -/
theorem streamWrite_cut {s : State} {start middle : Word} {first rest : List (Byte × Bool)} (hr : Running s)
    (hb : burstOk start (first ++ rest).length = true) (hf : first ≠ []) (hn : rest ≠ [])
    (hm : middle.toNat = start.toNat + first.length) :
    ((∀ v w, Touches s start.toNat first v → Touches s middle.toNat rest w → v < w) →
      ∃ t u v, exec (.streamWriteBurst start (first ++ rest)) s = .next t
        ∧ exec (.streamWriteBurst start first) s = .next u ∧ exec (.streamWriteBurst middle rest) u = .next v
        ∧ t.intake = v.intake ∧ t.report = v.report)
    ∧ ((∀ v w, Touches s start.toNat first v → Touches s middle.toNat rest w → w < v) →
      ∃ t u v, exec (.streamWriteBurst start (first ++ rest)) s = .next t
        ∧ exec (.streamWriteBurst middle rest) s = .next u ∧ exec (.streamWriteBurst start first) u = .next v
        ∧ t.intake = v.intake ∧ t.report = v.report) := by
  have some_first := List.length_pos_iff.2 hf
  have some_rest := List.length_pos_iff.2 hn
  have row := streamWrite_row hr hb
  rw [List.length_append] at hb
  have first_ok := burstOk_part (count' := first.length) hb le_rfl (by omega) some_first
  have rest_ok := burstOk_part (start' := middle) (count' := rest.length) hb (by omega) (by omega) some_rest
  have first_row := streamWrite_row hr first_ok
  have rest_row := streamWrite_row hr rest_ok
  have then_rest := streamWrite_row (streamWrite_running hr start first) rest_ok
  have then_first := streamWrite_row (streamWrite_running hr middle rest) first_ok
  refine ⟨fun h => ⟨_, _, _, row, first_row, then_rest, ?_⟩, fun h => ⟨_, _, _, row, rest_row, then_first, ?_⟩⟩
  · rw [hm] at h ⊢
    simp only [snoopStream_putOut, snoopStream_cut h, putOut_intake, putOut_report, and_self]
  · rw [hm] at h ⊢
    simp only [snoopStream_putOut, snoopStream_cut_late h, putOut_intake, putOut_report, and_self]

/-- Settles O14: a discontinuity, a record that goes on, is malformed or complete, and a burst cut in two. -/
theorem windowWritesAreAssembled : Obligations.WindowWritesAreAssembled := by
  unfold Obligations.WindowWritesAreAssembled
  refine ⟨?_, fun s start middle first rest hr hb hf hn hm => streamWrite_cut hr hb hf hn hm⟩
  rintro s w start bytes a all n next successor hr hb hl - - hc hall rfl ht rfl rfl
  refine ⟨streamWrite_discontinuity hr hb hl hc, fun he hen => ⟨_, streamWrite_lies hr hb hl, ?out, fun on => ?holds,
    fun few enough illegal => ?malformed, fun legal more full => ?complete⟩⟩
  case out =>
    exact congrArg (· ++ [_]) ((takeWindowWrite_within w start.toNat bytes s).frame .transfers (by decide))
  case holds =>
    obtain ⟨-, -, high, -⟩ := hl
    have some_bytes := (burstOk_iff.1 hb).1
    rw [takeWindowWrite_appends hc he hen, readBytes_holds hc hall ht on, ← he, expected_after bytes (by omega) high]
    exact ⟨sectionWindow_putIntakeContext_self .., (putIntakeContext_frame w _ s).putOut _⟩
  case malformed =>
    rw [takeWindowWrite_appends hc he hen, readBytes_malformed hc hall ht few enough illegal]
    exact raised_after_context ..
  case complete =>
    have row := streamWrite_completes hr hb hl hc he hen hall ht legal more full
    rw [streamWrite_lies hr hb hl] at row
    injection row with row
    rw [row, afterRecord]
    refine ⟨fun wrong => ?_, fun check => ⟨fun scarce => ?_, fun room => ?_⟩⟩
    · rw [judgeRecord_wrongCheck full wrong]
      exact raised_after_context ..
    · rw [judgeRecord_noRoom full check (s := s.putIntakeContext w _) scarce]
      exact raised_after_context ..
    · rw [judgeRecord_queues full check (s := s.putIntakeContext w _) room]
      exact ⟨(queueRecord_queue _ _).1, (queueRecord_queue _ _).2, fun below => queued_flows _ _ _ below,
        fun reached => queued_halts hc _ _ _ reached⟩

/-! ### A whole record in one burst -/

section
variable {code : Byte} {body bytes : List Byte} (high : body.length ≤ 1020)
  (h : bytes = [0xA6, code] ++ nat16 body.length ++ body ++ bytes16 (crc16 ([code] ++ nat16 body.length ++ body)))
include h

theorem ringRecord_length : bytes.length = body.length + 6 := by
  rw [h]
  simp [nat16, bytes16]

include high

/-- R108: what the fields of a whole record read as. -/
theorem ringRecord_fields :
    recordLength bytes = body.length + 6 ∧ byteAt bytes 1 = code ∧ (bytes.drop 4).take body.length = body
      ∧ crc16 ((bytes.drop 1).take (body.length + 3)) = halfAt bytes (body.length + 4) := by
  have check : ∀ (x : Half) (front : List Byte), front.length = body.length + 4 →
      halfAt (front ++ bytes16 x) (body.length + 4) = x := by
    intro x front length
    have holds : Holds (front ++ (bytes16 x ++ [])) front.length (bytes16 x) := holds_between ..
    rw [List.append_nil, length] at holds
    exact (halfAt_of_holds (k := 0) holds Nat.one_lt_two).trans (le16_bytes16 x)
  refine ⟨?_, by rw [h]; rfl, ?_, ?_⟩
  · have length : halfAt bytes 2 = BitVec.ofNat 16 body.length := by
      rw [h]
      exact le16_bytes16 _
    rw [recordLength, length, toNat_ofNat_of_le high (by decide)]
  · rw [h]
    exact List.take_left' rfl
  · conv_rhs => rw [h]
    rw [check _ _ (by simp [nat16, bytes16]), h]
    congr 1
    exact List.take_left' (by simp [nat16, bytes16])

end

/-- The marker begins a run of bytes that are all enabled. -/
theorem beginsRecord_enabled (bytes : List Byte) :
    BeginsRecord ((0xA6 :: bytes).map (fun b => (b, true))) := ⟨by simp, rfl⟩

/-- R108: the successor address of a record that starts and ends at the ring's alignment. -/
theorem successor_aligned {win : SectionWindow} {start count : Nat} (hb : win.base % 4 = 0) (hs : win.size % 4 = 0)
    (h4 : start % 4 = 0) :
    ringAddress win (ringAddress win (start + count) + paddingFrom (ringAddress win (start + count)))
      = if start + count + (4 - count % 4) % 4 = win.base + win.size then win.base
        else start + count + (4 - count % 4) % 4 := by
  by_cases last : start + count = win.base + win.size
  · have padding : (4 - count % 4) % 4 = 0 := by omega
    have base : ringAddress win (start + count) = win.base := if_pos last
    have padded : paddingFrom win.base = 0 := by simp [paddingFrom, hb]
    rw [base, padded, padding, Nat.add_zero, Nat.add_zero, if_pos last, ringAddress, ite_self]
  · have same : (start + count) % 4 = count % 4 := by omega
    rw [show ringAddress win (start + count) = start + count from if_neg last, paddingFrom, same, ringAddress]

/-- R110, R113: a burst that is one whole record, taken by a context that seeks. -/
theorem streamWrite_whole {s : State} {w : Fin 4} {start : Word} {bytes : List (Byte × Bool)} {all : List Byte}
    (hr : Running s) (hb : burstOk start bytes.length = true) (hl : LiesInWindow s w start.toNat bytes.length)
    (hc : (s.sectionWindow w).context = .seeking none) (h4 : start.toNat % 4 = 0) (begins : BeginsRecord bytes)
    (hall : all = bytes.map (·.1)) (legal : LegalLength (s.sectionWindow w).size (recordLength all))
    (full : all.length = recordLength all) :
    exec (.streamWriteBurst start bytes) s
      = .next ((afterRecord w start.toNat (ringAddress (s.sectionWindow w) (start.toNat + bytes.length)) all s).putOut
          (.writeToMemory .stream start.toNat bytes)) := by
  have own := sectionWindow_putIntakeContext_self s w (.assembling (.fresh start.toNat))
  have more : (Assembly.fresh start.toNat).bytes.length < recordLength all := Nat.succ_pos _
  have row := streamWrite_completes (s := s.putIntakeContext w (.assembling (.fresh start.toNat))) (a := .fresh start.toNat)
    (all := all) hr hb
    (hl.putIntakeContext _) (by rw [own]) rfl begins.1 hall rfl (by rw [own]; exact legal) more full
  have same := congrArg Prod.snd (completeRecord_putIntakeContext w start.toNat
    (ringAddress (s.sectionWindow w) (start.toNat + bytes.length)) all (.assembling (.fresh start.toNat)) s)
  rw [completeRecord_state, completeRecord_state] at same
  rw [streamWrite_candidate hr hb hl hc h4 begins, row, own, ← same]
  rfl

/-- Settles O13: the record is taken as by a context that assembles it, and is complete at the write's end. -/
theorem wholeRecordIsQueued : Obligations.WholeRecordIsQueued := by
  unfold Obligations.WholeRecordIsQueued
  intro s w start code body bytes hr set hc low high base size h4 hb others least most record room below
  have length := ringRecord_length record
  obtain ⟨total, second, inner, check⟩ := ringRecord_fields most record
  have begins : BeginsRecord (bytes.map (fun b => (b, true))) := by
    rw [record]
    exact beginsRecord_enabled _
  have lies : LiesInWindow s w start.toNat (bytes.map (fun b => (b, true))).length := by
    rw [List.length_map]
    exact ⟨set, low, high, others⟩
  have burst : burstOk start (bytes.map (fun b => (b, true))).length = true := by rwa [List.length_map]
  have legal : LegalLength (s.sectionWindow w).size (recordLength bytes) := by
    rw [total]
    refine ⟨?_, ?_, ?_⟩ <;> omega
  have row := streamWrite_whole (all := bytes) hr burst lies hc h4 begins (by simp [Function.comp_def]) legal (length.trans total.symm)
  rw [List.length_map, afterRecord, successor_aligned base size h4,
    judgeRecord_queues length check (s := s.putIntakeContext w _) (by rw [← length]; exact room)] at row
  obtain ⟨window, frame⟩ := queued_flows (w := w) (some _) _ _ below
  rw [Nat.add_sub_cancel, second, inner] at row
  exact ⟨_, row, (queueRecord_queue _ _).1, (queueRecord_queue _ _).2, frame.report (by simp), frame .flow (by simp), by rw [window]⟩

end Sys2Proof.Machine
end

section
/-! PROOF. The bodies of section records (R120 to R122): what is laid out is read back, nothing else is read, and the
rating record is the one that R121 derives from the descriptors. -/

namespace Sys2Proof.Machine

open Sys2Proof

/-! ### Fields taken off the front of a run of bytes (R187) -/

theorem bytes16_le16 (a b : Byte) : bytes16 (le16 a b) = [a, b] := by
  have low : (b ++ a).extractLsb' 0 8 = a := BitVec.extractLsb'_append_eq_right
  have high : (b ++ a).extractLsb' 8 8 = b := BitVec.extractLsb'_append_eq_left
  rw [bytes16, le16, low, high]

theorem bytes32_le32 (a b c d : Byte) : bytes32 (le32 a b c d) = [a, b, c, d] := by
  have parts : ∀ i, i < 4 → ((d ++ c) ++ (b ++ a)).extractLsb' (8 * i) 8 = [a, b, c, d].getD i 0 := by
    intro i hi
    apply BitVec.eq_of_getLsbD_eq
    intro k hk
    simp only [BitVec.getLsbD_extractLsb', BitVec.getLsbD_append]
    interval_cases i <;> interval_cases k <;> simp
  have first := parts 0 (by omega)
  have second := parts 1 (by omega)
  have third := parts 2 (by omega)
  have fourth := parts 3 (by omega)
  simp only [List.getD_cons_zero, List.getD_cons_succ, Nat.mul_zero, Nat.mul_one, Nat.reduceMul] at *
  rw [bytes32, le32, first, second, third, fourth]

section
variable {b : List Byte} {i : Nat}

theorem drop_byte (h : i < b.length) : b.drop i = [byteAt b i] ++ b.drop (i + 1) := by
  rw [List.drop_eq_getElem_cons h, byteAt, List.getD_eq_getElem _ _ h]
  rfl

theorem drop_half (h : i + 1 < b.length) : b.drop i = bytes16 (halfAt b i) ++ b.drop (i + 2) := by
  rw [halfAt, bytes16_le16, drop_byte (by omega), drop_byte h]
  rfl

theorem drop_word (h : i + 3 < b.length) : b.drop i = bytes32 (wordAt b i) ++ b.drop (i + 4) := by
  rw [wordAt, bytes32_le32, drop_byte (by omega), drop_byte (i := i + 1) (by omega), drop_byte (i := i + 1 + 1) (by omega),
    drop_byte (i := i + 1 + 1 + 1) h]
  rfl

end

/-! ### Descriptors (R121) -/

theorem Descriptor.wellFormed_iff {d : Descriptor} (h : d.content.length ≤ 255) :
    d.wellFormed = true ↔ d.legal := by
  have tag : ∀ t : Byte, d.tag.toNat = t.toNat → d.tag = t := fun t => BitVec.eq_of_toNat_eq
  unfold wellFormed legal
  split
  · next is => simp [tag 0x51 is, h]
  · next is => simp [tag 0x52 is, h]
  · next is => simp [tag 0x53 is, h]
  · next no_rating no_flags no_genre =>
    have rating : d.tag ≠ 0x51 := fun is => no_rating (by rw [is]; rfl)
    have flags : d.tag ≠ 0x52 := fun is => no_flags (by rw [is]; rfl)
    have genre : d.tag ≠ 0x53 := fun is => no_genre (by rw [is]; rfl)
    exact iff_of_true rfl ⟨h, fun is => absurd is rating, fun is => absurd is flags, fun is => absurd is genre⟩

theorem Descriptor.bytes_append (d : Descriptor) (rest : List Byte) :
    d.bytes ++ rest = d.tag :: BitVec.ofNat 8 d.content.length :: (d.content ++ rest) := by
  simp [bytes, nat8]

theorem readDescriptors_nil (fuel : Nat) : readDescriptors fuel [] = some [] := by
  cases fuel <;> rfl

/-- R121: a legal descriptor is read off the front of its list. -/
theorem readDescriptors_cons {d : Descriptor} (h : d.legal) (fuel : Nat) (rest : List Byte) :
    readDescriptors (fuel + 1) (d.bytes ++ rest) = (readDescriptors fuel rest).map (fun ds => d :: ds) := by
  have short : d.content.length ≤ 255 := h.1
  have len : (BitVec.ofNat 8 d.content.length).toNat = d.content.length := toNat_ofNat_of_le short (by decide)
  rw [Descriptor.bytes_append, readDescriptors, len, if_pos (by simp), List.take_left, List.drop_left]
  exact if_pos ((Descriptor.wellFormed_iff short).2 h)

theorem readDescriptors_flatMap {ds : List Descriptor} (h : ∀ d ∈ ds, d.legal) {fuel : Nat} (hf : ds.length ≤ fuel) :
    readDescriptors fuel (ds.flatMap Descriptor.bytes) = some ds := by
  induction ds generalizing fuel with
  | nil => exact readDescriptors_nil fuel
  | cons d ds ih =>
    obtain _ | fuel := fuel
    · simp at hf
    · rw [List.flatMap_cons, readDescriptors_cons (h d (by simp)),
        ih (fun x hx => h x (by simp [hx])) (Nat.le_of_succ_le_succ hf)]
      rfl

/-- R121, log 39: only a list of whole, legal descriptors is read. -/
theorem readDescriptors_some {fuel : Nat} {list : List Byte} {ds : List Descriptor}
    (h : readDescriptors fuel list = some ds) : list = ds.flatMap Descriptor.bytes ∧ ∀ d ∈ ds, d.legal := by
  induction fuel generalizing list ds with
  | zero =>
    cases list with
    | nil => cases h; simp
    | cons => cases h
  | succ fuel ih =>
    match list, h with
    | [], h => cases h; simp
    | [_], h => cases h
    | tag :: len :: rest, h =>
      simp only [readDescriptors] at h
      split_ifs at h with fits formed
      obtain ⟨tail, read, rfl⟩ := Option.map_eq_some_iff.1 h
      obtain ⟨same, legal⟩ := ih read
      have count : (rest.take len.toNat).length = len.toNat := List.length_take_of_le fits
      have short : (rest.take len.toNat).length ≤ 255 := by have := len.isLt; omega
      refine ⟨?_, fun d hd => ?_⟩
      · rw [List.flatMap_cons, ← same, Descriptor.bytes_append, count, BitVec.ofNat_toNat, BitVec.setWidth_eq,
          List.take_append_drop]
      · obtain rfl | hd := List.mem_cons.1 hd
        · exact (Descriptor.wellFormed_iff short).1 formed
        · exact legal d hd

/-! ### Event entries and sections (R120) -/

/-- The event that an entry holds, its rating read through the scheme maps. -/
def EventEntry.event (schemes : Vector (Vector (Option Nat) 16) 8) (e : EventEntry) : Event :=
  ⟨e.id, e.startDay.toNat, e.startSecond.toNat, e.duration.toNat, ratingFrom schemes e.descriptors⟩

section
variable {schemes : Vector (Vector (Option Nat) 16) 8}

theorem descriptors_le_list (ds : List Descriptor) : ds.length ≤ (ds.flatMap Descriptor.bytes).length := by
  induction ds with
  | nil => simp
  | cons d ds ih =>
    rw [List.flatMap_cons, Descriptor.bytes_append]
    simp only [List.length_cons, List.length_append]
    omega

theorem EventEntry.bytes_length (e : EventEntry) : e.bytes.length = 14 + e.list.length := by
  simp only [EventEntry.bytes, bytes16, nat16, bytes32, List.length_append, List.length_cons, List.length_nil]

/-- R120: a legal entry is read off the front of its section. -/
theorem readEvent_bytes {e : EventEntry} (h : e.legal) (rest : List Byte) :
    readEvent schemes (e.bytes ++ rest) = some (e.event schemes, rest) := by
  obtain ⟨second, short, descriptors⟩ := h
  have id : halfAt (e.bytes ++ rest) 0 = e.id := le16_bytes16 _
  have day : halfAt (e.bytes ++ rest) 2 = e.startDay := le16_bytes16 _
  have start : wordAt (e.bytes ++ rest) 4 = e.startSecond := le32_bytes32 _
  have duration : wordAt (e.bytes ++ rest) 8 = e.duration := le32_bytes32 _
  have length : (halfAt (e.bytes ++ rest) 12).toNat = e.list.length :=
    (congrArg BitVec.toNat (le16_bytes16 _)).trans (toNat_ofNat_of_le short (by decide))
  have behind : (e.bytes ++ rest).drop 14 = e.list ++ rest := rfl
  have whole : (e.bytes ++ rest).drop (14 + e.list.length) = rest := by
    rw [← List.drop_drop, behind, List.drop_left]
  have enough : ¬ (e.bytes ++ rest).length < 14 + e.list.length := by
    rw [List.length_append, e.bytes_length]
    omega
  have list : readDescriptors e.list.length e.list = some e.descriptors :=
    readDescriptors_flatMap descriptors (descriptors_le_list _)
  simp only [readEvent, length, behind, whole, start, id, day, duration, List.take_left, list]
  rw [if_neg enough, if_neg (Nat.not_lt.2 second)]
  rfl

theorem readEvent_some {b rest : List Byte} {v : Event} (h : readEvent schemes b = some (v, rest)) :
    ∃ e : EventEntry, e.legal ∧ b = e.bytes ++ rest ∧ v = e.event schemes := by
  simp only [readEvent] at h
  split_ifs at h with few late
  split at h
  · cases h
  · next ds read =>
    simp only [Option.some.injEq, Prod.mk.injEq] at h
    obtain ⟨rfl, rfl⟩ := h
    obtain ⟨list, legal⟩ := readDescriptors_some read
    have count : ((b.drop 14).take (halfAt b 12).toNat).length = (halfAt b 12).toNat := by
      rw [List.length_take, List.length_drop]
      omega
    have bound := (halfAt b 12).isLt
    refine ⟨⟨halfAt b 0, halfAt b 2, wordAt b 4, wordAt b 8, ds⟩, ⟨Nat.le_of_not_lt late, ?_, legal⟩, ?_, rfl⟩
    · rw [EventEntry.list, ← list, count]
      omega
    · rw [EventEntry.bytes, EventEntry.list, ← list, count, nat16, BitVec.ofNat_toNat, BitVec.setWidth_eq,
        ← List.drop_drop, List.append_assoc, List.take_append_drop]
      simp only [List.append_assoc]
      rw [← drop_half (by omega), ← drop_word (by omega), ← drop_word (by omega), ← drop_half (by omega),
        ← drop_half (by omega), List.drop_zero]

theorem readIncluded_bytes {o : Option EventEntry} (h : ∀ e, o = some e → e.legal) (rest : List Byte) :
    readIncluded schemes o.isSome ((o.map EventEntry.bytes).getD [] ++ rest)
      = some (o.map (EventEntry.event schemes), rest) := by
  cases o with
  | none => rfl
  | some e =>
    simp only [readIncluded, Option.isSome_some, if_true, Option.map_some, Option.getD_some, readEvent_bytes (h e rfl)]

theorem readIncluded_some {included : Bool} {b rest : List Byte} {v : Option Event}
    (h : readIncluded schemes included b = some (v, rest)) :
    ∃ o : Option EventEntry, included = o.isSome ∧ (∀ e, o = some e → e.legal)
      ∧ b = (o.map EventEntry.bytes).getD [] ++ rest ∧ v = o.map (EventEntry.event schemes) := by
  cases included with
  | false =>
    cases h
    exact ⟨none, rfl, fun e he => (by cases he), rfl, rfl⟩
  | true =>
    obtain ⟨⟨event, left⟩, read, same⟩ := Option.map_eq_some_iff.1 h
    obtain ⟨rfl, rfl⟩ := Prod.mk.injEq .. ▸ same
    obtain ⟨e, legal, rfl, rfl⟩ := readEvent_some read
    exact ⟨some e, rfl, fun e' he => Option.some.inj he ▸ legal, rfl, rfl⟩

/-- R120: a section that is laid out legally is read. -/
theorem readService_sectionBody {key : ServiceKey} {version flags : Byte} {present following : Option EventEntry}
    (h : SectionLegal version flags present following) :
    readService schemes (sectionBody key version flags present following)
      = some ⟨key, version.toNat, present.map (EventEntry.event schemes), following.map (EventEntry.event schemes)⟩ := by
  obtain ⟨bound, first, second, legal_present, legal_following⟩ := h
  have body : sectionBody key version flags present following
      = keyField key ++ [version, flags] ++ ((present.map EventEntry.bytes).getD []
          ++ ((following.map EventEntry.bytes).getD [] ++ [])) := by
    simp [sectionBody]
  have network : halfAt (sectionBody key version flags present following) 0 = key.network := le16_bytes16 _
  have stream : halfAt (sectionBody key version flags present following) 2 = key.stream := le16_bytes16 _
  have service : halfAt (sectionBody key version flags present following) 4 = key.service := le16_bytes16 _
  have six : byteAt (sectionBody key version flags present following) 6 = version := rfl
  have seven : byteAt (sectionBody key version flags present following) 7 = flags := rfl
  have entries : (sectionBody key version flags present following).drop 8
      = (present.map EventEntry.bytes).getD [] ++ ((following.map EventEntry.bytes).getD [] ++ []) := by
    rw [body]
    rfl
  have long : ¬ (sectionBody key version flags present following).length < 8 := by
    rw [body]
    simp [keyField, bytes16]
  rw [readService, if_neg long, six, if_neg (Nat.not_lt.2 bound), seven, entries, first, second]
  simp only [readIncluded_bytes legal_present, readIncluded_bytes legal_following, network, stream, service]
  rfl

theorem readService_some {b : List Byte} {d : ServiceSection} (h : readService schemes b = some d) :
    ∃ version flags present following, SectionLegal version flags present following
      ∧ b = sectionBody d.key version flags present following := by
  simp only [readService] at h
  split_ifs at h with few big
  split at h
  · cases h
  · next present behind read_present =>
    split at h
    · cases h
    · next following rest read_following =>
      split_ifs at h with empty
      cases h
      obtain rfl := List.isEmpty_iff.1 empty
      obtain ⟨p, first, legal_present, entries, -⟩ := readIncluded_some read_present
      obtain ⟨f, second, legal_following, rfl, -⟩ := readIncluded_some read_following
      refine ⟨byteAt b 6, byteAt b 7, p, f, ⟨Nat.le_of_not_lt big, first, second, legal_present, legal_following⟩, ?_⟩
      rw [List.append_nil] at entries
      simp only [sectionBody, keyField, List.append_assoc, ← entries]
      rw [← drop_byte (by omega), ← drop_byte (by omega), ← drop_half (by omega), ← drop_half (by omega),
        ← drop_half (by omega), List.drop_zero]

/-! ### The rating record of a list of descriptors (R121, R136) -/

/-- What a rating descriptor maps to. -/
def Descriptor.mapped (schemes : Vector (Vector (Option Nat) 16) 8) (d : Descriptor) : Mapped :=
  mapRating schemes (byteAt d.content 0).toNat (byteAt d.content 1).toNat

/-- What the rating descriptors of a list map to. -/
def mappedRatings (schemes : Vector (Vector (Option Nat) 16) 8) (ds : List Descriptor) : List Mapped :=
  (contentsOf 0x51 ds).map (fun c => mapRating schemes (byteAt c 0).toNat (byteAt c 1).toNat)

theorem mem_contentsOf {tag : Byte} {ds : List Descriptor} {c : List Byte} :
    c ∈ contentsOf tag ds ↔ ∃ d ∈ ds, d.tag = tag ∧ d.content = c := by
  simp [contentsOf, and_assoc]

theorem contentsOf_eq_nil {tag : Byte} {ds : List Descriptor} (h : ∀ d ∈ ds, d.tag ≠ tag) : contentsOf tag ds = [] := by
  refine List.eq_nil_iff_forall_not_mem.2 fun c hc => ?_
  obtain ⟨d, hd, is, -⟩ := mem_contentsOf.1 hc
  exact h d hd is

theorem mem_mappedRatings {ds : List Descriptor} {m : Mapped} :
    m ∈ mappedRatings schemes ds ↔ ∃ d ∈ ds, d.tag = 0x51 ∧ d.mapped schemes = m := by
  simp only [mappedRatings, List.mem_map, mem_contentsOf, Descriptor.mapped]
  constructor
  · rintro ⟨c, ⟨d, hd, is, rfl⟩, same⟩
    exact ⟨d, hd, is, same⟩
  · rintro ⟨d, hd, is, same⟩
    exact ⟨d.content, ⟨d, hd, is, rfl⟩, same⟩

theorem mapRating_age {scheme value age : Nat} :
    mapRating schemes scheme value = .age age
      ↔ ∃ (m : Fin 8) (v : Fin 16), scheme = m.val + 1 ∧ value = v.val ∧ schemes[m][v] = some age := by
  constructor
  · intro h
    unfold mapRating at h
    split_ifs at h with zero _ known held
    split at h
    · next a mapped =>
      cases h
      exact ⟨⟨scheme - 1, known⟩, ⟨value, held⟩, by simp only; omega, rfl, mapped⟩
    · cases h
  · rintro ⟨m, v, rfl, rfl, mapped⟩
    have entry : schemes[m.val][v.val] = some age := mapped
    simp [mapRating, entry]

theorem mapRating_unrated {scheme value : Nat} :
    mapRating schemes scheme value = .unrated ↔ scheme = 0 ∧ value = 0 := by
  constructor
  · intro h
    unfold mapRating at h
    split_ifs at h with scheme_zero value_zero
    · exact ⟨scheme_zero, value_zero⟩
    · split at h <;> cases h
  · rintro ⟨rfl, rfl⟩
    rfl

theorem byte_eq_ofNat_iff {b : Byte} {n : Nat} (h : n ≤ 255) : b = BitVec.ofNat 8 n ↔ b.toNat = n := by
  rw [← BitVec.toNat_inj, toNat_ofNat_of_le h (by decide)]

/-- R121 step 1, R136: a rating descriptor maps to an age through the scheme maps. -/
theorem mapsToAge_iff {d : Descriptor} {age : Nat} :
    MapsToAge schemes d age ↔ d.tag = 0x51 ∧ d.mapped schemes = .age age := by
  have scheme : ∀ m : Fin 8, byteAt d.content 0 = BitVec.ofNat 8 (m.val + 1) ↔ (byteAt d.content 0).toNat = m.val + 1 :=
    fun m => byte_eq_ofNat_iff (by omega)
  have value : ∀ v : Fin 16, byteAt d.content 1 = BitVec.ofNat 8 v.val ↔ (byteAt d.content 1).toNat = v.val :=
    fun v => byte_eq_ofNat_iff (by omega)
  simp only [MapsToAge, Descriptor.mapped, mapRating_age, scheme, value]

theorem mapped_unrated_iff {d : Descriptor} (h : d.content.length = 2) :
    d.mapped schemes = .unrated ↔ d.content = [0, 0] := by
  obtain ⟨a, b, content⟩ := List.length_eq_two.1 h
  have first : byteAt d.content 0 = a := by rw [content]; rfl
  have second : byteAt d.content 1 = b := by rw [content]; rfl
  rw [Descriptor.mapped, mapRating_unrated, first, second, content]
  simp only [List.cons.injEq, and_true, ← BitVec.toNat_inj]
  rfl

section
variable {ds : List Descriptor}

/-- The ages that the rating descriptors of a list map to. -/
def mappedAges (schemes : Vector (Vector (Option Nat) 16) 8) (ds : List Descriptor) : List Nat :=
  (mappedRatings schemes ds).filterMap Mapped.age?

theorem mem_mappedAges {age : Nat} : age ∈ mappedAges schemes ds ↔ ∃ d ∈ ds, MapsToAge schemes d age := by
  have given : ∀ m : Mapped, m.age? = some age ↔ m = .age age := by
    intro m
    cases m <;> simp [Mapped.age?]
  simp only [mappedAges, List.mem_filterMap, given, mapsToAge_iff]
  constructor
  · rintro ⟨m, hm, rfl⟩
    exact mem_mappedRatings.1 hm
  · exact fun h => ⟨_, mem_mappedRatings.2 h, rfl⟩

/-- R121 step 2: where an age is mapped to, the class is the greatest. -/
theorem classFrom_aged {d : Descriptor} (hd : d ∈ ds) {age : Nat} (h : MapsToAge schemes d age) :
    ∃ a, classFrom (mappedRatings schemes ds) = .aged a ∧ age ≤ a ∧ ∃ d' ∈ ds, MapsToAge schemes d' a := by
  have mem : age ∈ mappedAges schemes ds := mem_mappedAges.2 ⟨d, hd, h⟩
  obtain ⟨a, greatest⟩ := Option.isSome_iff_exists.1 (List.isSome_max?_of_mem mem)
  obtain ⟨reached, bound⟩ := List.max?_eq_some_iff.1 greatest
  refine ⟨a, ?_, bound age mem, mem_mappedAges.1 reached⟩
  rw [classFrom, show (List.filterMap Mapped.age? _).max? = some a from greatest]

/-- R121 step 2: the class where no age is mapped to. -/
theorem classFrom_ageless (h : ∀ d ∈ ds, ∀ age, ¬ MapsToAge schemes d age) :
    classFrom (mappedRatings schemes ds)
      = if (mappedRatings schemes ds).contains .unrated then .unrated
        else if (mappedRatings schemes ds).isEmpty then .absent else .unknownScheme := by
  have none : mappedAges schemes ds = [] := List.eq_nil_iff_forall_not_mem.2 fun age mem => by
    obtain ⟨d, hd, maps⟩ := mem_mappedAges.1 mem
    exact h d hd age maps
  rw [classFrom, show List.filterMap Mapped.age? _ = [] from none]
  rfl

theorem foldl_or_getLsbD (cs : List (List Byte)) (f : Byte) (i : Nat) :
    (cs.foldl (fun f c => f ||| byteAt c 0) f).getLsbD i = true
      ↔ f.getLsbD i = true ∨ ∃ c ∈ cs, (byteAt c 0).getLsbD i = true := by
  induction cs generalizing f with
  | nil => simp
  | cons c cs ih => simp [ih, or_assoc]

/-- R121 step 4: a legal genre descriptor names its genre class. -/
theorem genreContent_legal {d : Descriptor} (h : d.legal) (is : d.tag = 0x53) :
    (byteAt d.content 0).toNat = (genreContent d.content).val := by
  obtain ⟨-, -, -, genre⟩ := h
  have low := (genre is).2
  rw [genreContent, genreOf, dif_pos (by omega)]
  rfl

/-- R121: what is derived from the descriptors of a list is their rating record. -/
theorem ratingOf_ratingFrom (legal : ∀ d ∈ ds, d.legal) : RatingOf schemes ds (ratingFrom schemes ds) := by
  have ratings : ∀ d ∈ ds, d.tag = 0x51 → (d.mapped schemes = .unrated ↔ d.content = [0, 0]) :=
    fun d hd is => mapped_unrated_iff ((legal d hd).2.1 is)
  have unrated : (mappedRatings schemes ds).contains .unrated = true
      ↔ ∃ d ∈ ds, d.tag = 0x51 ∧ d.content = [0, 0] := by
    rw [List.contains_iff_mem, mem_mappedRatings]
    constructor
    · exact fun ⟨d, hd, is, maps⟩ => ⟨d, hd, is, (ratings d hd is).1 maps⟩
    · exact fun ⟨d, hd, is, zero⟩ => ⟨d, hd, is, (ratings d hd is).2 zero⟩
  refine ⟨fun d hd age maps => classFrom_aged hd maps, fun ageless => ?_, fun i _ => ?_, fun no_genre => ?_,
    fun before d after split is last => ?_⟩
  · have cls : (ratingFrom schemes ds).cls = _ := classFrom_ageless ageless
    rw [cls]
    refine ⟨fun some_unrated => if_pos (unrated.2 some_unrated), fun no_unrated => ?_⟩
    have rated : ¬ (mappedRatings schemes ds).contains .unrated = true := fun has => by
      obtain ⟨d, hd, is, zero⟩ := unrated.1 has
      exact no_unrated d hd is zero
    rw [if_neg rated]
    refine ⟨fun ⟨d, hd, is⟩ => if_neg fun empty => ?_, fun no_rating => if_pos ?_⟩
    · have mem : d.mapped schemes ∈ mappedRatings schemes ds := mem_mappedRatings.2 ⟨d, hd, is, rfl⟩
      rw [List.isEmpty_iff.1 empty] at mem
      exact List.not_mem_nil mem
    · rw [mappedRatings, contentsOf_eq_nil no_rating]
      rfl
  · rw [ratingFrom, foldl_or_getLsbD]
    simp only [BitVec.ofNat_eq_ofNat, BitVec.getLsbD_zero, Bool.false_eq_true, false_or]
    constructor
    · rintro ⟨c, hc, bit⟩
      obtain ⟨d, hd, is, rfl⟩ := mem_contentsOf.1 hc
      exact ⟨d, hd, is, bit⟩
    · exact fun ⟨d, hd, is, bit⟩ => ⟨d.content, mem_contentsOf.2 ⟨d, hd, is, rfl⟩, bit⟩
  · rw [ratingFrom, contentsOf_eq_nil no_genre]
    rfl
  · have contents : contentsOf 0x53 ds = contentsOf 0x53 before ++ [d.content] := by
      have none : contentsOf 0x53 after = [] := contentsOf_eq_nil last
      simp only [contentsOf] at none ⊢
      rw [split, List.filter_append, List.filter_cons_of_pos (by simp [is]), List.map_append, List.map_cons, none]
    have mem : d ∈ ds := by rw [split]; simp
    rw [genreContent_legal (legal d mem) is, ratingFrom, contents, List.map_append]
    simp

end

theorem handedOn_event {o : Option EventEntry} (h : ∀ e, o = some e → e.legal) :
    HandedOn schemes o (o.map (EventEntry.event schemes)) := by
  cases o with
  | none => trivial
  | some e =>
    obtain ⟨-, -, descriptors⟩ := h e rfl
    exact ⟨rfl, rfl, rfl, rfl, ratingOf_ratingFrom descriptors⟩

end

/-! ### Time and offset (R122) -/

theorem readTime_iff {body : List Byte} {day second : Nat} :
    readTime body = some (day, second) ↔
      ∃ (d : Half) (x : Word), body = bytes16 d ++ bytes32 x ∧ x.toNat ≤ 86399 ∧ day = d.toNat ∧ second = x.toNat := by
  constructor
  · intro h
    unfold readTime at h
    split_ifs at h with legal
    obtain ⟨six, bound⟩ := legal
    cases h
    refine ⟨halfAt body 0, wordAt body 2, ?_, bound, rfl, rfl⟩
    have day := drop_half (b := body) (i := 0) (by omega)
    have second := drop_word (b := body) (i := 0 + 2) (by omega)
    rw [List.drop_eq_nil_of_le (i := 0 + 2 + 4) (by omega), List.append_nil] at second
    rwa [second, List.drop_zero] at day
  · rintro ⟨d, x, rfl, bound, rfl, rfl⟩
    have day : halfAt (bytes16 d ++ bytes32 x) 0 = d := le16_bytes16 d
    have second : wordAt (bytes16 d ++ bytes32 x) 2 = x := le32_bytes32 x
    rw [readTime, day, second, if_pos ⟨rfl, bound⟩]

theorem readOffset_iff {body : List Byte} {offset : Int} :
    readOffset body = some offset ↔ ∃ x : Word, body = bytes32 x ∧ offset = max (-780) (min 840 x.toInt) := by
  constructor
  · intro h
    unfold readOffset at h
    split_ifs at h with four
    cases h
    refine ⟨wordAt body 0, ?_, by rw [offsetOf_eq]⟩
    have whole := drop_word (b := body) (i := 0) (by omega)
    rw [List.drop_eq_nil_of_le (i := 0 + 4) (by omega), List.append_nil] at whole
    exact whole
  · rintro ⟨x, rfl, rfl⟩
    have word : wordAt (bytes32 x) 0 = x := le32_bytes32 x
    rw [readOffset, word, if_pos (bytes32_length x), offsetOf_eq]

/-- Settles O46: what is laid out is read back and nothing else is read (log 39: a lone tag byte is malformed), and
the rating records are those of R121. -/
theorem sectionBodiesAreRead : Obligations.SectionBodiesAreRead := by
  unfold Obligations.SectionBodiesAreRead
  refine ⟨fun schemes key version flags present following legal => ?_, fun schemes body d => readService_some,
    fun body day second => readTime_iff, fun body offset => readOffset_iff⟩
  have read := readService_sectionBody (schemes := schemes) (key := key) legal
  obtain ⟨-, -, -, legal_present, legal_following⟩ := legal
  exact ⟨_, read, rfl, rfl, handedOn_event legal_present, handedOn_event legal_following⟩

end Sys2Proof.Machine
end

section
/-! PROOF. Promotion (R129, R131, R132): what a new present event asks for, the test of one slot, and its row. -/

namespace Sys2Proof.Machine

open Sys2Proof

/-! ### A present event comes into an entry (R129, R130) -/

section
variable {before after : Entry} {p : Event}

/-- R129: another event id than the last is an event change. -/
theorem consequence_of_new_id (hp : after.present = .current p) {old : Half} (ho : before.lastId = some old)
    (ne : old ≠ p.id) : consequence before after = .event old p.id := by
  simp [consequence, hp, ho, ne]

/-- R130: nothing follows only where event and rating are those held. -/
theorem consequence_current_nothing (hp : after.present = .current p) (h : consequence before after = .nothing) :
    before.lastId = some p.id ∧ ∃ x, before.present = .current x ∧ x.rating = p.rating := by
  simp only [consequence, hp] at h
  cases ho : before.lastId with
  | none => simp [ho] at h
  | some old =>
    simp only [ho] at h
    split_ifs at h with ne
    split at h
    · next x hx =>
      split_ifs at h with rating
      exact ⟨by rw [not_not.1 ne], x, hx, rating⟩
    · cases h

/-- R131: a current event that has run out is lost. -/
theorem consequence_of_ended {q : Event} (ha : after.present = .ended p) (hb : before.present = .current q) :
    consequence before after = .lost := by
  simp [consequence, ha, hb]

end

/-- What an event change of the entry in slot `n`, to which `count` outputs are bound, has done (R129). -/
def EventChanged (n : Fin 64) (count : Nat) (s t : State) : Prop :=
  (0 < count → Noted .eventChange n.val t)
    ∧ ∀ o, (s.context o).service = some n →
      SpentIn endsWithEvent (s.context o).stack (t.context o).stack ∧ UpToDate t o

/-- R129: the coming of a present event with another id than the last. -/
theorem replaceEntry_eventChanged {s : State} (hr : Running s) {n : Fin 64} {before after : Entry} {p : Event}
    {old : Half} (hp : after.present = .current p) (ho : before.lastId = some old) (ne : old ≠ p.id)
    (cause : ChangeCause) : EventChanged n after.bindCount s (replaceEntry n before after cause s) := by
  have running : Running (s.putEntry n (some after)) := hr
  rw [replaceEntry, consequence_of_new_id hp ho ne]
  refine ⟨fun bound => carryOut_noted running (entry_putEntry_self ..) bound .., fun o hb => ⟨?_, ?_⟩⟩
  · rw [carryOut_stack_event, putEntry_context, if_pos hb]
    exact spentIn_spendStack ..
  · exact carryOut_upToDate running (by simp) hb

/-- R37, R131: the current event of an entry ends, and the outputs bound to it wait from now. -/
theorem replaceEntry_ended {s : State} (hr : Running s) {n : Fin 64} {before after : Entry} {p q : Event}
    (ha : after.present = .ended p) (hb : before.present = .current q) (cause : ChangeCause) {o : Output}
    (ho : (s.context o).service = some n) :
    ((replaceEntry n before after cause s).context o).pendingSince = s.time.run
      ∧ UpToDate (replaceEntry n before after cause s) o := by
  have running : Running (s.putEntry n (some after)) := hr
  rw [replaceEntry, consequence_of_ended ha hb]
  refine ⟨?_, carryOut_upToDate running (by simp) ho⟩
  rw [carryOut_since, putEntry_context, if_pos ⟨ho, rfl⟩]
  rfl

/-! ### The test of an entry (R131, R132) -/

section
variable {e : Entry} {wall : Nat}

theorem started_of_le {f : Event} (hf : e.following = some f) (h : f.start ≤ wall) : e.started wall = some f := by
  simp [Entry.started, hf, h]

theorem started_of_ahead (h : ∀ f, e.following = some f → wall < f.start) : e.started wall = none := by
  cases hf : e.following with
  | none => simp [Entry.started, hf]
  | some f => simp [Entry.started, hf, h f hf]

theorem promotionTest_declared (h : e.source = .declared) : e.promotionTest wall = none := if_pos h

/-- The present event is over, ended or absent. -/
def Entry.Vacant (e : Entry) (wall : Nat) : Prop :=
  (∃ p, e.present = .current p ∧ p.over wall = true) ∨ ∀ p, e.present ≠ .current p

theorem promotionTest_started (hb : e.source = .broadcast) {f : Event} (hf : e.started wall = some f)
    (vacant : e.Vacant wall) : e.promotionTest wall = some (e.promoted f) := by
  obtain ⟨p, hp, past⟩ | none_current := vacant
  · simp [Entry.promotionTest, hb, hf, hp, past]
  · cases hp : e.present with
    | current p => exact absurd hp (none_current p)
    | ended p => simp [Entry.promotionTest, hb, hf, hp]
    | none => simp [Entry.promotionTest, hb, hf, hp]

theorem promotionTest_over (hb : e.source = .broadcast) {p : Event} (hp : e.present = .current p)
    (past : p.over wall = true) (hf : e.started wall = none) :
    e.promotionTest wall = some { e with present := .ended p } := by
  simp [Entry.promotionTest, hb, hf, hp, past]

theorem promotionTest_running (hb : e.source = .broadcast) {p : Event} (hp : e.present = .current p)
    (past : p.over wall = false) : e.promotionTest wall = none := by
  cases hf : e.started wall with
  | none => simp [Entry.promotionTest, hb, hf, hp, past]
  | some f => simp [Entry.promotionTest, hb, hf, hp, past]

theorem promotionTest_no_event (hb : e.source = .broadcast) (hp : ∀ p, e.present ≠ .current p)
    (hf : e.started wall = none) : e.promotionTest wall = none := by
  cases h : e.present with
  | current p => exact absurd h (hp p)
  | ended p => simp [Entry.promotionTest, hb, hf, h]
  | none => simp [Entry.promotionTest, hb, hf, h]

end

/-! ### The test of a slot (logs 7, 8) -/

section
variable {s : State} {n : Fin 64}

theorem testPromotion_unset (h : s.time.source = .unset) : testPromotion n s = s :=
  if_pos (by simp [TimeBase.isSet, h])

theorem testPromotion_unchanged {e : Entry} (he : s.entry n = some e)
    (h : e.promotionTest s.rating.promotionWall = none) : testPromotion n s = s := by
  simp [testPromotion, he, h]

theorem testPromotion_changed (hs : s.time.source ≠ .unset) {e f : Entry} (he : s.entry n = some e)
    (h : e.promotionTest s.rating.promotionWall = some f) :
    testPromotion n s = replaceEntry n e f .byPromotion s := by
  simp [testPromotion, TimeBase.isSet, hs, he, h]

/-- The test of a slot is struck off those due (log 7). -/
def strikeOff (n : Fin 64) (s : State) : State :=
  { s with rating := { s.rating with promotionDue := s.rating.promotionDue.filter (fun m => decide (m ≠ n)) } }

theorem strikeOff_frame (n : Fin 64) (s : State) : Frame [.promotions] s (strikeOff n s) :=
  have struck : Within [.promotions] s (strikeOff n s) :=
    within_rating (fun _ => .inr rfl) (.inr rfl) (.inl (List.mem_singleton_self _))
  struck.frame

theorem promoteOnce_of_due (h : n ∈ s.rating.promotionDue) :
    promoteOnce n s = testPromotion n (strikeOff n s) := if_pos (by simpa using h)

theorem promoteOnce_of_not_due (h : n ∉ s.rating.promotionDue) : promoteOnce n s = s := if_neg (by simpa using h)

theorem promoteOnce_not_due (h : n ∈ s.rating.promotionDue) : n ∉ (promoteOnce n s).rating.promotionDue := by
  rw [promoteOnce_of_due h]
  obtain ⟨due, -⟩ := (testPromotion_within n (strikeOff n s)).frame .promotions (by simp)
  rw [due]
  simp [strikeOff]

/-- A test that changes no entry strikes itself off only. -/
theorem promoteOnce_frame_of_unchanged (h : n ∈ s.rating.promotionDue)
    (same : testPromotion n (strikeOff n s) = strikeOff n s) : Frame [.promotions] s (promoteOnce n s) := by
  rw [promoteOnce_of_due h, same]
  exact strikeOff_frame n s

theorem promoteOnce_changed (h : n ∈ s.rating.promotionDue) (hs : s.time.source ≠ .unset) {e f : Entry}
    (he : s.entry n = some e) (test : e.promotionTest s.rating.promotionWall = some f) :
    promoteOnce n s = replaceEntry n e f .byPromotion (strikeOff n s) := by
  rw [promoteOnce_of_due h]
  exact testPromotion_changed (s := strikeOff n s) hs he test

end

/-! ### The row -/

/-- Settles O50: a test that is due is struck off, and then goes as the entry's present and following events
stand against the wall count. -/
theorem promotionMovesEvents : Obligations.PromotionMovesEvents := by
  unfold Obligations.PromotionMovesEvents
  rintro s n _ hr rfl
  have row : exec (.promotion n) s = .next (promoteOnce n s) := carried_running hr
  have struck : Running (strikeOff n s) := hr
  refine ⟨fun h => by rw [row, promoteOnce_of_not_due h], fun due => ⟨_, row, promoteOnce_not_due due,
    (promoteOnce_within n s).frame, fun hs => promoteOnce_frame_of_unchanged due (testPromotion_unset hs),
    fun e he hs => ?_⟩⟩
  have unchanged : e.promotionTest s.rating.promotionWall = none → Frame [.promotions] s (promoteOnce n s) :=
    fun h => promoteOnce_frame_of_unchanged due (testPromotion_unchanged he h)
  refine ⟨fun hd => unchanged (promotionTest_declared hd), fun hb => ⟨fun f hf start vacant => ?promoted,
    fun p hp past ahead => ?ended, fun p hp past => unchanged (promotionTest_running hb hp past),
    fun hp ahead => unchanged (promotionTest_no_event hb hp (started_of_ahead ahead))⟩⟩
  case promoted =>
    rw [promoteOnce_changed due hs he (promotionTest_started hb (started_of_le hf start) vacant)]
    exact ⟨replaceEntry_entry .., fun old ho ne =>
      replaceEntry_eventChanged (after := e.promoted f) struck rfl ho ne .byPromotion⟩
  case ended =>
    rw [promoteOnce_changed due hs he (promotionTest_over hb hp past (started_of_ahead ahead))]
    exact ⟨replaceEntry_entry .., fun o ho => replaceEntry_ended struck rfl hp .byPromotion ho⟩

end Sys2Proof.Machine
end

section
/-! PROOF. DECLARE_PLAYBACK and SET_SCHEME (R126, R129, R130, R135, R137): the declared event in the entry of its
key, and the scheme map written. -/

namespace Sys2Proof.Machine

open Sys2Proof

/-! ### The entry of a declared key, made and touched (R125, R126) -/

/-- R123, R126: the entry of a key is the one that was held, or a new one. -/
theorem ensureEntry_cases (k : ServiceKey) (s : State) :
    ∃ f, (ensureEntry k s).2.entry (ensureEntry k s).1 = some f ∧ f.key = k
      ∧ (s.entry (ensureEntry k s).1 = some f
        ∨ (∀ m g, s.entry m = some g → g.key ≠ k) ∧ f = newEntry k s.time.run) := by
  obtain ⟨f, hf, hk⟩ := ensureEntry_entry k s
  refine ⟨f, hf, hk, ?_⟩
  by_cases new : ∀ m g, s.entry m = some g → g.key ≠ k
  · exact .inr ⟨new, Option.some.inj (hf.symm.trans (ensureEntry_of_new new))⟩
  · push Not at new
    obtain ⟨m, g, hg, hgk⟩ := new
    rw [ensureEntry_of_held hg hgk] at hf
    exact .inl hf

/-- The table with the entry of a key made and touched. -/
def keyTouched (k : ServiceKey) (s : State) : State := touch (ensureEntry k s).1 (ensureEntry k s).2

theorem keyTouched_frame (k : ServiceKey) (s : State) : Frame [.entry (ensureEntry k s).1] s (keyTouched k s) :=
  (ensureEntry_within k s).frame.trans (touch_within _ _).frame

theorem keyTouched_context (k : ServiceKey) (s : State) (o : Output) : (keyTouched k s).context o = s.context o :=
  (keyTouched_frame k s).context (by simp) (by simp) (by simp) (by simp) (by simp)

theorem keyTouched_entry {k : ServiceKey} {s : State} {f : Entry}
    (h : (ensureEntry k s).2.entry (ensureEntry k s).1 = some f) :
    (keyTouched k s).entry (ensureEntry k s).1 = some { f with lastTouch := s.time.run } := by
  rw [keyTouched, touch_entry, if_pos rfl, h, ensureEntry_run]
  rfl

/-! ### The declared event (R135) -/

/-- R135 step 3: the declared event begins now, and has no end. -/
def declaredNow (id : Half) (rating : RatingRecord) (t : TimeBase) : Event :=
  ⟨id, if t.source = .unset then 0 else t.day, if t.source = .unset then 0 else t.second, 0, rating⟩

theorem declareEvent_eq {k : ServiceKey} {id : Half} {rating : RatingRecord} {s : State} {e : Entry}
    (h : (keyTouched k s).entry (ensureEntry k s).1 = some e) :
    declareEvent k id rating s = ((ensureEntry k s).1, replaceEntry (ensureEntry k s).1 e
      (e.declare (declaredNow id rating s.time)) .byDeclaration (keyTouched k s)) := by
  unfold keyTouched at h
  have unset : ∀ n : Nat, (if s.time.isSet then n else 0) = if s.time.source = .unset then 0 else n := fun n => by
    simp [TimeBase.isSet]
  simp only [declareEvent, h, unset]
  rfl

/-- An entry held in a slot already had the current event of an id and a rating, which was its last. -/
def HeldAlready (s : State) (n : Fin 64) (k : ServiceKey) (id : Half) (rating : RatingRecord) : Prop :=
  ∃ f h, s.entry n = some f ∧ f.key = k ∧ f.lastId = some id ∧ f.present = .current h ∧ h.rating = rating

/-- R126, R129, R130, R135: an event has been declared in the entry `e` of its key in slot `n`. -/
structure PlaybackTaken (k : ServiceKey) (id : Half) (rating : RatingRecord) (s t : State) (n : Fin 64)
    (e : Entry) : Prop where
  entry : t.entry n = some e
  key : e.key = k
  source : e.source = ServiceKey.source k
  touched : e.lastTouch = s.time.run
  present : e.present = .current (declaredNow id rating s.time)
  following : e.following = none
  lastId : e.lastId = some id
  placed : PlacedAt s k n
  kept : ∀ f, s.entry n = some f → f.key = k → e.version = f.version ∧ e.bindCount = f.bindCount
  created : (∀ m f, s.entry m = some f → f.key ≠ k) → e.version = none ∧ e.bindCount = 0
  judged : ¬ HeldAlready s n k id rating → ∀ o, (t.context o).service = some n → UpToDate t o
  changed : ∀ f old, s.entry n = some f → f.key = k → f.lastId = some old → old ≠ id →
    (0 < f.bindCount → Noted .eventChange n.val t)
      ∧ ∀ o, (s.context o).service = some n → SpentIn endsWithEvent (s.context o).stack (t.context o).stack

theorem declareEvent_taken {s : State} (hr : Running s) (law : RatingLaw s) (k : ServiceKey) (id : Half)
    (rating : RatingRecord) :
    ∃ e, PlaybackTaken k id rating s (declareEvent k id rating s).2 (declareEvent k id rating s).1 e := by
  obtain ⟨f, made, hk, origin⟩ := ensureEntry_cases k s
  have entry := keyTouched_entry made
  have running : Running (keyTouched k s) := (keyTouched_frame k s .systemReset (by simp)).trans hr
  have held : ∀ g, s.entry (ensureEntry k s).1 = some g → g.key = k → g = f := fun g hg hgk => by
    obtain old | ⟨new, -⟩ := origin
    · exact Option.some.inj (hg.symm.trans old)
    · exact absurd hgk (new _ g hg)
  obtain ⟨distinct, counted, -⟩ := law
  rw [declareEvent_eq entry]
  refine ⟨Entry.declare { f with lastTouch := s.time.run } (declaredNow id rating s.time), replaceEntry_entry ..,
    hk, ?source, rfl, rfl, rfl, rfl, ensureEntry_placedAt distinct k, fun g hg hgk => ?kept, fun new => ?created,
    fun differs o ho => ?judged, fun g old hg hgk ho ne => ?changed⟩
  case source =>
    obtain old | ⟨-, rfl⟩ := origin
    · exact (counted _ f old).2.trans (congrArg _ hk)
    · rfl
  case kept =>
    rw [held g hg hgk]
    exact ⟨rfl, rfl⟩
  case created =>
    obtain old | ⟨-, rfl⟩ := origin
    · exact absurd hk (new _ f old)
    · exact ⟨rfl, rfl⟩
  case judged =>
    rw [replaceEntry] at ho ⊢
    rw [carryOut_service] at ho
    refine carryOut_upToDate (s := (keyTouched k s).putEntry _ _) running (fun nothing => differs ?_) ho
    obtain ⟨last, x, current, same⟩ := consequence_current_nothing rfl nothing
    obtain old | ⟨-, rfl⟩ := origin
    · exact ⟨f, x, old, hk, last, current, same⟩
    · cases last
  case changed =>
    obtain rfl := held g hg hgk
    obtain ⟨noted, spent⟩ := replaceEntry_eventChanged (n := (ensureEntry k s).1)
      (before := { g with lastTouch := s.time.run })
      (after := Entry.declare { g with lastTouch := s.time.run } (declaredNow id rating s.time))
      running rfl ho ne .byDeclaration
    refine ⟨noted, fun o hb => ?_⟩
    obtain ⟨stack, -⟩ := spent o (by rw [keyTouched_context]; exact hb)
    rwa [keyTouched_context] at stack

/-- What the owner does to the entry is what the row does. -/
theorem PlaybackTaken.ofOwner {k : ServiceKey} {id : Half} {rating : RatingRecord} {c : Command} {s u t : State}
    {n : Fin 64} {e : Entry} (h : PlaybackTaken k id rating (atOwner c s) u n e) (f : Frame (ringParts s) u t) :
    PlaybackTaken k id rating s t n e := by
  obtain ⟨entry, key, source, touched, present, following, lastId, placed, kept, created, judged, changed⟩ := h
  simp only [HeldAlready, atOwner_context, atOwner_entry, atOwner_time, ← ring_context f, ← ring_entry f]
    at entry touched present kept created judged changed
  exact ⟨entry, key, source, touched, present, following, lastId, atOwner_placedAt placed, kept, created,
    fun differs o ho => ring_upToDate f (judged differs o ho),
    fun g old hg hgk ho ne => ⟨fun bound => ring_noted f ((changed g old hg hgk ho ne).1 bound),
      (changed g old hg hgk ho ne).2⟩⟩

/-! ### The operands of DECLARE_PLAYBACK (R135, R187) -/

theorem classOf_none {cls : Byte} (h : 4 ≤ cls.toNat) (age : Byte) : classOf cls age = none := by
  unfold classOf
  split
  case h_5 => rfl
  all_goals omega

theorem genreOf_none {genre : Byte} (h : 4 ≤ genre.toNat) : genreOf genre = none := dif_neg (Nat.not_lt.2 h)

theorem genreOf_val {genre : Byte} {g : Fin 4} (h : g.val = genre.toNat) : genreOf genre = some g := by
  have lt : genre.toNat < 4 := h ▸ g.isLt
  rw [genreOf, dif_pos lt]
  exact congrArg some (Fin.ext h.symm)

/-- R135: the class that an operand names. -/
def declaredClass (cls age : Byte) : RatingClass :=
  if cls = 0 then .aged (min 21 age.toNat) else if cls = 1 then .unrated
  else if cls = 2 then .unknownScheme else .absent

theorem classOf_eq {cls : Byte} (h : cls.toNat < 4) (age : Byte) :
    classOf cls age = some (declaredClass cls age, decide (cls = 0 ∧ 21 < age.toNat)) := by
  have cases : cls = 0 ∨ cls = 1 ∨ cls = 2 ∨ cls = 3 := by bv_omega
  obtain rfl | rfl | rfl | rfl := cases
  · by_cases clamped : 21 < age.toNat
    · simp [classOf, declaredClass, clamped, Nat.le_of_lt clamped]
    · simp [classOf, declaredClass, clamped, Nat.le_of_not_lt clamped]
  · rfl
  · rfl
  · rfl

/-! ### The row of DECLARE_PLAYBACK -/

section
variable {stream service id : Half} {cls age flags genre : Byte} {s : State}

theorem declarePlayback_badField (hr : RingReady s) (h : 4 ≤ cls.toNat ∨ 4 ≤ genre.toNat) :
    Refuses (.declarePlayback stream service id cls age flags genre) .badField s := by
  refine refuses_of_obey rfl (ready_of_public rfl rfl hr) (by simp)
    (remaining_notMem_commandParts _ (by simp) (by simp) (by simp) (by simp)) ?_
  show obeyDeclarePlayback stream service id cls age flags genre _ = _
  unfold obeyDeclarePlayback
  obtain h | h := h
  · rw [classOf_none h]
  · rw [genreOf_none h]
    cases classOf cls age <;> rfl

theorem declarePlayback_taken (hr : RingReady s) (law : RatingLaw s) {rating : RatingRecord} (hc : cls.toNat < 4)
    (hg : rating.genre.val = genre.toNat) (hf : rating.flags = flags) (hcls : rating.cls = declaredClass cls age) :
    ∃ n e t, Ends (.declarePlayback stream service id cls age flags genre)
        (.done (doneOr (decide (cls = 0 ∧ 21 < age.toNat))) (nat8 n.val)) (.entry n :: consequenceParts) s t
      ∧ PlaybackTaken ⟨0xFFFF, stream, service⟩ id rating s t n e := by
  obtain ⟨e, taken⟩ := declareEvent_taken
    (atOwner_running hr.1 (.declarePlayback stream service id cls age flags genre)) (atOwner_ratingLaw law _)
    ⟨0xFFFF, stream, service⟩ id rating
  have owner : obey s.command.pointer (.declarePlayback stream service id cls age flags genre)
      (atOwner (.declarePlayback stream service id cls age flags genre) s)
      = complete (decide (cls = 0 ∧ 21 < age.toNat))
        (nat8 (declareEvent ⟨0xFFFF, stream, service⟩ id rating
          (atOwner (.declarePlayback stream service id cls age flags genre) s)).1.val)
        (declareEvent ⟨0xFFFF, stream, service⟩ id rating
          (atOwner (.declarePlayback stream service id cls age flags genre) s)).2 := by
    show obeyDeclarePlayback stream service id cls age flags genre _ = _
    rw [obeyDeclarePlayback, classOf_eq hc, genreOf_val hg, ← hcls, ← hf]
  have ready : Ready (.declarePlayback stream service id cls age flags genre) s := ready_of_public rfl rfl hr
  obtain ⟨t, ends, f⟩ := ends_of_obey rfl ready (by simp)
    (remaining_notMem_commandParts _ (by simp) (by simp) (by simp) (by simp)) owner
    (declareEvent_within _ _ _ _).frame
  exact ⟨_, e, t, ends, taken.ofOwner f⟩

end

/-! ### SET_SCHEME (R137) -/

theorem schemeEntryOf_eq (b : Byte) :
    schemeEntryOf b = (if b = 0xFF then none else some (min 21 b.toNat), decide (b ≠ 0xFF ∧ 21 < b.toNat)) := by
  unfold schemeEntryOf
  by_cases unmapped : b = 0xFF
  · simp only [unmapped, if_true, ne_eq, not_true_eq_false, false_and, decide_false]
  · by_cases clamped : 21 < b.toNat
    · simp only [unmapped, clamped, if_true, if_false, ne_eq, not_false_eq_true, and_self, decide_true,
        Nat.min_eq_left (Nat.le_of_lt clamped)]
    · simp only [unmapped, clamped, if_false, and_false, decide_false,
        Nat.min_eq_right (Nat.le_of_not_lt clamped)]

/-- R137: CLAMPED is answered where an age was above 21. -/
theorem anyClamped_eq (ages : Vector Byte 16) :
    ages.toList.any (fun b => (schemeEntryOf b).2)
      = decide (∃ v : Fin 16, ages[v] ≠ 0xFF ∧ 21 < ages[v].toNat) := by
  rw [Bool.eq_iff_iff, List.any_eq_true, decide_eq_true_iff]
  constructor
  · rintro ⟨b, hb, clamped⟩
    obtain ⟨v, hv, rfl⟩ := Vector.mem_iff_getElem.1 (Vector.mem_toList_iff.1 hb)
    rw [schemeEntryOf_eq] at clamped
    exact ⟨⟨v, hv⟩, of_decide_eq_true clamped⟩
  · rintro ⟨v, clamped⟩
    refine ⟨ages[v], Vector.mem_toList_iff.2 (Vector.getElem_mem _), ?_⟩
    rw [schemeEntryOf_eq]
    exact decide_eq_true clamped

theorem writeScheme_schemes (m m' : Fin 8) (map : Vector (Option Nat) 16) (s : State) :
    (writeScheme m map s).rating.schemes[m'] = if m' = m then map else s.rating.schemes[m'] := by
  show (s.rating.schemes.set m map)[m'] = _
  simp only [Fin.getElem_fin, Vector.getElem_set, Fin.ext_iff, eq_comm]

theorem writeScheme_entry (m : Fin 8) (map : Vector (Option Nat) 16) (s : State) (n : Fin 64) :
    (writeScheme m map s).entry n
      = (s.entry n).map (fun e => if e.source = .broadcast then { e with version := none } else e) :=
  forgetVersions_entry _ n

theorem obeySetScheme_badField {scheme : Byte} (h : scheme.toNat = 0 ∨ 8 < scheme.toNat) (ages : Vector Byte 16)
    (s : State) : obeySetScheme scheme ages s = refuse .badField s := dif_neg (by omega)

theorem obeySetScheme_writes {scheme : Byte} {m : Fin 8} (h : m.val + 1 = scheme.toNat) (ages : Vector Byte 16)
    (s : State) :
    obeySetScheme scheme ages s
      = complete (decide (∃ v : Fin 16, ages[v] ≠ 0xFF ∧ 21 < ages[v].toNat)) []
        (writeScheme m (ages.map (fun b => (schemeEntryOf b).1)) s) := by
  have bounds : 1 ≤ scheme.toNat ∧ scheme.toNat ≤ 8 := by omega
  have slot : (⟨scheme.toNat - 1, by omega⟩ : Fin 8) = m := Fin.ext (by simp only; omega)
  rw [obeySetScheme, dif_pos bounds, anyClamped_eq, slot]

section
variable {scheme : Byte} {ages : Vector Byte 16} {s : State}

theorem setScheme_badField (hr : RingReady s) (ha : authority s = true)
    (h : scheme.toNat = 0 ∨ 8 < scheme.toNat) : Refuses (.setScheme scheme ages) .badField s :=
  refuses_of_obey (c := .setScheme scheme ages) rfl ⟨hr, fun _ _ _ => ha⟩ (by simp)
    (remaining_notMem_commandParts _ (by simp) (by simp) (by simp) (by simp)) (obeySetScheme_badField h ages _)

theorem setScheme_writes (hr : RingReady s) (ha : authority s = true) {m : Fin 8} (hm : m.val + 1 = scheme.toNat) :
    ∃ t, Ends (.setScheme scheme ages)
        (.done (doneOr (decide (∃ v : Fin 16, ages[v] ≠ 0xFF ∧ 21 < ages[v].toNat))) [])
        (.schemes :: everyEntry) s t
      ∧ (∀ v : Fin 16, t.rating.schemes[m][v] = if ages[v] = 0xFF then none else some (min 21 ages[v].toNat))
      ∧ (∀ m' : Fin 8, m' ≠ m → t.rating.schemes[m'] = s.rating.schemes[m'])
      ∧ ∀ n, t.entry n = (s.entry n).map
          (fun e => if e.source = .broadcast then { e with version := none } else e) := by
  have ready : Ready (.setScheme scheme ages) s := ⟨hr, fun _ _ _ => ha⟩
  obtain ⟨t, ends, f⟩ := ends_of_obey (c := .setScheme scheme ages) rfl ready (by simp)
    (remaining_notMem_commandParts _ (by simp) (by simp) (by simp) (by simp)) (obeySetScheme_writes hm ages _)
    (writeScheme_within ..).frame
  have schemes := f .schemes (by simp)
  have before := atOwner_frame (.setScheme scheme ages) s .schemes (by simp)
  simp only [Part.same] at schemes before
  refine ⟨t, ends, fun v => ?_, fun m' ne => ?_, fun n => ?_⟩
  · rw [schemes, writeScheme_schemes, if_pos rfl, Fin.getElem_fin, Vector.getElem_map, schemeEntryOf_eq]
    rfl
  · rw [schemes, writeScheme_schemes, if_neg ne, before]
  · rw [ring_entry f, writeScheme_entry, atOwner_entry]

end

/-- Settles O39: the declared event put through its row, and the scheme map written (log 37: an equal declaration
evaluates nothing). -/
theorem playbackIsDeclaredAndSchemeMapsWritten : Obligations.PlaybackIsDeclaredAndSchemeMapsWritten := by
  unfold Obligations.PlaybackIsDeclaredAndSchemeMapsWritten
  refine ⟨?declared, ?scheme⟩
  case declared =>
    rintro _ stream service id cls age flags genre s rfl hr law
    refine ⟨declarePlayback_badField hr, ?_⟩
    rintro _ rating hc hg rfl hf hcls
    obtain ⟨n, e, t, ends, entry, key, source, touched, present, following, lastId, placed, kept, created, judged,
      changed⟩ := declarePlayback_taken hr law hc hg hf hcls
    exact ⟨n, e, t, ends, entry, key, source, touched, present, following, lastId, placed, kept, created, judged,
      changed⟩
  case scheme =>
    rintro _ scheme ages s rfl hr
    exact ⟨refuses_without_authority (c := .setScheme scheme ages) rfl hr (by simp) rfl,
      fun ha => ⟨setScheme_badField hr ha, fun m hm => setScheme_writes hr ha hm⟩⟩

end Sys2Proof.Machine
end

section
/-! PROOF. Local time, curfew windows and the profile day (R146 to R149): what each of them is in numbers. -/

namespace Sys2Proof.Machine

open Sys2Proof

/-! ### Local time and the profile day (R146, R149) -/

theorem TimeBase.localSeconds_eq (t : TimeBase) :
    (t.localSeconds : Int) = max 0 ((t.day : Int) * 86400 + t.second + t.offset * 60) := by
  simp only [TimeBase.localSeconds, TimeBase.wallCount, Config.secondsPerDay]
  omega

/-- R149: before the first day start local time is in profile day 0. -/
theorem TimeBase.computedDay_early {t : TimeBase} (h : t.localSeconds < t.dayStart * 60) : t.computedDay = 0 := by
  rw [TimeBase.computedDay, Nat.sub_eq_zero_of_le h.le, Nat.zero_div]

/-! ### The covering of a window (R147) -/

theorem dayBefore_eq {weekday : Nat} (h : weekday < 7) :
    (weekday + 6) % 7 = if weekday = 0 then 6 else weekday - 1 := by
  split <;> omega

theorem dayAhead_eq {weekday : Nat} (h : weekday < 7) :
    (weekday + 1) % 7 = if weekday = 6 then 0 else weekday + 1 := by
  split <;> omega

section
variable {w : Curfew} {weekday time : Nat}

/-- R147: a window within one day. -/
theorem covers_within_day (h : w.startMinute < w.endMinute) :
    w.covers weekday time = true
      ↔ w.days.getLsbD weekday = true ∧ w.startMinute * 60 ≤ time ∧ time < w.endMinute * 60 := by
  simp only [Curfew.covers, holdsDay, if_pos h, Bool.and_eq_true, decide_eq_true_eq, and_assoc]

/-- R147: a window over midnight, on the day it starts and on the day after. -/
theorem covers_over_midnight (h : w.endMinute < w.startMinute) (hw : weekday < 7) :
    w.covers weekday time = true
      ↔ (w.days.getLsbD weekday = true ∧ w.startMinute * 60 ≤ time)
        ∨ (w.days.getLsbD (if weekday = 0 then 6 else weekday - 1) = true ∧ time < w.endMinute * 60) := by
  simp only [Curfew.covers, holdsDay, if_neg (Nat.lt_asymm h), if_pos h, dayBefore_eq hw, Bool.or_eq_true,
    Bool.and_eq_true, decide_eq_true_eq]

/-- R147: a window that starts when it ends covers nothing. -/
theorem covers_empty (h : w.startMinute = w.endMinute) : w.covers weekday time = false := by
  simp [Curfew.covers, h]

/-- R147: the three ways in which a window covers. -/
theorem covers_iff (hw : weekday < 7) :
    w.covers weekday time = true ↔
      (w.startMinute < w.endMinute ∧ w.days.getLsbD weekday = true
        ∧ w.startMinute * 60 ≤ time ∧ time < w.endMinute * 60)
      ∨ (w.endMinute < w.startMinute ∧ w.days.getLsbD weekday = true ∧ w.startMinute * 60 ≤ time)
      ∨ (w.endMinute < w.startMinute
        ∧ w.days.getLsbD (if weekday = 0 then 6 else weekday - 1) = true ∧ time < w.endMinute * 60) := by
  obtain inside | same | across := Nat.lt_trichotomy w.startMinute w.endMinute
  · simp only [covers_within_day inside, inside, Nat.lt_asymm inside, true_and, false_and, or_false]
  · simp only [covers_empty same, same, lt_irrefl, false_and, or_self, Bool.false_eq_true]
  · simp only [covers_over_midnight across hw, across, Nat.lt_asymm across, true_and, false_and, false_or]

/-! ### The next curfew start (R148) -/

/-- R148: the candidates of a window are today's start where it lies ahead, and tomorrow's. -/
theorem mem_starts (hw : weekday < 7) (n : Nat) :
    n ∈ w.starts weekday time ↔
      (w.days.getLsbD weekday = true ∧ time < w.startMinute * 60 ∧ n = w.startMinute * 60 - time)
      ∨ (w.days.getLsbD (if weekday = 6 then 0 else weekday + 1) = true
        ∧ n = w.startMinute * 60 + 86400 - time) := by
  simp only [Curfew.starts, holdsDay, dayAhead_eq hw, List.mem_append, List.mem_ite_nil_right, Bool.and_eq_true,
    decide_eq_true_eq, List.mem_singleton, and_assoc]

/-- R148: a candidate of a window that starts within the day is ahead, and by less than two days. -/
theorem starts_bounds (hw : weekday < 7) (ht : time < 86400) (legal : w.startMinute ≤ 1439) {n : Nat}
    (h : n ∈ w.starts weekday time) : 1 ≤ n ∧ n ≤ 172799 := by
  obtain ⟨-, ahead, rfl⟩ | ⟨-, rfl⟩ := (mem_starts hw n).1 h <;> omega

end

section
variable {p : Profile} {weekday time : Nat}

theorem nextCurfewStart_none :
    nextCurfewStart p weekday time = none
      ↔ ∀ w n, some w ∈ p.curfews.toList → n ∉ w.starts weekday time := by
  simp only [nextCurfewStart, List.min?_eq_none_iff, List.eq_nil_iff_forall_not_mem, List.mem_flatMap, mem_windows,
    not_exists, not_and]
  exact forall_comm

/-- R148: the next curfew start is the least candidate of the profile's windows. -/
theorem nextCurfewStart_some {least : Nat} :
    nextCurfewStart p weekday time = some least
      ↔ (∃ w, some w ∈ p.curfews.toList ∧ least ∈ w.starts weekday time)
        ∧ ∀ w n, some w ∈ p.curfews.toList → n ∈ w.starts weekday time → least ≤ n := by
  simp only [nextCurfewStart, List.min?_eq_some_iff, List.mem_flatMap, mem_windows]
  exact and_congr_right fun _ => ⟨fun h w n hw hn => h n ⟨w, hw, hn⟩, fun h n ⟨w, hw, hn⟩ => h w n hw hn⟩

end

/-- Settles O60: the numbers of local time, the covering by the order of start and end, and the least of the
candidates. -/
theorem localTimeAndCurfews : Obligations.LocalTimeAndCurfews := by
  unfold Obligations.LocalTimeAndCurfews
  refine ⟨fun t => ⟨t.localSeconds_eq, rfl, rfl, TimeBase.computedDay_early, fun _ => rfl⟩,
    fun _ _ _ hw => covers_iff hw, fun p weekday time candidate hw ht named => ?next⟩
  have starts : ∀ w n, candidate w n ↔ n ∈ w.starts weekday time := fun w n =>
    (named w n).trans (mem_starts hw n).symm
  simp only [starts]
  refine ⟨nextCurfewStart_none.2, fun least held below => nextCurfewStart_some.2 ⟨held, below⟩,
    fun n legal next => ?_⟩
  obtain ⟨⟨w, held, start⟩, -⟩ := nextCurfewStart_some.1 next
  exact starts_bounds hw ht (legal w held) start

end Sys2Proof.Machine
end

section
/-! PROOF. The profile day index at every row (R150): it is lowered by COLD_RESET and FACTORY_CLEAR alone, and no
FACTORY_CLEAR is taken where none waits in a slot or is posted. -/

namespace Sys2Proof.Machine

open Sys2Proof

/-! ### The profile day does not fall (R150) -/

/-- R150: a profile day that was set is set afterward, to no less. -/
def DayHeld (s t : State) : Prop :=
  ∀ p, s.time.profileDay = some p → ∃ q, t.time.profileDay = some q ∧ p ≤ q

theorem DayHeld.of_eq {s t : State} (h : t.time.profileDay = s.time.profileDay) : DayHeld s t := fun p hp =>
  ⟨p, h.trans hp, le_rfl⟩

theorem DayHeld.refl (s : State) : DayHeld s s := .of_eq rfl

theorem DayHeld.trans {s t u : State} (h : DayHeld s t) (k : DayHeld t u) : DayHeld s u := fun p hp => by
  obtain ⟨q, hq, le⟩ := h p hp
  obtain ⟨r, hr, le'⟩ := k q hq
  exact ⟨r, hr, le.trans le'⟩

theorem Within.dayHeld {ps : List Part} {s t : State} (h : Within ps s t)
    (hd : Part.profileDay ∉ ps := by simp) : DayHeld s t := .of_eq (h.frame .profileDay hd)

/-- R150: the comparison takes the greater of the day held and the day computed. -/
theorem compareDay_dayHeld (s : State) : DayHeld s (compareDay s) := fun p hp => by
  rw [compareDay_dayAfter, dayAfter, hp]
  split
  · exact ⟨p, rfl, le_rfl⟩
  · exact ⟨_, rfl, le_max_left ..⟩

/-- R42, R150: the comparison, with the evaluations that follow a setting. -/
theorem evaluatedAfterDay_dayHeld (s : State) : DayHeld s (evaluateSupervised (compareDay s)) :=
  (compareDay_dayHeld s).trans (evaluateSupervised_within _).dayHeld

theorem setWall_dayHeld (day second : Nat) (source : TimeSource) (offset : Int) (s : State) :
    DayHeld s (setWall day second source offset s) := by
  have spent : DayHeld s (wallSpent day second source offset (meetEnds s)) := .of_eq (by
    rw [wallSpent_time, meetEnds_time]
    rfl)
  rw [setWall, replaceWall_eq]
  exact (spent.trans (evaluatedAfterDay_dayHeld _)).trans (noteTimeStep_within _ _).dayHeld

theorem takeBroadcastTime_dayHeld (day second : Nat) (s : State) : DayHeld s (takeBroadcastTime day second s) := by
  unfold takeBroadcastTime
  split
  · exact .refl s
  · exact setWall_dayHeld _ _ _ _ _

theorem replaceOffset_dayHeld (offset : Int) (s : State) : DayHeld s (replaceOffset offset s) := by
  have written : DayHeld s { s with time := { s.time with offset := offset } } := .of_eq rfl
  unfold replaceOffset
  split
  · exact (written.trans (spendReached_within _).dayHeld).trans (evaluatedAfterDay_dayHeld _)
  · exact written.trans (evaluateSupervised_within _).dayHeld

theorem takeOffset_dayHeld (offset : Int) (s : State) : DayHeld s (takeOffset offset s) := by
  unfold takeOffset
  split
  · exact .refl s
  · exact (meetEnds_within s).dayHeld.trans (replaceOffset_dayHeld _ _)

theorem takeDayStart_dayHeld (minute : Nat) (s : State) : DayHeld s (takeDayStart minute s) := by
  have written : DayHeld s (withDayStart minute s) := .of_eq rfl
  by_cases h : (withDayStart minute s).time.advances = true
  · rw [takeDayStart_advances h]
    exact written.trans (evaluatedAfterDay_dayHeld _)
  · rwa [takeDayStart_still h]

/-- R119: of the records of the intake, those of time and offset bring a comparison. -/
theorem applyRecord_dayHeld (r : QueuedRecord) (s : State) : DayHeld s (applyRecord r s) := by
  have bad : DayHeld s (badBody r s) := (raise_within ..).dayHeld
  unfold applyRecord
  split
  · split
    · split
      · exact .refl s
      · exact (takeSection_within _ s).dayHeld
    · exact bad
  · split
    exacts [takeBroadcastTime_dayHeld _ _ _, bad]
  · split
    exacts [takeOffset_dayHeld _ _, bad]
  · exact .refl s

theorem completeParse_dayHeld (s : State) : DayHeld s (completeParse s) := by
  unfold completeParse
  split
  · exact (applyRecord_dayHeld _ s).trans (.of_eq (by rw [dequeue_time]))
  · exact .refl s

/-! ### Commands (R144, R151, R180) -/

theorem notMem_elim {α : Type} {p : Part} {x : Option α} {f : α → List Part} (h : ∀ a, p ∉ f a) :
    p ∉ x.elim [] f := by
  cases x with
  | none => exact List.not_mem_nil
  | some a => exact h a

/-- Three commands are about the profile day. -/
theorem command_of_profileDay {c : Command} (h : Part.profileDay ∈ commandParts c) :
    c = .factoryClear ∨ (∃ day second offset, c = .setTime day second offset) ∨ ∃ m, c = .setDayStart m := by
  cases c with
  | factoryClear => exact .inl rfl
  | setTime => exact .inr (.inl ⟨_, _, _, rfl⟩)
  | setDayStart => exact .inr (.inr ⟨_, rfl⟩)
  | bindService | bindProfile | setProfileLimits | setProfileTime | setCurfew | setProfileState | grantTime
  | pushOverride | popOverride | clearOverrides => exact absurd h (notMem_elim fun _ => by simp)
  | setWindow => exact absurd h (notMem_elim fun _ => notMem_elim fun _ => by simp)
  | setSectionWindow | openPinEntry =>
    simp only [commandParts] at h
    split at h <;> simp at h
  | _ => simp [commandParts] at h

theorem obey_dayHeld {c : Command} (hc : c ≠ .factoryClear) (slot : Fin 16) (s : State) :
    DayHeld s (obey slot c s).1 := by
  by_cases about : Part.profileDay ∈ commandParts c
  · obtain rfl | ⟨day, second, offset, rfl⟩ | ⟨m, rfl⟩ := command_of_profileDay about
    · exact absurd rfl hc
    · show DayHeld s (obeySetTime ..).1
      unfold obeySetTime
      split
      · exact .refl s
      · exact setWall_dayHeld _ _ _ _ _
    · exact takeDayStart_dayHeld _ _
  · exact (obey_within slot c s).dayHeld about

theorem judgeCommand_dayHeld {c : Command} (hc : c ≠ .factoryClear) (slot : Fin 16) (s : State) :
    DayHeld s (judgeCommand slot c s).1 := by
  unfold judgeCommand
  split
  · split
    · exact (slideSession_within s).dayHeld.trans (obey_dayHeld hc _ _)
    · exact .refl s
  · exact obey_dayHeld hc _ _

/-- Section 12.3: the code of FACTORY_CLEAR. -/
theorem decode_factoryClear_iff (record : List Byte) :
    Command.decode record = some .factoryClear ↔ byteAt record 0 = 0x48 := by
  constructor
  · intro h
    unfold Command.decode at h
    split at h <;> cases h
    next code => exact BitVec.eq_of_toNat_eq code
  · intro h
    rw [Command.decode, h]
    rfl

theorem judgeRecord32_dayHeld {record : List Byte} (h : byteAt record 0 ≠ 0x48) (slot : Fin 16) (s : State) :
    DayHeld s (judgeRecord32 slot record s).1 := by
  unfold judgeRecord32
  split
  · exact .refl s
  · next c known =>
    refine judgeCommand_dayHeld (fun clears => h ?_) slot s
    rwa [clears, decode_factoryClear_iff] at known

/-! ### What waits in the slots (R178, R179) -/

/-- No record captured in a slot is a FACTORY_CLEAR. -/
def NoClearWaits (s : State) : Prop := ∀ n record, (s.slot n).captured = some record → byteAt record 0 ≠ 0x48

/-- Where no FACTORY_CLEAR waits, none waits afterward, and the profile day has not fallen. -/
def DayCarried (s t : State) : Prop := NoClearWaits s → NoClearWaits t ∧ DayHeld s t

theorem DayCarried.trans {s t u : State} (h : DayCarried s t) (k : DayCarried t u) : DayCarried s u := fun none => by
  obtain ⟨none', day⟩ := h none
  obtain ⟨none'', day'⟩ := k none'
  exact ⟨none'', day.trans day'⟩

theorem DayCarried.of_posts {s t : State} (posts : PostsStand s t) (day : DayHeld s t) : DayCarried s t := fun none =>
  ⟨fun n record captured => none n record (by rwa [← (posts n).2.2]), day⟩

theorem DayCarried.refl (s : State) : DayCarried s s := .of_posts (.of_slots fun _ => rfl) (.refl s)

theorem DayCarried.foldl {α : Type} {f : State → α → State} (h : ∀ s a, DayCarried s (f s a)) (l : List α)
    (s : State) : DayCarried s (l.foldl f s) := by
  induction l generalizing s with
  | nil => exact .refl s
  | cons a l ih => exact (h s a).trans (ih (f s a))

theorem DayCarried.whileRunning {f : State → State} {s : State} (h : DayCarried s (f s)) :
    DayCarried s (whileRunning f s) := by
  unfold Machine.whileRunning
  split
  · exact .refl s
  · exact h

theorem Within.postsStand {ps : List Part} {s t : State} (h : Within ps s t)
    (hs : ∀ n, Part.slot n ∉ ps := by simp) : PostsStand s t := .of_slots fun n => h.frame (.slot n) (hs n)

theorem Within.dayCarried {ps : List Part} {s t : State} (h : Within ps s t)
    (hd : Part.profileDay ∉ ps := by simp) (hs : ∀ n, Part.slot n ∉ ps := by simp) : DayCarried s t :=
  .of_posts (h.postsStand hs) (h.dayHeld hd)

/-! ### The ring (R178 to R180) -/

theorem takeable_captured {s : State} {record : List Byte} (h : takeable s = some record) :
    (s.slot s.command.pointer).captured = some record := by
  simp only [takeable] at h
  split at h
  · exact h
  · cases h

/-- R179: a take frees its slot, and what it takes is no FACTORY_CLEAR. -/
theorem takeRecord_dayCarried {s : State} {record : List Byte} (h : takeable s = some record) :
    DayCarried s (takeRecord record s) := by
  intro none
  refine ⟨fun n waiting captured => ?_, judgeRecord32_dayHeld (none _ _ (takeable_captured h)) _ (slotTaken s)⟩
  by_cases hn : n = s.command.pointer
  · rw [hn, takeRecord_slot_self] at captured
    cases captured
  · rw [(takeRecord_slot_other record s hn).2.2] at captured
    exact none n waiting captured

theorem takeChain_dayCarried (n : Nat) (s : State) : DayCarried s (takeChain n s) := by
  induction n generalizing s with
  | zero => exact .refl s
  | succ n ih =>
    unfold takeChain
    split
    · next taken => exact (takeRecord_dayCarried taken).trans (ih _)
    · exact .refl s

theorem runRing_dayCarried (s : State) : DayCarried s (runRing s) := takeChain_dayCarried 16 s

theorem capture_dayCarried {record : List Byte} (h : byteAt record 0 ≠ 0x48) (p : Fin 16) (s : State) :
    DayCarried s (capture p record s) := by
  unfold capture
  split
  · refine fun none => ⟨fun n waiting captured => ?_, .of_eq rfl⟩
    by_cases hn : n = p
    · rw [hn, slot_putSlot_self] at captured
      cases captured
      exact h
    · rw [slot_putSlot_ne _ _ hn] at captured
      exact none n waiting captured
  · exact .refl s

theorem copyToShadow_dayCarried (offset : Nat) (bytes : List (Byte × Bool)) (s : State) :
    DayCarried s (copyToShadow offset bytes s) := .of_posts (.of_slots fun _ => rfl) (.of_eq rfl)

theorem hostRecord_noClear {c : Command} (h : c ≠ .factoryClear) (s : State) :
    byteAt (hostRecord c s) 0 ≠ 0x48 := by
  rw [Ne, ← decode_factoryClear_iff, hostRecord_code]
  exact fun clears => h (Option.some.inj clears)

theorem hostPosts_dayCarried {c : Command} (h : c ≠ .factoryClear) (s : State) : DayCarried s (hostPosts c s) :=
  ((copyToShadow_dayCarried _ _ _).trans (capture_dayCarried (hostRecord_noClear h s) _ _)).trans (runRing_dayCarried _)

/-- R178: posts from a shadow in which no posted slot begins with the code of FACTORY_CLEAR. -/
theorem postSlots_dayCarried {ns : List (Fin 16)} {s : State}
    (h : ∀ n ∈ ns, s.command.shadow.read (32 * n.val) ≠ 0x48) :
    DayCarried s (ns.foldl (fun t n => postSlot n t) s) := by
  induction ns generalizing s with
  | nil => exact .refl s
  | cons n ns ih =>
    have code : byteAt (shadowRecord s n) 0 ≠ 0x48 := h n List.mem_cons_self
    have shadow : (postSlot n s).command.shadow = s.command.shadow := postSlot_same (p := .shadow) rfl (by simp) n s
    have post : DayCarried s (postSlot n s) := (capture_dayCarried code n s).trans (runRing_dayCarried _)
    refine post.trans (ih fun m hm => ?_)
    rw [shadow]
    exact h m (List.mem_cons_of_mem _ hm)

/-- R3, R178: the slots that a burst posts begin with the bytes that it writes there. -/
theorem snoopControl_dayCarried {s : State} {start : Nat} {bytes : List (Byte × Bool)} (hl : ShadowLaw s)
    (h : ∀ n, PostsSlot s.inputs start bytes n →
      bytes[s.inputs.commandBase + 32 * n.val - start]? ≠ some (0x48, true)) :
    DayCarried s (snoopControl start bytes s) := by
  cases hq : partWithin s.inputs.commandBase Config.commandWindowSize start bytes with
  | none =>
    rw [snoopControl_outside hq]
    exact .refl s
  | some q =>
    have shadow : (copyToShadow (q.1 - s.inputs.commandBase) q.2 s).command.shadow
        = (snoopControl start bytes s).command.shadow := by
      rw [snoopControl_inside hq, snoopWindow_shadow]
      rfl
    rw [snoopControl_inside hq]
    refine (copyToShadow_dayCarried _ _ _).trans (postSlots_dayCarried fun n posted => ?_)
    have posts := postsSlot_of_coversHeader hq (List.mem_filter.1 posted).2
    have unlike := h n posts
    obtain ⟨low, header⟩ := posts
    obtain ⟨b, written⟩ := header 0 (by decide)
    rw [Nat.add_zero] at written
    rw [shadow, snoopControl_read hl, if_pos ⟨by simp only [Config.commandWindowSize]; omega, low⟩, written]
    rintro rfl
    exact unlike written

/-! ### The panel line and the completions (R82, R84, R154 to R168) -/

theorem finishResult_postsStand (i : Fin 16) (outcome : CommandOutcome) (data : List Byte) (s : State) :
    PostsStand s (s.finishResult i outcome data) := fun n => by
  rw [finishResult_slot]
  exact ⟨rfl, rfl, rfl⟩

/-- R168: the end of a PIN entry answers its slot. -/
theorem keysReleased_postsStand (s : State) : PostsStand s (keysReleased s) := by
  unfold keysReleased
  split
  · have left : ∀ matcher, PostsStand s (leaveEntry matcher s) := fun _ => .of_slots fun _ => rfl
    exact ((left _).trans (finishResult_postsStand _ _ _ _)).trans (raise_within _ _ _ _).postsStand
  · exact .of_slots fun _ => rfl

theorem handOutcome_postsStand (m : Message) (e : MessageEnd) (s : State) : PostsStand s (handOutcome m e s) := by
  have silent : ∀ cause, PostsStand s (notePanelSilent m cause s) := fun cause =>
    (notePanelSilent_within m cause s).postsStand
  have failed : ∀ t, PostsStand t (lampFailed t) := fun t => (lampFailed_within t).postsStand
  unfold handOutcome
  split
  · exact (keysRouted_within s).postsStand
  · exact (routingFailed_within _ s (by simp)).postsStand
  · exact (routingFailed_within _ s (by simp)).postsStand
  · exact keysReleased_postsStand s
  · exact (silent 1).trans (keysReleased_postsStand _)
  · exact (silent 0).trans (keysReleased_postsStand _)
  · exact .of_slots fun _ => rfl
  · exact (silent 1).trans (failed _)
  · exact (silent 0).trans (failed _)

theorem endMessage_postsStand (m : Message) (e : MessageEnd) (s : State) : PostsStand s (endMessage m e s) :=
  (PostsStand.of_slots fun _ => rfl).trans
    (handOutcome_postsStand m e (s.putPanel { s.panel with transmitter := .idle, outstanding := none }))

theorem waitRunsOut_postsStand (s : State) : PostsStand s (waitRunsOut s) := by
  unfold waitRunsOut
  split
  · exact endMessage_postsStand _ _ s
  · exact .of_slots fun _ => rfl

theorem takeAnswer_postsStand (a : Answer) (echo : Byte) (s : State) : PostsStand s (takeAnswer a echo s) := by
  unfold takeAnswer
  split
  · split
    · cases a with
      | acknowledgement => exact endMessage_postsStand _ .succeeded s
      | refusal => exact endMessage_postsStand _ .refused s
    · exact .of_slots fun _ => rfl
  · exact .of_slots fun _ => rfl

theorem takeOwnByte_postsStand (b : Byte) (s : State) : PostsStand s (takeOwnByte b s) := by
  unfold takeOwnByte
  split_ifs
  · exact (takeLock_within s).postsStand
  · exact (listener_within s).postsStand
  · exact (listener_within s).postsStand
  · exact (offerKey_within _ _ s).postsStand
  · exact .of_slots fun _ => rfl

/-- R157: of the data frames only an answer can end a PIN entry. -/
theorem takeDataFrame_postsStand (f : ReceivedFrame) (s : State) : PostsStand s (takeDataFrame f s) := by
  have noise : ∀ t, PostsStand t (noteNoise f t) := fun t => (noteNoise_within f t).postsStand
  unfold takeDataFrame
  split
  · exact .of_slots fun _ => rfl
  · exact .of_slots fun _ => rfl
  · unfold takeOwnFrame
    split
    · have heard : PostsStand s (s.putPanel { s.panel with awaited := none }) := .of_slots fun _ => rfl
      simp only
      split
      · exact heard.trans (noise _)
      · exact heard.trans (takeAnswer_postsStand _ _ _)
    · split
      · exact (noise s).trans (offerKey_within _ _ _).postsStand
      · exact takeOwnByte_postsStand _ s
  · unfold takeAllFrame
    split_ifs
    · exact noise s
    · exact (takeLock_within s).postsStand
    · exact .of_slots fun _ => rfl

theorem receiveFrame_postsStand (w : WireFrame) (s : State) : PostsStand s (receiveFrame w s) := by
  unfold receiveFrame
  split
  · exact .of_slots fun _ => rfl
  · split_ifs
    · exact .of_slots fun _ => rfl
    · exact (listener_within s).postsStand.trans (noteNoise_within _ _).postsStand
    · exact takeDataFrame_postsStand _ s

theorem frameArrives_dayCarried (w : WireFrame) (s : State) : DayCarried s (frameArrives w s) :=
  (DayCarried.of_posts (receiveFrame_postsStand w s) (receiveFrame_within w s).dayHeld).trans (runRing_dayCarried _)

theorem waitEnds_dayCarried (s : State) : DayCarried s (waitEnds s) :=
  (DayCarried.of_posts (waitRunsOut_postsStand s) (waitRunsOut_within s).dayHeld).trans (runRing_dayCarried _)

theorem exportCompletes_dayCarried (s : State) : DayCarried s (exportCompletes s) := by
  unfold exportCompletes
  split
  · refine DayCarried.trans (.of_posts ?_ (completeExport_within _ _ _ s).dayHeld) (runRing_dayCarried _)
    rw [completeExport_eq]
    exact (PostsStand.of_slots fun _ => rfl).trans (finishResult_postsStand _ _ _ _)
  · exact .refl s

theorem completeImport_postsStand (target : Fin 8) (slot : Fin 16) (image : List Byte) (s : State) :
    PostsStand s (completeImport target slot image s) := by
  cases read : readImage s.inputs.salt image with
  | none =>
    rw [completeImport_bad read]
    exact (imageIdle_within s).postsStand.trans (finishResult_postsStand _ _ _ _)
  | some p =>
    rw [completeImport_read read]
    exact ((installImage_within target p (readImage_ok read).1 s).postsStand.trans
      (imageIdle_within _).postsStand).trans (finishResult_postsStand _ _ _ _)

theorem importCompletes_dayCarried (s : State) : DayCarried s (importCompletes s) := by
  unfold importCompletes
  split
  · exact (DayCarried.of_posts (completeImport_postsStand _ _ _ s) (completeImport_within _ _ _ s).dayHeld).trans
      (runRing_dayCarried _)
  · exact .refl s

/-! ### The second event and the resets (R23, R139) -/

theorem doWork_dayCarried (w : SecondWork) (s : State) : DayCarried s (doWork w s) := by
  refine .of_posts (.of_slots fun n => doWork_frame w s (.slot n) (by simp)) ?_
  by_cases compares : w = .dayComparison
  · subst compares
    exact compareDay_dayHeld s
  · exact .of_eq (by rw [doWork_time compares])

theorem secondEvent_dayCarried (order : List SecondWork) (s : State) : DayCarried s (secondEvent order s) := by
  have works : ∀ ws t, DayCarried t (doAll ws t) := .foldl fun t w => doWork_dayCarried w t
  have promotions : ∀ (ns : List (Fin 64)) t, DayCarried t (ns.foldl (fun t n => promoteOnce n t) t) :=
    .foldl fun t n => doWork_dayCarried (.promotion n) t
  exact ((promotions _ s).trans (works lateWork _)).trans ((tick_within _).dayCarried.trans (works _ _))

theorem completeParse_dayCarried (s : State) : DayCarried s (completeParse s) :=
  .of_posts (completeParse_within s).postsStand (completeParse_dayHeld s)

/-- R23: a warm reset empties the slots and keeps the time base. -/
theorem warmReset_dayCarried (s : State) : DayCarried s (warmReset s) := fun _ => by
  refine ⟨fun n record captured => ?_, .of_eq rfl⟩
  have empty : ((warmReset s).slot n).captured = none := by
    simp [warmReset, State.slot, CommandUnit.cold, CommandSlot.cold]
  rw [empty] at captured
  cases captured

theorem releaseReset_dayCarried (s : State) : DayCarried s (releaseReset s) := by
  have freed : DayCarried s { s with systemReset := false } := .of_posts (.of_slots fun _ => rfl) (.of_eq rfl)
  unfold releaseReset
  split
  · exact freed.trans (evaluateAll_within _).dayCarried
  · exact .refl s

theorem arriveHeld_dayCarried (lane : HoldingLane) (s : State) : DayCarried s (arriveHeld lane s) := by
  cases lane with
  | presentation => exact (arrivePresentation_within s).dayCarried
  | control => exact (arriveControl_within s).dayCarried

/-! ### The rows -/

theorem exec_event_dayCarried {i : Instr} {s t : State} (hi : ((commandOf i).isSome || laneTransfer i) = false)
    (cold : i ≠ .coldReset) (h : exec i s = .next t) : DayCarried s t := by
  cases i with
  | coldReset => exact absurd rfl cold
  | heldRequestArrival lane => cases h; exact .whileRunning (arriveHeld_dayCarried lane s)
  | warmReset => cases h; exact warmReset_dayCarried s
  | warmResetRelease => cases h; exact releaseReset_dayCarried s
  | secondEvent order => cases h; exact secondEvent_dayCarried order s
  | parseCompletion => cases h; exact .whileRunning (completeParse_dayCarried s)
  | promotion n => cases h; exact .whileRunning (doWork_dayCarried (.promotion n) s)
  | untilTimeExpiry o => cases h; exact .whileRunning (doWork_dayCarried (.untilTimeExpiry o) s)
  | pendingLimitExpiry o => cases h; exact .whileRunning (doWork_dayCarried (.pendingLimitExpiry o) s)
  | sessionExpiry => cases h; exact .whileRunning (doWork_dayCarried .sessionExpiry s)
  | lockoutExpiry => cases h; exact doWork_dayCarried .lockoutExpiry s
  | wholeEntryLimit => cases h; exact .whileRunning (doWork_dayCarried .wholeEntryLimit s)
  | interKeyLimit => cases h; exact .whileRunning (doWork_dayCarried .interKeyLimit s)
  | exportCompletion => cases h; exact .whileRunning (exportCompletes_dayCarried s)
  | importCompletion => cases h; exact .whileRunning (importCompletes_dayCarried s)
  | addressFrame w | keyFrame w | panelAnswer w | lock w | dataFrameDropped w | answerAwaitingEcho w =>
    cases h; exact .whileRunning (frameArrives_dayCarried w s)
  | lineBreak => cases h; exact .whileRunning (takeBreak_within s).dayCarried
  | faultRecovery => cases h; exact .whileRunning (recoverFault_within s).dayCarried
  | transmitStart => cases h; exact .whileRunning (startMessage_within s).dayCarried
  | messageSent => cases h; exact .whileRunning (messageSent_within s).dayCarried
  | acknowledgementTimeout => cases h; exact .whileRunning (waitEnds_dayCarried s)
  | keyTaken => cases h; exact .whileRunning (takeKey_within s).dayCarried
  | _ => cases hi

/-- R1: of the transfers on the lanes only a control write reaches the ring. -/
theorem exec_transfer_dayCarried {i : Instr} {s t : State} (hl : laneTransfer i = true)
    (write : ∀ start bytes, i = .controlWriteBurst start bytes → DayCarried s t) (h : exec i s = .next t) :
    DayCarried s t := by
  have put : ∀ x u, DayCarried u (u.putOut x) := fun x u => (putOut_within x u).dayCarried
  cases i with
  | controlWriteBurst start bytes => exact write start bytes rfl
  | streamWriteBurst start bytes =>
    obtain ⟨-, rfl⟩ := ifBurst_next h
    exact .whileRunning ((put _ s).trans (snoopStream_within _ _ _).dayCarried)
  | streamReadBurst tag start status data =>
    obtain ⟨-, rfl⟩ := ifBurst_next h
    exact .whileRunning ((put _ s).trans (put _ _))
  | controlReadRequest tag start count =>
    obtain ⟨-, rfl⟩ := ifBurst_next h
    exact .whileRunning (presentControl_within _ _).dayCarried
  | controlReadResponse mark tag status data =>
    obtain ⟨-, rfl⟩ := ifBurst_next h
    exact .whileRunning (takeControlResponse_within _ _ _ _ _).dayCarried
  | noticePortRead mark data | summaryRead mark data =>
    obtain ⟨-, rfl⟩ := ifBurst_next h
    exact .whileRunning (takeMarkedResponse_within _ _ _ _).dayCarried
  | presentationReadRequest tag start count =>
    obtain ⟨-, rfl⟩ := ifBurst_next h
    exact .whileRunning (presentPresentation_within _ _).dayCarried
  | presentationWriteBurst start bytes =>
    obtain ⟨-, rfl⟩ := ifBurst_next h
    exact .whileRunning (put _ s)
  | presentationResponse tag status data =>
    obtain ⟨-, rfl⟩ := ifBurst_next h
    exact .whileRunning (takePresentationResponse_within _ _ _ _).dayCarried
  | _ => cases hl

theorem exec_controlWrite_dayCarried {s t : State} {start : Word} {bytes : List (Byte × Bool)} (hl : ShadowLaw s)
    (h : ∀ n, PostsSlot s.inputs start.toNat bytes n →
      bytes[s.inputs.commandBase + 32 * n.val - start.toNat]? ≠ some (0x48, true))
    (row : exec (.controlWriteBurst start bytes) s = .next t) : DayCarried s t := by
  obtain ⟨-, rfl⟩ := ifBurst_next row
  exact .whileRunning ((putOut_within _ s).dayCarried.trans (snoopControl_dayCarried (s := s.putOut _) hl h))

/-- The row of FACTORY_CLEAR is the only one that posts it. -/
theorem eq_factoryClear_of_commandOf {i : Instr} (h : commandOf i = some .factoryClear) : i = .factoryClear := by
  cases i <;> cases h
  rfl

/-- Settles O11: no row but COLD_RESET lowers the day itself, and no FACTORY_CLEAR is taken. -/
theorem profileDayDoesNotFall : Obligations.ProfileDayDoesNotFall := by
  unfold Obligations.ProfileDayDoesNotFall
  intro i s t p shadow cold clear waits posts row
  suffices carried : DayCarried s t from (carried waits).2 p
  cases hc : commandOf i with
  | some c =>
    rw [exec_host hc] at row
    cases row
    exact .whileRunning (hostPosts_dayCarried (fun clears => clear (eq_factoryClear_of_commandOf (clears ▸ hc))) s)
  | none =>
    cases hl : laneTransfer i with
    | false => exact exec_event_dayCarried (by simp [hc, hl]) cold row
    | true =>
      refine exec_transfer_dayCarried hl (fun start bytes burst => ?_) row
      rw [burst] at row
      exact exec_controlWrite_dayCarried shadow (posts start bytes burst) row

end Sys2Proof.Machine
end

section
/-! PROOF. The laws of the panel link, of the PIN authority and of the report unit at every step. -/

namespace Sys2Proof.Machine

open Sys2Proof

/-- Settles O10: the three laws are laws of one block, which every step keeps. -/
theorem stepKeepsPanelPinAndReport : Obligations.StepKeepsPanelPinAndReport :=
  fun _ _ h => ⟨step_keeps h .panel, step_keeps h .pin, step_keeps h .report⟩

end Sys2Proof.Machine
end

section
/-! PROOF. The raising of a notice (R184, R186): what the report unit does with it in each of the four cases, and the
attention line afterward. -/

namespace Sys2Proof.Machine

open Sys2Proof

/-! ### The notice of a kind and subject -/

theorem isFor_iff (n : Notice) (k : NoticeKind) (subj : Word) :
    n.isFor k subj = true ↔ n.kind = k ∧ n.subject = subj := decide_eq_true_iff

theorem any_isFor_iff (q : List Notice) (k : NoticeKind) (subj : Word) :
    q.any (·.isFor k subj) = true ↔ ∃ n ∈ q, n.kind = k ∧ n.subject = subj := by
  simp only [List.any_eq_true, isFor_iff]

/-- R184: coalescing leaves a run of other notices as it stands. -/
theorem coalesce_others {q : List Notice} {k : NoticeKind} {subj : Word}
    (h : ∀ n ∈ q, ¬ (n.kind = k ∧ n.subject = subj)) (d : List Byte) :
    q.map (fun n => if n.isFor k subj then n.coalesced d else n) = q := by
  refine (List.map_congr_left fun n hn => ?_).trans (List.map_id q)
  rw [if_neg (mt (isFor_iff n k subj).1 (h n hn)), id]

/-- R184: coalescing changes the one notice of the kind and subject in its place. -/
theorem coalesce_one {before after : List Notice} {n : Notice} {k : NoticeKind} {subj : Word}
    (hn : n.kind = k ∧ n.subject = subj) (h : ∀ m ∈ before ++ after, ¬ (m.kind = k ∧ m.subject = subj))
    (d : List Byte) :
    (before ++ n :: after).map (fun n => if n.isFor k subj then n.coalesced d else n)
      = before ++ n.coalesced d :: after := by
  rw [List.map_append, List.map_cons, if_pos ((isFor_iff n k subj).2 hn),
    coalesce_others (fun m hm => h m (List.mem_append_left _ hm)),
    coalesce_others (fun m hm => h m (List.mem_append_right _ hm))]

/-! ### The attention line (R186) -/

theorem asserted_iff (r : ReportUnit) :
    r.asserted = true ↔ r.level ≤ r.queue.length ∨ ∃ n ∈ r.queue, r.urgent ≤ noticeClass n.kind := by
  simp only [ReportUnit.asserted, Bool.or_eq_true, List.any_eq_true, decide_eq_true_eq]

/-! ### The four cases of a raising (R184) -/

section
variable {r : ReportUnit} {k : NoticeKind} {subj : Word} {d : List Byte} {run : Nat}

theorem raised_masked (h : hasKind r.masks k = true) :
    r.raised k subj d run = { r with sticky := r.sticky ||| kindBit k } := if_pos h

variable (shown : hasKind r.masks k = false)
include shown

theorem raised_coalesced (queued : ∃ n ∈ r.queue, n.kind = k ∧ n.subject = subj) :
    r.raised k subj d run = ReportUnit.judged
      { r with queue := r.queue.map (fun n => if n.isFor k subj then n.coalesced d else n) } := by
  rw [ReportUnit.raised, if_neg (by simp [shown]), if_pos ((any_isFor_iff ..).2 queued)]

/-- R184: the notice coalesced into keeps its place and its stamp. -/
theorem raised_coalesced_one {before after : List Notice} {n : Notice} (hq : r.queue = before ++ n :: after)
    (hn : n.kind = k ∧ n.subject = subj) (others : ∀ m ∈ before ++ after, ¬ (m.kind = k ∧ m.subject = subj)) :
    r.raised k subj d run = ReportUnit.judged
      { r with queue := before ++ ⟨k, subj, d, n.stamp, min 255 (n.count + 1)⟩ :: after } := by
  rw [raised_coalesced shown ⟨n, by simp [hq], hn⟩, hq, coalesce_one hn others, ← hn.1, ← hn.2]
  rfl

variable (unqueued : ¬ ∃ n ∈ r.queue, n.kind = k ∧ n.subject = subj)
include unqueued

theorem raised_queued (room : r.queue.length < 32) :
    r.raised k subj d run = ReportUnit.judged { r with queue := r.queue ++ [⟨k, subj, d, run, 1⟩] } := by
  rw [ReportUnit.raised, if_neg (by simp [shown]), if_neg (mt (any_isFor_iff ..).1 unqueued), if_pos room]

theorem raised_lost (full : 32 ≤ r.queue.length) : r.raised k subj d run = { r with lost := true } := by
  rw [ReportUnit.raised, if_neg (by simp [shown]), if_neg (mt (any_isFor_iff ..).1 unqueued),
    if_neg (Nat.not_lt.2 full)]

omit unqueued in
/-- R186: the line is judged at a coalescing and at a queuing. -/
theorem raised_attention (h : (∃ n ∈ r.queue, n.kind = k ∧ n.subject = subj) ∨ r.queue.length < 32) :
    (r.raised k subj d run).attention = (r.raised k subj d run).asserted := by
  by_cases queued : ∃ n ∈ r.queue, n.kind = k ∧ n.subject = subj
  · rw [raised_coalesced shown queued]
    rfl
  · rw [raised_queued shown queued (h.resolve_left queued)]
    rfl

end

/-! ### Breaks (R155) -/

theorem takeBreak_of_listening {s : State} (h : s.panel.listener ≠ .fault) :
    takeBreak s = raise .panelBreak 0 [] (s.putPanel { s.panel with listener := .fault, awaited := none }) :=
  if_neg h

/-- Settles O45: the report unit takes a notice as one of the four cases says; the reset input loses it. -/
theorem noticesAreRaised : Obligations.NoticesAreRaised := by
  unfold Obligations.NoticesAreRaised
  rintro kind subject detail s t rfl
  refine ⟨fun reset => if_pos reset, fun hr => ⟨raise_frame _ _ _ _, ?_⟩⟩
  rw [raise_running hr]
  refine ⟨fun masked => raised_masked masked, fun shown => ⟨fun before n after queue hk hs others => ?coalesced,
    fun unqueued => ?unqueued, fun judged => ?line⟩, fun listens => ?broken⟩
  case coalesced => exact ⟨_, raised_coalesced_one shown queue ⟨hk, hs⟩ others⟩
  case unqueued =>
    have absent : ¬ ∃ n ∈ s.report.queue, n.kind = kind ∧ n.subject = BitVec.ofNat 32 subject :=
      fun ⟨n, hn, named⟩ => unqueued n hn named
    exact ⟨fun room => ⟨_, raised_queued shown absent room⟩, fun full => raised_lost shown absent full⟩
  case line =>
    rw [raised_attention shown judged]
    exact asserted_iff _
  case broken =>
    rw [← State.putPanel, ← takeBreak_of_listening listens]
    exact carried_running hr

end Sys2Proof.Machine
end

section
/-! PROOF. The panel frame (R153, R154): the bits a sender shapes, and what a receiver decides from the samples. -/

namespace Sys2Proof.Machine

open Sys2Proof

/-! ### Bits and ones -/

/-- The number whose bits a list gives, the least significant first. -/
theorem testBit_foldr_bit (l : List Bool) (i : Nat) : (l.foldr Nat.bit 0).testBit i = l[i]?.getD false := by
  induction l generalizing i with
  | nil => simp
  | cons b l ih =>
    cases i with
    | zero => simp
    | succ i => simp [Nat.testBit_bit_succ, ih]

/-- Ones are odd in number exactly where the bits' exclusive or is set. -/
theorem odd_ones_iff (l : List Bool) : l.count true % 2 = 1 ↔ l.foldr xor false = true := by
  induction l with
  | nil => simp
  | cons b l ih =>
    cases b with
    | false => simpa using ih
    | true =>
      simp only [List.count_cons_self, List.foldr_cons, Bool.true_xor, Bool.not_eq_true', ← Bool.not_eq_true, ← ih]
      omega

/-- The exclusive or of a list of bits, put after it, makes the ones even in number. -/
theorem even_ones_concat (l : List Bool) : (l ++ [l.foldr xor false]).count true % 2 = 0 := by
  have odd := odd_ones_iff l
  rw [List.count_append]
  cases h : l.foldr xor false with
  | false =>
    rw [h] at odd
    simp only [Bool.false_eq_true, iff_false] at odd
    simpa using odd
  | true =>
    have ones := odd.2 h
    simp only [List.count_singleton_self]
    omega

/-! ### What samples decide (R154) -/

theorem samples_value_iff (b : Samples) :
    b.value = true ↔ (b.first = true ∧ b.second = true) ∨ (b.first = true ∧ b.third = true)
      ∨ (b.second = true ∧ b.third = true) := by
  simp only [Samples.value, Bool.or_eq_true, Bool.and_eq_true, or_assoc]

theorem samples_unequal_iff (b : Samples) :
    b.unequal = true ↔ ¬ (b.first = b.second ∧ b.second = b.third) := by
  simp only [Samples.unequal, Bool.or_eq_true, bne_iff_ne, ne_eq, not_and_or]

@[simp] theorem clean_value (b : Bool) : (Samples.clean b).value = b := by simp [Samples.clean, Samples.value]

@[simp] theorem clean_unequal (b : Bool) : (Samples.clean b).unequal = false := by
  simp [Samples.clean, Samples.unequal]

section
variable (w : WireFrame)

/-- R153: the data bits are those decided, the least significant first. -/
theorem wireData_bits {i : Nat} (h : i < 8) :
    ([w.d0, w.d1, w.d2, w.d3, w.d4, w.d5, w.d6, w.d7].map Samples.value)[i]? = some (w.data.getLsbD i) := by
  have data : w.data = BitVec.ofNat 8
      (([w.d0, w.d1, w.d2, w.d3, w.d4, w.d5, w.d6, w.d7].map Samples.value).foldr Nat.bit 0) := by
    refine congrArg (BitVec.ofNat 8) ?_
    simp only [List.map_cons, List.map_nil, List.foldr_cons, List.foldr_nil, Nat.bit_val]
    omega
  rw [data, BitVec.getLsbD_ofNat, testBit_foldr_bit, decide_eq_true h, Bool.true_and]
  rw [List.getElem?_eq_getElem (by exact h), Option.getD_some]

theorem wireNoisy_iff :
    w.noisy = true ↔ ∃ b ∈ [w.start, w.d0, w.d1, w.d2, w.d3, w.d4, w.d5, w.d6, w.d7, w.addressFlag, w.parity,
        w.stop], ¬ (b.first = b.second ∧ b.second = b.third) := by
  simp only [← samples_unequal_iff, WireFrame.noisy, Bool.or_eq_true, List.mem_cons, List.not_mem_nil, or_false,
    exists_eq_or_imp, exists_eq_left, or_assoc]

theorem wireOdd_iff :
    w.odd = true ↔ (([w.d0, w.d1, w.d2, w.d3, w.d4, w.d5, w.d6, w.d7, w.addressFlag, w.parity].map
      Samples.value).count true) % 2 = 1 := by
  rw [odd_ones_iff]
  simp only [WireFrame.odd, List.map_cons, List.map_nil, List.foldr_cons, List.foldr_nil, Bool.xor_false,
    Bool.xor_assoc]

end

/-! ### A frame as it is sent (R153) -/

theorem lineFrame_toList (value : Byte) (address : Bool) :
    (lineFrame value address).toList
      = false :: ([value.getLsbD 0, value.getLsbD 1, value.getLsbD 2, value.getLsbD 3, value.getLsbD 4,
        value.getLsbD 5, value.getLsbD 6, value.getLsbD 7, address, parityBit value address] ++ [true]) := rfl

/-- R153: the parity bit makes the ones even in number. -/
theorem parityBit_even (value : Byte) (address : Bool) :
    [value.getLsbD 0, value.getLsbD 1, value.getLsbD 2, value.getLsbD 3, value.getLsbD 4, value.getLsbD 5,
      value.getLsbD 6, value.getLsbD 7, address, parityBit value address].count true % 2 = 0 := by
  have parity : parityBit value address = [value.getLsbD 0, value.getLsbD 1, value.getLsbD 2, value.getLsbD 3,
      value.getLsbD 4, value.getLsbD 5, value.getLsbD 6, value.getLsbD 7, address].foldr xor false := by
    simp only [parityBit, List.foldr_cons, List.foldr_nil, Bool.xor_false, Bool.xor_assoc]
  rw [parity]
  exact even_ones_concat [_, _, _, _, _, _, _, _, _]

/-- R154: without noise every bit is decided as it was sent. -/
theorem sampled_data (value : Byte) (address : Bool) : (lineFrame value address).sampled.data = value := by
  refine BitVec.eq_of_getLsbD_eq fun i hi => Option.some.inj ?_
  rw [← wireData_bits _ hi]
  interval_cases i
  all_goals simp [LineFrame.sampled, lineFrame]

theorem sampled_odd (value : Byte) (address : Bool) : (lineFrame value address).sampled.odd = false := by
  rw [← Bool.not_eq_true, wireOdd_iff]
  have even := parityBit_even value address
  simp only [LineFrame.sampled, List.map_cons, List.map_nil, clean_value]
  exact fun odd => absurd (even.symm.trans odd) (by decide)

theorem sampled_received (value : Byte) (address : Bool) :
    (lineFrame value address).sampled.received = some ⟨value, address, ⟨false, false, false⟩⟩ := by
  have start : (lineFrame value address).sampled.start.value = false := clean_value false
  have stop : (lineFrame value address).sampled.stop.value = true := clean_value true
  have flag : (lineFrame value address).sampled.addressFlag.value = address := clean_value address
  have noisy : (lineFrame value address).sampled.noisy = false := by simp [WireFrame.noisy, LineFrame.sampled]
  rw [WireFrame.received, start, sampled_data, sampled_odd, stop, flag, noisy]
  rfl

/-- Settles O52: a frame's bits, read off as a list, and what the receiver decides from each bit's samples. -/
theorem framesAreReceivedAsSent : Obligations.FramesAreReceivedAsSent := by
  unfold Obligations.FramesAreReceivedAsSent
  refine ⟨?sent, sampled_received, samples_value_iff, fun w => ⟨fun high => if_pos high, fun low => ?decided⟩⟩
  case sent =>
    rintro value address bits rfl
    rw [lineFrame_toList]
    refine ⟨rfl, rfl, fun i hi => ?_, rfl, parityBit_even value address, rfl⟩
    interval_cases i
    all_goals rfl
  case decided =>
    refine ⟨⟨w.data, w.addressFlag.value, ⟨w.odd, !w.stop.value, w.noisy⟩⟩, if_neg (by simp [low]), rfl,
      fun i hi => wireData_bits w hi, ?_, wireNoisy_iff w, wireOdd_iff w⟩
    simp only [Bool.not_eq_true']

end Sys2Proof.Machine
end

section
/-! PROOF. Received frames (R155 to R159, R175): what the listener state makes of each frame, the key FIFO, LOCK, and
the breaks of the line. -/

namespace Sys2Proof.Machine

open Sys2Proof

/-! ### From the frame to its row (R179, log 30) -/

/-- R179: a frame posts no slot, so that where no command waits at the pointer none is taken. -/
theorem frameArrives_quiet {s : State} (h : Quiet s) (w : WireFrame) : frameArrives w s = receiveFrame w s := by
  have pointer : (receiveFrame w s).command.pointer = s.command.pointer :=
    (receiveFrame_within w s).frame .pointer (by simp)
  obtain ⟨-, state, -⟩ := receiveFrame_postsStand w s s.command.pointer
  exact runRing_quiet (by rw [pointer, state]; exact h.2)

section
variable {s : State} {w : WireFrame} {f : ReceivedFrame} (quiet : Quiet s) (hw : w.received = some f)
include quiet

theorem frame_row : carried (whileRunning (frameArrives w) s) = .next (receiveFrame w s) := by
  rw [← frameArrives_quiet quiet]
  exact carried_running quiet.1

include hw

theorem addressFrame_row (ha : f.address = true) (listens : s.panel.listener ≠ .fault) :
    carried (whileRunning (frameArrives w) s) = .next (takeAddressFrame f s) := by
  rw [frame_row quiet, receiveFrame, hw]
  simp only [if_neg listens, ha, if_true]

/-- R156: in FAULT a data frame is taken as little as an address frame is. -/
theorem dataFrame_row (ha : f.address = false) :
    carried (whileRunning (frameArrives w) s) = .next (takeDataFrame f s) := by
  rw [frame_row quiet, receiveFrame, hw]
  simp only [ha, Bool.false_eq_true, if_false]
  split
  · next fault => rw [takeDataFrame, fault]
  · rfl

theorem ownFrame_row (ha : f.address = false) (own : s.panel.listener = .attendingOwn) :
    carried (whileRunning (frameArrives w) s) = .next (takeOwnFrame f s) := by
  rw [dataFrame_row quiet hw ha, takeDataFrame, own]

theorem allFrame_row (ha : f.address = false) (all : s.panel.listener = .attendingAll) :
    carried (whileRunning (frameArrives w) s) = .next (takeAllFrame f s) := by
  rw [dataFrame_row quiet hw ha, takeDataFrame, all]

end

/-! ### The noise of a flagged frame (R156) -/

section
variable {f : ReceivedFrame}

theorem noteNoise_clean (h : f.flags.any = false) (s : State) : noteNoise f s = s := if_neg (by simp [h])

theorem noteNoise_frame (f : ReceivedFrame) (s : State) :
    Frame (if f.flags.any = true then raised else []) s (noteNoise f s) := by
  split
  · exact (noteNoise_within f s).frame
  · next clean =>
    rw [noteNoise_clean (by simpa using clean)]
    exact .refl _ s

theorem noteNoise_noted {s : State} (hr : Running s) (h : f.flags.any = true) :
    Noted .panelNoise 0 (noteNoise f s) := by
  rw [noteNoise, if_pos h]
  exact noted_raise hr ..

theorem noteNoise_panel (f : ReceivedFrame) (s : State) : (noteNoise f s).panel = s.panel := by
  unfold noteNoise
  split
  · exact raise_panel ..
  · rfl

theorem noteNoise_pin (f : ReceivedFrame) (s : State) : (noteNoise f s).pin = s.pin := by
  unfold noteNoise
  split
  · exact raise_pin ..
  · rfl

theorem flags_of_clean (h : f.flags.any = false) : f.flags = ⟨false, false, false⟩ := by
  obtain ⟨value, address, parity, framing, noise⟩ := f
  simpa [FrameFlags.any, and_assoc] using h

end

/-! ### The key FIFO (R159) -/

section
variable {s : State} {code : Byte} {flags : FrameFlags}

theorem offerKey_dropped (h : s.pin.matcher ≠ .collecting) : offerKey code flags s = s := if_pos h

variable (collects : s.pin.matcher = .collecting)
include collects

theorem offerKey_room (h : s.panel.fifo.length < 16) :
    (offerKey code flags s).panel.fifo = s.panel.fifo ++ [⟨code, flags, false⟩] := by
  rw [offerKey, if_neg (by simp [collects]), if_pos h]
  rfl

theorem offerKey_full {older : List Key} {k : Key} (hf : s.panel.fifo = older ++ [k]) (h : 15 ≤ older.length) :
    (offerKey code flags s).panel.fifo = older ++ [{ k with overrun := true }] := by
  have full : ¬ s.panel.fifo.length < 16 := by
    rw [hf, List.length_append, List.length_singleton]
    omega
  rw [offerKey, if_neg (by simp [collects]), if_neg full, putPanel_panel, hf]
  simp [markNewest]

end

/-! ### A data frame in ATTENDING_OWN or ATTENDING_ALL (R157, R158) -/

section
variable {s : State} {f : ReceivedFrame}

section
variable (unheld : s.panel.awaited = none)
include unheld

theorem takeOwnFrame_clean (clean : f.flags.any = false) : takeOwnFrame f s = takeOwnByte f.value s := by
  rw [takeOwnFrame, unheld]
  simp only [clean, Bool.false_eq_true, if_false]

/-- R157: a flagged frame, and a clean value below 0x80 but LOCK, is a key. -/
theorem takeOwnFrame_key (h : f.flags.any = true ∨ (f.value.toNat < 0x80 ∧ f.value ≠ 0x4C)) :
    takeOwnFrame f s = offerKey f.value f.flags (noteNoise f s) := by
  cases flagged : f.flags.any with
  | true =>
    rw [takeOwnFrame, unheld]
    simp only [flagged, if_true]
  | false =>
    obtain ⟨low, lock⟩ := h.resolve_left (by simp [flagged])
    have ack : f.value ≠ 0xF1 := fun e => absurd low (by rw [e]; decide)
    have refusal : f.value ≠ 0xF2 := fun e => absurd low (by rw [e]; decide)
    rw [takeOwnFrame_clean unheld flagged, takeOwnByte, if_neg lock, if_neg ack, if_neg refusal, if_pos low,
      noteNoise_clean flagged, flags_of_clean flagged]

/-- R157: a clean value of 0x80 or above is dropped, but for those that begin an answer. -/
theorem takeOwnFrame_dropped (clean : f.flags.any = false) (high : 0x80 ≤ f.value.toNat) (ack : f.value ≠ 0xF1)
    (refusal : f.value ≠ 0xF2) : takeOwnFrame f s = s := by
  have lock : f.value ≠ 0x4C := fun e => absurd high (by rw [e]; decide)
  rw [takeOwnFrame_clean unheld clean, takeOwnByte, if_neg lock, if_neg ack, if_neg refusal,
    if_neg (Nat.not_lt.2 high)]

/-- R157: a value that begins an answer is held till its echo byte comes. -/
theorem takeOwnFrame_answer (clean : f.flags.any = false) (h : f.value = 0xF1 ∨ f.value = 0xF2) :
    takeOwnFrame f s = s.putPanel { s.panel with
      awaited := some (if f.value = 0xF1 then .acknowledgement else .refusal) } := by
  rw [takeOwnFrame_clean unheld clean]
  obtain ack | refusal := h
  · rw [ack]
    rfl
  · rw [refusal]
    rfl

end

theorem takeAllFrame_flagged (h : f.flags.any = true) : takeAllFrame f s = noteNoise f s := if_pos h

theorem takeAllFrame_dropped (h : f.flags.any = false) (lock : f.value ≠ 0x4C) : takeAllFrame f s = s := by
  rw [takeAllFrame, if_neg (by simp [h]), if_neg lock]

end

/-- Settles O53: each kind of frame, through its row, is what the lemmas above say of its listener state. -/
theorem framesAreTakenByTheListener : Obligations.FramesAreTakenByTheListener := by
  unfold Obligations.FramesAreTakenByTheListener
  intro s w f quiet hw
  refine ⟨fun ha listens => ⟨_, addressFrame_row quiet hw ha listens, ?address⟩,
    fun ha own unheld key => ⟨_, ownFrame_row quiet hw ha own, ?key⟩,
    fun ha own unheld clean answer => ⟨_, ownFrame_row quiet hw ha own, ?answer⟩,
    fun ha all flagged => ⟨_, allFrame_row quiet hw ha all, ?noise⟩, fun ha dropped => ?dropped⟩
  case address =>
    have selected := (listener_within (l := listenerFor s.panel.listenerAddress f) (a := none) s).frame
    refine ⟨?_, ?_, fun flagged => noteNoise_noted (by exact quiet.1) flagged, ?_⟩
    · rw [takeAddressFrame, noteNoise_panel]
      rfl
    · rw [takeAddressFrame, noteNoise_panel]
      rfl
    · exact (selected.mono (by simp)).trans ((noteNoise_frame f _).mono fun _ => List.mem_cons_of_mem _)
  case key =>
    have offered := (offerKey_within f.value f.flags (noteNoise f s)).frame
    have panel := noteNoise_panel f s
    have pin := noteNoise_pin f s
    rw [takeOwnFrame_key unheld key, ← panel, ← pin]
    refine ⟨fun drops => ?_, fun collects room => offerKey_room collects room,
      fun collects older k fifo full => offerKey_full collects fifo full,
      fun flagged => (noteNoise_noted quiet.1 flagged).frame offered (by simp) (by simp) (by simp),
      ((noteNoise_frame f s).mono fun _ => List.mem_cons_of_mem _).trans (offered.mono (by simp))⟩
    rw [offerKey_dropped drops]
  case answer =>
    rw [takeOwnFrame_answer unheld clean answer]
    exact ⟨rfl, own, (listener_within s).frame⟩
  case noise =>
    rw [takeAllFrame_flagged flagged]
    exact ⟨noteNoise_noted quiet.1 flagged, (noteNoise_within f s).frame⟩
  case dropped =>
    obtain asleep | fault | ⟨all, clean, lock⟩ | ⟨own, unheld, clean, high, ack, refusal⟩ := dropped
    · exact (dataFrame_row quiet hw ha).trans (by rw [takeDataFrame, asleep])
    · exact (dataFrame_row quiet hw ha).trans (by rw [takeDataFrame, fault])
    · exact (allFrame_row quiet hw ha all).trans (by rw [takeAllFrame_dropped clean lock])
    · exact (ownFrame_row quiet hw ha own).trans (by rw [takeOwnFrame_dropped unheld clean high ack refusal])

/-! ### LOCK (R175) -/

/-- R168: the PIN authority when an entry has ended. -/
theorem endEntry_authority (outcome : CommandOutcome) (data : List Byte) (s : State) :
    (endEntry outcome data s).pin = { s.pin with
      matcher := .releasing
      entry := { s.pin.entry.cleared with
        firstCollection := none, staged := none, outcome := outcome, outcomeData := data } } := by
  unfold endEntry offerMessage
  simp only
  split
  all_goals rfl

theorem cancelEntry_of_entering {s : State} (h : s.pin.matcher = .routing ∨ s.pin.matcher = .collecting) :
    cancelEntry s = endEntry .cancelled [] s := if_pos ((entering_iff _).2 h)

theorem cancelEntry_of_not_entering {s : State} (routing : s.pin.matcher ≠ .routing)
    (collecting : s.pin.matcher ≠ .collecting) : cancelEntry s = s :=
  if_neg fun h => ((entering_iff _).1 h).elim routing collecting

/-- R175: a LOCK up to the close of the session; the entry, where there is one, is cancelled then. -/
def lockHeard (s : State) : State := closeSession (raise .lockKey 0 [] s)

theorem takeLock_eq (s : State) : takeLock s = cancelEntry (lockHeard s) := rfl

theorem lockHeard_pin (s : State) :
    (lockHeard s).pin = if s.pin.sessionOpen then
      { s.pin with sessionOpen := false, sessionRemaining := 0 } else s.pin := by
  rw [lockHeard, closeSession_pin, raise_pin]

/-- R175: the close of a session leaves the matcher, the entry and the timer. -/
theorem lockHeard_entry (s : State) :
    (lockHeard s).pin.matcher = s.pin.matcher ∧ (lockHeard s).pin.entry = s.pin.entry
      ∧ (lockHeard s).pin.timer = s.pin.timer := by
  rw [lockHeard_pin]
  split
  all_goals exact ⟨rfl, rfl, rfl⟩

theorem lockHeard_noted {s : State} (hr : Running s) : Noted .lockKey 0 (lockHeard s) :=
  closeSession_keeps_noted (noted_raise hr ..)

/-- R174, R175: an open session is closed, which is noted. -/
theorem lockHeard_closed {s : State} (hr : Running s) (ho : s.pin.sessionOpen = true) :
    Noted .sessionClosed 0 (lockHeard s) ∧ (lockHeard s).pin.sessionRemaining = 0 := by
  refine ⟨closeSession_noted (raise_keeps_running hr ..) (by rw [raise_pin, ho]), ?_⟩
  rw [lockHeard_pin, if_pos ho]

theorem lock_row {s : State} {w : WireFrame} (quiet : Quiet s)
    (hw : w.received = some ⟨0x4C, false, ⟨false, false, false⟩⟩)
    (attends : (s.panel.listener = .attendingOwn ∧ s.panel.awaited = none) ∨ s.panel.listener = .attendingAll) :
    exec (.lock w) s = .next (takeLock s) := by
  obtain ⟨own, unheld⟩ | all := attends
  · refine (ownFrame_row quiet hw rfl own).trans ?_
    rw [takeOwnFrame_clean unheld rfl]
    rfl
  · exact allFrame_row quiet hw rfl all

/-- Settles O55: a LOCK is heard and cancels an entry; a break and the line's recovery move the listener. -/
theorem locksAndBreaks : Obligations.LocksAndBreaks := by
  unfold Obligations.LocksAndBreaks
  refine fun s => ⟨fun w quiet hw attends => ⟨_, lock_row quiet hw attends, ?lock⟩,
    fun hr listens => ⟨_, carried_running hr, ?broken⟩, fun hr fault => ⟨?again, ?recovery⟩,
    fun hr listens => ?elsewhere⟩
  case lock =>
    have cancels := (cancelEntry_within (lockHeard s)).frame
    obtain ⟨matcher, entry, timer⟩ := lockHeard_entry s
    rw [takeLock_eq]
    refine ⟨(lockHeard_noted quiet.1).frame cancels (by simp) (by simp) (by simp),
      (cancelEntry_session _).trans (closeSession_closed _), fun ho => ?closes, fun entering => ?ends,
      fun routing collecting => ?stands, (takeLock_within s).frame⟩
    case closes =>
      obtain ⟨told, seconds⟩ := lockHeard_closed quiet.1 ho
      exact ⟨told.frame cancels (by simp) (by simp) (by simp), (cancels .sessionRemaining (by simp)).trans seconds⟩
    case ends =>
      obtain ⟨-, -, fifo⟩ := endEntry_pin .cancelled [] (lockHeard s)
      rw [cancelEntry_of_entering (by rwa [matcher]), endEntry_authority]
      exact ⟨rfl, rfl, rfl, fifo⟩
    case stands =>
      rw [cancelEntry_of_not_entering (by rwa [matcher]) (by rwa [matcher])]
      exact ⟨matcher, entry, timer⟩
  case broken =>
    refine ⟨?_, ?_, ?_, (takeBreak_within s).frame⟩
    all_goals rw [takeBreak_of_listening listens]
    · rw [raise_panel]
      rfl
    · rw [raise_panel]
      rfl
    · exact noted_raise (by exact hr) ..
  case again => exact (carried_running hr).trans (by rw [takeBreak, if_pos fault])
  case recovery => exact (carried_running hr).trans (by rw [recoverFault, if_pos fault]; rfl)
  case elsewhere => exact (carried_running hr).trans (by rw [recoverFault, if_neg listens])

end Sys2Proof.Machine
end

section
/-! PROOF. The transmitter (R153, R161 to R164, R168): how a message is sent, and how it ends by its answer or by
timeout. -/

namespace Sys2Proof.Machine

open Sys2Proof

/-! ### Sending (R161, R162) -/

theorem startMessage_takes {s : State} {m : Message} {rest : List Message} (idle : s.panel.transmitter = .idle)
    (hq : s.panel.queue = m :: rest) :
    startMessage s = s.putPanel { s.panel with
      queue := rest, outstanding := some m, transmitter := .sending, holding := none
      shifting := some ⟨s.panel.panelAddress, true⟩ } := by
  rw [startMessage, idle, hq]

theorem startMessage_stands {s : State} (h : s.panel.transmitter ≠ .idle ∨ s.panel.queue = []) :
    startMessage s = s := by
  unfold startMessage
  split
  · next idle queue => exact absurd queue (by simp [h.resolve_left (not_not_intro idle)])
  · rfl

theorem messageSent_sends {s : State} {m : Message} {address : OutFrame} (sending : s.panel.transmitter = .sending)
    (ho : s.panel.outstanding = some m) (hs : s.panel.shifting = some address) :
    messageSent s = s.putPanel { s.panel with
      transmitter := .awaiting, holding := none, shifting := none
      sent := s.panel.sent ++ [lineFrame address.value address.address, lineFrame (messageCommand m) false,
        lineFrame (messageOperand m) false] } := by
  rw [messageSent, sending, ho, hs]
  rfl

theorem messageSent_stands {s : State} (h : s.panel.transmitter ≠ .sending) : messageSent s = s := by
  unfold messageSent
  split
  · next sending _ => exact absurd sending h
  · rfl

/-- Settles O56: a message is begun and sent as the lemmas above say, with the bytes that R161 gives it. -/
theorem messagesAreSent : Obligations.MessagesAreSent := by
  unfold Obligations.MessagesAreSent
  refine fun s hr => ⟨fun m rest idle queue => ?takes, fun waits => ?stands, fun m address sending ho hs => ?sends,
    fun elsewhere => ?unsent⟩
  case takes => exact (carried_running hr).trans (congrArg _ (startMessage_takes idle queue))
  case stands => exact (carried_running hr).trans (congrArg _ (startMessage_stands waits))
  case sends =>
    refine (carried_running hr).trans (congrArg _ ((messageSent_sends sending ho hs).trans ?_))
    cases m with
    | routeKeys timeout => rfl
    | releaseKeys => rfl
    | lamp l => cases l <;> rfl
  case unsent => exact (carried_running hr).trans (congrArg _ (messageSent_stands elsewhere))

/-! ### What the end of a message tells (R163, R164) -/

/-- R163: PANEL_SILENT of a message that was refused or timed out. -/
def toldSilent (m : Message) (e : MessageEnd) (s : State) : State :=
  match e with
  | .succeeded => s
  | .refused => notePanelSilent m 1 s
  | .timeout => notePanelSilent m 0 s

theorem toldSilent_frame (m : Message) (e : MessageEnd) (s : State) : Frame raised s (toldSilent m e s) := by
  cases e with
  | succeeded => exact .refl _ s
  | refused | timeout => exact (notePanelSilent_within m _ s).frame

theorem toldSilent_noted {s : State} (hr : Running s) (m : Message) {e : MessageEnd} (failed : e ≠ .succeeded) :
    Noted .panelSilent 0 (toldSilent m e s) := by
  cases e with
  | succeeded => exact absurd rfl failed
  | refused | timeout => exact noted_raise hr ..

theorem toldSilent_pin (m : Message) (e : MessageEnd) (s : State) : (toldSilent m e s).pin = s.pin :=
  (toldSilent_frame m e s).pin (by simp)

theorem handOutcome_routeKeys {e : MessageEnd} (failed : e ≠ .succeeded) (timeout : Byte) (s : State) :
    handOutcome (.routeKeys timeout) e s = routingFailed (if e = .refused then .panelRefused else .panelSilent) s := by
  cases e with
  | succeeded => exact absurd rfl failed
  | refused | timeout => rfl

theorem handOutcome_releaseKeys (e : MessageEnd) (s : State) :
    handOutcome .releaseKeys e s = keysReleased (toldSilent .releaseKeys e s) := by cases e <;> rfl

theorem handOutcome_lamp {e : MessageEnd} (failed : e ≠ .succeeded) (l : Lamp) (s : State) :
    handOutcome (.lamp l) e s = lampFailed (toldSilent (.lamp l) e s) := by
  cases e with
  | succeeded => exact absurd rfl failed
  | refused | timeout => rfl

/-- R163: the outcome's recipients leave the transmitter. -/
theorem handOutcome_transmitter (m : Message) (e : MessageEnd) (s : State) :
    Part.transmitter.same s (handOutcome m e s) := by
  cases m with
  | routeKeys timeout =>
    by_cases success : e = .succeeded
    · subst success
      exact (keysRouted_within s).frame .transmitter (by simp)
    · rw [handOutcome_routeKeys success]
      exact (routingFailed_within _ s (by split <;> simp)).frame .transmitter (by simp)
  | releaseKeys =>
    rw [handOutcome_releaseKeys]
    exact Part.same_trans (toldSilent_frame _ e s .transmitter (by simp))
      ((keysReleased_within _).frame .transmitter (by simp))
  | lamp l =>
    by_cases success : e = .succeeded
    · subst success
      exact Part.same_refl ..
    · rw [handOutcome_lamp success]
      exact Part.same_trans (toldSilent_frame _ e s .transmitter (by simp))
        ((lampFailed_within _).frame .transmitter (by simp))

/-! ### RELEASE_KEYS (R168) -/

/-- R168: a completed release answers the entry's slot with the outcome held, and is noted. -/
theorem releasingCompleted_answers {s : State} (hr : Running s) :
    (releasingCompleted s).pin.matcher = (if s.pin.entry.outcome = .lockedOut then .lockout else .idle)
      ∧ (releasingCompleted s).slot s.pin.entry.slot
        = { s.slot s.pin.entry.slot with
            result := { (s.slot s.pin.entry.slot).result with
              state := .done, outcome := s.pin.entry.outcome, data := s.pin.entry.outcomeData } }
      ∧ Noted .entryEnded 0 (releasingCompleted s) := by
  refine ⟨?_, ?_, noted_raise (by exact hr) ..⟩
  · rw [releasingCompleted, raise_pin]
    rfl
  · have told : (releasingCompleted s).slot s.pin.entry.slot = _ := raise_frame _ _ _ _ (.slot _) (by simp)
    exact told.trans (finishResult_slot_self ..)

theorem keysReleased_of_releasing {s : State} (h : s.pin.matcher = .releasing) :
    keysReleased s = releasingCompleted s := if_pos h

theorem keysReleased_dropped {s : State} (h : s.pin.matcher ≠ .releasing) : keysReleased s = s := if_neg h

/-! ### The message outstanding (R163) -/

/-- R163: the state in which the outcome of a message is handed on: the transmitter is IDLE, and an answer whose
echo byte has come is awaited no longer. -/
def transmitterFreed (awaited : Option Answer) (s : State) : State :=
  s.putPanel { s.panel with awaited := awaited, transmitter := .idle, outstanding := none }

theorem transmitterFreed_frame (a : Option Answer) (s : State) :
    Frame [.listener, .transmitter] s (transmitterFreed a s) := by
  have within : Within [.listener, .transmitter] s (transmitterFreed a s) :=
    within_panel (.inl (by simp)) (.inr ⟨rfl, rfl⟩) (.inr rfl) (.inr rfl) (.inl (by simp)) (.inr rfl) (.inr rfl) id
  exact within.frame

/-- R163: how an answer ends the message it matches. -/
def Answer.ending : Answer → MessageEnd
  | .acknowledgement => .succeeded
  | .refusal => .refused

/-- R179: the end of a wait posts no slot, so that where no command waits at the pointer none is taken. -/
theorem waitEnds_quiet {s : State} (h : Quiet s) : waitEnds s = waitRunsOut s := by
  have pointer : (waitRunsOut s).command.pointer = s.command.pointer := (waitRunsOut_within s).frame .pointer (by simp)
  obtain ⟨-, state, -⟩ := waitRunsOut_postsStand s s.command.pointer
  exact runRing_quiet (by rw [pointer, state]; exact h.2)

section
variable {s : State} {m : Message}

theorem takeAnswer_matched (awaits : s.panel.transmitter = .awaiting) (ho : s.panel.outstanding = some m) (a : Answer) :
    takeAnswer a (messageCommand m) s
      = endMessage m a.ending s := by
  rw [takeAnswer, awaits, ho]
  simp only [if_true]
  cases a <;> rfl

/-- R163: an answer is dropped where no message is AWAITING and where its echo byte is another message's. -/
theorem takeAnswer_dropped {echo : Byte}
    (h : s.panel.transmitter ≠ .awaiting ∨ ∀ m, s.panel.outstanding = some m → echo ≠ messageCommand m)
    (a : Answer) : takeAnswer a echo s = s := by
  unfold takeAnswer
  split
  · next m awaits outstanding =>
    exact if_neg (h.elim (fun h => absurd awaits h) fun h => h m outstanding)
  · rfl

variable (quiet : Quiet s)
include quiet

theorem acknowledgementTimeout_row (awaits : s.panel.transmitter = .awaiting) (ho : s.panel.outstanding = some m) :
    exec .acknowledgementTimeout s = .next (handOutcome m .timeout (transmitterFreed s.panel.awaited s)) := by
  refine (carried_running quiet.1).trans ?_
  rw [waitEnds_quiet quiet, waitRunsOut, awaits, ho]
  rfl

section
variable {w : WireFrame} {f : ReceivedFrame} {a : Answer} (hw : w.received = some f) (ha : f.address = false)
  (own : s.panel.listener = .attendingOwn) (held : s.panel.awaited = some a)
include hw ha own held

/-- R157, R163: a clean echo byte is matched, with its answer awaited no longer. -/
theorem panelAnswer_clean (clean : f.flags.any = false) :
    exec (.panelAnswer w) s = .next (takeAnswer a f.value (s.putPanel { s.panel with awaited := none })) := by
  refine (ownFrame_row quiet hw ha own).trans ?_
  rw [takeOwnFrame, held]
  simp only [clean, Bool.false_eq_true, if_false]

/-- R157: a flagged echo byte discards its answer. -/
theorem panelAnswer_flagged (flagged : f.flags.any = true) :
    exec (.panelAnswer w) s = .next (noteNoise f (s.putPanel { s.panel with awaited := none })) := by
  refine (ownFrame_row quiet hw ha own).trans ?_
  rw [takeOwnFrame, held]
  simp only [flagged, if_true]

theorem panelAnswer_row (clean : f.flags.any = false) (awaits : s.panel.transmitter = .awaiting)
    (ho : s.panel.outstanding = some m) (echo : f.value = messageCommand m) :
    exec (.panelAnswer w) s = .next (handOutcome m a.ending (transmitterFreed none s)) := by
  rw [panelAnswer_clean quiet hw ha own held clean, echo, takeAnswer_matched (by exact awaits) (by exact ho)]
  rfl

end

end

/-! ### The outcome handed on (R163, R164, R168) -/

section
variable {s : State} (a : Option Answer)

/-- R168: a success of ROUTE_KEYS takes ROUTING to COLLECTING. -/
theorem routeKeys_succeeded (routing : s.pin.matcher = .routing) (timeout : Byte) :
    (handOutcome (.routeKeys timeout) .succeeded (transmitterFreed a s)).pin
      = { s.pin with matcher := .collecting, entry := { s.pin.entry with lastKeyStamp := s.time.run } } := by
  show (keysRouted _).pin = _
  rw [keysRouted, if_pos (by exact routing)]
  rfl

/-- R168: a failure of ROUTE_KEYS ends the entry. -/
theorem routeKeys_failed (routing : s.pin.matcher = .routing) (room : s.panel.queue.length < 4) {e : MessageEnd}
    (failed : e ≠ .succeeded) (timeout : Byte) :
    Ending (if e = .refused then .panelRefused else .panelSilent)
      (handOutcome (.routeKeys timeout) e (transmitterFreed a s)) := by
  have ended : ∀ outcome, routingFailed outcome (transmitterFreed a s) = endEntry outcome [] (transmitterFreed a s) :=
    fun _ => if_pos routing
  rw [handOutcome_routeKeys failed, ended]
  exact endEntry_ending (by exact room) ..

/-- R168: outside ROUTING the outcome of ROUTE_KEYS is dropped. -/
theorem routeKeys_dropped (elsewhere : s.pin.matcher ≠ .routing) (e : MessageEnd) (timeout : Byte) :
    handOutcome (.routeKeys timeout) e (transmitterFreed a s) = transmitterFreed a s := by
  cases e with
  | succeeded | refused | timeout => exact if_neg elsewhere

variable (hr : Running s)
include hr

/-- R163: a failure of RELEASE_KEYS is noted, whatever the matcher makes of it. -/
theorem releaseKeys_noted {e : MessageEnd} (failed : e ≠ .succeeded) :
    Noted .panelSilent 0 (handOutcome .releaseKeys e (transmitterFreed a s)) := by
  have told : Noted .panelSilent 0 (toldSilent .releaseKeys e (transmitterFreed a s)) :=
    toldSilent_noted (by exact hr) _ failed
  rw [handOutcome_releaseKeys]
  unfold keysReleased
  split
  · refine Noted.raise ?_ ..
    exact told
  · exact told

/-- R168: the end of RELEASE_KEYS, in either way, completes RELEASING. -/
theorem releaseKeys_completes (releasing : s.pin.matcher = .releasing) (e : MessageEnd) :
    let t := handOutcome .releaseKeys e (transmitterFreed a s)
    t.pin.matcher = (if s.pin.entry.outcome = .lockedOut then .lockout else .idle)
      ∧ t.slot s.pin.entry.slot
        = { s.slot s.pin.entry.slot with
            result := { (s.slot s.pin.entry.slot).result with
              state := .done, outcome := s.pin.entry.outcome, data := s.pin.entry.outcomeData } }
      ∧ Noted .entryEnded 0 t := by
  have told := toldSilent_frame .releaseKeys e (transmitterFreed a s)
  have pin : (toldSilent .releaseKeys e (transmitterFreed a s)).pin = s.pin := toldSilent_pin ..
  have slot : (toldSilent .releaseKeys e (transmitterFreed a s)).slot s.pin.entry.slot = s.slot s.pin.entry.slot :=
    told (.slot _) (by simp)
  have running : Running (toldSilent .releaseKeys e (transmitterFreed a s)) := (told .systemReset (by simp)).trans hr
  have answers := releasingCompleted_answers running
  rw [pin, slot] at answers
  rwa [handOutcome_releaseKeys, keysReleased_of_releasing (by rw [pin, releasing])]

omit hr in
theorem releaseKeys_dropped (elsewhere : s.pin.matcher ≠ .releasing) (e : MessageEnd) :
    (handOutcome .releaseKeys e (transmitterFreed a s)).pin = s.pin := by
  have pin : (toldSilent .releaseKeys e (transmitterFreed a s)).pin = s.pin := toldSilent_pin ..
  rw [handOutcome_releaseKeys, keysReleased_dropped (by rwa [pin]), pin]

/-- R163, R164: a failed LAMP is noted, and makes the record UNKNOWN where no LAMP is queued. -/
theorem lamp_failed {e : MessageEnd} (failed : e ≠ .succeeded) (l : Lamp) :
    let t := handOutcome (.lamp l) e (transmitterFreed a s)
    Noted .panelSilent 0 t
      ∧ t.panel.lampRecord = if s.panel.queue.any Message.isLamp = true then s.panel.lampRecord else none := by
  have told := toldSilent_frame (.lamp l) e (transmitterFreed a s)
  have queue : (toldSilent (.lamp l) e (transmitterFreed a s)).panel.queue = s.panel.queue :=
    told .transmitQueue (by simp)
  have record : (toldSilent (.lamp l) e (transmitterFreed a s)).panel.lampRecord = s.panel.lampRecord :=
    told .lampRecord (by simp)
  have noted : Noted .panelSilent 0 (toldSilent (.lamp l) e (transmitterFreed a s)) :=
    toldSilent_noted (by exact hr) _ failed
  refine ⟨?_, ?_⟩
  · rw [handOutcome_lamp failed]
    exact noted.frame (lampFailed_within _).frame (by simp) (by simp) (by simp)
  · rw [handOutcome_lamp failed, lampFailed, queue]
    split
    · exact record
    · rfl

end

/-- Settles O54: whichever way the message ends, the transmitter is freed and the outcome handed on by its kind; an
answer that ends no message is discarded. -/
theorem messagesEndByAnswerOrTimeout : Obligations.MessagesEndByAnswerOrTimeout := by
  unfold Obligations.MessagesEndByAnswerOrTimeout
  refine ⟨fun s i m ending quiet awaits ho row => ?ended, fun s w f a quiet hw ha own held =>
    ⟨fun clean other => ?dropped,
      fun flagged => ⟨_, panelAnswer_flagged quiet hw ha own held flagged, ?flagged⟩⟩⟩
  case ended =>
    obtain ⟨a, ended, discards⟩ : ∃ a, exec i s = .next (handOutcome m ending (transmitterFreed a s))
        ∧ (i ≠ .acknowledgementTimeout → a = none) := by
      obtain ⟨rfl, rfl⟩ | ⟨w, f, rfl, hw, ha, clean, echo, own, answer⟩ := row
      · exact ⟨_, acknowledgementTimeout_row quiet awaits ho, fun other => absurd rfl other⟩
      · obtain ⟨held, rfl⟩ | ⟨held, rfl⟩ := answer
        all_goals exact ⟨none, panelAnswer_row quiet hw ha own held clean awaits ho echo, fun _ => rfl⟩
    have freed := transmitterFreed_frame a s
    have handed := (handOutcome_within m ending (transmitterFreed a s)).frame
    obtain ⟨idle, outstanding, -⟩ := handOutcome_transmitter m ending (transmitterFreed a s)
    obtain ⟨listener, awaited⟩ := handed .listener (by simp)
    refine ⟨_, ended, idle, outstanding, fun other => awaited.trans (discards other), listener,
      (freed.mono (by simp)).trans (handed.mono fun _ => List.mem_cons_of_mem _), ?routeKeys, ?releaseKeys, ?lamp⟩
    case routeKeys =>
      rintro timeout rfl
      refine ⟨fun routing success => ?_, fun routing failed room => routeKeys_failed a routing room failed timeout,
        fun elsewhere => ?_⟩
      · rw [success, routeKeys_succeeded a routing]
        exact ⟨rfl, rfl⟩
      · rw [routeKeys_dropped a elsewhere]
        exact freed
    case releaseKeys =>
      rintro rfl
      exact ⟨fun failed => releaseKeys_noted a quiet.1 failed,
        fun releasing => releaseKeys_completes a quiet.1 releasing ending,
        fun elsewhere => releaseKeys_dropped a elsewhere ending⟩
    case lamp =>
      rintro l rfl
      refine ⟨fun success => ?_, fun failed => lamp_failed a quiet.1 failed l⟩
      rw [success]
      exact freed
  case dropped =>
    rw [panelAnswer_clean quiet hw ha own held clean]
    exact congrArg _ (takeAnswer_dropped (by exact other) a)
  case flagged =>
    have discarded := (listener_within (l := s.panel.listener) (a := none) s).frame
    refine ⟨?_, ?_, noteNoise_noted (by exact quiet.1) flagged,
      (discarded.mono (by simp)).trans ((noteNoise_within f _).frame.mono fun _ => List.mem_cons_of_mem _)⟩
    · rw [noteNoise_panel]
      rfl
    · rw [noteNoise_panel]
      exact own

end Sys2Proof.Machine
end

section
/-! PROOF. PIN entries and the parent session (R166, R167, R174): how a command that is never privileged is taken,
how an entry begins, what a staged action executed at its take does, and the commands of the session. -/

namespace Sys2Proof.Machine

open Sys2Proof

/-! ### A command that is not privileged (R180) -/

theorem atOwner_unprivileged {c : Command} {s : State} (free : privileged c s = false) :
    atOwner c s = markTaken c s := by
  rw [atOwner, free]
  rfl

theorem markTaken_pin (c : Command) (s : State) : (markTaken c s).pin = s.pin := rfl

/-- The row posts a command that is never privileged, and whose owner does `f` with it (R180). -/
def PostsFreely (i : Instr) (c : Command) (f : Fin 16 → State → State × Response) : Prop :=
  commandOf i = some c ∧ (∀ s, privileged c s = false) ∧ ∀ slot s, obey slot c s = f slot s

section
variable {i : Instr} {c : Command} {f : Fin 16 → State → State × Response} (posts : PostsFreely i c f) {s : State}
  (hr : RingReady s)
include posts hr

/-- As `ends_of_obey`, for a command that slides no session: its owner finds the session as it was, and may write
its seconds. -/
theorem PostsFreely.ends {u : State} {r : Response} {ps : List Part}
    (ho : f s.command.pointer (markTaken c s) = (u, r)) (hf : Frame ps (markTaken c s) u) :
    ∃ t, EndsFreely i r ps s t ∧ Frame (ringParts s) u t := by
  obtain ⟨hi, free, owner⟩ := posts
  have notClear : c ≠ .factoryClear := fun e => by
    subst e
    cases free s
  rw [← owner, ← atOwner_unprivileged (free s)] at ho
  rw [← atOwner_unprivileged (free s)] at hf
  obtain ⟨t, row, ⟨unit, -⟩, done⟩ := took_of_obey hi (ready_of_public hi (free s) hr) notClear ho hf
  have before := markTaken_frame c s
  rw [← atOwner_unprivileged (free s)] at before
  have ring : ∀ p, p ∈ ringParts s → p ∈ ringParts s ++ ps := fun _ => List.mem_append_left _
  exact ⟨t, ⟨row, c, hi, unit, ((before.mono ring).trans (hf.mono fun _ => List.mem_append_right _)).trans
    (done.mono ring)⟩, done⟩

theorem PostsFreely.refuses {outcome : CommandOutcome}
    (ho : f s.command.pointer (markTaken c s) = refuse outcome (markTaken c s)) : Refuses i outcome s := by
  obtain ⟨t, ⟨row, d, hd, unit, frame⟩, -⟩ := posts.ends hr ho (.refl [] _)
  obtain ⟨hi, free, -⟩ := posts
  obtain rfl : c = d := Option.some.inj (hi.symm.trans hd)
  refine ⟨t, row, c, hi, ⟨unit, frame.mono fun p hp => List.mem_append_left _ (by simpa using hp)⟩, ?_⟩
  have stands : t.pin.sessionRemaining = s.pin.sessionRemaining := frame .sessionRemaining (by simp)
  rw [stands, slidRemaining, free]
  rfl

end

/-! ### The beginning of an entry (R166 step 6) -/

/-- R166: with room in the transmit queue the entry begins, and ROUTE_KEYS is queued last. -/
theorem beginEntry_begins {s : State} (room : s.panel.queue.length < 4) (purpose : Purpose) (staged : Option Staged) :
    (beginEntry purpose s.command.pointer staged s).pin.matcher = .routing
      ∧ (beginEntry purpose s.command.pointer staged s).pin.entry = begunEntry purpose staged s
      ∧ (beginEntry purpose s.command.pointer staged s).panel.queue = s.panel.queue ++ [.routeKeys 90] := by
  unfold beginEntry offerMessage
  rw [if_pos (by exact room)]
  exact ⟨rfl, rfl, rfl⟩

/-- The row of a command whose owner begins an entry. -/
theorem PostsFreely.begins {i : Instr} {c : Command} {f : Fin 16 → State → State × Response}
    (posts : PostsFreely i c f) {s : State} (hr : RingReady s) (room : s.panel.queue.length < 4) {purpose : Purpose}
    {staged : Option Staged} (closed : purpose ≠ .pinChange → s.pin.sessionOpen = false)
    (ho : f s.command.pointer (markTaken c s)
      = (beginEntry purpose s.command.pointer staged (markTaken c s), .long)) :
    ∃ t, EndsFreely i .long beginParts s t ∧ t.pin.matcher = .routing ∧ t.pin.entry = begunEntry purpose staged s
      ∧ t.panel.queue = s.panel.queue ++ [.routeKeys 90] := by
  obtain ⟨matcher, entry, queue⟩ := beginEntry_begins (s := markTaken c s) room purpose staged
  obtain ⟨t, ends, done⟩ := posts.ends hr ho (beginEntry_within _ _ _ (markTaken c s) closed).frame
  exact ⟨t, ends, (done .matcher (by simp)).trans matcher, (done .pinEntry (by simp)).trans entry,
    (done .transmitQueue (by simp)).trans queue⟩

/-! ### What a staged action executed at its take does (R64, R103, R166 step 5) -/

theorem checkGrant_passed {profile : Byte} {minutes : Half} {s : State} {n : Fin 8} {m : Nat} {clamped : Bool}
    (h : checkGrant profile minutes s = .ok (n, m, clamped)) :
    s.image.operation.importsInto n = false ∧ (s.profile n).state ≠ .empty ∧ m ≠ 0 ∧ m ≤ 720 := by
  unfold checkGrant at h
  split at h
  · cases h
  · split_ifs at h with importing empty nothing
    rw [clampTo_eq] at h
    cases h
    exact ⟨Bool.eq_false_iff.2 importing, empty, by omega, Nat.min_le_left ..⟩

/-- R167: an action that is staged is a grant or a push whose checks it has passed. -/
theorem checkStaged_passed {output profile staged : Byte} {minutes : Half} {kind scope : Byte} {day : Half}
    {second : Word} {s : State} {a : Staged}
    (h : checkStaged output profile staged minutes kind scope day second s = .ok a) :
    (∃ n m clamped, checkGrant profile minutes s = .ok (n, m, clamped) ∧ a = .grant n m clamped)
      ∨ ∃ q, checkPush output kind scope day second s = .ok q ∧ a = .push q := by
  unfold checkStaged at h
  split at h
  · cases checked : checkGrant profile minutes s <;> rw [checked] at h <;> cases h
    exact .inl ⟨_, _, _, rfl, rfl⟩
  · cases checked : checkPush output kind scope day second s <;> rw [checked] at h <;> cases h
    exact .inr ⟨_, rfl, rfl⟩
  · cases h

/-- R93: an end that was fitted is ahead, and needs no other fitting at the same time. -/
theorem fitEnd_fitted {t : TimeBase} {kind : OverrideKind} {wanted fitted : Nat} {clamped : Bool}
    (h : fitEnd t kind wanted = some (fitted, clamped)) :
    ¬ EndPassed t fitted ∧ waivesTooFar t kind fitted = false := by
  by_cases passed : EndPassed t wanted
  · rw [fitEnd_passed passed] at h
    cases h
  · rw [fitEnd_ahead passed] at h
    cases h
    split
    · exact ⟨fun ⟨_, le⟩ => by omega, Bool.eq_false_iff.2 fun far => by
        obtain ⟨-, -, lt⟩ := waivesTooFar_iff.1 far
        omega⟩
    · next near => exact ⟨passed, Bool.eq_false_iff.2 near⟩

/-- R92: what the checks of a push have found. -/
theorem checkPush_passed {output kind scope : Byte} {day : Half} {second : Word} {s : State} {q : StagedPush}
    (h : checkPush output kind scope day second s = .ok q) :
    captureSubject s q.output q.kind = some (q.key, q.event)
      ∧ (s.context q.output).stack.length < 4
      ∧ checkEnd s.time q.kind q.scope day second = some (q.endTime, q.clamped) := by
  have room := checkPush_room h
  unfold checkPush at h
  split at h
  · cases h
  split at h
  · cases h
  split at h
  · cases h
  next captured =>
    split_ifs at h
    split at h
    · cases h
    next ends =>
      cases h
      exact ⟨captured, room, ends⟩

/-- R103 step 1: a subject just captured has not moved. -/
theorem not_subjectMoved_of_captured {s : State} {q : StagedPush}
    (h : captureSubject s q.output q.kind = some (q.key, q.event)) : ¬ SubjectMoved q s := by
  unfold SubjectMoved
  unfold captureSubject at h
  split at h
  · next event =>
    split at h
    · next key current =>
      simp only [Option.some.injEq, Prod.mk.injEq] at h
      simp [key, current, h, event]
    · cases h
  · next service =>
    split at h
    · next key =>
      simp only [Option.some.injEq, Prod.mk.injEq] at h
      simp [key, h, service]
    · cases h
  · next kind => simp [kind]
  · next kind => simp [kind]

/-- R103 step 3: an end just checked is ahead and stands. -/
theorem checkEnd_stands {s : State} {q : StagedPush} {day : Half} {second : Word}
    (h : checkEnd s.time q.kind q.scope day second = some (q.endTime, q.clamped)) :
    ¬ q.tooLate s ∧ q.endMoved s = false := by
  unfold checkEnd at h
  split_ifs at h
  · obtain ⟨⟨fitted, clamped⟩, fits, same⟩ := Option.map_eq_some_iff.1 h
    have ends : some fitted = q.endTime := congrArg Prod.fst same
    obtain ⟨ahead, near⟩ := fitEnd_fitted fits
    refine ⟨?_, by rw [StagedPush.endMoved, ← ends]; exact near⟩
    rintro ⟨set, at_, held, le⟩
    obtain rfl : fitted = at_ := Option.some.inj (ends.trans held)
    exact ahead ⟨set, le⟩
  · have ends : none = q.endTime := congrArg Prod.fst (Option.some.inj h)
    refine ⟨?_, by rw [StagedPush.endMoved, ← ends]; rfl⟩
    rintro ⟨-, at_, held, -⟩
    cases ends.trans held

/-- R103: a push executed at its checks takes the entry and the end that they gave. -/
theorem executePush_checked {output kind scope : Byte} {day : Half} {second : Word} {s : State} {q : StagedPush}
    (h : checkPush output kind scope day second s = .ok q) :
    executePush q s
      = (pushEntry q.output (q.entry q.endTime .staged) s, doneOr q.clamped,
          pushData q.output (q.entry q.endTime .staged) (pushEntry q.output (q.entry q.endTime .staged) s)) := by
  obtain ⟨captured, room, ends⟩ := checkPush_passed h
  obtain ⟨ahead, stands⟩ := checkEnd_stands ends
  have pushed := executePush_pushed (not_subjectMoved_of_captured captured) room ahead rfl
  rwa [stands, Bool.or_false] at pushed

/-! ### OPEN_PIN_ENTRY (R166, R167) -/

theorem openSessionEntry_posts : ∃ c, PostsFreely .openSessionEntry c obeyOpenSession :=
  ⟨_, rfl, fun _ => rfl, fun _ _ => rfl⟩

theorem openPinChangeEntry_posts : ∃ c, PostsFreely .openPinChangeEntry c obeyOpenPinChange :=
  ⟨_, rfl, fun _ => rfl, fun _ _ => rfl⟩

theorem openGrantEntry_posts (output profile staged : Byte) (minutes : Half) (kind scope : Byte) (day : Half)
    (second : Word) :
    ∃ c, PostsFreely (.openGrantEntry output profile staged minutes kind scope day second) c
      (obeyOpenGrant output profile staged minutes kind scope day second) :=
  ⟨_, rfl, fun _ => rfl, fun _ _ => rfl⟩

/-- R166 step 2: no entry is opened but in IDLE, whatever its purpose. -/
theorem entryRow_refused {i : Instr} {s : State} (hr : RingReady s)
    (h : i = .openSessionEntry ∨ i = .openPinChangeEntry
      ∨ ∃ o p k m ok sc d sec, i = .openGrantEntry o p k m ok sc d sec)
    {outcome : CommandOutcome} (refused : entryRefusal s.pin.matcher = some outcome) : Refuses i outcome s := by
  obtain rfl | rfl | ⟨o, p, k, m, ok, sc, d, sec, rfl⟩ := h
  · obtain ⟨c, posts⟩ := openSessionEntry_posts
    refine posts.refuses hr ?_
    simp only [obeyOpenSession, markTaken_pin, refused]
  · obtain ⟨c, posts⟩ := openPinChangeEntry_posts
    refine posts.refuses hr ?_
    simp only [obeyOpenPinChange, markTaken_pin, refused]
  · obtain ⟨c, posts⟩ := openGrantEntry_posts o p k m ok sc d sec
    refine posts.refuses hr ?_
    simp only [obeyOpenGrant, markTaken_pin, refused]

/-- R174: the opening of a session raises no notice. -/
theorem openSession_report (s : State) : (openSession s).report = s.report := by
  unfold openSession
  simp only
  split
  · rfl
  · exact recomputeLamp_report _

theorem openSession_silent (s : State) : Frame ([.session, .sessionRemaining] ++ lit) s (openSession s) := by
  intro p hp
  by_cases told : p = .notices ∨ p = .flags
  · obtain rfl | rfl := told <;> simp only [Part.same, openSession_report, and_self]
  · refine openSession_frame s p fun h => ?_
    simp only [sessionParts, raised, lit, List.mem_append, List.mem_cons, List.not_mem_nil, or_false] at h hp
    tauto

section
variable {s : State} (idle : s.pin.matcher = .idle) (slot : Fin 16)
include idle

theorem obeyOpenSession_opens (ha : authority s = true) :
    obeyOpenSession slot s = complete false [] (openSession s) := by
  simp only [obeyOpenSession, idle, entryRefusal, ha, if_true]

theorem obeyOpenSession_begins (ha : authority s = false) :
    obeyOpenSession slot s = (beginEntry .session slot none s, .long) := by
  simp [obeyOpenSession, idle, entryRefusal, ha]

theorem obeyOpenPinChange_begins (ha : authority s = true) :
    obeyOpenPinChange slot s = (beginEntry .pinChange slot none s, .long) := by
  simp only [obeyOpenPinChange, idle, entryRefusal, ha, if_true]

theorem obeyOpenPinChange_refused (ha : authority s = false) :
    obeyOpenPinChange slot s = refuse .notAuthorised s := by
  simp [obeyOpenPinChange, idle, entryRefusal, ha]

variable {output profile staged : Byte} {minutes : Half} {kind scope : Byte} {day : Half} {second : Word}

theorem obeyOpenGrant_refused {outcome : CommandOutcome}
    (h : checkStaged output profile staged minutes kind scope day second s = .error outcome) :
    obeyOpenGrant output profile staged minutes kind scope day second slot s = refuse outcome s := by
  simp only [obeyOpenGrant, idle, entryRefusal, h]

variable {a : Staged} (h : checkStaged output profile staged minutes kind scope day second s = .ok a)
include h

theorem obeyOpenGrant_begins (ha : authority s = false) :
    obeyOpenGrant output profile staged minutes kind scope day second slot s
      = (beginEntry .grant slot (some a) s, .long) := by
  simp [obeyOpenGrant, idle, entryRefusal, h, ha]

theorem obeyOpenGrant_executes (ha : authority s = true) :
    obeyOpenGrant output profile staged minutes kind scope day second slot s
      = ((executeStaged a s).1, .done (executeStaged a s).2.1 (executeStaged a s).2.2) := by
  simp only [obeyOpenGrant, idle, entryRefusal, h, ha, if_true]

end

/-! ### The rows of OPEN_PIN_ENTRY -/

theorem checkStaged_markTaken (output profile staged : Byte) (minutes : Half) (kind scope : Byte) (day : Half)
    (second : Word) (c : Command) (s : State) :
    checkStaged output profile staged minutes kind scope day second (markTaken c s)
      = checkStaged output profile staged minutes kind scope day second s := rfl

section
variable {s : State} (hr : RingReady s) (idle : s.pin.matcher = .idle)
include hr idle

/-- R166 step 5, R174: a SESSION under authority opens the session at once. -/
theorem openSessionEntry_opens (ha : authority s = true) :
    ∃ t, EndsFreely .openSessionEntry (.done .doneOk []) ([.session, .sessionRemaining] ++ lit) s t
      ∧ t.pin.sessionOpen = true ∧ t.pin.sessionRemaining = s.pin.sessionLength := by
  obtain ⟨c, posts⟩ := openSessionEntry_posts
  obtain ⟨t, ends, f⟩ := posts.ends hr (obeyOpenSession_opens (s := markTaken c s) idle _ ha) (openSession_silent _)
  refine ⟨t, ends, (f .session (by simp)).trans ?_, (f .sessionRemaining (by simp)).trans ?_⟩
  · rw [openSession_pin]
  · rw [openSession_pin, markTaken_pin]

section
variable {output profile staged : Byte} {minutes : Half} {kind scope : Byte} {day : Half} {second : Word}

theorem openGrantEntry_refused {outcome : CommandOutcome}
    (h : checkStaged output profile staged minutes kind scope day second s = .error outcome) :
    Refuses (.openGrantEntry output profile staged minutes kind scope day second) outcome s := by
  obtain ⟨c, posts⟩ := openGrantEntry_posts output profile staged minutes kind scope day second
  exact posts.refuses hr (obeyOpenGrant_refused (s := markTaken c s) idle _ ((checkStaged_markTaken ..).trans h))

variable (ha : authority s = true)
include ha

/-- R64, R166 step 5: a staged grant under authority. -/
theorem openGrantEntry_grants {n : Fin 8} {m : Nat} {clamped : Bool}
    (h : checkStaged output profile staged minutes kind scope day second s = .ok (.grant n m clamped)) :
    ∃ t, EndsFreely (.openGrantEntry output profile staged minutes kind scope day second)
        (.done (doneOr clamped) (nat32 (t.profile n).remaining ++ nat16 (t.profile n).granted))
        (.profile n :: allJudged) s t
      ∧ t.profile n = grantedAccount (s.profile n) m
      ∧ ((s.profile n).allowance.isSome = true → (s.profile n).remaining = 0 → BoundUpToDate n t) := by
  obtain ⟨_, _, _, checked, same⟩ | ⟨_, _, same⟩ := checkStaged_passed h <;> cases same
  obtain ⟨idleImage, used, some_minutes, few⟩ := checkGrant_passed checked
  obtain ⟨c, posts⟩ := openGrantEntry_posts output profile staged minutes kind scope day second
  have owner := obeyOpenGrant_executes (s := markTaken c s) idle s.command.pointer
    ((checkStaged_markTaken ..).trans h) ha
  rw [executeStaged, executeGrant_granted (s := markTaken c s) idleImage used] at owner
  obtain ⟨t, ends, f⟩ := posts.ends hr owner (grant_within n m (markTaken c s) used).frame
  rw [grantData, ← ring_profile f] at ends
  exact ⟨t, ends, (ring_profile f n).trans (grant_granted few n _), fun limited spent o ho =>
    ring_upToDate f (grant_upToDate (s := markTaken c s) some_minutes used hr.1 ⟨limited, spent⟩ o
      (by rwa [ring_context f] at ho))⟩

/-- R103, R166 step 5: a staged push under authority. -/
theorem openGrantEntry_pushes {q : StagedPush}
    (h : checkStaged output profile staged minutes kind scope day second s = .ok (.push q)) :
    ∃ t, EndsFreely (.openGrantEntry output profile staged minutes kind scope day second)
        (.done (doneOr q.clamped)
          (nat8 ((s.context q.output).stack.length + 1)
            ++ (match q.endTime with
              | some u => localField u
              | none => [])
            ++ nat8 1))
        (.stack q.output :: judgedParts q.output) s t
      ∧ (t.context q.output).stack
        = ⟨q.kind, q.scope, q.key, q.event, q.endTime, .live, .staged⟩ :: (s.context q.output).stack
      ∧ UpToDate t q.output := by
  obtain ⟨_, _, _, _, same⟩ | ⟨_, checked, same⟩ := checkStaged_passed h <;> cases same
  obtain ⟨c, posts⟩ := openGrantEntry_posts output profile staged minutes kind scope day second
  have owner := obeyOpenGrant_executes (s := markTaken c s) idle s.command.pointer
    ((checkStaged_markTaken ..).trans h) ha
  have within := executePush_within q (markTaken c s)
  have executed := executePush_checked (s := markTaken c s) checked
  rw [executed] at within
  rw [executeStaged, executed, pushEntry_eq, pushData_restacked] at owner
  obtain ⟨t, ends, f⟩ := posts.ends hr owner within.frame
  exact ⟨t, ends, by rw [ring_context f, restacked_stack]; rfl, ring_upToDate f (evaluate_upToDate _ _ hr.1)⟩

end

end

/-- Settles O41: what each purpose does in each state of the matcher, with and without authority. -/
theorem pinEntriesAreOpened : Obligations.PinEntriesAreOpened := by
  unfold Obligations.PinEntriesAreOpened
  refine fun s hr room => ⟨fun i row => ⟨fun locked => ?locked, ?busy⟩, fun idle =>
    ⟨openSessionEntry_opens hr idle, fun ha => ?session, fun ha => ?unauthorised, fun ha => ?change, ?grant⟩⟩
  case locked => exact entryRow_refused hr row (by rw [locked]; rfl)
  case busy =>
    rintro (entering | entering | entering)
    all_goals exact entryRow_refused hr row (by rw [entering]; rfl)
  case session =>
    obtain ⟨c, posts⟩ := openSessionEntry_posts
    exact posts.begins hr room (fun _ => not_authority (by simp [ha]))
      (obeyOpenSession_begins (s := markTaken c s) idle _ ha)
  case unauthorised =>
    obtain ⟨c, posts⟩ := openPinChangeEntry_posts
    exact posts.refuses hr (obeyOpenPinChange_refused (s := markTaken c s) idle _ ha)
  case change =>
    obtain ⟨c, posts⟩ := openPinChangeEntry_posts
    exact posts.begins hr room (fun other => absurd rfl other) (obeyOpenPinChange_begins (s := markTaken c s) idle _ ha)
  case grant =>
    rintro _ o p k m kind scope day second rfl
    refine ⟨fun e => openGrantEntry_refused hr idle, fun a h => ⟨fun ha => ?_, fun ha => ⟨?_, ?_⟩⟩⟩
    · obtain ⟨c, posts⟩ := openGrantEntry_posts o p k m kind scope day second
      exact posts.begins hr room (fun _ => not_authority (by simp [ha]))
        (obeyOpenGrant_begins (s := markTaken c s) idle _ ((checkStaged_markTaken ..).trans h) ha)
    · rintro n g clamped rfl
      exact openGrantEntry_grants hr idle ha h
    · rintro q rfl
      exact openGrantEntry_pushes hr idle ha h

/-! ### CLOSE_SESSION and SET_SESSION_LENGTH (R174) -/

theorem closeSession_posts : ∃ c, PostsFreely .closeSession c fun _ => obeyCloseSession :=
  ⟨_, rfl, fun _ => rfl, fun _ _ => rfl⟩

section
variable {s : State} (hr : RingReady s)
include hr

theorem closeSession_closes (opened : s.pin.sessionOpen = true) :
    ∃ t, EndsFreely .closeSession (.done .doneOk []) sessionParts s t
      ∧ t.pin.sessionOpen = false ∧ t.pin.sessionRemaining = 0 ∧ Noted .sessionClosed 0 t := by
  obtain ⟨c, posts⟩ := closeSession_posts
  obtain ⟨t, ends, f⟩ := posts.ends hr rfl (closeSession_within (markTaken c s)).frame
  refine ⟨t, ends, (f .session (by simp)).trans (closeSession_closed _), (f .sessionRemaining (by simp)).trans ?_,
    ring_noted f (closeSession_noted (by exact hr.1) (by exact opened))⟩
  rw [closeSession_pin, markTaken_pin, if_pos opened]

theorem closeSession_idle (closed : s.pin.sessionOpen = false) :
    ∃ t, EndsFreely .closeSession (.done .doneOk []) [] s t := by
  obtain ⟨c, posts⟩ := closeSession_posts
  have stands : closeSession (markTaken c s) = markTaken c s := if_neg (by simp [markTaken_pin, closed])
  obtain ⟨t, ends, -⟩ := posts.ends hr (u := markTaken c s) (by rw [obeyCloseSession, stands]; rfl) (.refl [] _)
  exact ⟨t, ends⟩

end

/-- R174: the length written, clamped, is the full length that an open session runs again. -/
theorem obeySetSessionLength_eq (seconds : Half) (s : State) :
    obeySetSessionLength seconds s
      = (s.putPin { s.pin with
          sessionLength := max 60 (min 1800 seconds.toNat)
          sessionRemaining :=
            if s.pin.sessionOpen = true then max 60 (min 1800 seconds.toNat) else s.pin.sessionRemaining },
        .done (doneOr (decide (seconds.toNat < 60 ∨ 1800 < seconds.toNat))) []) := by
  have moved : decide (max 60 (min 1800 seconds.toNat) ≠ seconds.toNat)
      = decide (seconds.toNat < 60 ∨ 1800 < seconds.toNat) := by
    rw [decide_eq_decide]
    omega
  rw [obeySetSessionLength, clampIn_eq (by decide), moved]
  by_cases opened : s.pin.sessionOpen = true
  · simp [complete, slideSession, opened, State.putPin]
  · simp [complete, slideSession, opened, State.putPin]

theorem atOwner_pin_closed {c : Command} {s : State} (closed : ¬ s.pin.sessionOpen = true) :
    (atOwner c s).pin = s.pin := by
  unfold atOwner
  split
  · rw [slideSession, if_neg (by rwa [markTaken_pin])]
    rfl
  · rfl

theorem setSessionLength_row {seconds : Half} {s : State} (hr : Ready (.setSessionLength seconds) s) :
    ∃ t, EndsFreely (.setSessionLength seconds)
        (.done (doneOr (decide (seconds.toNat < 60 ∨ 1800 < seconds.toNat))) [])
        [.sessionLength, .sessionRemaining] s t
      ∧ t.pin.sessionLength = max 60 (min 1800 seconds.toNat)
      ∧ t.pin.sessionRemaining
        = if s.pin.sessionOpen = true then t.pin.sessionLength else s.pin.sessionRemaining := by
  have owner := obeySetSessionLength_eq seconds (atOwner (.setSessionLength seconds) s)
  have frame := (obeySetSessionLength_within seconds (atOwner (.setSessionLength seconds) s)).frame
  rw [owner] at frame
  obtain ⟨t, row, ⟨unit, took⟩, f⟩ := took_of_obey (c := .setSessionLength seconds) rfl hr (by simp) owner frame
  have length : t.pin.sessionLength = max 60 (min 1800 seconds.toNat) := f .sessionLength (by simp)
  refine ⟨t, ⟨row, _, rfl, unit, took.mono (by simp)⟩, length, (f .sessionRemaining (by simp)).trans ?_⟩
  have opened : (atOwner (.setSessionLength seconds) s).pin.sessionOpen = s.pin.sessionOpen :=
    atOwner_frame _ s .session (by simp)
  rw [length, putPin_pin, opened]
  split
  · rfl
  · next closed => rw [atOwner_pin_closed closed]

/-- Settles O42: CLOSE_SESSION with and without an open session, and SET_SESSION_LENGTH. -/
theorem sessionsAreClosedAndMeasured : Obligations.SessionsAreClosedAndMeasured := by
  unfold Obligations.SessionsAreClosedAndMeasured
  refine fun s => ⟨closeSession_closes, closeSession_idle, fun n => setSessionLength_row⟩

end Sys2Proof.Machine
end

section
/-! PROOF. What every host command leaves alone (R178 to R181), and the commands of the command ring and the report
unit (R180, R183, R184, R186): the null command, SELECT_VIEW, SET_NOTICE_MASK and SET_ATTENTION. -/

namespace Sys2Proof.Machine

open Sys2Proof

/-! ### A refused FACTORY_CLEAR (R180) -/

/-- R181: the command unit after a take whose owner left it alone. -/
theorem takeEnd_markTaken_command (c : Command) (r : Response) (s : State) :
    (advancePointer ((markTaken c s).putResult s.command.pointer (resultAt (hostRecord c s) r))).command
      = takenUnit c r s := by
  simp only [advancePointer, State.putResult, State.putSlot, takenUnit, markTaken, State.slot, Fin.getElem_fin,
    Vector.getElem_set_self, Vector.set_set]

theorem authority_markTaken (c : Command) (s : State) : authority (markTaken c s) = authority s := rfl

/-- R176, R180: FACTORY_CLEAR is always privileged, and without authority it clears nothing. -/
theorem factoryClear_refused {s : State} (hr : RingReady s) (ha : authority s = false) :
    Refuses .factoryClear .notAuthorised s := by
  have judged : judgeCommand s.command.pointer .factoryClear (markTaken .factoryClear s)
      = refuse .notAuthorised (markTaken .factoryClear s) :=
    judgeCommand_refused _ _ _ (privileged_markTaken .factoryClear .factoryClear s)
      ((authority_markTaken _ s).trans ha)
  have posted := hostPosts_eq .factoryClear s hr
  rw [judged] at posted
  have row : exec .factoryClear s = .next (hostPosts .factoryClear s) := by rw [exec_host rfl, whileRunning_eq hr.1]
  have closed : s.pin.sessionOpen = false := not_authority (by simp [ha])
  refine ⟨hostPosts .factoryClear s, row, .factoryClear, rfl, ⟨?_, ?_⟩, ?_⟩
  · rw [posted]
    exact takeEnd_markTaken_command ..
  · rw [posted]
    exact ((markTaken_frame _ s).trans (takeEnd_frame s _ _)).mono fun p hp => List.mem_append_left _ hp
  · rw [posted, slidRemaining, closed, Bool.and_false]
    rfl

/-- Settles O27: a ready slot is taken at once, its owner touches its own parts, and a privileged command without
authority touches none. -/
theorem hostCommandsTouchOnlyTheirParts : Obligations.HostCommandsTouchOnlyTheirParts := by
  unfold Obligations.HostCommandsTouchOnlyTheirParts
  refine fun i c s hi hr => ⟨fun hc => ?taken, fun hp ha => ?refused⟩
  case taken =>
    have row : exec i s = .next (hostPosts c s) := by rw [exec_host hi, whileRunning_eq hr.1]
    exact ⟨_, _, row, c, hi, hostPosts_took c s hr hc⟩
  case refused =>
    by_cases clears : c = .factoryClear
    · obtain rfl := eq_factoryClear_of_commandOf (clears ▸ hi)
      exact factoryClear_refused hr ha
    · exact refuses_without_authority hi hr clears hp ha

/-! ### SELECT_VIEW (R183) -/

theorem outputOf_selects {b : Byte} (h : b.toNat ≤ 2) : ∃ o, outputOf b = some o ∧ outputCode o = b.toNat := by
  have named : ∃ o, outputCode o = b.toNat := by
    generalize b.toNat = n at h
    interval_cases n
    exacts [⟨.primary, rfl⟩, ⟨.secondary, rfl⟩, ⟨.remote, rfl⟩]
  obtain ⟨o, code⟩ := named
  exact ⟨o, outputOf_code code, code⟩

/-- R183: a kind outside the list, or a number outside its kind's range, selects no view. -/
theorem viewOf_none {kind number : Byte} (key : ServiceKey)
    (h : 9 < kind.toNat ∨ (kind = 1 ∧ 7 < number.toNat) ∨ (kind = 2 ∧ 2 < number.toNat)
      ∨ (kind = 3 ∧ 63 < number.toNat) ∨ (kind = 8 ∧ 8 < number.toNat)) : viewOf kind number key = none := by
  obtain high | ⟨rfl, high⟩ | ⟨rfl, high⟩ | ⟨rfl, high⟩ | ⟨rfl, high⟩ := h
  · unfold viewOf
    split
    case h_11 => rfl
    all_goals omega
  · show (profileSlotOf number).map _ = none
    rw [profileSlotOf_none high]
    rfl
  · show (outputOf number).map _ = none
    rw [outputOf_none high]
    rfl
  · exact dif_neg (Nat.not_lt.2 high)
  · exact dif_neg (Nat.not_lt.2 high)

/-- R183: the view that a legal kind and number select. -/
theorem viewOf_some {kind number : Byte} (key : ServiceKey) (legal : kind.toNat ≤ 9)
    (profile : kind = 1 → number.toNat ≤ 7) (output : kind = 2 → number.toNat ≤ 2)
    (slot : kind = 3 → number.toNat ≤ 63) (scheme : kind = 8 → number.toNat ≤ 8) :
    ∃ v, viewOf kind number key = some v ∧ (viewCode v).1 = kind.toNat
      ∧ (kind = 1 ∨ kind = 2 ∨ kind = 3 ∨ kind = 8 → (viewCode v).2 = number.toNat)
      ∧ (kind = 4 → v = .ratingKey key) := by
  obtain ⟨k, hk⟩ : ∃ k : Fin 10, kind = BitVec.ofNat 8 k.val := ⟨⟨kind.toNat, by omega⟩, by simp⟩
  subst hk
  fin_cases k
  · exact ⟨.none, rfl, rfl, by simp, by simp⟩
  · have lt : number.toNat < 8 := Nat.lt_succ_of_le (profile rfl)
    refine ⟨.profile ⟨number.toNat, lt⟩, ?_, rfl, fun _ => rfl, by simp⟩
    show (profileSlotOf number).map _ = _
    rw [profileSlotOf, dif_pos lt]
    rfl
  · obtain ⟨o, named, code⟩ := outputOf_selects (output rfl)
    refine ⟨.output o, ?_, rfl, fun _ => code, by simp⟩
    show (outputOf number).map _ = _
    rw [named]
    rfl
  · have lt : number.toNat < 64 := Nat.lt_succ_of_le (slot rfl)
    exact ⟨.ratingSlot ⟨number.toNat, lt⟩, dif_pos lt, rfl, fun _ => rfl, by simp⟩
  · exact ⟨.ratingKey key, rfl, rfl, by simp, fun _ => rfl⟩
  · exact ⟨.windows, rfl, rfl, by simp, by simp⟩
  · exact ⟨.intake, rfl, rfl, by simp, by simp⟩
  · exact ⟨.panel, rfl, rfl, by simp, by simp⟩
  · have lt : number.toNat < 9 := Nat.lt_succ_of_le (scheme rfl)
    exact ⟨.scheme ⟨number.toNat, lt⟩, dif_pos lt, rfl, fun _ => rfl, by simp⟩
  · exact ⟨.image, rfl, rfl, by simp, by simp⟩

section
variable {kind number : Byte} {key : ServiceKey} {s : State}

theorem obeySelectView_refused (h : viewOf kind number key = none) :
    obeySelectView kind number key s = refuse .badField s := by
  rw [obeySelectView, h]

theorem obeySelectView_selects {v : ViewSelection} (h : viewOf kind number key = some v) :
    obeySelectView kind number key s = complete false [] { s with report := { s.report with view := v } } := by
  rw [obeySelectView, h]

end

/-! ### SET_ATTENTION (R186) -/

/-- R186: the levels as they are clamped, the line judged against the queue as it stands. -/
theorem obeySetAttention_eq (level urgent : Byte) (s : State) :
    obeySetAttention level urgent s
      = complete (decide (level = 0 ∨ 32 < level.toNat ∨ 6 < urgent.toNat)) []
          { s with
            report := ReportUnit.judged
              { s.report with level := max 1 (min 32 level.toNat), urgent := min 6 urgent.toNat } } := by
  have zero : level = 0 ↔ level.toNat = 0 := ⟨fun e => e ▸ rfl, fun e => BitVec.eq_of_toNat_eq e⟩
  have clamped : (decide (max 1 (min 32 level.toNat) ≠ level.toNat) || decide (6 < urgent.toNat))
      = decide (level = 0 ∨ 32 < level.toNat ∨ 6 < urgent.toNat) := by
    rw [← Bool.decide_or, decide_eq_decide, zero]
    omega
  simp only [obeySetAttention, clampIn_eq (show 1 ≤ 32 by omega), clampTo_eq, clamped]

/-! ### The rows -/

section
variable {s : State} (hr : RingReady s)
include hr

theorem nullCommand_row : ∃ t, Ends .nullCommand (.done .doneOk []) [] s t := by
  obtain ⟨t, ends, -⟩ := ends_of_obey (i := .nullCommand) rfl (ready_of_public rfl rfl hr) (by simp)
    (by simp [commandParts]) rfl (.refl [] _)
  exact ⟨t, ends⟩

theorem selectView_refused {kind number : Byte} {network stream service : Half}
    (h : viewOf kind number ⟨network, stream, service⟩ = none) :
    Refuses (.selectView kind number network stream service) .badField s :=
  refuses_of_obey rfl (ready_of_public rfl rfl hr) (by simp) (by simp [commandParts]) (obeySelectView_refused h)

theorem selectView_selects {kind number : Byte} {network stream service : Half} {v : ViewSelection}
    (h : viewOf kind number ⟨network, stream, service⟩ = some v) :
    ∃ t, Ends (.selectView kind number network stream service) (.done .doneOk []) [.view] s t
      ∧ t.report.view = v := by
  let c : Command := .selectView kind number network stream service
  have ready : Ready (.selectView kind number network stream service) s := ready_of_public (c := c) rfl rfl hr
  have owner := obeySelectView_selects (s := atOwner c s) h
  have frame := (obeySelectView_within kind number ⟨network, stream, service⟩ (atOwner c s)).frame
  rw [owner] at frame
  obtain ⟨t, ends, left⟩ := ends_of_obey (c := c) rfl ready (by simp [c])
    (by simp [c, commandParts]) owner frame
  exact ⟨t, ends, left .view (by simp)⟩

theorem setNoticeMask_refused {mask : Word} (h : mask &&& 0xFFF80001 ≠ 0) :
    Refuses (.setNoticeMask mask) .badField s :=
  refuses_of_obey rfl (ready_of_public rfl rfl hr) (by simp) (by simp [commandParts]) (if_pos h)

theorem setNoticeMask_writes {mask : Word} (h : mask &&& 0xFFF80001 = 0) :
    ∃ t, Ends (.setNoticeMask mask) (.done .doneOk []) [.masks] s t ∧ t.report.masks = mask := by
  have ready : Ready (.setNoticeMask mask) s := ready_of_public (c := .setNoticeMask mask) rfl rfl hr
  let u := atOwner (.setNoticeMask mask) s
  have owner : obeySetNoticeMask mask u = complete false [] { u with report := { u.report with masks := mask } } :=
    if_neg (not_not.2 h)
  have frame := (obeySetNoticeMask_within mask u).frame
  rw [owner] at frame
  obtain ⟨t, ends, left⟩ := ends_of_obey (c := .setNoticeMask mask) rfl ready (by simp)
    (by simp [commandParts]) owner frame
  exact ⟨t, ends, left .masks (by simp)⟩

theorem setAttention_row (level urgent : Byte) :
    ∃ t, Ends (.setAttention level urgent)
        (.done (doneOr (decide (level = 0 ∨ 32 < level.toNat ∨ 6 < urgent.toNat))) []) [.attentionLevels, .notices] s t
      ∧ t.report.level = max 1 (min 32 level.toNat) ∧ t.report.urgent = min 6 urgent.toNat
      ∧ t.report.queue = s.report.queue
      ∧ (t.report.attention = true ↔ t.report.level ≤ t.report.queue.length
          ∨ ∃ n ∈ t.report.queue, t.report.urgent ≤ noticeClass n.kind) := by
  have ready : Ready (.setAttention level urgent) s := ready_of_public (c := .setAttention level urgent) rfl rfl hr
  let u := atOwner (.setAttention level urgent) s
  have owner := obeySetAttention_eq level urgent u
  have frame := (obeySetAttention_within level urgent u).frame
  rw [owner] at frame
  obtain ⟨t, ends, left⟩ := ends_of_obey (c := .setAttention level urgent) rfl ready (by simp)
    (by simp [commandParts]) owner frame
  obtain ⟨levels, urgents⟩ := left .attentionLevels (by simp)
  obtain ⟨queue, line⟩ := left .notices (by simp)
  obtain ⟨before, -⟩ := atOwner_frame (.setAttention level urgent) s .notices (by simp)
  refine ⟨t, ends, levels, urgents, queue.trans before, ?_⟩
  rw [line, levels, urgents, queue]
  exact asserted_iff _

end

/-- Settles O44: the owners' answers, put through their rows. -/
theorem reportCommandsWriteTheirRegisters : Obligations.ReportCommandsWriteTheirRegisters := by
  unfold Obligations.ReportCommandsWriteTheirRegisters
  refine fun s hr => ⟨nullCommand_row hr, ?views, fun mask => ⟨setNoticeMask_refused hr, setNoticeMask_writes hr⟩,
    setAttention_row hr⟩
  case views =>
    rintro _ kind number network stream service rfl
    refine ⟨fun h => selectView_refused hr (viewOf_none _ h), fun legal profile output slot scheme => ?_⟩
    obtain ⟨v, selected, code, numbered, keyed⟩ :=
      viewOf_some ⟨network, stream, service⟩ legal profile output slot scheme
    obtain ⟨t, ends, rfl⟩ := selectView_selects hr selected
    exact ⟨t, ends, code, numbered, keyed⟩

end Sys2Proof.Machine
end

section
/-! PROOF. Records that are rewritten and codes that name no command (R178 to R181): a rewrite is ignored where no
take waits at the pointer, one that does wait is set going by it, and an unknown code is answered BAD_CODE. -/

namespace Sys2Proof.Machine

open Sys2Proof

/-! ### One take (R179) -/

/-- R179: the chain ends after one take where the next slot does not wait. -/
theorem runRing_once {s : State} {record : List Byte} (waits : takeable s = some record)
    (next : (s.slot (s.command.pointer + 1)).state ≠ .posted) : runRing s = takeRecord record s := by
  have other : s.command.pointer + 1 ≠ s.command.pointer := by simp
  have stops : ((takeRecord record s).slot (takeRecord record s).command.pointer).state ≠ .posted := by
    rw [takeRecord_pointer, (takeRecord_slot_other record s other).2.1]
    exact next
  exact (runRing_take waits).trans (runRing_quiet stops)

/-! ### A record written whole to a slot (R3, R178) -/

section
variable {s : State} {p : Fin 16} {record : List Byte} (len : record.length = 32)
include len

/-- The command unit's part of a record written to a slot: the shadow, the capture, and the ring. -/
theorem snoopControl_slot (h : ShadowLaw s) :
    snoopControl (s.inputs.commandBase + 32 * p.val) (record.map (fun b => (b, true))) s
      = runRing (capture p record (copyToShadow (32 * p.val) (record.map (fun b => (b, true))) s)) := by
  have hp := p.isLt
  have part : partWithin s.inputs.commandBase Config.commandWindowSize (s.inputs.commandBase + 32 * p.val)
      (record.map (fun b => (b, true))) = some (s.inputs.commandBase + 32 * p.val, record.map (fun b => (b, true))) :=
    partWithin_inside (fun e => by simp [List.map_eq_nil_iff.1 e] at len) (by omega)
      (by simp only [List.length_map, len, Config.commandWindowSize]; omega)
  have read_back : shadowRecord (copyToShadow (32 * p.val) (record.map (fun b => (b, true))) s) p = record := by
    have := Memory.readRun_writeRun h.1 (32 * p.val) record
    rwa [len] at this
  rw [snoopControl_inside part, Nat.add_sub_cancel_left, snoopWindow, postedBy_record len, List.foldl_cons,
    List.foldl_nil, postSlot, read_back]

variable (fits : s.inputs.commandBase + Config.commandWindowSize ≤ Config.addressSpace)
include fits

omit len in
theorem recordBurst_start :
    (BitVec.ofNat 32 (s.inputs.commandBase + 32 * p.val)).toNat = s.inputs.commandBase + 32 * p.val := by
  have hp := p.isLt
  simp only [Config.commandWindowSize, Config.addressSpace] at fits
  rw [BitVec.toNat_ofNat, Nat.mod_eq_of_lt (by omega)]

theorem recordBurst_ok :
    burstOk (BitVec.ofNat 32 (s.inputs.commandBase + 32 * p.val)) (record.map (fun b => (b, true))).length = true := by
  have hp := p.isLt
  have start := recordBurst_start (p := p) fits
  simp only [Config.commandWindowSize, Config.addressSpace] at fits
  simp only [burstOk, start, List.length_map, len, Config.addressSpace, decide_eq_true_eq]
  omega

/-- R178: a record whose toggle its slot does not expect reaches the shadow only; then the ring goes on. -/
theorem exec_rewrite (hr : Running s) (h : ShadowLaw s) (toggle : recordToggle record ≠ (s.slot p).expected) :
    exec (.controlWriteBurst (BitVec.ofNat 32 (s.inputs.commandBase + 32 * p.val)) (record.map (fun b => (b, true)))) s
      = .next (runRing (copyToShadow (32 * p.val) (record.map (fun b => (b, true))) (s.putOut
          (.writeToMemory .control (s.inputs.commandBase + 32 * p.val) (record.map (fun b => (b, true))))))) := by
  refine (ifBurst_running hr (recordBurst_ok len fits)).trans (congrArg _ ?_)
  rw [recordBurst_start fits]
  exact (snoopControl_slot (s := s.putOut _) len h).trans (congrArg runRing (if_neg toggle))

/-- R178: where no take waits at the pointer, a rewrite is ignored. -/
theorem rewrite_ignored (hr : Running s) (h : ShadowLaw s) (toggle : recordToggle record ≠ (s.slot p).expected)
    (still : takeable s = none) :
    ∃ t, exec (.controlWriteBurst (BitVec.ofNat 32 (s.inputs.commandBase + 32 * p.val))
        (record.map (fun b => (b, true)))) s = .next t ∧ Frame [.transfers, .shadow] s t := by
  refine ⟨_, exec_rewrite len fits hr h toggle, ?_⟩
  rw [runRing_stop (by exact still)]
  exact ((putOut_within _ s).frame.mono (by simp)).trans ((copyToShadow_frame _ _ _).mono (by simp))

/-- R180, R181: a code that names no command is answered BAD_CODE at its take. -/
theorem unknownCode_answered (h : ShadowLaw s) (hr : RingReady s) (pointed : p = s.command.pointer)
    (toggle : recordToggle record = (s.slot p).expected) (unknown : Command.decode record = none) :
    ∃ t, exec (.controlWriteBurst (BitVec.ofNat 32 (s.inputs.commandBase + 32 * p.val))
        (record.map (fun b => (b, true)))) s = .next t
      ∧ t.slot p = ⟨!(s.slot p).expected, .taken, none, ⟨.done, byteAt record 0, recordToggle record, .badCode, []⟩⟩
      ∧ t.command.pointer = p + 1 ∧ Frame (.transfers :: ringParts s) s t := by
  obtain ⟨running, free, next⟩ := hr
  subst pointed
  let w := s.putOut (.writeToMemory .control (s.inputs.commandBase + 32 * s.command.pointer.val)
    (record.map (fun b => (b, true))))
  let u := recordPosted s.command.pointer record w
  have slot : u.slot s.command.pointer = { s.slot s.command.pointer with state := .posted, captured := some record } :=
    recordPosted_slot ..
  have waits : takeable u = some record := by
    rw [takeable_at (t := u) (p := s.command.pointer) rfl slot, if_pos ⟨rfl, free⟩]
  have refused := judgeRecord32_refused (s := u) (.inl ⟨unknown, rfl⟩)
  have posted : Frame (.transfers :: ringParts s) s u :=
    ((putOut_within _ s).frame.mono (by simp)).trans ((recordPosted_frame _ record w).mono (by simp))
  have taken : Frame (.transfers :: ringParts s) u (takeRecord record u) :=
    (takeRecord_refused refused).2.mono (by simp [show u.command.pointer = s.command.pointer from rfl])
  have still : u.slot (s.command.pointer + 1) = s.slot (s.command.pointer + 1) := posted (.slot _) (by simp)
  refine ⟨takeRecord record u, ?_, ?_, takeRecord_pointer record u, posted.trans taken⟩
  · have next' : (u.slot (u.command.pointer + 1)).state ≠ .posted := by
      rw [show u.command.pointer = s.command.pointer from rfl, still]
      exact next
    rw [exec_record running h len fits toggle]
    exact congrArg _ (runRing_once waits next')
  · refine (takeRecord_slot_self record u).trans ?_
    rw [refused, show u.slot u.command.pointer = _ from slot]
    rfl

end

/-! ### A take left waiting -/

/-- A state in which the slot at the pointer is POSTED and may be taken, and has not been. -/
def takeWaiting : State := State.reset.putSlot 0 ⟨false, .posted, some (Command.encode .null false), .idle⟩

/-- A null command with the toggle that no slot of that state expects. -/
def unexpectedRecord : List Byte := Command.encode .null true

theorem takeWaiting_shadow : ShadowLaw takeWaiting := ⟨by decide, by decide⟩

/-- R179: any post lets the ring go on, and the pointer passes the take that waited. -/
theorem takeWaiting_moves (w : LaneOut) (bytes : List (Byte × Bool)) :
    (runRing (copyToShadow 32 bytes (takeWaiting.putOut w))).command.pointer ≠ takeWaiting.command.pointer := by
  have waits : takeable (copyToShadow 32 bytes (takeWaiting.putOut w)) = some (Command.encode .null false) := rfl
  rw [runRing_once waits (show SlotState.free ≠ .posted by decide), takeRecord_pointer]
  show (0 + 1 : Fin 16) ≠ 0
  decide

/-- Refutes O18: the statement asks of the ring only that the reset input is not asserted. In a state where the slot at
the pointer is POSTED and free to be taken, the ignored rewrite of another slot lets the ring go on, and the
pointer moves. Where no take waits, `rewrite_ignored` holds; `unknownCode_answered` is the statement's second half. -/
theorem not_rewritesAreIgnoredAndUnknownCodesAnswered : ¬ Obligations.RewritesAreIgnoredAndUnknownCodesAnswered := by
  unfold Obligations.RewritesAreIgnoredAndUnknownCodesAnswered
  intro h
  have len : unexpectedRecord.length = 32 := by decide
  have fits : takeWaiting.inputs.commandBase + Config.commandWindowSize ≤ Config.addressSpace := by decide
  have toggle : recordToggle unexpectedRecord ≠ (takeWaiting.slot 1).expected := by decide
  obtain ⟨t, row, frame⟩ := (h takeWaiting 1 unexpectedRecord takeWaiting_shadow len fits).1 rfl toggle
  rw [exec_rewrite len fits rfl takeWaiting_shadow toggle] at row
  cases row
  exact takeWaiting_moves _ _ (frame .pointer (by simp))

end Sys2Proof.Machine
end

section
/-! PROOF. The layout of records (section 12.4, R181 to R185, R187, R188): where a record that is made of fields holds
each of them, the result, summary, notice and identification records, and the map of the report window. -/

namespace Sys2Proof.Machine

open Sys2Proof

/-! ### Fields that a record holds -/

theorem holds_iff_append {record field : List Byte} {i : Nat} :
    Holds record i field ↔ ∃ before after, record = before ++ (field ++ after) ∧ before.length = i := by
  refine ⟨fun ⟨fits, part⟩ => ⟨record.take i, record.drop (i + field.length), ?_, ?_⟩, ?_⟩
  · have rest : field ++ record.drop (i + field.length) = record.drop i := by
      conv_rhs => rw [← List.take_append_drop field.length (record.drop i), part, List.drop_drop]
    rw [rest, List.take_append_drop]
  · rw [List.length_take]
    omega
  · rintro ⟨before, after, rfl, rfl⟩
    exact holds_between before field after

theorem holds_whole (record : List Byte) : Holds record 0 record :=
  holds_iff_append.2 ⟨[], [], by simp, rfl⟩

section
variable {record field : List Byte} {i : Nat} (h : Holds record i field)
include h

theorem Holds.append (rest : List Byte) : Holds (record ++ rest) i field := by
  obtain ⟨before, after, rfl, rfl⟩ := holds_iff_append.1 h
  exact holds_iff_append.2 ⟨before, after ++ rest, by simp, rfl⟩

theorem Holds.shift (front : List Byte) : Holds (front ++ record) (front.length + i) field := by
  obtain ⟨before, after, rfl, rfl⟩ := holds_iff_append.1 h
  exact holds_iff_append.2 ⟨front ++ before, after, by simp, by simp⟩

/-- A part of a field is held where it lies in the field. -/
theorem Holds.inner {part : List Byte} {j : Nat} (k : Holds field j part) : Holds record (i + j) part := by
  obtain ⟨before, after, rfl, rfl⟩ := holds_iff_append.1 h
  obtain ⟨ahead, behind, rfl, rfl⟩ := holds_iff_append.1 k
  exact holds_iff_append.2 ⟨before ++ ahead, behind ++ after, by simp, by simp⟩

theorem Holds.padTo {n : Nat} (fits : i + field.length ≤ n) : Holds (padTo n record) i field := by
  obtain ⟨-, part⟩ := h.append (List.replicate n 0)
  refine ⟨by rw [padTo_length]; exact fits, ?_⟩
  rw [Machine.padTo, List.drop_take, List.take_take, Nat.min_eq_left (by omega)]
  exact part

theorem Holds.getElem? {k : Nat} (hk : k < field.length) : record[i + k]? = field[k]? := by
  rw [← List.getElem?_drop, ← List.getElem?_take_of_lt hk, h.2]

theorem Holds.zeroFrom {low high : Nat} (zero : ZeroFrom field low high) (fits : high ≤ field.length) :
    ZeroFrom record (i + low) (i + high) := fun a above below => by
  obtain ⟨k, rfl⟩ := Nat.exists_eq_add_of_le (show i ≤ a by omega)
  rw [h.getElem? (by omega)]
  exact zero k (by omega) (by omega)

theorem Holds.slice {n : Nat} (len : field.length = n) : (record.drop i).take n = field := len ▸ h.2

/-- The fields of a field are held where they lie in it. -/
theorem Holds.all {parts : List (Nat × List Byte)} (k : HoldsAll field parts) :
    HoldsAll record (parts.map (fun f => (i + f.1, f.2))) := by
  intro f hf
  obtain ⟨g, hg, rfl⟩ := List.mem_map.1 hf
  exact h.inner (k g hg)

end

/-- Zeros that a record holds. -/
theorem Holds.zeros {record : List Byte} {i n : Nat} (h : Holds record i (List.replicate n 0)) :
    ZeroFrom record i (i + n) :=
  h.zeroFrom (low := 0) (fun k _ hk => List.getElem?_replicate_of_lt hk) (by simp)

/-- R188: the bytes after the last field are zero. -/
theorem zeroFrom_padTo (n : Nat) (record : List Byte) : ZeroFrom (padTo n record) record.length n :=
  fun a above below => by
    rw [padTo, List.getElem?_take_of_lt below, List.getElem?_append_right above,
      List.getElem?_replicate_of_lt (by omega)]

/-- A record that fills its length has no zeros behind it. -/
theorem padTo_full {n : Nat} {record : List Byte} (h : record.length = n) : padTo n record = record :=
  List.take_left' h

theorem holdsAll_cons {record field : List Byte} {i : Nat} {rest : List (Nat × List Byte)} :
    HoldsAll record ((i, field) :: rest) ↔ Holds record i field ∧ HoldsAll record rest := List.forall_mem_cons

theorem holdsAll_nil {record : List Byte} : HoldsAll record [] := nofun

theorem HoldsAll.subset {record : List Byte} {fields some : List (Nat × List Byte)} (h : HoldsAll record fields)
    (sub : ∀ f ∈ some, f ∈ fields) : HoldsAll record some := fun f hf => h f (sub f hf)

/-- A record made of fields, one behind the other, holds each at its offset. -/
theorem holdsAll_of_laid {record : List Byte} {fields : List (Nat × List Byte)}
    (h : record = (fields.map (·.2)).flatten) (laid : laidFrom 0 (fields.map (·.2)) = fields) :
    HoldsAll record fields := by
  have held := holdsAll_laidFrom (fields.map (·.2)) []
  rwa [List.nil_append, ← h, List.length_nil, laid] at held

/-- R188: a record whose fields leave a gap ends with zeros. -/
theorem padTo_eq_append {n : Nat} (gap : Nat) {bytes : List Byte} (fits : bytes.length + gap = n) :
    padTo n bytes = bytes ++ List.replicate gap 0 := by
  rw [← fits, padTo, List.take_length_add_append, List.take_replicate, Nat.min_eq_left (Nat.le_add_left ..)]

theorem padTo_nil (n : Nat) : padTo n [] = List.replicate n 0 := by simp [padTo]

/-- Records of one length stand one behind the other. -/
theorem holds_flatten_map {α : Type} {f : α → List Byte} {n : Nat} (size : ∀ x, (f x).length = n) {l : List α}
    {k : Nat} {x : α} (h : l[k]? = some x) : Holds (l.map f).flatten (n * k) (f x) := by
  induction l generalizing k with
  | nil => simp at h
  | cons a l ih =>
    rw [List.map_cons, List.flatten_cons]
    cases k with
    | zero =>
      obtain rfl : a = x := by simpa using h
      exact holds_between [] (f a) _
    | succ k =>
      have held := (ih (k := k) (by simpa using h)).shift (f a)
      rwa [size, Nat.add_comm, ← Nat.mul_succ] at held

theorem flatten_map_length {α : Type} {f : α → List Byte} {n : Nat} (size : ∀ x, (f x).length = n) (l : List α) :
    (l.map f).flatten.length = n * l.length := by
  induction l with
  | nil => rfl
  | cons a l ih => rw [List.map_cons, List.flatten_cons, List.length_append, size, ih, List.length_cons, Nat.mul_succ,
      Nat.add_comm]

/-! ### Numbers and fields in bytes (R187) -/

/-- Eight bits of a number written in a word. -/
theorem extractLsb'_ofNat {w i : Nat} (x : Nat) (h : i + 8 ≤ w) :
    (BitVec.ofNat w x).extractLsb' i 8 = BitVec.ofNat 8 (x / 2 ^ i) := by
  refine BitVec.eq_of_getLsbD_eq fun k hk => ?_
  have inside : i + k < w := by omega
  rw [BitVec.getLsbD_extractLsb', BitVec.getLsbD_ofNat, BitVec.getLsbD_ofNat, Nat.testBit_div_two_pow, Nat.add_comm k i]
  simp [hk, inside]

theorem nat16_bytes (x : Nat) : nat16 x = [BitVec.ofNat 8 x, BitVec.ofNat 8 (x / 256)] := by
  rw [nat16, bytes16, extractLsb'_ofNat x (by decide), extractLsb'_ofNat x (by decide)]
  simp

theorem nat32_bytes (x : Nat) :
    nat32 x = [BitVec.ofNat 8 x, BitVec.ofNat 8 (x / 256), BitVec.ofNat 8 (x / 65536),
      BitVec.ofNat 8 (x / 16777216)] := by
  rw [nat32, bytes32, extractLsb'_ofNat x (by decide), extractLsb'_ofNat x (by decide),
    extractLsb'_ofNat x (by decide), extractLsb'_ofNat x (by decide)]
  simp

theorem bytes16_length (x : Half) : (bytes16 x).length = 2 := rfl

theorem keyField_length (k : ServiceKey) : (keyField k).length = 6 := rfl

theorem dayField4_eq (d : Option Nat) : dayField4 d = nat32 (d.getD 0xFFFFFFFF) := by cases d <;> rfl

/-! ### The records (R181, R183, R184, section 12.4) -/

theorem resultBytes_length (r : ResultRecord) : (resultBytes r).length = 32 := by
  rw [resultBytes, List.length_append, padTo_length, padTo_length]

/-- R181: the layout of a result record. -/
theorem resultBytes_laid (r : ResultRecord) :
    HoldsAll (resultBytes r)
      [(0, nat8 (resultStateCode r.state)), (1, [r.code]), (2, [flagByte r.toggle]),
        (3, nat8 (commandOutcomeCode r.outcome)), (4, List.replicate 4 0), (8, padTo 24 r.data)] :=
  holdsAll_of_laid (by simp [resultBytes, padTo_eq_append 4 (n := 8), nat8]) rfl

theorem outputBytes_length (c : OutputContext) : (outputBytes c).length = 4 := rfl

/-- R183: the layout of the summary record. -/
theorem summaryBytes_laid (s : State) :
    HoldsAll (summaryBytes s)
      [(0, nat32 s.time.run), (4, nat16 s.time.day), (6, nat8 (timeSourceCode s.time.source)),
        (7, nat8 (layoutStateCode s.lanes.layout)), (8, nat32 s.time.second),
        (12, bytes16 (BitVec.ofInt 16 s.time.offset)), (14, nat16 s.time.dayStart),
        (16, nat32 (s.time.profileDay.getD 0xFFFFFFFF)), (20, outputBytes s.outputs.primary),
        (24, outputBytes s.outputs.secondary), (28, outputBytes s.outputs.remote),
        (32, nat8 (matcherCode s.pin.matcher)), (33, nat8 s.pin.failures), (34, nat8 s.pin.step),
        (35, [flagByte s.pin.sessionOpen]), (36, nat16 s.pin.timer), (38, nat16 s.pin.sessionRemaining),
        (40, nat8 (imageCode s.image.operation)), (41, nat8 (flowStateCode s.intake.flow)),
        (42, nat8 (lampRecordCode s.panel.lampRecord)), (43, nat8 s.command.pointer.val), (44, nat8 (postedCount s)),
        (45, nat8 s.report.queue.length), (46, nat8 s.report.level), (47, nat8 s.report.urgent),
        (48, [flagByte s.report.attention]), (49, [flagByte s.report.lost]), (50, List.replicate 2 0),
        (52, bytes32 s.report.sticky), (56, List.replicate 8 0)] :=
 by
  refine holdsAll_of_laid ?_ rfl
  rw [summaryBytes, dayField4_eq, padTo_eq_append 8 (by
    simp only [List.length_append, nat8_length, nat16_length, nat32_length, bytes16_length, bytes32_length,
      outputBytes_length, List.length_cons, List.length_nil])]
  simp only [List.map_cons, List.map_nil, List.flatten_cons, List.flatten_nil, List.append_assoc, List.append_nil]
  rfl

/-- R183: an output in the summary. -/
theorem outputBytes_laid (c : OutputContext) :
    HoldsAll (outputBytes c)
      [(0, nat8 (verdictCode c.verdict)), (1, nat8 (reasonCode c.reason)), (2, [slotByte c.profile]),
        (3, [slotByte c.service])] := holdsAll_of_laid rfl rfl

theorem slots_toList (s : State) : s.command.slots.toList = (List.finRange 16).map s.slot := by
  refine List.ext_getElem (by simp) fun k hk _ => ?_
  simp [State.slot]

theorem postedCount_eq (s : State) :
    postedCount s = ((List.finRange 16).filter (fun n => decide ((s.slot n).state = .posted))).length := by
  rw [postedCount, slots_toList, List.filter_map, List.length_map]
  rfl

/-- R184, R185: the layout of a notice at the port. -/
theorem noticeBytes_laid (n : Notice) :
    HoldsAll (noticeBytes (some n))
      [(0, nat8 (noticeKindCode n.kind)), (1, nat8 (noticeClass n.kind)), (2, nat8 n.count), (3, [0]),
        (4, bytes32 n.subject), (8, nat32 n.stamp), (12, padTo 20 n.detail)] := by
  refine holdsAll_of_laid ?_ rfl
  rw [noticeBytes, padTo_full (by
    simp only [List.length_append, nat8_length, nat32_length, bytes32_length, padTo_length])]
  simp [nat8]

/-- R183: the layout of the identification record. -/
theorem identificationBytes_laid (i : Inputs) :
    HoldsAll (identificationBytes i)
      [(0, [0x4E, 0x47, 0x33, 0x43]), (4, bytes16 Config.revision), (6, [0, 0]), (8, nat32 i.commandBase),
        (12, nat32 i.reportBase), (16, nat32 (bitRateValue i.bitRate)), (20, [16, 4, 4, 8, 64, 8, 4, 16, 4, 32]),
        (30, nat16 4096), (32, List.replicate 32 0)] := holdsAll_of_laid rfl rfl

/-- Settles O24: each record is its fields, one behind the other. -/
theorem reportRecordsAreLaidOut : Obligations.ReportRecordsAreLaidOut := by
  unfold Obligations.ReportRecordsAreLaidOut
  refine ⟨?codes, fun x => ⟨rfl, nat16_bytes x, nat32_bytes x⟩, fun r short => ⟨resultBytes_length r, ?result⟩,
    fun s => ⟨padTo_length .., ?summary⟩, fun n short => ⟨noticeBytes_length _, ?notice⟩, rfl,
    fun i => ⟨padTo_length .., ?identification⟩⟩
  case codes =>
    exact ⟨rfl, rfl, rfl, rfl, rfl, rfl, rfl, rfl, rfl, rfl, rfl, rfl, rfl, fun _ => rfl, rfl, rfl, rfl, rfl,
      fun _ => rfl, rfl, rfl, rfl, rfl, rfl, fun _ => rfl, fun _ => rfl, fun _ => rfl, fun _ => rfl, fun _ => rfl,
      rfl, fun _ => rfl, rfl, fun _ => rfl, rfl⟩
  case result =>
    have laid := resultBytes_laid r
    have data := laid (8, padTo 24 r.data) (by simp)
    simp only [holdsAll_cons] at laid ⊢
    obtain ⟨state, code, toggle, outcome, zeros, -⟩ := laid
    exact ⟨⟨state, code, toggle, outcome, data.inner ((holds_whole r.data).padTo (n := 24) (by omega)), holdsAll_nil⟩,
      zeros.zeros, data.zeroFrom (zeroFrom_padTo 24 r.data) (by rw [padTo_length])⟩
  case summary =>
    have laid := summaryBytes_laid s
    rw [postedCount_eq] at laid
    have outputs : ∀ o, Holds (summaryBytes s) (20 + 4 * outputCode o) (outputBytes (s.context o))
      | .primary => laid (20, outputBytes s.outputs.primary) (by simp)
      | .secondary => laid (24, outputBytes s.outputs.secondary) (by simp)
      | .remote => laid (28, outputBytes s.outputs.remote) (by simp)
    refine ⟨laid.subset (by simp [flagByte] <;> rfl), fun o => ?_, (laid (50, List.replicate 2 0) (by simp)).zeros,
      (laid (56, List.replicate 8 0) (by simp)).zeros⟩
    have each := (outputs o).all (outputBytes_laid _)
    cases o <;> exact each
  case notice =>
    have laid := noticeBytes_laid n
    simp only [holdsAll_cons] at laid ⊢
    obtain ⟨kind, cls, count, gap, subject, stamp, detail, -⟩ := laid
    exact ⟨⟨kind, cls, count, gap, subject, stamp, detail.inner ((holds_whole n.detail).padTo (n := 20) (by omega)),
      holdsAll_nil⟩, detail.zeroFrom (zeroFrom_padTo 20 n.detail) (by rw [padTo_length])⟩
  case identification =>
    have laid := identificationBytes_laid i
    exact ⟨laid.subset (by simp <;> rfl), (laid (32, List.replicate 32 0) (by simp)).zeros⟩

/-! ### The report window (R182) -/

theorem resultTable_length (s : State) : (resultTable s).length = 0x200 := by
  rw [resultTable, flatten_map_length (f := fun c : CommandSlot => resultBytes c.result) fun _ => resultBytes_length _,
     Vector.length_toList]

/-- R182: slot n's result record stands at 32 n. -/
theorem resultTable_holds (s : State) (n : Fin 16) :
    Holds (resultTable s) (32 * n.val) (resultBytes (s.slot n).result) :=
  holds_flatten_map (f := fun c : CommandSlot => resultBytes c.result) (fun _ => resultBytes_length _)
    (by simp [State.slot])

/-- R185: what a read finds at the notice port. -/
def portBytes (s : State) (atPort : Bool) : List Byte :=
  if atPort then noticeBytes (bestNotice s.report.queue) else List.replicate 32 0

theorem portBytes_length (s : State) (atPort : Bool) : (portBytes s atPort).length = 0x20 := by
  cases atPort
  · rfl
  · exact noticeBytes_length _

/-- R182: the parts of the report window at their offsets. -/
theorem reportBytes_laid (s : State) (atPort : Bool) :
    HoldsAll (reportBytes s atPort)
      [(0, resultTable s), (0x200, summaryBytes s), (0x240, List.replicate 64 0), (0x280, portBytes s atPort),
        (0x2A0, List.replicate 96 0), (0x300, identificationBytes s.inputs), (0x340, List.replicate 192 0),
        (0x400, viewBytes s)] := by
  refine holdsAll_of_laid ?_ ?_
  · rw [reportBytes, padTo_full (resultTable_length s)]
    simp only [padTo_nil, portBytes, List.map_cons, List.map_nil, List.flatten_cons, List.flatten_nil,
      List.append_assoc, List.append_nil]
  · simp only [laidFrom, List.map_cons, List.map_nil, resultTable_length, portBytes_length, summaryBytes,
      identificationBytes, padTo_length, List.length_replicate, Nat.reduceAdd]

/-! ### The notice popped first (R185) -/

/-- One step of the choice: a later notice is better only where its class is higher. -/
def betterNotice (best : Option Notice) (n : Notice) : Option Notice :=
  match best with
  | some b => if noticeClass b.kind < noticeClass n.kind then some n else some b
  | none => some n

theorem bestNotice_eq (queue : List Notice) : bestNotice queue = queue.foldl betterNotice none := rfl

section
variable {n : Notice}

theorem betterNotice_of_higher {best : Option Notice}
    (h : ∀ b, best = some b → noticeClass b.kind < noticeClass n.kind) :
    betterNotice best n = some n := by
  cases best with
  | none => rfl
  | some b => exact if_pos (h b rfl)

theorem foldl_betterNotice_lower {queue : List Notice} (low : ∀ m ∈ queue, noticeClass m.kind < noticeClass n.kind)
    {best : Option Notice} (h : ∀ b, best = some b → noticeClass b.kind < noticeClass n.kind) :
    ∀ b, queue.foldl betterNotice best = some b → noticeClass b.kind < noticeClass n.kind := by
  induction queue generalizing best with
  | nil => exact h
  | cons m queue ih =>
    have first := low m List.mem_cons_self
    refine ih (fun m' hm => low m' (List.mem_cons_of_mem _ hm)) fun b hb => ?_
    cases best with
    | none =>
      cases hb
      exact first
    | some c =>
      rw [betterNotice] at hb
      split at hb
      · cases hb
        exact first
      · exact h b hb

theorem foldl_betterNotice_stays {queue : List Notice} (low : ∀ m ∈ queue, noticeClass m.kind ≤ noticeClass n.kind) :
    queue.foldl betterNotice (some n) = some n := by
  induction queue with
  | nil => rfl
  | cons m queue ih =>
    have stays : betterNotice (some n) m = some n := if_neg (Nat.not_lt.2 (low m List.mem_cons_self))
    rw [List.foldl_cons, stays]
    exact ih fun m' hm => low m' (List.mem_cons_of_mem _ hm)

/-- R185: the notice of the highest class and, within it, the one that entered first. -/
theorem bestNotice_first {queue before after : List Notice} (h : queue = before ++ n :: after)
    (lower : ∀ m ∈ before, noticeClass m.kind < noticeClass n.kind)
    (others : ∀ m ∈ after, noticeClass m.kind ≤ noticeClass n.kind) : bestNotice queue = some n := by
  rw [bestNotice_eq, h, List.foldl_append, List.foldl_cons,
    betterNotice_of_higher (foldl_betterNotice_lower lower (by simp)), foldl_betterNotice_stays others]

end

/-- Settles O23: the parts of the window at their offsets, and the choice of the notice. -/
theorem reportWindowMap : Obligations.ReportWindowMap := by
  unfold Obligations.ReportWindowMap
  intro s atPort
  have laid := reportBytes_laid s
  simp only [holdsAll_cons] at laid
  obtain ⟨table, summary, gap, -, gap', identification, gap'', view, -⟩ := laid atPort
  obtain ⟨-, -, -, port, -⟩ := laid true
  obtain ⟨-, -, -, noPort, -⟩ := laid false
  refine ⟨reportBytes_length s atPort, fun n => ?results, summary.slice (padTo_length ..),
    port.slice (noticeBytes_length _), noPort.slice (List.length_replicate ..), identification.slice (padTo_length ..),
    ?view, ?zeros, fun empty => by rw [empty]; rfl, fun before n after h => bestNotice_first h⟩
  case results =>
    have held := (table.inner (resultTable_holds s n)).slice (resultBytes_length _)
    rwa [Nat.zero_add] at held
  case view =>
    rw [← view.slice (viewBytes_length s), List.take_of_length_le]
    rw [List.length_drop, reportBytes_length]
  case zeros =>
    rintro a (⟨above, below⟩ | ⟨above, below⟩ | ⟨above, below⟩)
    · exact gap.zeros a above below
    · exact gap'.zeros a above below
    · exact gap''.zeros a above below

end Sys2Proof.Machine
end

section
/-! PROOF. The views (R183, section 12.4): the head of a view, and where the content of each of the nine that have one
holds its fields. -/

namespace Sys2Proof.Machine

open Sys2Proof

/-! ### A view and its content (R183) -/

/-- The sixteen bytes that every view but NONE begins with. -/
def viewHead (s : State) (v : ViewSelection) : List Byte :=
  padTo 16 (nat32 s.time.run ++ nat8 (viewCode v).1 ++ nat8 (viewCode v).2)

theorem viewHead_length (s : State) (v : ViewSelection) : (viewHead s v).length = 16 := padTo_length ..

theorem viewHead_laid (s : State) (v : ViewSelection) :
    HoldsAll (viewHead s v)
      [(0, nat32 s.time.run), (4, nat8 (viewCode v).1), (5, nat8 (viewCode v).2), (6, List.replicate 10 0)] :=
  holdsAll_of_laid rfl rfl

section
variable {s : State} {v : ViewSelection} (selected : s.report.view = v) (shown : v ≠ .none)
include selected shown

theorem viewBytes_eq : viewBytes s = padTo 1024 (viewHead s v ++ viewContent s v) := by
  subst selected
  rw [viewBytes]
  split
  · next none => exact absurd none shown
  · rfl

/-- R183: a view begins with run seconds, its kind's code and its number. -/
theorem viewBytes_head :
    HoldsAll (viewBytes s)
      [(0, nat32 s.time.run), (4, nat8 (viewCode v).1), (5, nat8 (viewCode v).2), (6, List.replicate 10 0)] := by
  rw [viewBytes_eq selected shown]
  have whole := ((holds_whole (viewHead s v)).append (viewContent s v)).padTo (n := 1024)
    (by rw [viewHead_length]; decide)
  exact whole.all (viewHead_laid s v)

/-- What the content of a view holds, the view holds sixteen bytes further on. -/
theorem viewBytes_holds {i : Nat} {field : List Byte} (held : Holds (viewContent s v) i field)
    (fits : i + field.length ≤ 1008) : Holds (viewBytes s) (16 + i) field := by
  have shifted := held.shift (viewHead s v)
  rw [viewHead_length] at shifted
  rw [viewBytes_eq selected shown]
  exact shifted.padTo (by omega)

theorem viewBytes_holdsAll {fields : List (Nat × List Byte)} (held : HoldsAll (viewContent s v) fields)
    (fits : ∀ f ∈ fields, f.1 + f.2.length ≤ 1008) :
    HoldsAll (viewBytes s) (fields.map (fun f => (16 + f.1, f.2))) := by
  intro f hf
  obtain ⟨g, hg, rfl⟩ := List.mem_map.1 hf
  exact viewBytes_holds selected shown (held g hg) (fits g hg)

/-- R188: a view is zero behind its content. -/
theorem viewBytes_zeroFrom {low : Nat} (len : 16 + (viewContent s v).length = low) :
    ZeroFrom (viewBytes s) low 1024 := by
  have zero := zeroFrom_padTo 1024 (viewHead s v ++ viewContent s v)
  rwa [List.length_append, viewHead_length, len, ← viewBytes_eq selected shown] at zero

end

theorem viewBytes_none {s : State} (h : s.report.view = .none) : viewBytes s = List.replicate 1024 0 := by
  rw [viewBytes, h, padTo_nil]

/-! ### PROFILE -/

theorem allowanceField_eq (a : Option Nat) : allowanceField a = nat16 (a.getD 0xFFFF) := by cases a <;> rfl

/-- A field of an image that lies before the check word lies in the body. -/
theorem profileBody_holds {p : Profile} {i : Nat} {field : List Byte} (h : Holds (profileImage 0 p) i field)
    (fits : i + field.length ≤ 60) : Holds (profileBody p) i field := by
  obtain ⟨-, part⟩ := h
  refine ⟨by rwa [profileBody_length], ?_⟩
  rwa [profileImage, List.drop_append_of_le_length (by rw [profileBody_length]; omega),
    List.take_append_of_le_length (by rw [List.length_drop, profileBody_length]; omega)] at part

section
variable {s : State} {n : Fin 8} (h : s.report.view = .profile n)
include h

/-- Section 12.4: the PROFILE view is the body of the profile's image. -/
theorem profileView_holds {i : Nat} {field : List Byte} (held : Holds (profileImage 0 (s.profile n)) i field)
    (fits : i + field.length ≤ 60) : Holds (viewBytes s) (16 + i) field :=
  viewBytes_holds h (by simp) (profileBody_holds held fits) (by omega)

theorem profileView_rate (g : Fin 4) : Holds (viewBytes s) (32 + g.val) (nat8 (s.profile n).rates[g]) := by
  have laid := profileImage_holds 0 (s.profile n)
  fin_cases g
  · exact profileView_holds h (laid (16, nat8 _) (by simp)) (by simp [nat8])
  · exact profileView_holds h (laid (17, nat8 (s.profile n).rates[1]) (by simp)) (by simp [nat8])
  · exact profileView_holds h (laid (18, nat8 (s.profile n).rates[2]) (by simp)) (by simp [nat8])
  · exact profileView_holds h (laid (19, nat8 (s.profile n).rates[3]) (by simp)) (by simp [nat8])

theorem profileView_curfew (c : Fin 3) :
    Holds (viewBytes s) (36 + 5 * c.val) (curfewField (s.profile n).curfews[c]) := by
  have laid := profileImage_holds 0 (s.profile n)
  fin_cases c
  · exact profileView_holds h (laid (20, curfewField (s.profile n).curfews[0]) (by simp))
      (by simp [curfewField_length])
  · exact profileView_holds h (laid (25, curfewField (s.profile n).curfews[1]) (by simp))
      (by simp [curfewField_length])
  · exact profileView_holds h (laid (30, curfewField (s.profile n).curfews[2]) (by simp))
      (by simp [curfewField_length])

theorem profileView_zero {a : Nat} (ha : a ∈ [25, 51, 62, 63] ∨ (68 ≤ a ∧ a < 1024)) : (viewBytes s)[a]? = some 0 := by
  have laid := profileImage_holds 0 (s.profile n)
  have gap9 : ZeroFrom (viewBytes s) 25 26 :=
    (profileView_holds h (laid (9, nat8 0) (by simp)) (by decide)).zeros (n := 1)
  have gap35 : ZeroFrom (viewBytes s) 51 52 :=
    (profileView_holds h (laid (35, nat8 0) (by simp)) (by decide)).zeros (n := 1)
  have gap46 : ZeroFrom (viewBytes s) 62 64 :=
    (profileView_holds h (laid (46, nat16 0) (by simp)) (by decide)).zeros (n := 2)
  have gap52 : ZeroFrom (viewBytes s) 68 76 :=
    (profileView_holds h (laid (52, List.replicate 8 0) (by simp)) (by decide)).zeros
  have behind : ZeroFrom (viewBytes s) 76 1024 :=
    viewBytes_zeroFrom h (by simp) (by rw [viewContent, profileBody_length])
  simp only [List.mem_cons, List.not_mem_nil, or_false] at ha
  obtain (rfl | rfl | rfl | rfl) | ⟨above, below⟩ := ha
  · exact gap9 25 (by decide) (by decide)
  · exact gap35 51 (by decide) (by decide)
  · exact gap46 62 (by decide) (by decide)
  · exact gap46 63 (by decide) (by decide)
  · by_cases low : a < 76
    · exact gap52 a above low
    · exact behind a (by omega) below

/-- Section 12.4: the settings and the account in the PROFILE view. -/
theorem profileView_laid {p : Profile} (hp : p = s.profile n) :
    HoldsAll (viewBytes s) [(16, [1]), (17, nat8 (profileStateCode p.state)), (18, nat8 (ceilingCode p.ceiling).1),
      (19, nat8 (ceilingCode p.ceiling).2), (20, [p.blockMask]), (21, nat8 (policyCode p.unrated)),
      (22, nat8 (policyCode p.scheme)), (23, nat8 (policyCode p.absent)), (24, nat8 p.pendingLimit),
      (26, nat16 (p.allowance.getD 0xFFFF)), (28, nat16 p.carryCap), (30, nat16 p.lead),
      (52, nat32 p.remaining), (56, nat32 p.charged), (60, nat16 p.granted),
      (64, nat32 (p.budgetDay.getD 0xFFFFFFFF))] := by
  subst hp
  have laid := profileImage_holds 0 (s.profile n)
  rw [allowanceField_eq, dayField4_eq] at laid
  refine viewBytes_holdsAll h (by simp) (fields := [(0, [1]), (1, nat8 _), (2, nat8 _), (3, nat8 _), (4, [_]),
    (5, nat8 _), (6, nat8 _), (7, nat8 _), (8, nat8 _), (10, nat16 _), (12, nat16 _), (14, nat16 _), (36, nat32 _),
    (40, nat32 _), (44, nat16 _), (48, nat32 _)]) (fun f hf => profileBody_holds (laid f ?_) ?_) ?_
  · revert f
    simp [show nat8 1 = [1] from rfl]
  · revert f
    simp [nat8_length, nat16_length, nat32_length]
  · simp [nat8_length, nat16_length, nat32_length]

end

/-! ### OUTPUT (R104) -/

theorem overrideBytes_length (e : Override) : (overrideBytes e).length = 20 := padTo_length ..

theorem idField_length (id : Option Half) : (idField id).length = 2 := by cases id <;> rfl

theorem overrideTagCode_eq (t : OverrideTag) : overrideTagCode t = if t = .live then 0 else 1 := by cases t <;> rfl

theorem overrideOriginCode_eq (o : OverrideOrigin) : overrideOriginCode o = if o = .session then 0 else 1 := by
  cases o <;> rfl

/-- Section 12.4: a stack entry. -/
theorem overrideBytes_laid (e : Override) :
    HoldsAll (overrideBytes e)
      [(0, nat8 (overrideKindCode e.kind)), (1, nat8 (overrideScopeCode e.scope)), (2, nat8 (overrideTagCode e.tag)),
        (3, nat8 (overrideOriginCode e.origin)), (4, padTo 6 ((e.subjectKey.map keyField).getD [])),
        (10, idField e.subjectEvent), (12, padTo 6 ((e.endTime.map localField).getD [])),
        (18, List.replicate 2 0)] := by
  refine holdsAll_of_laid ?_ ?_
  · rw [overrideBytes, padTo_eq_append 2 (by simp only [List.length_append, nat8_length, padTo_length, idField_length,
      Nat.reduceAdd])]
    simp only [List.map_cons, List.map_nil, List.flatten_cons, List.flatten_nil, List.append_assoc, List.append_nil]
  · simp only [laidFrom, List.map_cons, List.map_nil, nat8_length, padTo_length, idField_length, Nat.reduceAdd]

theorem overrideBytes_key {e : Override} {key : ServiceKey} (h : e.subjectKey = some key) :
    Holds (overrideBytes e) 4 (keyField key) := by
  have field := overrideBytes_laid e (4, padTo 6 ((e.subjectKey.map keyField).getD [])) (by simp)
  rwa [h, Option.map_some, Option.getD_some, padTo_full (keyField_length key)] at field

theorem overrideBytes_event {e : Override} {id : Half} (h : e.subjectEvent = some id) :
    Holds (overrideBytes e) 10 (bytes16 id) := by
  have field := overrideBytes_laid e (10, idField e.subjectEvent) (by simp)
  rwa [h] at field

theorem localField_eq {at_ : Nat} (h : at_ / 86400 ≤ 65535) :
    localField at_ = nat16 (at_ / 86400) ++ nat32 (at_ % 86400) := by
  rw [localField, dayField2, if_pos h]

/-- Section 12.4: an end whose local day the field can state. -/
theorem overrideBytes_end {e : Override} {at_ : Nat} (h : e.endTime = some at_) (day : at_ / 86400 ≤ 65535) :
    HoldsAll (overrideBytes e) [(12, nat16 (at_ / 86400)), (14, nat32 (at_ % 86400))] := by
  have field := overrideBytes_laid e (12, padTo 6 ((e.endTime.map localField).getD [])) (by simp)
  have len : (nat16 (at_ / 86400) ++ nat32 (at_ % 86400)).length = 6 := rfl
  rw [h, Option.map_some, Option.getD_some, localField_eq day, padTo_full len] at field
  exact field.all (holdsAll_of_laid (fields := [(0, nat16 _), (2, nat32 _)]) rfl rfl)

/-- R104: an output's context, with its stack from byte 16 on, the bottom entry first. -/
theorem outputView_laid (c : OutputContext) :
    HoldsAll (outputView c)
      [(0, [slotByte c.profile]), (1, [slotByte c.service]), (2, nat8 (verdictCode c.verdict)),
        (3, nat8 (reasonCode c.reason)), (4, nat32 c.pendingSince), (8, nat8 c.stack.length), (9, List.replicate 7 0),
        (16, (c.stack.reverse.map overrideBytes).flatten)] := by
  refine holdsAll_of_laid ?_ rfl
  rw [outputView, padTo_eq_append 7 (by rw [nat8_length])]
  simp only [List.map_cons, List.map_nil, List.flatten_cons, List.flatten_nil, List.append_assoc, List.append_nil]

section
variable {s : State} {o : Output} (h : s.report.view = .output o)
include h

theorem outputView_fields :
    HoldsAll (viewBytes s)
      [(16, [slotByte (s.context o).profile]), (17, [slotByte (s.context o).service]),
        (18, nat8 (verdictCode (s.context o).verdict)), (19, nat8 (reasonCode (s.context o).reason)),
        (20, nat32 (s.context o).pendingSince), (24, nat8 (s.context o).stack.length)] :=
  viewBytes_holdsAll h (by simp)
    (fields := [(0, [_]), (1, [_]), (2, nat8 _), (3, nat8 _), (4, nat32 _), (8, nat8 _)])
    ((outputView_laid (s.context o)).subset (by simp)) (by simp [nat8_length, nat32_length])

/-- R104: entry k of the stack, counted from the bottom. -/
theorem outputView_entry {k : Nat} {e : Override} (small : (s.context o).stack.length ≤ 4)
    (he : (s.context o).stack.reverse[k]? = some e) : Holds (viewBytes s) (32 + 20 * k) (overrideBytes e) := by
  obtain ⟨low, -⟩ := List.getElem?_eq_some_iff.1 he
  rw [List.length_reverse] at low
  have stack := outputView_laid (s.context o) (16, ((s.context o).stack.reverse.map overrideBytes).flatten) (by simp)
  have held := stack.inner (holds_flatten_map overrideBytes_length he)
  have placed := viewBytes_holds h (by simp) held (by rw [overrideBytes_length]; omega)
  rwa [← Nat.add_assoc] at placed

end

/-! ### RATING_SLOT and RATING_KEY (R138) -/

theorem eventBytes_length (e : Option Event) : (eventBytes e).length = 32 := by cases e <;> exact padTo_length _ _

/-- Section 12.4, log 40: an event that an entry holds. -/
theorem eventBytes_laid (e : Event) :
    HoldsAll (eventBytes (some e))
      [(0, [1]), (1, bytes16 e.id), (3, nat16 e.startDay), (5, nat32 e.startSecond), (9, nat32 e.duration),
        (13, nat8 (classCode e.rating.cls).1), (14, nat8 (classCode e.rating.cls).2), (15, [e.rating.flags]),
        (16, nat8 e.rating.genre.val), (17, List.replicate 15 0)] := holdsAll_of_laid rfl rfl

theorem entrySourceCode_eq (k : EntrySource) : entrySourceCode k = if k = .broadcast then 0 else 1 := by cases k <;> rfl

/-- The fields of an entry before its events, in thirty-two bytes. -/
def entryHead (n : Fin 64) (e : Entry) : List Byte :=
  padTo 32 (nat8 n.val ++ nat8 (entrySourceCode e.source) ++ nat8 (e.version.getD 0xFF) ++ nat8 (presentCode e.present)
    ++ keyField e.key ++ bytes16 (e.lastId.getD 0xFFFF) ++ nat8 e.bindCount ++ nat32 e.lastTouch)

theorem entryHead_laid (n : Fin 64) (e : Entry) :
    HoldsAll (entryHead n e)
      [(0, nat8 n.val), (1, nat8 (entrySourceCode e.source)), (2, nat8 (e.version.getD 0xFF)),
        (3, nat8 (presentCode e.present)), (4, keyField e.key), (10, bytes16 (e.lastId.getD 0xFFFF)),
        (12, nat8 e.bindCount), (13, nat32 e.lastTouch), (17, List.replicate 15 0)] := holdsAll_of_laid rfl rfl

theorem ratingView_eq (n : Fin 64) (e : Entry) :
    ratingView (some (n, e)) = entryHead n e ++ eventBytes e.present.event? ++ eventBytes e.following := by
  rw [ratingView, entryHead]
  cases e.version <;> cases e.lastId <;> rfl

theorem ratingView_laid (n : Fin 64) (e : Entry) :
    HoldsAll (ratingView (some (n, e)))
      [(0, entryHead n e), (32, eventBytes e.present.event?), (64, eventBytes e.following)] := by
  refine holdsAll_of_laid ?_ ?_
  · simp [ratingView_eq]
  · simp [laidFrom, entryHead, padTo_length, eventBytes_length]

theorem findKey_eq_some {s : State} {n : Fin 64} {f : Entry} {k : ServiceKey} (held : s.entry n = some f)
    (key : f.key = k) (only : ∀ m g, s.entry m = some g → g.key = k → m = n) : findKey s k = some n := by
  cases found : findKey s k with
  | none => exact absurd key (findKey_none found held)
  | some m =>
    obtain ⟨g, hg, hk⟩ := findKey_holds found
    rw [only m g hg hk]

theorem findKey_eq_none {s : State} {k : ServiceKey} (h : ∀ m g, s.entry m = some g → g.key ≠ k) :
    findKey s k = none := by
  cases found : findKey s k with
  | none => rfl
  | some m =>
    obtain ⟨g, hg, hk⟩ := findKey_holds found
    exact absurd hk (h m g hg)

/-- R183: the view shows the entry of a rating slot, selected by the slot or by its key. -/
def ShowsSlot (s : State) (n : Fin 64) : Prop :=
  s.report.view = .ratingSlot n
    ∨ ∃ k f, s.report.view = .ratingKey k ∧ s.entry n = some f ∧ f.key = k
      ∧ ∀ m g, s.entry m = some g → g.key = k → m = n

section
variable {s : State} {n : Fin 64} (h : ShowsSlot s n)
include h

theorem ShowsSlot.content :
    s.report.view ≠ .none ∧ viewContent s s.report.view = ratingView (heldEntry s n) := by
  obtain slot | ⟨k, f, key, held, hk, only⟩ := h
  · rw [slot]
    exact ⟨by simp, rfl⟩
  · rw [key, viewContent, findKey_eq_some held hk only]
    exact ⟨by simp, rfl⟩

theorem ShowsSlot.free (free : s.entry n = none) : Holds (viewBytes s) 16 [0xFF] := by
  obtain ⟨shown, content⟩ := h.content
  refine viewBytes_holds rfl shown (i := 0) ?_ (by decide)
  rw [content, heldEntry, free]
  exact holds_whole _

theorem ShowsSlot.parts {e : Entry} (held : s.entry n = some e) :
    HoldsAll (viewBytes s)
      [(16, entryHead n e), (48, eventBytes e.present.event?), (80, eventBytes e.following)] := by
  obtain ⟨shown, content⟩ := h.content
  refine viewBytes_holdsAll rfl shown (fields := [(0, entryHead n e), (32, eventBytes _), (64, eventBytes _)]) ?_
    (by simp [entryHead, padTo_length, eventBytes_length])
  rw [content, heldEntry, held]
  exact ratingView_laid n e

theorem ShowsSlot.entry {e : Entry} (held : s.entry n = some e) :
    HoldsAll (viewBytes s) [(16, nat8 n.val), (17, nat8 (entrySourceCode e.source)), (18, nat8 (e.version.getD 0xFF)),
      (19, nat8 (presentCode e.present)), (20, keyField e.key), (26, bytes16 (e.lastId.getD 0xFFFF)),
      (28, nat8 e.bindCount), (29, nat32 e.lastTouch)] :=
  ((h.parts held (16, entryHead n e) (by simp)).all (entryHead_laid n e)).subset (by simp)

theorem ShowsSlot.event {e : Entry} (held : s.entry n = some e) {v : Event} {offset : Nat}
    (place : ((e.present = .current v ∨ e.present = .ended v) ∧ offset = 48) ∨ (e.following = some v ∧ offset = 80)) :
    HoldsAll (viewBytes s)
      [(offset, [1]), (offset + 1, bytes16 v.id), (offset + 3, nat16 v.startDay), (offset + 5, nat32 v.startSecond),
        (offset + 9, nat32 v.duration), (offset + 13, nat8 (classCode v.rating.cls).1),
        (offset + 14, nat8 (classCode v.rating.cls).2), (offset + 15, [v.rating.flags]),
        (offset + 16, nat8 v.rating.genre.val)] := by
  have shown : Holds (viewBytes s) offset (eventBytes (some v)) := by
    obtain ⟨present, rfl⟩ | ⟨following, rfl⟩ := place
    · have event : e.present.event? = some v := by obtain p | p := present <;> rw [p] <;> rfl
      rw [← event]
      exact h.parts held (48, eventBytes e.present.event?) (by simp)
    · rw [← following]
      exact h.parts held (80, eventBytes e.following) (by simp)
  exact (shown.all (eventBytes_laid v)).subset (by simp)

end

theorem ratingKeyView_missing {s : State} {k : ServiceKey} (h : s.report.view = .ratingKey k)
    (missing : ∀ m g, s.entry m = some g → g.key ≠ k) : Holds (viewBytes s) 16 [0xFF] := by
  refine viewBytes_holds h (by simp) (i := 0) ?_ (by decide)
  rw [viewContent, findKey_eq_none missing]
  exact holds_whole _

/-! ### WINDOWS (logs 22 and 40) -/

theorem windowBytes_length (w : Window) : (windowBytes w).length = 16 := padTo_length ..

theorem windowBytes_laid (w : Window) :
    HoldsAll (windowBytes w) [(0, [flagByte w.set]), (1, nat32 w.base), (5, nat32 w.size), (9, bytes32 w.fill),
      (13, List.replicate 3 0)] := holdsAll_of_laid rfl rfl

section
variable {s : State} (h : s.report.view = .windows)
include h

theorem windowsView_window (o : Output) (k : WindowKind) :
    Holds (viewBytes s) (16 + (32 * outputCode o + 16 * windowKindCode k)) (windowBytes (s.window o k)) := by
  have place : allWindows[2 * outputCode o + windowKindCode k]? = some (o, k) := by cases o <;> cases k <;> rfl
  have held := (holds_flatten_map (f := fun w : Output × WindowKind => windowBytes (s.window w.1 w.2))
    (fun _ => windowBytes_length _) place).append (nat8 (layoutStateCode s.lanes.layout))
  have low : outputCode o ≤ 2 ∧ windowKindCode k ≤ 1 := by cases o <;> cases k <;> decide
  have index : 32 * outputCode o + 16 * windowKindCode k = 16 * (2 * outputCode o + windowKindCode k) := by omega
  rw [index]
  exact viewBytes_holds h (by simp) held (by rw [windowBytes_length]; omega)

theorem windowsView_layout : Holds (viewBytes s) 112 (nat8 (layoutStateCode s.lanes.layout)) := by
  have held := (holds_whole (nat8 (layoutStateCode s.lanes.layout))).shift
    (allWindows.map (fun n => windowBytes (s.window n.1 n.2))).flatten
  rw [flatten_map_length (f := fun n : Output × WindowKind => windowBytes (s.window n.1 n.2))
    (fun _ => windowBytes_length _)] at held
  exact viewBytes_holds h (by simp) held (by rw [nat8_length]; decide)

end

/-! ### INTAKE (log 23) -/

theorem sectionBytes_length (w : SectionWindow) : (sectionBytes w).length = 16 := padTo_length ..

theorem assemblyBytes_length (c : IntakeContext) : (assemblyBytes c).length = 6 := by cases c <;> rfl

/-- A section window, and the start of the record that it assembles. -/
theorem sectionBytes_laid (w : SectionWindow) :
    HoldsAll (sectionBytes w)
      [(0, [flagByte w.set]), (1, nat8 (contextCode w.context)), (2, nat32 w.base), (6, nat32 w.size),
        (10, nat32 ((w.context.assembly?.map (·.start)).getD 0)), (14, List.replicate 2 0)] := by
  refine holdsAll_of_laid ?_ rfl
  rw [sectionBytes]
  cases w.context.assembly? <;> rfl

section
variable {s : State} (h : s.report.view = .intake)
include h

theorem intakeView_laid :
    HoldsAll (viewBytes s)
      [(16, (s.intake.windows.toList.map sectionBytes).flatten),
        (80, (s.intake.windows.toList.map (fun w => assemblyBytes w.context)).flatten),
        (104, nat8 s.intake.queue.length), (105, nat16 (poolUsed s.intake.queue)),
        (107, nat8 (flowStateCode s.intake.flow)), (108, nat8 s.intake.haltLevel), (109, nat8 s.intake.resumeLevel),
        (110, [flagByte s.intake.parsing])] := by
  have windows : (s.intake.windows.toList.map sectionBytes).flatten.length = 64 := by
    rw [flatten_map_length sectionBytes_length, Vector.length_toList]
  have assemblies : (s.intake.windows.toList.map (fun w => assemblyBytes w.context)).flatten.length = 24 := by
    rw [flatten_map_length (f := fun w : SectionWindow => assemblyBytes w.context) (fun _ => assemblyBytes_length _),
      Vector.length_toList]
  refine viewBytes_holdsAll h (by simp)
    (fields := [(0, _), (64, _), (88, nat8 _), (89, nat16 _), (91, nat8 _), (92, nat8 _), (93, nat8 _), (94, [_])])
    ?_ ?_
  · refine holdsAll_of_laid ?_ ?_
    · simp only [viewContent, intakeView, List.map_cons, List.map_nil, List.flatten_cons, List.flatten_nil,
        List.append_assoc, List.append_nil]
    · simp only [laidFrom, List.map_cons, List.map_nil, windows, assemblies, nat8_length, nat16_length, Nat.reduceAdd]
  · simp [windows, assemblies, nat8, nat16_length]

theorem intakeView_window (w : Fin 4) : Holds (viewBytes s) (16 + 16 * w.val) (sectionBytes (s.sectionWindow w)) := by
  have table := intakeView_laid h (16, (s.intake.windows.toList.map sectionBytes).flatten) (by simp)
  exact table.inner (holds_flatten_map sectionBytes_length (by simp [State.sectionWindow]))

theorem intakeView_assembly {w : Fin 4} {a : Assembly} (ha : (s.sectionWindow w).context = .assembling a) :
    HoldsAll (viewBytes s) [(26 + 16 * w.val, nat32 a.start), (80 + 6 * w.val, nat32 a.expected),
      (84 + 6 * w.val, nat16 a.bytes.length)] := by
  have window := (intakeView_window h w).all (sectionBytes_laid _)
  have start := window (16 + 16 * w.val + 10, nat32 a.start) (by simp [ha, IntakeContext.assembly?])
  have table := intakeView_laid h (80, (s.intake.windows.toList.map (fun w => assemblyBytes w.context)).flatten)
    (by simp)
  have place := table.inner (holds_flatten_map (f := fun w : SectionWindow => assemblyBytes w.context)
    (fun _ => assemblyBytes_length _) (k := w.val) (x := s.sectionWindow w) (by simp [State.sectionWindow]))
  have fields : HoldsAll (assemblyBytes (s.sectionWindow w).context)
      [(0, nat32 a.expected), (4, nat16 a.bytes.length)] := by
    rw [ha]
    exact holdsAll_of_laid rfl rfl
  have assembled := place.all fields
  have offset (x y : Nat) : x + 16 * w.val + y = x + y + 16 * w.val := Nat.add_right_comm ..
  have offset' (x y : Nat) : x + 6 * w.val + y = x + y + 6 * w.val := Nat.add_right_comm ..
  rw [offset] at start
  simp only [List.map_cons, List.map_nil, offset', Nat.reduceAdd] at assembled
  exact holdsAll_cons.2 ⟨start, assembled⟩

end

/-! ### PANEL (R164, log 24) -/

/-- R164, log 24: the byte of the message outstanding is 0 where there is none. -/
theorem panelView_eq (p : PanelLink) :
    panelView p = nat8 (listenerStateCode p.listener) ++ [p.listenerAddress] ++ [p.panelAddress] ++ nat8 p.fifo.length
      ++ nat8 (transmitterStateCode p.transmitter) ++ [(p.outstanding.map messageCommand).getD 0]
      ++ nat8 (lampRecordCode p.lampRecord) ++ nat8 p.queue.length
      ++ (p.queue.map (fun m => [messageCommand m, messageOperand m])).flatten := by
  rw [panelView]
  cases p.outstanding <;> rfl

theorem panelView_laid (p : PanelLink) :
    HoldsAll (panelView p)
      [(0, nat8 (listenerStateCode p.listener)), (1, [p.listenerAddress]), (2, [p.panelAddress]),
        (3, nat8 p.fifo.length), (4, nat8 (transmitterStateCode p.transmitter)),
        (5, [(p.outstanding.map messageCommand).getD 0]), (6, nat8 (lampRecordCode p.lampRecord)),
        (7, nat8 p.queue.length), (8, (p.queue.map (fun m => [messageCommand m, messageOperand m])).flatten)] := by
  refine holdsAll_of_laid ?_ rfl
  rw [panelView_eq]
  simp only [List.map_cons, List.map_nil, List.flatten_cons, List.flatten_nil, List.append_assoc, List.append_nil]

section
variable {s : State} (h : s.report.view = .panel)
include h

theorem panelView_fields :
    HoldsAll (viewBytes s)
      [(16, nat8 (listenerStateCode s.panel.listener)), (17, [s.panel.listenerAddress]), (18, [s.panel.panelAddress]),
        (19, nat8 s.panel.fifo.length), (20, nat8 (transmitterStateCode s.panel.transmitter)),
        (21, [(s.panel.outstanding.map messageCommand).getD 0]), (22, nat8 (lampRecordCode s.panel.lampRecord)),
        (23, nat8 s.panel.queue.length)] :=
  viewBytes_holdsAll h (by simp) (fields := [(0, nat8 _), (1, [_]), (2, [_]), (3, nat8 _), (4, nat8 _), (5, [_]),
    (6, nat8 _), (7, nat8 _)]) ((panelView_laid s.panel).subset (by simp)) (by simp [nat8_length])

/-- R164: the messages queued, two bytes each. -/
theorem panelView_message {k : Nat} {m : Message} (low : k < 4) (hm : s.panel.queue[k]? = some m) :
    Holds (viewBytes s) (24 + 2 * k) [messageCommand m, messageOperand m] := by
  have queue := panelView_laid s.panel
    (8, (s.panel.queue.map (fun m => [messageCommand m, messageOperand m])).flatten) (by simp)
  have held := queue.inner (holds_flatten_map (f := fun m => [messageCommand m, messageOperand m]) (n := 2)
    (fun _ => rfl) hm)
  have placed := viewBytes_holds h (by simp) held (by simp only [List.length_cons, List.length_nil]; omega)
  rwa [← Nat.add_assoc] at placed

end

/-! ### SCHEME and IMAGE (R136) -/

/-- R136: a value of a scheme map is a byte, 0xFF for UNMAPPED. -/
theorem schemeBytes_eq (m : Vector (Option Nat) 16) :
    schemeBytes m = (m.toList.map (fun a => nat8 (a.getD 0xFF))).flatten :=
  congrArg List.flatten (List.map_congr_left fun a _ => by cases a <;> rfl)

theorem schemeBytes_holds (m : Vector (Option Nat) 16) (v : Fin 16) :
    Holds (schemeBytes m) v.val (nat8 (m[v].getD 0xFF)) := by
  have held := holds_flatten_map (f := fun a : Option Nat => nat8 (a.getD 0xFF)) (n := 1) (fun _ => rfl)
    (l := m.toList) (k := v.val) (x := m[v]) (by simp)
  rwa [Nat.one_mul, ← schemeBytes_eq] at held

section
variable {s : State} {m : Fin 9} (h : s.report.view = .scheme m)
include h

theorem schemeView_fixed (zero : m.val = 0) : Holds (viewBytes s) 16 (0xFE :: List.replicate 15 0xFD) := by
  refine viewBytes_holds h (by simp) (i := 0) ?_ (by decide)
  rw [viewContent, schemeView, dif_neg (by omega)]
  exact holds_whole _

theorem schemeView_value {i : Fin 8} (v : Fin 16) (hm : m.val = i.val + 1) :
    Holds (viewBytes s) (16 + v.val) (nat8 (s.rating.schemes[i][v].getD 0xFF)) := by
  refine viewBytes_holds h (by simp) ?_ (by rw [nat8_length]; omega)
  rw [viewContent, schemeView, dif_pos (by omega)]
  simp only [hm, Nat.add_sub_cancel]
  exact schemeBytes_holds _ v

end

section
variable {s : State} (h : s.report.view = .image)
include h

theorem imageView_nothing (empty : s.image.buffer = none) : Holds (viewBytes s) 16 [0] := by
  refine viewBytes_holds h (by simp) (i := 0) ?_ (by decide)
  rw [viewContent, empty]
  exact holds_between [] [0] (List.replicate 15 0)

theorem imageView_image {image : List Byte} (held : s.image.buffer = some image) (len : image.length = 64) :
    HoldsAll (viewBytes s) [(16, [1]), (32, image)] := by
  refine viewBytes_holdsAll h (by simp) (fields := [(0, [1]), (16, image)]) ?_ (by simp [len])
  have laid : HoldsAll (imageView (some image)) [(0, [1]), (1, List.replicate 15 0), (16, image)] :=
    holdsAll_of_laid (by simp [imageView, padTo_eq_append 15 (n := 16), nat8]) rfl
  rw [viewContent, held]
  exact laid.subset (by simp)

end

/-- Settles O25: the head of a view, and the fields of each of the ten. -/
theorem viewsAreLaidOut : Obligations.ViewsAreLaidOut := by
  unfold Obligations.ViewsAreLaidOut
  rintro s _ rfl
  refine ⟨viewBytes_length s, viewBytes_none, fun shown => ?head, fun n p h hp => ?profile,
    fun o c h hc small => ?output, fun n h => ?rating, fun k => ratingKeyView_missing, fun h => ?windows, fun h => ?intake, fun h => ?panel,
    fun m h => ⟨schemeView_fixed h, fun i v => schemeView_value h v⟩,
    fun h => ⟨imageView_nothing h, fun image => imageView_image h⟩⟩
  case head =>
    have laid := viewBytes_head rfl shown
    exact ⟨laid.subset (by simp), (laid (6, List.replicate 10 0) (by simp)).zeros⟩
  case profile =>
    subst hp
    refine ⟨profileView_laid h rfl, profileView_rate h, fun c => ⟨fun empty => ?_, fun w held => ?_⟩,
      fun a => profileView_zero h⟩
    · have field := profileView_curfew h c
      rwa [empty] at field
    · have field := profileView_curfew h c
      rwa [held] at field
  case output =>
    subst hc
    refine ⟨outputView_fields h, fun k e he => ?_⟩
    have entry := outputView_entry h small he
    have offset (x y : Nat) : x + 20 * k + y = x + y + 20 * k := Nat.add_right_comm ..
    have laid := entry.all (overrideBytes_laid e)
    simp only [List.map_cons, List.map_nil, offset, Nat.reduceAdd, overrideTagCode_eq, overrideOriginCode_eq] at laid
    refine ⟨laid.subset (by simp), fun key hk => ?_, fun id hid => ?_, fun at_ ha day => ?_⟩
    · have field := entry.inner (overrideBytes_key hk)
      rwa [offset] at field
    · have field := entry.inner (overrideBytes_event hid)
      rwa [offset] at field
    · have field := entry.all (overrideBytes_end ha day)
      simpa only [List.map_cons, List.map_nil, offset, Nat.reduceAdd] using field
  case rating =>
    have shows : ShowsSlot s n := h
    refine ⟨shows.free, fun e held => ⟨?_, fun v offset => shows.event held⟩⟩
    have laid := shows.entry held
    rw [entrySourceCode_eq] at laid
    exact laid.subset (by simp <;> rfl)
  case windows =>
    refine ⟨fun o k offset place => ?_, windowsView_layout h⟩
    have window := windowsView_window h o k
    rw [← Nat.add_assoc, ← place] at window
    exact (window.all (windowBytes_laid _)).subset (by simp [flagByte])
  case intake =>
    refine ⟨fun w => ⟨?_, fun a => intakeView_assembly h⟩, (intakeView_laid h).subset (by simp [flagByte])⟩
    have laid := (intakeView_window h w).all (sectionBytes_laid _)
    have offset (x y : Nat) : x + 16 * w.val + y = x + y + 16 * w.val := Nat.add_right_comm ..
    simp only [List.map_cons, List.map_nil, offset, Nat.reduceAdd] at laid
    exact laid.subset (by simp [flagByte] <;> rfl)
  case panel =>
    refine ⟨?_, fun k m low => panelView_message h low⟩
    exact (panelView_fields h).subset (by cases s.panel.outstanding <;> simp)

end Sys2Proof.Machine
end

section
/-! PROOF. What a step is (95_what_each_step_holds.md): one equation for each form of the queue of commands. -/

namespace Sys2Proof.Machine

open Sys2Proof

theorem step_of_front {s : State} {c : Instr} {rest : List Instr} (front : s.pending = c :: rest) :
    step s = exec c { s with pending := rest } := by
  simp only [step, front]

/-- Log 2: the spec names no step without a command, and the model's gate idles. -/
theorem step_of_empty {s : State} (empty : s.pending = []) : step s = .next s := by
  simp only [step, empty]

/-- Settles O1: the queue has a front or is empty, and each form has its equation. -/
theorem stepTakesTheFrontCommand : Obligations.StepTakesTheFrontCommand :=
  fun _ => ⟨fun _ _ front => step_of_front front, step_of_empty⟩

end Sys2Proof.Machine
end
